-- ==== Sys2Proof/Word.lean ====
section
/-!
DEFINITION. The words and the small data types that commands carry: bytes of a telegram, a telegram's
header, a byte as it stands on a line, the two ports and the two sides of an oven.
-/
namespace Sys2Proof

/-- One byte of a telegram (Table 7-1). -/
abbrev Byte := BitVec 8

/-- The two telegram ports (00_scope.md 1.3). -/
inductive Port where
  | control
  | field
  deriving DecidableEq, Repr

/-- The two sides of an oven that carry a door (00_scope.md 4.2): pusher side and coke side.
The door machine of `ps` is the PM, that of `cs` is the CGM (Table 2-1). -/
inductive DoorSide where
  | ps
  | cs
  deriving DecidableEq, Repr

/-- The three header bytes of a telegram that its kind and body do not fix (Table 7-1, R134):
destination, source, and whether 128 was added to the kind byte. -/
structure Header where
  dest : Byte
  source : Byte
  marked : Bool
  deriving DecidableEq, Repr

/-- One telegram (Table 7-1) without its preamble and its check. The kind byte is held as it stands on
the line, with its 128 if it carries one (R134). The length byte is the length of the body. The CRC is
computed from these bytes (R133): every telegram that the part holds has passed or been given its CRC. -/
structure Telegram where
  dest : Byte
  source : Byte
  kindByte : Byte
  body : List Byte
  deriving DecidableEq, Repr

/-- One byte as a receiver takes it from the line (R131, R132): its value, whether its parity was even as
it should be, and the gap before it in bit times (11 bit times are one byte time, section 7.2.1). -/
structure LineByte where
  value : Byte
  parityOk : Bool
  gapBits : Nat
  deriving DecidableEq, Repr

end Sys2Proof
end

