-- ==== Sys2Proof/Syntax.lean ====
section
/-!
DEFINITION. The commands of the block: one constructor for each row of spec/opcode_table.json, in its order,
with the row's operands. A telegram command stands for the arrival of the whole telegram that its
operands spell (log 9). The operands of a management request are the arguments of its MGMT body
(Table 10-1, R140); its destination is the part's own address and its source is not examined (R174).
-/
namespace Sys2Proof

inductive Instr where
  /-- POWER_ON_RESET (R184): the address straps as read. -/
  | powerOnReset (straps : BitVec 4)
  /-- CLOCK_ADVANCE (R4). -/
  | clockAdvance
  /-- READY_INSTANT_REACHED (R8). -/
  | readyInstantReached (oven : Nat)
  /-- CHARGE_HOLD_END_REACHED (R18). -/
  | chargeHoldEndReached (oven : Nat)
  /-- LATE_INSTANT_REACHED (R18). -/
  | lateInstantReached (oven : Nat)
  /-- HOLD_DEADLINE_REACHED (R40): the first due entry in grant order (R41). -/
  | holdDeadlineReached
  /-- STEP_DEADLINE_REACHED (R62). -/
  | stepDeadlineReached
  /-- LEAD_INSTANT_REACHED (R53). -/
  | leadInstantReached
  /-- MAXIMUM_LATENESS_TEST (R55). -/
  | maximumLatenessTest
  /-- DRAIN_DEADLINE_REACHED (R90), of car 1 or 2. -/
  | drainDeadlineReached (car : Nat)
  /-- HOT_LIMIT_REACHED (R90), of car 1 or 2. -/
  | hotLimitReached (car : Nat)
  /-- SEAL_DEADLINE_REACHED (R105). -/
  | sealDeadlineReached (oven : Nat) (side : DoorSide)
  /-- TASK_DEADLINE_REACHED (R112), of the door machine of a side. -/
  | taskDeadlineReached (side : DoorSide)
  /-- CP_SILENCE (R71). -/
  | cpSilence
  /-- ROUND_TIMER_EXPIRY (R166). -/
  | roundTimerExpiry
  /-- POLL_FORMED (R165). -/
  | pollFormed
  /-- POLL_SENT (R144). -/
  | pollSent
  /-- RESPONSE_WINDOW_EXPIRY (R144). -/
  | responseWindowExpiry
  /-- GAP_WINDOW_EXPIRY (R132). -/
  | gapWindowExpiry (port : Port)
  /-- FRAMING_DISCARD (R131): the bytes received after the preamble, up to the one at which a framing
  test fails. -/
  | framingDiscard (port : Port) (line : List LineByte)
  /-- CONTROL_TRANSMIT_DONE (R141). -/
  | controlTransmitDone
  /-- FOREIGN_REPLY (R167). -/
  | foreignReply (t : Telegram)
  /-- POSITION (R137, R151). -/
  | position (h : Header) (pos : BitVec 24) (moving status : Byte)
  /-- REQUEST (R137, R32). -/
  | request (h : Header) (kind oven side : Byte)
  /-- DONE (R137, R36). -/
  | done (h : Header) (kind oven side result : Byte) (measurement : BitVec 16)
  /-- SEAL (R137, R102). -/
  | sealReport (h : Header) (oven side leak : Byte)
  /-- SAMPLE (R138, R114). -/
  | sample (h : Header) (firstOven validity : Byte) (pressures : Vector (BitVec 16) 8) (feedbacks : Vector Byte 8)
  /-- READY (R137, R170). -/
  | ready (h : Header) (selfCheck claimed : Byte)
  /-- FIELD_OTHER_KIND (R152). -/
  | fieldOtherKind (t : Telegram)
  /-- CONTROL_MOVE (R136, R45). -/
  | controlMove (h : Header) (target : BitVec 24) (speed oven : Byte)
  /-- CONTROL_HALT (R136, R44). -/
  | controlHalt (h : Header) (reason : Byte)
  /-- CONTROL_TASK (R136, R45). -/
  | controlTask (h : Header) (task oven side : Byte)
  /-- BROADCAST_HALT (R158): destination 255. -/
  | broadcastHalt (source : Byte) (marked : Bool) (reason : Byte)
  /-- BROADCAST_OTHER_KIND (R155). -/
  | broadcastOtherKind (t : Telegram)
  /-- UNKNOWN_STATION_TELEGRAM (R155). -/
  | unknownStationTelegram (t : Telegram)
  /-- CONTROL_OTHER_KIND (R157). -/
  | controlOtherKind (t : Telegram)
  /-- OWN_ADDRESS_NON_MGMT (R153). -/
  | ownAddressNonMgmt (t : Telegram)
  /-- MGMT_UNKNOWN_REQUEST (R174): the whole MGMT body, request code and argument bytes (log 20). -/
  | mgmtUnknownRequest (body : List Byte)
  /-- LOAD of the dispatch table (R150). The entry bytes of every LOAD follow R140 and Table 10-5. -/
  | loadDispatchTable (first count : Byte) (entries : List Byte)
  /-- LOAD of the selector parameters (R149). -/
  | loadSelectorParameters (first count : Byte) (entries : List Byte)
  /-- LOAD of the field line settings (R161). -/
  | loadFieldLineSettings (first count : Byte) (entries : List Byte)
  /-- LOAD of the poll list (R160). -/
  | loadPollList (first count : Byte) (entries : List Byte)
  /-- LOAD of the oven configuration (R1). -/
  | loadOvenConfiguration (first count : Byte) (entries : List Byte)
  /-- LOAD of OVENSTATE (R15). -/
  | loadOvenstate (first count : Byte) (entries : List Byte)
  /-- LOAD of the permit table (R30). -/
  | loadPermitTable (first count : Byte) (entries : List Byte)
  /-- LOAD of the segment table (R73). -/
  | loadSegmentTable (first count : Byte) (entries : List Byte)
  /-- LOAD of the car configuration (R74). -/
  | loadCarConfiguration (first count : Byte) (entries : List Byte)
  /-- LOAD of the timing table (R3). -/
  | loadTimingTable (first count : Byte) (entries : List Byte)
  /-- LOAD of the series table (R46). -/
  | loadSeriesTable (first count : Byte) (entries : List Byte)
  /-- LOAD of the step timing table (R47). -/
  | loadStepTimingTable (first count : Byte) (entries : List Byte)
  /-- LOAD of the track timing table (R75). -/
  | loadTrackTimingTable (first count : Byte) (entries : List Byte)
  /-- LOAD of the seal configuration (R101). -/
  | loadSealConfiguration (first count : Byte) (entries : List Byte)
  /-- LOAD of the pressure mode table (R118). -/
  | loadPressureModeTable (first count : Byte) (entries : List Byte)
  /-- LOAD of the regulator configuration (R122). -/
  | loadRegulatorConfiguration (first count : Byte) (entries : List Byte)
  /-- LOAD of the event enable mask (R180). -/
  | loadEventEnableMask (first count : Byte) (entries : List Byte)
  /-- READ (R179). -/
  | read (table first count : Byte)
  /-- STATUS (R181). -/
  | status
  /-- ENTER SERVICE (R176). -/
  | enterService
  /-- ENTER MAINTENANCE (R177). -/
  | enterMaintenance
  /-- RESTART (R182). -/
  | restart
  /-- FIELD RESTART (R183). -/
  | fieldRestart
  /-- SET TIME (R5): the signed wall time. -/
  | setTime (wall : BitVec 32)
  /-- RUN (R50). -/
  | run (start count : Byte)
  /-- HOLD (R66). -/
  | hold
  /-- RESUME (R67). -/
  | resume
  /-- ABORT (R68). -/
  | abort
  /-- SENSE (R69). -/
  | sense
  /-- VERIFY (R70). -/
  | verify (start count : Byte)
  /-- SET BLOCK (R48). -/
  | setBlock (size : Byte)
  /-- OVEN SERVICE out (R13): the elapsed minutes are carried and not read. -/
  | ovenServiceOut (oven : Byte) (elapsed : BitVec 16)
  /-- OVEN SERVICE in (R14). -/
  | ovenServiceIn (oven : Byte) (elapsed : BitVec 16)
  /-- RELEASE OVEN (R12). -/
  | releaseOven (oven : Byte)
  /-- FREEZE (R125): 0 for every configured oven. -/
  | freeze (oven : Byte)
  /-- UNFREEZE (R125): 0 for every configured oven. -/
  | unfreeze (oven : Byte)
  /-- CLEAR CAR (R95). -/
  | clearCar (car : Byte)
  /-- PREAMBLE_STARTS_ASSEMBLY (R131). -/
  | preambleStartsAssembly (port : Port)
  deriving DecidableEq, Repr

end Sys2Proof
end

