-- ==== Sys2Proof/Config.lean ====
section
/-!
DEFINITION. What the implementation fixes and the manual does not: values without a body, so that nothing
can be proved of any one of them.
-/
namespace Sys2Proof

/-- The length in milliseconds of the round that has just ended, as ROUND_OVERRUN carries it (R166),
saturating at 65,535. Milliseconds are not counted by the model, so the length is a free value: a fresh
one for each use, by the counter of free values drawn (log 13). -/
opaque Config.roundLength : Nat → BitVec 16

/-- The code that a READ of the car records gives the direction of a move (Table 4-4), for none, UP and
DOWN (0, 1, 2 here): the manual states no code (log 14). -/
opaque Config.directionCode : Nat → Byte

/-- The code that a READ of the regulator records gives the limit direction (Table 6-4), for none, HIGH
and LOW (0, 1, 2 here): the manual states no code (log 14). -/
opaque Config.limitDirectionCode : Nat → Byte

/-- The code that a READ of the leak list gives a task stage (Table 5-4), for NONE, PLACED, DELIVERED,
WORKING and TESTING (0 to 4 here): the manual states no code (log 14). -/
opaque Config.taskStageCode : Nat → Byte

end Sys2Proof
end

