-- ==== Sys2Proof/Machine/State.lean ====
section
/-!
DEFINITION. Every piece of state the spec gives the part, block by block (00_scope.md Table 0-1), as plain
data; the reasons a step can stop; and the state after power-on reset. Field defaults are the power-on
values of the rule or table that a docstring names.
-/
namespace Sys2Proof.Machine

open Sys2Proof

/-- Reasons to stop with a fault: there is none, since no condition of the spec stops the part. -/
inductive Fault where
  deriving DecidableEq, Repr

/-- Reasons to refuse a command. -/
inductive Refusal where
  /-- Raised by `exec` alone, for a command that has no meaning yet. Safe: nothing can be proved of it. -/
  | notModelled (mnemonic : String)
  deriving DecidableEq, Repr

/-! ## Names shared by the blocks -/

/-- Operating modes (10.2). -/
inductive OpMode where
  | standby
  | service
  | maintenance
  deriving DecidableEq, Repr

/-- Station classes (Table 9-1). -/
inductive StationClass where
  | pm
  | cgm
  | cc
  | car
  | os
  | aux
  deriving DecidableEq, Repr

/-- Oven phases (Table 1-4). -/
inductive Phase where
  | outOfService
  | coking
  | ready
  | doorsOff
  | pushing
  | pushInterrupted
  | empty
  | charging
  deriving DecidableEq, Repr

/-- Permit kinds (Table 2-1). -/
inductive PermitKind where
  | doorOff
  | doorOn
  | reseat
  | push
  | charge
  | level
  | quench
  | dump
  deriving DecidableEq, Repr

/-- The side a permit names (2.1): none, PS or CS. -/
inductive Side where
  | none
  | ps
  | cs
  deriving DecidableEq, Repr

/-- Event kinds (Table 10-6), in code order 1 to 24. -/
inductive EventKind where
  | stationJoined
  | stationLost
  | stationFault
  | roundOverrun
  | permitBroken
  | permitExpired
  | lateDone
  | runBlock
  | runDone
  | runStopped
  | ovenSkipped
  | hardPush
  | chargeIncomplete
  | trackConflict
  | hotCar
  | loadMismatch
  | sealFail
  | sealOverdue
  | leakListFull
  | pressureHigh
  | pressureLow
  | valveMismatch
  | cpSilence
  | dispatchMismatch
  deriving DecidableEq, Repr

/-! ## Oven table (Chapter 1) -/

/-- An oven configuration entry (Table 1-1). -/
structure OvenConfig where
  centre : Nat
  inService : Bool
  target : Nat
  station : Nat
  slot : Nat
  deriving DecidableEq, Repr

/-- The timing table (Table 1-2). -/
structure Timing where
  early : Nat := 30
  lateWindow : Nat := 60
  chargeHold : Nat := 10
  tolPm : Nat := 20
  tolCgm : Nat := 20
  tolCc : Nat := 30
  tolCar : Nat := 50
  receiveOffset : Nat := 0
  receiveSpan : Nat := 600
  deriving DecidableEq, Repr

/-- An oven record (Table 1-3). -/
structure OvenRecord where
  phase : Phase := .outOfService
  stamp : Int := 0
  hardPushes : Nat := 0
  ramPeak : Nat := 0
  freeze : Bool := false
  deriving DecidableEq, Repr

/-- The alignment entry of a poll list position (1.7, R16, R17). `live` is the model's own mark: a POSITION of
the station has been handled since it last left ACTIVE, so that a load evaluates the entry afresh
(log 22). -/
structure Alignment where
  oven : Nat := 0
  receiving : List Nat := []
  live : Bool := false
  deriving DecidableEq, Repr

/-- The oven table's state. -/
structure OvenTable where
  config : Vector (Option OvenConfig) 128 := Vector.replicate 128 none
  timing : Timing := {}
  ovens : Vector OvenRecord 128 := Vector.replicate 128 {}
  align : Vector Alignment 24 := Vector.replicate 24 {}
  clock : Int := 0
  wallOffset : Int := 0
  deriving DecidableEq, Repr

/-! ## Interlock (Chapter 2) -/

/-- A permit table entry (R30): the added terms, rising, and the hold limit, 0 for the default. -/
structure PermitEntry where
  added : List Nat
  limit : Nat
  deriving DecidableEq, Repr

/-- An active permit entry (Table 2-4). -/
structure Permit where
  station : Nat
  kind : PermitKind
  oven : Nat
  side : Side
  grant : Int
  deadline : Int
  car : Option Nat
  deriving DecidableEq, Repr

/-- The interlock's state. -/
structure Interlock where
  table : Vector (Option PermitEntry) 8 := Vector.replicate 8 none
  permits : List Permit := []
  deriving DecidableEq, Repr

/-! ## Schedule runner (Chapter 3) -/

/-- A series entry (Table 3-1); contents never loaded are 0 (log 8). -/
structure SeriesEntry where
  oven : Nat := 0
  interval : Nat := 0
  deriving DecidableEq, Repr

/-- The step timing table (Table 3-2). -/
structure StepTiming where
  lead : Nat := 120
  position : Nat := 300
  opening : Nat := 240
  push : Nat := 240
  close : Nat := 300
  maxLateness : Nat := 600
  hardWarn : Nat := 2500
  hardStop : Nat := 3200
  silence : Nat := 0
  deriving DecidableEq, Repr

/-- Run states (Table 3-4). -/
inductive RunState where
  | idle
  | running
  | held
  | stopped
  deriving DecidableEq, Repr

/-- Steps of one oven (Table 3-5). -/
inductive RunStep where
  | wait
  | position
  | opening
  | push
  | close
  deriving DecidableEq, Repr

/-- A run machine: the PM, the CGM, or a car by its number (3.4). -/
inductive RunMachine where
  | pm
  | cgm
  | car (c : Nat)
  deriving DecidableEq, Repr

/-- A member of the moves set (Table 3-3), with the target its MOVE was formed with (R56). -/
structure RunMove where
  machine : RunMachine
  target : Nat
  placed : Bool
  deriving DecidableEq, Repr

/-- The run record (Table 3-3). -/
structure RunRecord where
  state : RunState := .idle
  start : Nat := 0
  requested : Nat := 0
  pushed : Nat := 0
  skipped : Nat := 0
  residual : Nat := 0
  cursor : Nat := 0
  step : RunStep := .wait
  planned : Int := 0
  deadline : Option Int := none
  pushGrant : Option Int := none
  lateness : Int := 0
  progress : Nat := 0
  holdPending : Bool := false
  car : Option Nat := none
  moves : List RunMove := []
  deriving DecidableEq, Repr

/-- Stop codes (Table 3-6). -/
inductive StopCode where
  | none
  | aborted
  | ovenNotReady
  | ovenHeld
  | stepTimeout
  | permitBroken
  | hardPush
  | noCar
  | stationLost
  deriving DecidableEq, Repr

/-- The sense record (3.9). -/
structure Sense where
  code : StopCode := .none
  oven : Nat := 0
  position : Nat := 0
  step : RunStep := .wait
  detail : Nat := 0
  deriving DecidableEq, Repr

/-- The schedule runner's state. `silenceStart` is the last restart of the silence watch and `silenceRaised`
that CP_SILENCE was raised since (R71). `latenessDue` is the model's own mark: the test of R55 of the
present clock advance is still to be made (log 5). -/
structure Runner where
  series : Vector SeriesEntry 128 := Vector.replicate 128 {}
  length : Nat := 0
  timing : StepTiming := {}
  block : Nat := 0
  run : RunRecord := {}
  sense : Sense := {}
  silenceStart : Int := 0
  silenceRaised : Bool := false
  latenessDue : Bool := false
  deriving DecidableEq, Repr

/-! ## Quench track controller (Chapter 4) -/

/-- Segment types (Table 4-1). -/
inductive SegmentType where
  | battery
  | track
  | tower
  | wharf
  deriving DecidableEq, Repr

/-- A segment entry (Table 4-1), from `start` to `stop`; contents never loaded are 0 (log 8). -/
structure Segment where
  start : Nat := 0
  stop : Nat := 0
  type : SegmentType := .battery
  spot : Nat := 0
  deriving DecidableEq, Repr

/-- A car configuration entry (Table 4-2). -/
structure CarConfig where
  length : Nat
  gap : Nat
  deriving DecidableEq, Repr

/-- The track timing table (Table 4-3). -/
structure TrackTiming where
  quench : Nat := 90
  drain : Nat := 60
  hotLimit : Nat := 300
  deriving DecidableEq, Repr

/-- Car states (Table 4-5). -/
inductive CarState where
  | unknown
  | idle
  | assigned
  | receiving
  | loaded
  | quenching
  | draining
  | quenched
  | dumping
  deriving DecidableEq, Repr

/-- Load states (Table 4-4). -/
inductive LoadState where
  | empty
  | hot
  | wet
  deriving DecidableEq, Repr

/-- Direction of a move (R79). -/
inductive Direction where
  | up
  | down
  deriving DecidableEq, Repr

/-- The move record of a car (Table 4-4); a MOVE to the recorded position has no direction (R79). -/
structure CarMove where
  target : Nat
  direction : Option Direction
  speed : Nat
  deriving DecidableEq, Repr

/-- A car record (Table 4-4). The reported load is kept as the status byte carried it (R137). Segment sets are
lists of segment numbers, rising. -/
structure CarRecord where
  state : CarState := .unknown
  load : LoadState := .empty
  uncertain : Bool := false
  reportedLoad : Nat := 0
  position : Option Nat := none
  moving : Bool := false
  occupied : List Nat := []
  reserved : List Nat := []
  move : Option CarMove := none
  haltRelease : Bool := false
  assignedOven : Nat := 0
  loadOven : Nat := 0
  hotStart : Option Int := none
  drainDeadline : Option Int := none
  deriving DecidableEq, Repr

/-- The quench track controller's state; cars are numbered by instance, 1 and 2. -/
structure Track where
  segments : Vector Segment 32 := Vector.replicate 32 {}
  count : Nat := 0
  config : Vector (Option CarConfig) 2 := Vector.replicate 2 none
  timing : TrackTiming := {}
  cars : Vector CarRecord 2 := Vector.replicate 2 {}
  holder : Option Nat := none
  entered : Bool := false
  queue : List Nat := []
  idle : List Nat := []
  carRequest : Bool := false
  deriving DecidableEq, Repr

/-! ## Door seal monitor (Chapter 5) -/

/-- Door states (Table 5-2). -/
inductive DoorState where
  | sealed
  | removed
  | unsealed
  | leaking
  deriving DecidableEq, Repr

/-- Leak severities (Table 5-1). -/
inductive Severity where
  | minor
  | major
  deriving DecidableEq, Repr

/-- A door record (Table 5-1). -/
structure DoorRecord where
  state : DoorState := .sealed
  severity : Option Severity := none
  retries : Nat := 0
  retryDue : Bool := false
  doorOn : Int := 0
  leakInstant : Int := 0
  lastIndex : Nat := 0
  listed : Bool := false
  overdue : Bool := false
  deriving DecidableEq, Repr

/-- The two doors of an oven. -/
structure DoorPair where
  ps : DoorRecord := {}
  cs : DoorRecord := {}
  deriving DecidableEq, Repr

/-- A door's name: oven and side. -/
structure Door where
  oven : Nat
  side : DoorSide
  deriving DecidableEq, Repr

/-- The seal configuration (Table 5-3). -/
structure SealConfig where
  accept : Nat := 40
  reject : Nat := 120
  maxRetries : Nat := 2
  deadline : Nat := 15
  allowance : Nat := 300
  taskLimit : Nat := 180
  deriving DecidableEq, Repr

/-- Stages of a reseat task (Table 5-5). -/
inductive TaskStage where
  | none
  | placed
  | delivered
  | working
  | testing
  deriving DecidableEq, Repr

/-- A task record (Table 5-4). -/
structure TaskRecord where
  stage : TaskStage := .none
  door : Option Door := none
  retry : Bool := false
  deadline : Option Int := none
  deriving DecidableEq, Repr

/-- The door seal monitor's state. The task record of side PS is the PM's, that of side CS the CGM's. -/
structure Doors where
  doors : Vector DoorPair 128 := Vector.replicate 128 {}
  config : SealConfig := {}
  leaks : List Door := []
  taskPm : TaskRecord := {}
  taskCgm : TaskRecord := {}
  deriving DecidableEq, Repr

/-! ## Offtake pressure regulator (Chapter 6) -/

/-- Pressure modes (Table 6-1). -/
inductive PressureMode where
  | out
  | isolated
  | charge
  | coking
  | late
  deriving DecidableEq, Repr

/-- A pressure mode table entry (Table 6-1). -/
structure ModeEntry where
  target : Int
  vmin : Nat
  vmax : Nat
  regulate : Bool
  deriving DecidableEq, Repr

/-- The regulator configuration (Table 6-3). -/
structure RegConfig where
  w0 : Nat := 8
  w1 : Nat := 4
  w2 : Nat := 2
  w3 : Nat := 2
  stable : Nat := 30
  wide : Nat := 80
  step : Nat := 5
  fast : Nat := 320
  interval : Nat := 2
  limit : Nat := 4
  leakOffset : Nat := 100
  isolate : Nat := 10
  openAt : Nat := 190
  deriving DecidableEq, Repr

/-- Limit directions (Table 6-4). -/
inductive LimitDir where
  | high
  | low
  deriving DecidableEq, Repr

/-- A recorded feedback with the round of its recording (R115). -/
structure Feedback where
  value : Nat
  round : Nat
  deriving DecidableEq, Repr

/-- A regulator record (Table 6-4). `correcting` is the state CORRECTING. -/
structure RegRecord where
  mode : PressureMode := .out
  window : List Int := []
  average : Option Int := none
  valve : Nat := 0
  correcting : Bool := false
  updates : Nat := 0
  limitCount : Nat := 0
  limitDir : Option LimitDir := none
  limitReported : Bool := false
  hold : Bool := false
  feedback : Option Feedback := none
  mismatches : Nat := 0
  mismatchReported : Bool := false
  deriving DecidableEq, Repr

/-- The regulator's state. Valve images hold the valve positions of the ovens they serve (R127), so that
only their dirty flags are state of their own, by instance 1 to 16. -/
structure Regulator where
  modes : Vector ModeEntry 5 :=
    #v[⟨0, 0, 0, false⟩, ⟨0, 0, 0, false⟩, ⟨0, 1000, 1000, false⟩, ⟨1200, 200, 850, true⟩, ⟨800, 100, 600, true⟩]
  config : RegConfig := {}
  records : Vector RegRecord 128 := Vector.replicate 128 {}
  dirty : Vector Bool 16 := Vector.replicate 16 false
  deriving DecidableEq, Repr

/-! ## Ports (Chapter 7) -/

/-- The four sorts of items of the control transmit queue (7.4.1). -/
inductive ItemSort where
  | answer
  | refuse
  | event
  | copy
  deriving DecidableEq, Repr

/-- An item of the control transmit queue. -/
structure QueueItem where
  sort : ItemSort
  telegram : Telegram
  deriving DecidableEq, Repr

/-- The control port interface's state. -/
structure ControlPort where
  assembling : Bool := false
  queue : List QueueItem := []
  sending : Option Telegram := none
  discards : Nat := 0
  deriving DecidableEq, Repr

/-- Line states of the field port (R144). -/
inductive LineState where
  | idle
  | sending
  | awaiting
  deriving DecidableEq, Repr

/-- The field port interface's state. -/
structure FieldPort where
  line : LineState := .idle
  assembling : Bool := false
  discards : Nat := 0
  deriving DecidableEq, Repr

/-! ## Classifier (Chapter 8) -/

/-- Actions of a dispatch entry (Table 8-2). -/
inductive Action where
  | pass
  | depositPass
  | absorb
  | check
  | drop
  deriving DecidableEq, Repr

/-- Handlers of a dispatch entry (Table 8-2). -/
inductive Handler where
  | none
  | ilk
  | dsm
  | opr
  | qtc
  | sch
  | fpl
  | mgt
  deriving DecidableEq, Repr

/-- Deposit sources (Table 8-2). -/
inductive DepositSource where
  | clockLow
  | stationState
  | mode
  | constant
  deriving DecidableEq, Repr

/-- A dispatch entry (Table 8-2). -/
structure DispatchEntry where
  action : Action := .drop
  handler : Handler := .none
  mirror : Bool := false
  offset : Nat := 0
  width : Nat := 1
  source : DepositSource := .clockLow
  constant : Nat := 0
  deriving DecidableEq, Repr

/-- The selector parameters of a port (Table 8-1). -/
structure Selector where
  offset : Nat
  width : Nat
  base : Nat
  deriving DecidableEq, Repr

/-- An entry that drops its telegrams, and one that passes them, with the deposit of Table 8-3. -/
def dropEntry : DispatchEntry := {}

/-- See `dropEntry`. -/
def passEntry : DispatchEntry := { action := .pass }

/-- The default dispatch contents (Table 8-3), entries 0 to 255. -/
def dispatchDefaults : List DispatchEntry :=
  List.replicate 16 dropEntry ++ List.replicate 3 { action := .pass, handler := .ilk } ++
    List.replicate 77 dropEntry ++ List.replicate 32 passEntry ++ List.replicate 32 dropEntry ++
    [passEntry, dropEntry, passEntry, passEntry, dropEntry, passEntry] ++
    List.replicate 58 dropEntry ++ List.replicate 32 passEntry

/-- The classifier's state (R159). -/
structure Classifier where
  dispatch : Vector DispatchEntry 256 := ⟨dispatchDefaults.toArray, by decide +kernel⟩
  control : Selector := ⟨8, 7, 0⟩
  field : Selector := ⟨8, 7, 128⟩
  deriving DecidableEq, Repr

/-! ## Field poller (Chapter 9) -/

/-- A poll list entry (Table 9-1); `inst` is the instance; contents never loaded are 0 (log 8). -/
structure PollEntry where
  address : Nat := 0
  cls : StationClass := .pm
  inst : Nat := 0
  deriving DecidableEq, Repr

/-- Bit rates of the field line (Table 9-2). -/
inductive Rate where
  | r9600
  | r19200
  | r38400
  deriving DecidableEq, Repr

/-- The field line settings (Table 9-2). -/
structure LineSettings where
  rate : Rate := .r19200
  period : Nat := 200
  response : Nat := 20
  gap : Nat := 4
  misses : Nat := 3
  deriving DecidableEq, Repr

/-- Station states (Table 9-4). -/
inductive StationState where
  | absent
  | joining
  | active
  | lost
  deriving DecidableEq, Repr

/-- A station record (Table 9-3). -/
structure StationRecord where
  state : StationState := .absent
  misses : Nat := 0
  joinProgress : Nat := 0
  joinRef : Option Nat := none
  lastPos : Option Nat := none
  moving : Bool := false
  status : Nat := 0
  lastReply : Option Nat := none
  deriving DecidableEq, Repr

/-- What an answer slot holds (R163): a PERMIT or a REFUSE. -/
inductive AnswerBody where
  | permit (kind oven side : Nat) (hold : Int)
  | refuse (kind oven reason : Nat)
  deriving DecidableEq, Repr

/-- An answer waiting in its slot. `carried`: the poll in progress carries this very item (log 35). -/
structure Answer where
  body : AnswerBody
  carried : Bool := false
  deriving DecidableEq, Repr

/-- Who placed an order (R164: the originator). -/
inductive Origin where
  | control
  | ilk
  | sch
  | qtc
  | dsm
  | mgt
  deriving DecidableEq, Repr

/-- An order waiting in its slot. `carried`: the poll in progress carries this very item (log 35). -/
structure Order where
  telegram : Telegram
  origin : Origin
  carried : Bool := false
  deriving DecidableEq, Repr

/-- An outbound record (9.5). -/
structure Outbound where
  answer : Option Answer := none
  order : Option Order := none
  deriving DecidableEq, Repr

/-- The item a poll carries (R165). -/
inductive PollItem where
  | halt
  | answer
  | order
  | valve (image : Nat)
  | bare
  deriving DecidableEq, Repr

/-- The exchange in progress (R144, R165): its position (from 0), what its poll carries, the poll telegram, the
line values in force for it (R161), and whether its ending is no longer taken (R160 item 5). -/
structure Exchange where
  position : Nat
  item : PollItem
  poll : Telegram
  rate : Rate
  response : Nat
  gap : Nat
  void : Bool := false
  deriving DecidableEq, Repr

/-- The field poller's state. Positions count from 0 here: position 1 of the manual is index 0. `round` is
the next position whose turn comes while a round is in progress. `timerPeriod` is the interval the round
timer now runs with (R161). -/
structure Poller where
  list : Vector PollEntry 24 := Vector.replicate 24 {}
  length : Nat := 0
  settings : LineSettings := {}
  stations : Vector StationRecord 24 := Vector.replicate 24 {}
  outbound : Vector Outbound 24 := Vector.replicate 24 {}
  roundNumber : Nat := 0
  round : Option Nat := none
  owed : Bool := false
  timerPeriod : Nat := 200
  exchange : Option Exchange := none
  deriving DecidableEq, Repr

/-! ## Management unit (Chapter 10) -/

/-- The validity flags of the guarded tables (R178). -/
structure Validity where
  dispatch : Bool := true
  selector : Bool := true
  line : Bool := true
  pollList : Bool := false
  ovens : Bool := false
  permits : Bool := false
  segments : Bool := false
  cars : Bool := false
  deriving DecidableEq, Repr

/-- The management unit's state, with the part's own station address (R134). -/
structure Management where
  address : Nat := 15
  mode : OpMode := .standby
  validity : Validity := {}
  counts : Vector Nat 24 := Vector.replicate 24 0
  enabled : Vector Bool 24 := Vector.replicate 24 true
  deriving DecidableEq, Repr

/-! ## The whole part -/

/-- The state of the part, one field a block (Table 0-1), with the queue of commands waiting to be taken and
the counter of free values drawn so far (log 13). -/
structure State where
  ovt : OvenTable := {}
  ilk : Interlock := {}
  sch : Runner := {}
  qtc : Track := {}
  dsm : Doors := {}
  opr : Regulator := {}
  cpi : ControlPort := {}
  fpi : FieldPort := {}
  cls : Classifier := {}
  fpl : Poller := {}
  mgt : Management := {}
  pending : List Instr := []
  drawn : Nat := 0
  deriving DecidableEq, Repr

/-- The part right after power-on reset (R184), no command waiting. The straps are taken as all left open,
15 through the pull-ups (section 7.8, log 7). -/
def State.reset : State := {}

end Sys2Proof.Machine
end

