-- ==== Sys2Proof/Machine/Codes.lean ====
section
/-!
DEFINITION. The codes that telegrams, tables and answers carry for the names of the spec.
-/
namespace Sys2Proof.Machine

open Sys2Proof

/-! ## Telegram kinds (Table 7-2) -/

abbrev Kind.move : Nat := 0x10
abbrev Kind.halt : Nat := 0x11
abbrev Kind.task : Nat := 0x12
abbrev Kind.position : Nat := 0x20
abbrev Kind.request : Nat := 0x21
abbrev Kind.done : Nat := 0x22
abbrev Kind.seal : Nat := 0x23
abbrev Kind.sample : Nat := 0x24
abbrev Kind.ready : Nat := 0x25
abbrev Kind.mgmt : Nat := 0x30
abbrev Kind.poll : Nat := 0x40
abbrev Kind.permit : Nat := 0x41
abbrev Kind.refuse : Nat := 0x42
abbrev Kind.valve : Nat := 0x43
abbrev Kind.event : Nat := 0x50
abbrev Kind.answer : Nat := 0x51

/-! ## REFUSE reasons (Table 7-4; a condition term carries its own number) -/

abbrev Reason.notInService : Nat := 32
abbrev Reason.unknownOven : Nat := 33
abbrev Reason.wrongClass : Nat := 34
abbrev Reason.setFull : Nat := 35
abbrev Reason.ovenBusy : Nat := 36
abbrev Reason.runOwned : Nat := 37
abbrev Reason.permitHeld : Nat := 38
abbrev Reason.haltPending : Nat := 39
abbrev Reason.carUnknown : Nat := 40
abbrev Reason.badRange : Nat := 41
abbrev Reason.draining : Nat := 42
abbrev Reason.trackBlocked : Nat := 43
abbrev Reason.unknownStation : Nat := 44
abbrev Reason.broadcastKind : Nat := 45

/-! ## Answer status codes (Table 10-2) -/

abbrev Status.ok : Nat := 0
abbrev Status.notInService : Nat := 32
abbrev Status.unknownOven : Nat := 33
abbrev Status.ovenBusy : Nat := 36
abbrev Status.badRange : Nat := 41
abbrev Status.guarded : Nat := 48
abbrev Status.runActive : Nat := 49
abbrev Status.permitsActive : Nat := 50
abbrev Status.duplicateOven : Nat := 51
abbrev Status.unsupported : Nat := 52
abbrev Status.zeroWeights : Nat := 53
abbrev Status.noRun : Nat := 54
abbrev Status.notHeld : Nat := 55
abbrev Status.wrongPhase : Nat := 56
abbrev Status.carActive : Nat := 57
abbrev Status.unknownRequest : Nat := 58
abbrev Status.checkFailed : Nat := 59

/-! ## HALT reasons of the part (Table 7-3) -/

abbrev HaltReason.permitBroken : Nat := 1
abbrev HaltReason.permitExpired : Nat := 2
abbrev HaltReason.trackConflict : Nat := 3
abbrev HaltReason.runStopped : Nat := 4
abbrev HaltReason.restart : Nat := 5

/-! ## Management request codes (Table 10-1) -/

abbrev ReqCode.load : Nat := 0x01
abbrev ReqCode.read : Nat := 0x02
abbrev ReqCode.status : Nat := 0x03
abbrev ReqCode.enterService : Nat := 0x04
abbrev ReqCode.enterMaintenance : Nat := 0x05
abbrev ReqCode.restart : Nat := 0x06
abbrev ReqCode.fieldRestart : Nat := 0x07
abbrev ReqCode.setTime : Nat := 0x08
abbrev ReqCode.run : Nat := 0x10
abbrev ReqCode.hold : Nat := 0x11
abbrev ReqCode.resume : Nat := 0x12
abbrev ReqCode.abort : Nat := 0x13
abbrev ReqCode.sense : Nat := 0x14
abbrev ReqCode.verify : Nat := 0x15
abbrev ReqCode.setBlock : Nat := 0x16
abbrev ReqCode.ovenService : Nat := 0x20
abbrev ReqCode.releaseOven : Nat := 0x21
abbrev ReqCode.freeze : Nat := 0x22
abbrev ReqCode.unfreeze : Nat := 0x23
abbrev ReqCode.clearCar : Nat := 0x24

/-! ## Enumerated codes -/

/-- Operating mode codes (10.2). -/
def OpMode.code : OpMode → Nat
  | .standby => 0
  | .service => 1
  | .maintenance => 2

/-- Station class codes (Table 9-1). -/
def StationClass.code : StationClass → Nat
  | .pm => 0
  | .cgm => 1
  | .cc => 2
  | .car => 3
  | .os => 4
  | .aux => 5

/-- The class of a code (Table 9-1). -/
def StationClass.ofCode : Nat → Option StationClass
  | 0 => some .pm
  | 1 => some .cgm
  | 2 => some .cc
  | 3 => some .car
  | 4 => some .os
  | 5 => some .aux
  | _ => .none

/-- A machine is a station of class PM, CGM, CC or CAR (Table 0-3). -/
def StationClass.isMachine : StationClass → Bool
  | .pm => true
  | .cgm => true
  | .cc => true
  | .car => true
  | .os => false
  | .aux => false

/-- Station state codes (Table 9-4). -/
def StationState.code : StationState → Nat
  | .absent => 0
  | .joining => 1
  | .active => 2
  | .lost => 3

/-- Oven phase codes (Table 1-4). -/
def Phase.code : Phase → Nat
  | .outOfService => 0
  | .coking => 1
  | .ready => 2
  | .doorsOff => 3
  | .pushing => 4
  | .pushInterrupted => 5
  | .empty => 6
  | .charging => 7

/-- The phase of a code (Table 1-4). -/
def Phase.ofCode : Nat → Option Phase
  | 0 => some .outOfService
  | 1 => some .coking
  | 2 => some .ready
  | 3 => some .doorsOff
  | 4 => some .pushing
  | 5 => some .pushInterrupted
  | 6 => some .empty
  | 7 => some .charging
  | _ => .none

/-- Permit kind codes (Table 2-1). -/
def PermitKind.code : PermitKind → Nat
  | .doorOff => 1
  | .doorOn => 2
  | .reseat => 3
  | .push => 4
  | .charge => 5
  | .level => 6
  | .quench => 7
  | .dump => 8

/-- The permit kind of a code (Table 2-1). -/
def PermitKind.ofCode : Nat → Option PermitKind
  | 1 => some .doorOff
  | 2 => some .doorOn
  | 3 => some .reseat
  | 4 => some .push
  | 5 => some .charge
  | 6 => some .level
  | 7 => some .quench
  | 8 => some .dump
  | _ => .none

/-- Side codes (2.1): 0 for none, 1 for PS and 2 for CS. -/
def Side.code : Side → Nat
  | .none => 0
  | .ps => 1
  | .cs => 2

/-- Side codes of a door (2.1). -/
def doorCode : DoorSide → Nat
  | .ps => 1
  | .cs => 2

/-- The side a door kind records (2.1). -/
def sideOf : DoorSide → Side
  | .ps => .ps
  | .cs => .cs

/-- The door side of a side, if it names one. -/
def Side.door : Side → Option DoorSide
  | .none => Option.none
  | .ps => some .ps
  | .cs => some .cs

/-- Run state codes (Table 3-4). -/
def RunState.code : RunState → Nat
  | .idle => 0
  | .running => 1
  | .held => 2
  | .stopped => 3

/-- Step codes (Table 3-5). -/
def RunStep.code : RunStep → Nat
  | .wait => 0
  | .position => 1
  | .opening => 2
  | .push => 3
  | .close => 4

/-- Stop code values (Table 3-6). -/
def StopCode.code : StopCode → Nat
  | .none => 0
  | .aborted => 1
  | .ovenNotReady => 2
  | .ovenHeld => 3
  | .stepTimeout => 4
  | .permitBroken => 5
  | .hardPush => 6
  | .noCar => 7
  | .stationLost => 8

/-- Segment type codes (Table 4-1). -/
def SegmentType.code : SegmentType → Nat
  | .battery => 0
  | .track => 1
  | .tower => 2
  | .wharf => 3

/-- The segment type of a code (Table 4-1). -/
def SegmentType.ofCode : Nat → Option SegmentType
  | 0 => some .battery
  | 1 => some .track
  | 2 => some .tower
  | 3 => some .wharf
  | _ => .none

/-- Car state codes (Table 4-5). -/
def CarState.code : CarState → Nat
  | .unknown => 0
  | .idle => 1
  | .assigned => 2
  | .receiving => 3
  | .loaded => 4
  | .quenching => 5
  | .draining => 6
  | .quenched => 7
  | .dumping => 8

/-- Load state codes (Table 4-4). -/
def LoadState.code : LoadState → Nat
  | .empty => 0
  | .hot => 1
  | .wet => 2

/-- The load state that a car's status byte reports; a status above 2 is taken as EMPTY (R137). -/
def LoadState.ofStatus : Nat → LoadState
  | 1 => .hot
  | 2 => .wet
  | _ => .empty

/-- Door state codes (Table 5-1). -/
def DoorState.code : DoorState → Nat
  | .sealed => 0
  | .removed => 1
  | .unsealed => 2
  | .leaking => 3

/-- Severity codes (Table 5-1). -/
def Severity.code : Severity → Nat
  | .minor => 0
  | .major => 1

/-- Pressure mode codes (Table 6-1). -/
def PressureMode.code : PressureMode → Nat
  | .out => 0
  | .isolated => 1
  | .charge => 2
  | .coking => 3
  | .late => 4

/-- Action codes (Table 8-2). -/
def Action.code : Action → Nat
  | .pass => 0
  | .depositPass => 1
  | .absorb => 2
  | .check => 3
  | .drop => 4

/-- The action of a code (Table 8-2). -/
def Action.ofCode : Nat → Option Action
  | 0 => some .pass
  | 1 => some .depositPass
  | 2 => some .absorb
  | 3 => some .check
  | 4 => some .drop
  | _ => .none

/-- Handler codes (Table 8-2). -/
def Handler.code : Handler → Nat
  | .none => 0
  | .ilk => 1
  | .dsm => 2
  | .opr => 3
  | .qtc => 4
  | .sch => 5
  | .fpl => 6
  | .mgt => 7

/-- The handler of a code (Table 8-2). -/
def Handler.ofCode : Nat → Option Handler
  | 0 => some .none
  | 1 => some .ilk
  | 2 => some .dsm
  | 3 => some .opr
  | 4 => some .qtc
  | 5 => some .sch
  | 6 => some .fpl
  | 7 => some .mgt
  | _ => .none

/-- Deposit source codes (Table 8-2). -/
def DepositSource.code : DepositSource → Nat
  | .clockLow => 0
  | .stationState => 1
  | .mode => 2
  | .constant => 3

/-- The deposit source of a code (Table 8-2). -/
def DepositSource.ofCode : Nat → Option DepositSource
  | 0 => some .clockLow
  | 1 => some .stationState
  | 2 => some .mode
  | 3 => some .constant
  | _ => .none

/-- Rate codes (R140). -/
def Rate.code : Rate → Nat
  | .r9600 => 0
  | .r19200 => 1
  | .r38400 => 2

/-- The rate of a code (R140). -/
def Rate.ofCode : Nat → Option Rate
  | 0 => some .r9600
  | 1 => some .r19200
  | 2 => some .r38400
  | _ => .none

/-- Event kind codes (Table 10-6). -/
def EventKind.code : EventKind → Nat
  | .stationJoined => 1
  | .stationLost => 2
  | .stationFault => 3
  | .roundOverrun => 4
  | .permitBroken => 5
  | .permitExpired => 6
  | .lateDone => 7
  | .runBlock => 8
  | .runDone => 9
  | .runStopped => 10
  | .ovenSkipped => 11
  | .hardPush => 12
  | .chargeIncomplete => 13
  | .trackConflict => 14
  | .hotCar => 15
  | .loadMismatch => 16
  | .sealFail => 17
  | .sealOverdue => 18
  | .leakListFull => 19
  | .pressureHigh => 20
  | .pressureLow => 21
  | .valveMismatch => 22
  | .cpSilence => 23
  | .dispatchMismatch => 24

/-- The position of a direction in `Config.directionCode` (log 14). -/
def Direction.index : Option Direction → Nat
  | none => 0
  | some .up => 1
  | some .down => 2

/-- The position of a limit direction in `Config.limitDirectionCode` (log 14). -/
def LimitDir.index : Option LimitDir → Nat
  | none => 0
  | some .high => 1
  | some .low => 2

/-- The position of a task stage in `Config.taskStageCode` (log 14). -/
def TaskStage.index : TaskStage → Nat
  | .none => 0
  | .placed => 1
  | .delivered => 2
  | .working => 3
  | .testing => 4

end Sys2Proof.Machine
end

