-- ==== Sys2Proof/Machine/Bytes.lean ====
section
/-!
DEFINITION. Quantities as bytes and back (R140: high byte first, two's complement where signed) and the
wrapping of instants to signed 32 bits (R5).
-/
namespace Sys2Proof.Machine

open Sys2Proof

/-- A quantity in `w` bytes, high byte first (Table 7-1, R140). -/
def toBytes : Nat → Nat → List Byte
  | 0, _ => []
  | w + 1, v => BitVec.ofNat 8 (v / 256 ^ w) :: toBytes w v

/-- The unsigned quantity that bytes carry, high byte first. -/
def ofBytes (bs : List Byte) : Nat :=
  bs.foldl (fun acc b => acc * 256 + b.toNat) 0

/-- A signed quantity in `w` bytes, two's complement. -/
def signedBytes (w : Nat) (v : Int) : List Byte :=
  toBytes w (v % (256 ^ w : Int)).toNat

/-- The signed quantity of a two's complement number of `bits` bits. -/
def toSigned (bits v : Nat) : Int :=
  if v < 2 ^ (bits - 1) then (v : Int) else (v : Int) - 2 ^ bits

/-- Reduction modulo 2^32 to a signed 32-bit value (R5). -/
def wrap32 (x : Int) : Int :=
  Int.bmod x 4294967296

/-- One byte for a flag, 1 when set and 0 when clear (R140). -/
def flagByte (b : Bool) : List Byte :=
  [if b then 1#8 else 0#8]

/-- One byte for a code or a small count (R140). -/
def codeByte (n : Nat) : List Byte :=
  [BitVec.ofNat 8 n]

/-- A set of numbered items as a mask in `w` bytes: item t has the value 2^(t − 1) (R140). -/
def maskBytes (w : Nat) (items : List Nat) : List Byte :=
  toBytes w (items.foldl (fun acc t => acc ||| 2 ^ (t - 1)) 0)

/-- The items of a mask whose highest number is `top`, rising (R140). -/
def maskItems (top v : Nat) : List Nat :=
  (List.range top).filterMap fun i => if v / 2 ^ i % 2 = 1 then some (i + 1) else none

/-- A field that may be absent: one byte that tells whether it is present, then the field, carried as 0
when absent (R140). -/
def optBytes (w : Nat) : Option (List Byte) → List Byte
  | none => 0#8 :: List.replicate w 0#8
  | some bs => 1#8 :: bs

end Sys2Proof.Machine
end

