-- ==== Sys2Proof/Machine/Telegram.lean ====
section
/-!
DEFINITION. The line format (section 7.2): the CRC, the framing tests of a receiver, and the telegrams the
part originates. `lineBytes` is the encoder and `frame` the decoder, total on any bytes.
-/
namespace Sys2Proof.Machine

open Sys2Proof

/-! ## The check (R133) -/

/-- One bit into the CRC register: the register moves one place toward its high end, and when the bit
shifted out differs from the message bit it is combined with 1021h. -/
def crcBit (r : BitVec 16) (b : Bool) : BitVec 16 :=
  if r.msb != b then (r <<< 1) ^^^ 0x1021#16 else r <<< 1

/-- One byte into the CRC register, most significant bit first. -/
def crcByte (r : BitVec 16) (b : Byte) : BitVec 16 :=
  [7, 6, 5, 4, 3, 2, 1, 0].foldl (fun r i => crcBit r (b.getLsbD i)) r

/-- The CRC of a row of bytes (R133). -/
def crc (bs : List Byte) : BitVec 16 :=
  bs.foldl crcByte 0xFFFF#16

/-! ## A telegram and its bytes (Table 7-1) -/

/-- The kind of a telegram: its kind byte less any 128 (R134). -/
def kindOf (t : Telegram) : Nat :=
  t.kindByte.toNat % 128

/-- Bytes 1 to 4 + L, those the CRC covers (R133). -/
def coveredBytes (t : Telegram) : List Byte :=
  t.dest :: t.source :: t.kindByte :: BitVec.ofNat 8 t.body.length :: t.body

/-- The bytes after the preamble: the covered bytes and the CRC, high byte first. -/
def tailBytes (t : Telegram) : List Byte :=
  coveredBytes t ++ toBytes 2 (crc (coveredBytes t)).toNat

/-- The whole telegram on the line, preamble C3h first. -/
def lineBytes (t : Telegram) : List Byte :=
  0xC3#8 :: tailBytes t

/-- The kind byte of a kind, with 128 added if `marked` (R134). -/
def kindByteOf (kind : Nat) (marked : Bool) : Byte :=
  BitVec.ofNat 8 (kind + if marked then 128 else 0)

/-- A telegram that arrived with header `h`. -/
def arrived (h : Header) (kind : Nat) (body : List Byte) : Telegram :=
  ⟨h.dest, h.source, kindByteOf kind h.marked, body⟩

/-- A telegram that the part originates: its own address as source and 128 added to the kind (R134). -/
def originated (own dest kind : Nat) (body : List Byte) : Telegram :=
  ⟨BitVec.ofNat 8 dest, BitVec.ofNat 8 own, kindByteOf kind true, body⟩

/-! ## Body lengths (R135) -/

/-- Whether a body length is one that the kind requires (Table 7-2). -/
def lengthFits (kind len : Nat) : Bool :=
  if kind = Kind.move then len = 5
  else if kind = Kind.halt then len = 1
  else if kind = Kind.task then len = 3
  else if kind = Kind.position then len = 5
  else if kind = Kind.request then len = 3
  else if kind = Kind.done then len = 6
  else if kind = Kind.seal then len = 3
  else if kind = Kind.sample then len = 26
  else if kind = Kind.ready then len = 2
  else if kind = Kind.mgmt then 1 ≤ len
  else if kind = Kind.poll then len = 0
  else if kind = Kind.permit then len = 5
  else if kind = Kind.refuse then len = 3
  else if kind = Kind.valve then len = 16
  else if kind = Kind.event then len = 9
  else if kind = Kind.answer then 6 ≤ len
  else true

/-- A telegram that a receiver hands on: a body of at most 48 bytes (R132) and of its kind's length (R135). -/
def framed (t : Telegram) : Bool :=
  t.body.length ≤ 48 && lengthFits (kindOf t) t.body.length

/-! ## The framing tests (R131, R132, R133, R135) -/

/-- Why a receiver discards a telegram. -/
inductive FramingFault where
  | parity
  | gap
  | bodyLength
  | check
  | kindLength
  deriving DecidableEq, Repr

/-- What a receiver makes of the bytes after a preamble: still assembling, a telegram that passed every test,
or a discard at a byte. `rest` are the bytes after the last one taken. -/
inductive Framing where
  | assembling
  | complete (t : Telegram) (rest : List LineByte)
  | discarded (why : FramingFault) (last : LineByte) (rest : List LineByte)
  deriving DecidableEq, Repr

/-- The tests that a single byte can fail (R132); `n` is its number on the line, from 1. -/
def byteFault (window n : Nat) (b : LineByte) : Option FramingFault :=
  if !b.parityOk then some .parity
  else if b.gapBits > 11 * window then some .gap
  else if n = 4 && b.value.toNat > 48 then some .bodyLength
  else none

/-- The tests made once the last CRC byte has come (R133, R135), on the bytes 1 to 6 + L. -/
def wholeTelegram (bytes : List Byte) : Except FramingFault Telegram :=
  let n := bytes.length - 2
  let t : Telegram := ⟨bytes.getD 0 0, bytes.getD 1 0, bytes.getD 2 0, (bytes.take n).drop 4⟩
  if toBytes 2 (crc (bytes.take n)).toNat ≠ bytes.drop n then .error .check
  else if lengthFits (kindOf t) t.body.length then .ok t
  else .error .kindLength

/-- A receiver that has assembled the bytes `acc` since its preamble takes the line bytes one by one, with
the port's gap window in byte times (R131). -/
def frame (window : Nat) : List Byte → List LineByte → Framing
  | _, [] => .assembling
  | acc, b :: rest =>
    match byteFault window (acc.length + 1) b with
    | some why => .discarded why b rest
    | none =>
      let bytes := acc ++ [b.value]
      if 4 ≤ bytes.length ∧ bytes.length = 6 + (bytes.getD 3 0).toNat then
        match wholeTelegram bytes with
        | .ok t => .complete t rest
        | .error why => .discarded why b rest
      else frame window bytes rest

/-- The gap window of the control port, in byte times (R132). -/
def controlGapWindow : Nat := 8

/-- Whether a byte starts assembly in a hunting receiver: C3h without parity error (R131). -/
def startsAssembly (b : LineByte) : Bool :=
  b.value = 0xC3#8 && b.parityOk

/-- Whether the byte at which a receiver discards a telegram that is not framed starts the next assembly: its length
byte where the body is over-long, else the last byte of its CRC (R131, R132, R135). -/
def restartsHunt (t : Telegram) : Bool :=
  if 48 < t.body.length then t.body.length % 256 = 0xC3 else (crc (coveredBytes t)).toNat % 256 = 0xC3

/-! ## Bodies the part originates (R136, R139, R140) -/

/-- A MOVE body: target, speed class, purpose oven. -/
def moveBody (target speed oven : Nat) : List Byte :=
  toBytes 3 target ++ codeByte speed ++ codeByte oven

/-- A MOVE body's target, speed class and purpose oven. -/
def moveTarget (t : Telegram) : Nat := ofBytes (t.body.take 3)

/-- See `moveTarget`. -/
def moveSpeed (t : Telegram) : Nat := (t.body.getD 3 0).toNat

/-- See `moveTarget`. -/
def moveOven (t : Telegram) : Nat := (t.body.getD 4 0).toNat

/-- A TASK body of task kind RESEAT (1). -/
def reseatBody (oven : Nat) (side : DoorSide) : List Byte :=
  codeByte 1 ++ codeByte oven ++ codeByte (doorCode side)

/-- The body of a PERMIT or a REFUSE in an answer slot, and its kind (R139). -/
def answerBody : AnswerBody → List Byte
  | .permit kind oven side hold => codeByte kind ++ codeByte oven ++ codeByte side ++ signedBytes 2 hold
  | .refuse kind oven reason => codeByte kind ++ codeByte oven ++ codeByte reason

/-- See `answerBody`. -/
def answerKind : AnswerBody → Nat
  | .permit _ _ _ _ => Kind.permit
  | .refuse _ _ _ => Kind.refuse

/-- An EVENT body (R140): kind, oven, station, detail, stamp. -/
def eventBody (k : EventKind) (oven station : Nat) (detail stamp : Int) : List Byte :=
  codeByte k.code ++ codeByte oven ++ codeByte station ++ signedBytes 2 detail ++ signedBytes 4 stamp

/-- An ANSWER body (R140): request code, status, stamp, data. -/
def answerTelegramBody (code status : Nat) (stamp : Int) (data : List Byte) : List Byte :=
  codeByte code ++ codeByte status ++ signedBytes 4 stamp ++ data

end Sys2Proof.Machine
end

