-- ==== Sys2Proof/Machine/Ops.lean ====
section
/-!
DEFINITION. The shared operations: access to numbered records, the stations of the poll list, the control
transmit queue (R141 to R143), events (R180), and the slots of the outbound records (R163, R164).
-/
namespace Sys2Proof.Machine

open Sys2Proof

/-! ## Numbered records -/

/-- The record at index `i`, or `d` where there is none. -/
def readAt {α : Type} {n : Nat} (t : Vector α n) (i : Nat) (d : α) : α :=
  t[i]?.getD d

/-- The table with the record at index `i` replaced; nothing where there is none. -/
def writeAt {α : Type} {n : Nat} (t : Vector α n) (i : Nat) (a : α) : Vector α n :=
  t.setIfInBounds i a

/-- The record of number `k` in a table numbered from 1. -/
def readNum {α : Type} {n : Nat} (t : Vector α n) (k : Nat) (d : α) : α :=
  if k = 0 then d else readAt t (k - 1) d

/-- The table, numbered from 1, with the record of number `k` replaced. -/
def writeNum {α : Type} {n : Nat} (t : Vector α n) (k : Nat) (a : α) : Vector α n :=
  if k = 0 then t else writeAt t (k - 1) a

/-! ## One modifier a block: no block's change touches another's state -/

def State.onOvt (f : OvenTable → OvenTable) (s : State) : State := { s with ovt := f s.ovt }
def State.onIlk (f : Interlock → Interlock) (s : State) : State := { s with ilk := f s.ilk }
def State.onSch (f : Runner → Runner) (s : State) : State := { s with sch := f s.sch }
def State.onQtc (f : Track → Track) (s : State) : State := { s with qtc := f s.qtc }
def State.onDsm (f : Doors → Doors) (s : State) : State := { s with dsm := f s.dsm }
def State.onOpr (f : Regulator → Regulator) (s : State) : State := { s with opr := f s.opr }
def State.onCpi (f : ControlPort → ControlPort) (s : State) : State := { s with cpi := f s.cpi }
def State.onFpi (f : FieldPort → FieldPort) (s : State) : State := { s with fpi := f s.fpi }
def State.onCls (f : Classifier → Classifier) (s : State) : State := { s with cls := f s.cls }
def State.onFpl (f : Poller → Poller) (s : State) : State := { s with fpl := f s.fpl }
def State.onMgt (f : Management → Management) (s : State) : State := { s with mgt := f s.mgt }

/-! ## Ovens -/

/-- Now: the battery clock (00_scope.md 4.4). -/
def State.now (s : State) : Int := s.ovt.clock

/-- The configuration entry of oven `n`, if loaded (R1). -/
def ovenConfig (s : State) (n : Nat) : Option OvenConfig :=
  readNum s.ovt.config n none

/-- Whether oven `n` is configured (R1); no number outside 1 to 128 is. -/
def configured (s : State) (n : Nat) : Bool :=
  (ovenConfig s n).isSome

/-- N_OVEN: the highest configured oven number, or 0 (R1). -/
def nOven (s : State) : Nat :=
  s.ovt.config.toList.zipIdx.foldl (fun acc c => if c.1.isSome then c.2 + 1 else acc) 0

/-- The configured oven numbers, rising. -/
def configuredOvens (s : State) : List Nat :=
  s.ovt.config.toList.zipIdx.filterMap fun c => if c.1.isSome then some (c.2 + 1) else none

/-- The record of oven `n` (Table 1-3). -/
def ovenRec (s : State) (n : Nat) : OvenRecord :=
  readNum s.ovt.ovens n {}

/-- Replaces the record of oven `n`. -/
def setOvenRec (n : Nat) (r : OvenRecord) (s : State) : State :=
  s.onOvt fun o => { o with ovens := writeNum o.ovens n r }

/-! ## Stations (Chapter 9); positions count from 0 -/

/-- The poll list entry at a position. -/
def pollEntry (s : State) (p : Nat) : PollEntry :=
  readAt s.fpl.list p {}

/-- The station record at a position. -/
def station (s : State) (p : Nat) : StationRecord :=
  readAt s.fpl.stations p {}

/-- Replaces the station record at a position. -/
def setStation (p : Nat) (r : StationRecord) (s : State) : State :=
  s.onFpl fun f => { f with stations := writeAt f.stations p r }

/-- The positions in use, in poll-list order. -/
def positions (s : State) : List Nat :=
  List.range s.fpl.length

/-- The position of the station with an address. -/
def posOfAddress (s : State) (a : Nat) : Option Nat :=
  (positions s).find? fun p => (pollEntry s p).address = a

/-- The position of the station of a class and instance (9.2: "the PM", "car 1", "offtake station 5"). -/
def posOfClass (s : State) (c : StationClass) (inst : Nat) : Option Nat :=
  (positions s).find? fun p => (pollEntry s p).cls = c && (pollEntry s p).inst = inst

/-- The address of the station of a class and instance, 0 where the poll list has none. -/
def addressOfClass (s : State) (c : StationClass) (inst : Nat) : Nat :=
  match posOfClass s c inst with
  | some p => (pollEntry s p).address
  | none => 0

/-- Whether the station at a position, if there is one, is ACTIVE. -/
def activeAt (s : State) : Option Nat → Bool
  | some p => (station s p).state = .active
  | none => false

/-- The alignment entry of a position (R16). -/
def alignment (s : State) (p : Nat) : Alignment :=
  readAt s.ovt.align p {}

/-- Replaces the alignment entry of a position. -/
def setAlignment (p : Nat) (a : Alignment) (s : State) : State :=
  s.onOvt fun o => { o with align := writeAt o.align p a }

/-- The class and instance of a run machine or door machine's station. -/
def doorMachineClass : DoorSide → StationClass
  | .ps => .pm
  | .cs => .cgm

/-- The position of the door machine of a side: the PM or the CGM. -/
def doorMachinePos (s : State) (side : DoorSide) : Option Nat :=
  posOfClass s (doorMachineClass side) 1

/-- The side whose door machine stands at a position, if it is the PM's or the CGM's. -/
def doorSideAt (s : State) (p : Nat) : Option DoorSide :=
  match (pollEntry s p).cls with
  | .pm => some .ps
  | .cgm => some .cs
  | .cc => none
  | .car => none
  | .os => none
  | .aux => none

/-- The car instance whose station stands at a position, if it is a car's. -/
def carAt (s : State) (p : Nat) : Option Nat :=
  if (pollEntry s p).cls = .car then some (pollEntry s p).inst else none

/-! ## The control transmit queue (R141, R142, R143) -/

/-- A waiting copy of a POSITION from a source (R142), known by its kind and source byte: the echo of a control-port
telegram of that kind is one too (log 53). -/
def isPositionCopy (source : Byte) (i : QueueItem) : Bool :=
  i.sort = .copy && kindOf i.telegram = Kind.position && i.telegram.source = source

/-- Whether an item is a copy. -/
def isCopy (i : QueueItem) : Bool := i.sort = .copy

/-- Whether an item is an EVENT. -/
def isEvent (i : QueueItem) : Bool := i.sort = .event

/-- The queue after an item is offered: the replacement of R142, and the dropping of R143 when full. -/
def queueAfter (q : List QueueItem) (i : QueueItem) : List QueueItem :=
  if isPositionCopy i.telegram.source i && q.any (isPositionCopy i.telegram.source) then
    q.eraseP (isPositionCopy i.telegram.source) ++ [i]
  else if q.length < 32 then q ++ [i]
  else if q.any isCopy then q.eraseP isCopy ++ [i]
  else if (i.sort = .answer || i.sort = .refuse) && q.any isEvent then q.eraseP isEvent ++ [i]
  else q

/-- A transmitter that is not sending takes the head of the queue, which leaves it (R141). -/
def startTransmitter (c : ControlPort) : ControlPort :=
  match c.sending, c.queue with
  | none, i :: rest => { c with sending := some i.telegram, queue := rest }
  | none, [] => c
  | some _, _ => c

/-- Queues an item for the control station. -/
def enqueue (i : QueueItem) (s : State) : State :=
  s.onCpi fun c => startTransmitter { c with queue := queueAfter c.queue i }

/-- The stamp of an EVENT or ANSWER formed now (R5). -/
def stamp (s : State) : Int :=
  wrap32 (s.ovt.clock + s.ovt.wallOffset)

/-- A telegram the part originates to the control station (R134). -/
def toControl (s : State) (kind : Nat) (body : List Byte) : Telegram :=
  originated s.mgt.address 0 kind body

/-- Raises an event (R180): counts it, saturating at 255, and queues an EVENT where its kind is enabled. -/
def raise (k : EventKind) (oven stationAddr : Nat) (detail : Int) (s : State) : State :=
  let i := k.code - 1
  let s := s.onMgt fun m => { m with counts := writeAt m.counts i (min 255 (readAt m.counts i 0 + 1)) }
  if readAt s.mgt.enabled i false then
    enqueue ⟨.event, toControl s Kind.event (eventBody k oven stationAddr detail (stamp s))⟩ s
  else s

/-- Queues a REFUSE to the control station (R139): the refused kind, the oven and the reason. -/
def refuseControl (kind oven reason : Nat) (s : State) : State :=
  enqueue ⟨.refuse, toControl s Kind.refuse (codeByte kind ++ codeByte oven ++ codeByte reason)⟩ s

/-- Queues a copy of a telegram (7.4.1). -/
def queueCopy (t : Telegram) (s : State) : State :=
  enqueue ⟨.copy, t⟩ s

/-! ## Outbound records (R163, R164) -/

/-- The outbound record of a position. -/
def outbound (s : State) (p : Nat) : Outbound :=
  readAt s.fpl.outbound p {}

/-- Replaces the outbound record of a position. -/
def setOutbound (p : Nat) (o : Outbound) (s : State) : State :=
  s.onFpl fun f => { f with outbound := writeAt f.outbound p o }

/-- Whether an order is a HALT. -/
def isHalt (o : Order) : Bool := kindOf o.telegram = Kind.halt

/-- Writes an answer; it takes the place of the one waiting (R163). -/
def placeAnswer (p : Nat) (a : AnswerBody) (s : State) : State :=
  setOutbound p { outbound s p with answer := some { body := a } } s

/-- The task record of a side's door machine (Table 5-4). -/
def taskOf (s : State) : DoorSide → TaskRecord
  | .ps => s.dsm.taskPm
  | .cs => s.dsm.taskCgm

/-- Replaces a task record. -/
def setTask (side : DoorSide) (r : TaskRecord) (s : State) : State :=
  s.onDsm fun d =>
    match side with
    | .ps => { d with taskPm := r }
    | .cs => { d with taskCgm := r }

/-- A report that an order has left the slot of a position undelivered: a TASK of the door seal monitor ends
a record in PLACED (R164, R112). -/
def orderLeftUndelivered (p : Nat) (o : Order) (s : State) : State :=
  match doorSideAt s p with
  | some side => if o.origin = .dsm && (taskOf s side).stage = .placed then setTask side {} s else s
  | none => s

/-- Puts an order into a slot that the rules of R164 give it. A HALT over a waiting HALT is that waiting HALT,
with the new source and reason: it keeps its place in a poll in progress. The whole new telegram is put, its kind byte with
it (log 56). -/
def putOrder (p : Nat) (o : Order) (s : State) : State :=
  match (outbound s p).order with
  | none => setOutbound p { outbound s p with order := some o } s
  | some w =>
    if isHalt w then setOutbound p { outbound s p with order := some { o with carried := w.carried } } s
    else orderLeftUndelivered p w (setOutbound p { outbound s p with order := some o } s)

/-- Offers an order to the slot of a position (R164): `none` is the refusal HALT_PENDING. -/
def offerOrder (p : Nat) (o : Order) (s : State) : Option State :=
  match (outbound s p).order with
  | some w => if isHalt w && !isHalt o then none else some (putOrder p o s)
  | none => some (putOrder p o s)

/-- A HALT of the part to a station. -/
def haltOrder (s : State) (origin : Origin) (p reason : Nat) : Order :=
  { telegram := originated s.mgt.address (pollEntry s p).address Kind.halt (codeByte reason), origin := origin }

/-- Places a HALT of the part in the slot of a position; a HALT is never refused (R164). -/
def placeHalt (origin : Origin) (reason : Nat) (p : Option Nat) (s : State) : State :=
  match p with
  | some p => putOrder p (haltOrder s origin p reason) s
  | none => s

end Sys2Proof.Machine
end

