-- ==== Sys2Proof/Machine/Flags.lean ====
section
/-!
DEFINITION. Conditions and derived values that several blocks read: the instants of an oven (R6), the states
of its doors (Chapter 5), the freshness of its valve feedback (R27, R115), and the run machines (3.4).
-/
namespace Sys2Proof.Machine

open Sys2Proof

/-! ## Instants of an oven (R6) -/

/-- The target coking time of oven `n`; 0 for an entry never loaded (log 8). -/
def targetOf (s : State) (n : Nat) : Nat :=
  match ovenConfig s n with
  | some c => c.target
  | none => 0

/-- An instant has been reached when now is equal to or greater than it (R6). -/
def reached (s : State) (i : Int) : Bool :=
  i ≤ s.now

/-- Elapsed coking minutes: floor((now − stamp) / 60). -/
def elapsedMinutes (s : State) (n : Nat) : Int :=
  (s.now - (ovenRec s n).stamp) / 60

/-- Ready instant: stamp + (T − E) · 60. -/
def readyInstant (s : State) (n : Nat) : Int :=
  (ovenRec s n).stamp + ((targetOf s n : Int) - s.ovt.timing.early) * 60

/-- Due instant: stamp + T · 60. -/
def dueInstant (s : State) (n : Nat) : Int :=
  (ovenRec s n).stamp + (targetOf s n : Int) * 60

/-- Late instant: stamp + (T − W_L) · 60. -/
def lateInstant (s : State) (n : Nat) : Int :=
  (ovenRec s n).stamp + ((targetOf s n : Int) - s.ovt.timing.lateWindow) * 60

/-- Charge-hold end: stamp + C_H · 60. -/
def chargeHoldEnd (s : State) (n : Nat) : Int :=
  (ovenRec s n).stamp + (s.ovt.timing.chargeHold : Int) * 60

/-! ## Doors (Chapter 5) -/

/-- The two doors of oven `n`. -/
def doorPair (s : State) (n : Nat) : DoorPair :=
  readNum s.dsm.doors n {}

/-- The record of a door. -/
def doorRec (s : State) (d : Door) : DoorRecord :=
  match d.side with
  | .ps => (doorPair s d.oven).ps
  | .cs => (doorPair s d.oven).cs

/-- Replaces the record of a door. -/
def setDoorRec (d : Door) (r : DoorRecord) (s : State) : State :=
  s.onDsm fun m =>
    { m with
      doors := writeNum m.doors d.oven
        (match d.side with
         | .ps => { readNum m.doors d.oven {} with ps := r }
         | .cs => { readNum m.doors d.oven {} with cs := r }) }

/-- Whether a door is off (Table 5-2). -/
def isOff (r : DoorRecord) : Bool := r.state = .removed

/-- Both doors of oven `n` REMOVED (term 9, R26). -/
def bothDoorsOff (s : State) (n : Nat) : Bool :=
  isOff (doorPair s n).ps && isOff (doorPair s n).cs

/-- Neither door of oven `n` REMOVED (term 10, R26). -/
def bothDoorsOn (s : State) (n : Nat) : Bool :=
  !isOff (doorPair s n).ps && !isOff (doorPair s n).cs

/-! ## Valve feedback -/

/-- The regulator record of oven `n` (Table 6-4). -/
def regRec (s : State) (n : Nat) : RegRecord :=
  readNum s.opr.records n {}

/-- Replaces the regulator record of oven `n`. -/
def setRegRec (n : Nat) (r : RegRecord) (s : State) : State :=
  s.onOpr fun o => { o with records := writeNum o.records n r }

/-- The fresh feedback of oven `n`, if there is one (R27, R115): the current round number is equal to or
greater than the round of its recording and exceeds it by no more than 2. -/
def freshFeedback (s : State) (n : Nat) : Option Nat :=
  match (regRec s n).feedback with
  | some f => if f.round ≤ s.fpl.roundNumber && s.fpl.roundNumber ≤ f.round + 2 then some f.value else none
  | none => none

/-! ## Machines -/

/-- The CGM's last POSITION report carried the guide-locked status (R25, R137); of a status above 3 the low bit is read
(log 52). -/
def guideLocked (s : State) (p : Nat) : Bool :=
  (station s p).status % 2 = 1

/-- The CGM is aligned at oven `n` with its guide locked (term 7, R25, R58). -/
def guideLockedAt (s : State) (n : Nat) : Bool :=
  match posOfClass s .cgm 1 with
  | some p => (alignment s p).oven = n && n != 0 && guideLocked s p
  | none => false

/-- The station of a class and instance has alignment oven `n`. -/
def alignedAt (s : State) (c : StationClass) (n : Nat) : Bool :=
  match posOfClass s c 1 with
  | some p => (alignment s p).oven = n && n != 0
  | none => false

/-- The receiving set of a car contains `n` (R17). -/
def receivingAt (s : State) (car n : Nat) : Bool :=
  match posOfClass s .car car with
  | some p => (alignment s p).receiving.contains n
  | none => false

/-- The record of car 1 or 2 (Table 4-4). -/
def carRec (s : State) (c : Nat) : CarRecord :=
  readNum s.qtc.cars c {}

/-- Replaces the record of a car. -/
def setCarRec (c : Nat) (r : CarRecord) (s : State) : State :=
  s.onQtc fun q => { q with cars := writeNum q.cars c r }

/-- The run record. -/
def State.run (s : State) : RunRecord := s.sch.run

/-- Replaces the run record through a change. -/
def onRun (f : RunRecord → RunRecord) (s : State) : State :=
  s.onSch fun r => { r with run := f r.run }

/-- A run is RUNNING or HELD. -/
def runEngaged (s : State) : Bool :=
  s.run.state = .running || s.run.state = .held

/-- The station at a position is a run machine: the PM, the CGM, or the car of the run record (3.4). -/
def isRunMachine (s : State) (p : Nat) : Bool :=
  match (pollEntry s p).cls with
  | .pm => true
  | .cgm => true
  | .car => s.run.car = some (pollEntry s p).inst
  | .cc => false
  | .os => false
  | .aux => false

/-- The oven at the run's cursor. -/
def currentOven (s : State) : Nat :=
  (readNum s.sch.series s.run.cursor {}).oven

end Sys2Proof.Machine
end

