-- ==== Sys2Proof/Machine/Regulator.lean ====
section
/-!
DEFINITION. The offtake pressure regulator (Chapter 6): mode derivation, the window and its average, the
update, the mismatch test and the valve images. What it hands to the interlock is in FieldReports.lean.
-/
namespace Sys2Proof.Machine

open Sys2Proof

/-! ## Modes (R119, R120) -/

/-- An active DOOR_OFF permit names oven `n` (Table 6-2). -/
def doorOffActive (s : State) (n : Nat) : Bool :=
  s.ilk.permits.any fun p => p.kind = .doorOff && p.oven = n

/-- The mode of Table 6-2 for oven `n`. -/
def derivedMode (s : State) (n : Nat) : PressureMode :=
  let ph := (ovenRec s n).phase
  if !configured s n || ph = .outOfService then .out
  else if ph = .doorsOff || ph = .pushing || ph = .pushInterrupted ||
      (ph = .empty && !bothDoorsOn s n) || doorOffActive s n then .isolated
  else if ph = .empty || ph = .charging ||
      ((ph = .coking || ph = .ready) && !reached s (chargeHoldEnd s n)) then .charge
  else if (ph = .coking || ph = .ready) && reached s (lateInstant s n) then .late
  else .coking

/-- The entry of a mode in the pressure mode table (R118). -/
def modeEntry (s : State) (m : PressureMode) : ModeEntry :=
  readAt s.opr.modes m.code ⟨0, 0, 0, false⟩

/-- A valve position clamped to the limits of a mode (R120). -/
def clampValve (e : ModeEntry) (v : Nat) : Nat :=
  min (max v e.vmin) e.vmax

/-- Marks the image of an offtake station instance dirty (R127). -/
def markDirty (inst : Nat) (s : State) : State :=
  s.onOpr fun o => { o with dirty := writeNum o.dirty inst true }

/-- Whether the image of an instance is dirty. -/
def isDirty (s : State) (inst : Nat) : Bool :=
  readNum s.opr.dirty inst false

/-- The instance of the offtake station that serves oven `n`, 0 for an unconfigured oven. -/
def servingStation (s : State) (n : Nat) : Nat :=
  match ovenConfig s n with
  | some c => c.station
  | none => 0

/-- The address of the offtake station that serves oven `n`. -/
def servingAddress (s : State) (n : Nat) : Nat :=
  addressOfClass s .os (servingStation s n)

/-- Gives the regulator record of oven `n` a new value, and marks the image dirty if that moves the valve (R127). Where two
ovens name one slot, the image is marked for either, though it holds one of them: the model's choice (log 31). -/
def putReg (n : Nat) (r : RegRecord) (s : State) : State :=
  if r.valve = (regRec s n).valve then setRegRec n r s
  else markDirty (servingStation s n) (setRegRec n r s)

/-- Modes in which no sample enters the window (R116). -/
def isShut (m : PressureMode) : Bool := m = .out || m = .isolated

/-- The limit counter back to 0, with direction none and limit reported cleared (R124). -/
def clearLimit (r : RegRecord) : RegRecord :=
  { r with limitCount := 0, limitDir := none, limitReported := false }

/-- The window emptied, the average absent and the update counter 0 (R116). -/
def clearWindow (r : RegRecord) : RegRecord :=
  { clearLimit r with window := [], average := none, updates := 0 }

/-- The record of an oven after its mode changes (R120). -/
def inMode (m : PressureMode) (e : ModeEntry) (r : RegRecord) : RegRecord :=
  let r := { clearLimit r with mode := m, valve := clampValve e r.valve, correcting := true, updates := 0 }
  if isShut m then clearWindow r else r

/-- Derives the mode of oven `n` afresh; a mode that stays changes nothing (R119). -/
def oprDerive (n : Nat) (s : State) : State :=
  let m := derivedMode s n
  if m = (regRec s n).mode then s else putReg n (inMode m (modeEntry s m) (regRec s n)) s

/-- All oven numbers. -/
def allOvens : List Nat := (List.range 128).map (· + 1)

/-- Derives the mode of each oven of a list. -/
def oprDeriveAll (ovens : List Nat) (s : State) : State :=
  ovens.foldl (fun s n => oprDerive n s) s

/-- Clamps every oven's valve to the limits of its mode, after a pressure mode table load (R118). -/
def oprClampAll (s : State) : State :=
  allOvens.foldl
    (fun s n =>
      let r := regRec s n
      putReg n { r with valve := clampValve (modeEntry s r.mode) r.valve } s) s

/-! ## The average (R117) -/

/-- The window weights, newest sample first. -/
def weights (c : RegConfig) : List Nat := [c.w0, c.w1, c.w2, c.w3]

/-- The weighted sum of the samples present. -/
def weightedSum (c : RegConfig) (window : List Int) : Int :=
  ((weights c).zip window).foldl (fun acc p => acc + p.1 * p.2) 0

/-- The weight of the samples present. -/
def weightOf (c : RegConfig) (window : List Int) : Nat :=
  ((weights c).take window.length).foldl (· + ·) 0

/-- The average of a window, rounded to the nearest, halves upward; with no weight it keeps its value. -/
def averageOf (c : RegConfig) (window : List Int) (old : Option Int) : Option Int :=
  let w : Int := weightOf c window
  if w = 0 then old else some ((2 * weightedSum c window + w) / (2 * w))

/-- Every average computed afresh, after a load of the weights (R122). -/
def oprReweigh (s : State) : State :=
  s.onOpr fun o =>
    { o with records := o.records.map fun r => { r with average := averageOf o.config r.window r.average } }

/-! ## The update (R121, R123, R124) -/

/-- A door is LEAKING or overdue (R121). -/
def drawsHarder (d : DoorRecord) : Bool := d.state = .leaking || d.overdue

/-- The target of oven `n` as formed now (R121). -/
def targetPressure (s : State) (n : Nat) : Int :=
  let t := (modeEntry s (regRec s n).mode).target
  if drawsHarder (doorPair s n).ps || drawsHarder (doorPair s n).cs then
    max (-32768) (t - s.opr.config.leakOffset)
  else t

/-- The direction of a step for an error. -/
def stepDir (e : Int) : LimitDir := if 0 < e then .high else .low

/-- The magnitude of a step (R123). -/
def stepSize (c : RegConfig) (e : Int) : Nat :=
  if e.natAbs ≤ c.fast then c.step else 2 * c.step

/-- The position a step aims at, clamped to the limits of the mode (R123). -/
def stepTo (c : RegConfig) (m : ModeEntry) (e : Int) (v : Nat) : Nat :=
  clampValve m (if 0 < e then v + stepSize c e else v - stepSize c e)

/-- An update held at a bound (R124). -/
def countLimit (n : Nat) (e avg : Int) (s : State) : State :=
  let r := regRec s n
  let dir := stepDir e
  let same := r.limitDir = some dir
  let count := min s.opr.config.limit ((if same then r.limitCount else 0) + 1)
  let said := same && r.limitReported
  let due := s.opr.config.limit ≤ count && !said
  let s := setRegRec n { r with limitCount := count, limitDir := some dir, limitReported := said || due } s
  if due then
    raise (match dir with | .high => .pressureHigh | .low => .pressureLow) n (servingAddress s n) avg s
  else s

/-- A step due for oven `n` (R123). -/
def oprStep (n : Nat) (e avg : Int) (s : State) : State :=
  let r := regRec s n
  let v := stepTo s.opr.config (modeEntry s r.mode) e r.valve
  if v = r.valve then countLimit n e avg s else putReg n { clearLimit r with valve := v } s

/-- An update of oven `n` (R123), the counter's return to 0 apart. -/
def oprUpdate (n : Nat) (s : State) : State :=
  let r := regRec s n
  match r.average with
  | none => s
  | some avg =>
    if !(modeEntry s r.mode).regulate || (ovenRec s n).freeze then s
    else
      let e := avg - targetPressure s n
      if r.correcting then
        if e.natAbs ≤ s.opr.config.stable then setRegRec n { clearLimit r with correcting := false } s
        else oprStep n e avg s
      else if s.opr.config.wide < e.natAbs then oprStep n e avg (setRegRec n { r with correcting := true } s)
      else s

/-- The pressure of a slot taken for oven `n` (R116). -/
def oprPressure (n : Nat) (p : Int) (s : State) : State :=
  let r := regRec s n
  if r.hold then setRegRec n { r with hold := false } s
  else if isShut r.mode then s
  else
    let window := (p :: r.window).take 4
    let count := r.updates + 1
    let s := setRegRec n
      { r with window := window, average := averageOf s.opr.config window r.average, updates := count } s
    if s.opr.config.interval ≤ count then
      let s := oprUpdate n s
      setRegRec n { regRec s n with updates := 0 } s
    else s

/-! ## Feedback (R115, R128) -/

/-- Records the feedback of a slot taken for oven `n` with the current round (R115). -/
def oprFeedback (n fb : Nat) (s : State) : State :=
  setRegRec n { regRec s n with feedback := some ⟨fb, s.fpl.roundNumber⟩ } s

/-- A feedback disagrees with a commanded position (R128). -/
def disagrees (fb v : Nat) : Bool := 100 < ((fb * 5 : Int) - v).natAbs

/-- The mismatch test of a slot taken for oven `n` (R128). The image asked about is that of the oven's station, also where its
slot there holds another oven (log 31). -/
def oprMismatch (n fb : Nat) (s : State) : State :=
  let r := regRec s n
  if r.hold then s
  else if isDirty s (servingStation s n) then setRegRec n { r with mismatches := 0 } s
  else if disagrees fb r.valve then
    let count := min 3 (r.mismatches + 1)
    let due := count = 3 && !r.mismatchReported
    let s := setRegRec n { r with mismatches := count, mismatchReported := r.mismatchReported || due } s
    if due then raise .valveMismatch n (servingAddress s n) r.valve s else s
  else setRegRec n { r with mismatches := 0, mismatchReported := false } s

/-- The slot `k` of instance `inst` is taken for oven `m` (R114). -/
def slotTaken (s : State) (inst k m : Nat) (valid : Bool) (fb : Nat) : Bool :=
  match ovenConfig s m with
  | some c => c.station = inst && c.slot = k && valid && fb ≤ 200
  | none => false

/-! ## Valve images (R127) -/

/-- The oven that slot `k` of the image of an instance holds: the lowest-numbered one (log 31). -/
def imageOven (s : State) (inst k : Nat) : Option Nat :=
  (configuredOvens s).find? fun n =>
    match ovenConfig s n with
    | some c => c.station = inst && c.slot = k
    | none => false

/-- The ovens of the eight slots of an image. -/
def imageOvens (s : State) (inst : Nat) : List (Option Nat) :=
  (List.range 8).map (imageOven s inst)

/-- The eight positions of an image as it stands. -/
def valveImage (s : State) (inst : Nat) : List Nat :=
  (imageOvens s inst).map fun o =>
    match o with
    | some n => (regRec s n).valve
    | none => 0

/-- The offtake station instances. -/
def instances : List Nat := (List.range 16).map (· + 1)

/-- Marks the images whose slots hold other ovens than in `before` (R127). -/
def markMoved (before s : State) : State :=
  (instances.filter fun i => imageOvens before i ≠ imageOvens s i).foldl (fun s i => markDirty i s) s

/-! ## Departures and restarts (R126, R130) -/

/-- The ovens whose configuration names an instance. -/
def ovensOf (s : State) (inst : Nat) : List Nat :=
  (configuredOvens s).filter fun n => servingStation s n = inst

/-- A record whose station has left ACTIVE (R126). -/
def heldRecord (r : RegRecord) : RegRecord :=
  { clearWindow r with mismatches := 0, mismatchReported := false, hold := true }

/-- An offtake station leaves ACTIVE (R126, R127). -/
def oprStationLeft (inst : Nat) (s : State) : State :=
  markDirty inst ((ovensOf s inst).foldl (fun s n => setRegRec n (heldRecord (regRec s n)) s) s)

/-- Clears the freeze flag of every oven (R130). -/
def clearFreezes (s : State) : State :=
  s.onOvt fun o => { o with ovens := o.ovens.map fun r => { r with freeze := false } }

/-- The regulator at warm restart, before the mode derivation that closes it (R130). -/
def oprWarm (s : State) : State :=
  clearFreezes
    (s.onOpr fun o =>
      { o with
        records := o.records.map fun r => { clearWindow r with mismatches := 0, mismatchReported := false } })

end Sys2Proof.Machine
end

