-- ==== Sys2Proof/Machine/Doors.lean ====
section
/-!
DEFINITION. The door seal monitor (Chapter 5): door records, the leak list, the freedom test and the reseat
tasks. The evaluation of a SEAL, which hands on to other blocks, is in FieldReports.lean.
-/
namespace Sys2Proof.Machine

open Sys2Proof

/-! ## The leak list (R106 to R109) -/

/-- The severity of a door, none unless LEAKING. -/
def severityOf (s : State) (d : Door) : Option Severity := (doorRec s d).severity

/-- Whether a door is MAJOR. -/
def isMajor (s : State) (d : Door) : Bool := severityOf s d = some .major

/-- The entries of the leak list as a READ shows them: door, severity and leak instant (R106). -/
def leakEntries (s : State) : List (Door × Option Severity × Int) :=
  s.dsm.leaks.map fun d => (d, severityOf s d, (doorRec s d).leakInstant)

/-- A door put at the tail of its class (R107). -/
def joinClass (s : State) (d : Door) (l : List Door) : List Door :=
  if isMajor s d then l.takeWhile (isMajor s) ++ d :: l.dropWhile (isMajor s) else l ++ [d]

/-- Sets the leak list. -/
def setLeaks (l : List Door) (s : State) : State := s.onDsm fun m => { m with leaks := l }

/-- Sets a door's listed flag. -/
def setListed (d : Door) (b : Bool) (s : State) : State := setDoorRec d { doorRec s d with listed := b } s

/-- Lists a door at the tail of its class. -/
def listDoor (d : Door) (s : State) : State :=
  setListed d true (setLeaks (joinClass s d s.dsm.leaks) s)

/-- A LEAKING door is offered to the list in its class; `station` sent the SEAL (R107). -/
def offerDoor (d : Door) (station : Nat) (s : State) : State :=
  if s.dsm.leaks.length < 32 then listDoor d s
  else
    match s.dsm.leaks.getLast? with
    | some last =>
      if isMajor s d && !isMajor s last then
        listDoor d (setListed last false (setLeaks s.dsm.leaks.dropLast s))
      else
        raise .leakListFull d.oven station
          (doorCode d.side * 256 + (if isMajor s d then Severity.code .major else Severity.code .minor) : Nat) s
    | none => listDoor d s

/-- All doors in rising oven order, PS before CS. -/
def allDoors : List Door :=
  (List.range 128).flatMap fun i => [⟨i + 1, .ps⟩, ⟨i + 1, .cs⟩]

/-- The unlisted LEAKING doors of a severity. -/
def unlisted (s : State) (v : Severity) : List Door :=
  allDoors.filter fun d => (doorRec s d).state = .leaking && !(doorRec s d).listed && severityOf s d = some v

/-- The first of the doors whose key is least. -/
def leastBy (key : Door → Int) : List Door → Option Door
  | [] => none
  | d :: rest =>
    match leastBy key rest with
    | some e => if key e < key d then some e else some d
    | none => some d

/-- The unlisted door that a freed place goes to (R109). -/
def relistChoice (s : State) : Option Door :=
  let key := fun d => (doorRec s d).leakInstant
  match leastBy key (unlisted s .major) with
  | some d => some d
  | none => leastBy key (unlisted s .minor)

/-- An entry leaves the list because its door left LEAKING, and an unlisted door takes the place (R109). A door
that had no entry frees no place. -/
def leaveList (d : Door) (s : State) : State :=
  if s.dsm.leaks.contains d then
    let s := setListed d false (setLeaks (s.dsm.leaks.erase d) s)
    match relistChoice s with
    | some e => listDoor e s
    | none => s
  else s

/-! ## Completions of the door kinds (R98, R99) -/

/-- DOOR_OFF completed OK (R98). -/
def doorRemoved (d : Door) (s : State) : State :=
  let r := doorRec s d
  leaveList d
    (setDoorRec d { r with state := .removed, severity := none, retries := 0, retryDue := false, overdue := false } s)

/-- DOOR_ON completed OK (R99). -/
def doorReplaced (d : Door) (s : State) : State :=
  let r := doorRec s d
  leaveList d
    (setDoorRec d
      { r with
        state := .unsealed, severity := none, retries := 0, retryDue := false, overdue := false, doorOn := s.now } s)

/-! ## The seal deadline (R105) -/

/-- The seal deadline of a door has been reached, its overdue flag clear. -/
def overdueNow (s : State) (d : Door) : Bool :=
  let r := doorRec s d
  r.state = .unsealed && !r.overdue && reached s (r.doorOn + s.dsm.config.deadline * 60)

/-! ## Reseat tasks (R110 to R112) -/

/-- The station at a position holds an entry in the active permit set. -/
def holdsPermit (s : State) (p : Nat) : Bool :=
  s.ilk.permits.any fun e => e.station = (pollEntry s p).address

/-- No run holds a door machine (R110). -/
def runLeavesFree (s : State) : Bool :=
  match s.run.state with
  | .idle => true
  | .stopped => true
  | .held => s.run.step = .wait
  | .running =>
    s.run.step = .wait && (s.dsm.config.allowance : Int) ≤ (s.run.planned - s.sch.timing.lead) - s.now

/-- A door machine is free for a task (R110); its position when it is. -/
def freeMachine (s : State) (side : DoorSide) : Option Nat :=
  match doorMachinePos s side with
  | some p =>
    if s.mgt.mode = .service && (station s p).state = .active && (taskOf s side).stage = .none &&
        (outbound s p).order.isNone && !holdsPermit s p && runLeavesFree s then some p
    else none
  | none => none

/-- A door can be chosen for a task (R111). -/
def taskable (s : State) (d : Door) : Bool :=
  let ph := (ovenRec s d.oven).phase
  configured s d.oven && (ph = .coking || ph = .ready || ph = .empty) && bothDoorsOn s d.oven

/-- The retry due doors of a side that can be chosen. -/
def retryDoors (s : State) (side : DoorSide) : List Door :=
  allDoors.filter fun d =>
    d.side = side && (doorRec s d).state = .unsealed && (doorRec s d).retryDue && taskable s d

/-- The door that a task of a side names, and whether it is a retry (R111). -/
def taskChoice (s : State) (side : DoorSide) : Option (Door × Bool) :=
  match leastBy (fun d => (doorRec s d).doorOn) (retryDoors s side) with
  | some d => some (d, true)
  | none =>
    match s.dsm.leaks.find? fun d => d.side = side && taskable s d with
    | some d => some (d, false)
    | none => none

/-- A RESEAT TASK of the part to a station. -/
def reseatOrder (s : State) (p : Nat) (d : Door) : Order :=
  { telegram := originated s.mgt.address (pollEntry s p).address Kind.task (reseatBody d.oven d.side), origin := .dsm }

/-- The freedom test of a side's door machine, and the task it leads to (R110, R111). -/
def dsmFree (side : DoorSide) (s : State) : State :=
  match freeMachine s side, taskChoice s side with
  | some p, some (d, retry) =>
    setTask side { stage := .placed, door := some d, retry := retry } (putOrder p (reseatOrder s p d) s)
  | some _, none => s
  | none, _ => s

/-- The freedom test of both door machines. -/
def dsmFreeBoth (s : State) : State := dsmFree .cs (dsmFree .ps s)

/-- The freedom test of the door machine at a position, if one stands there. -/
def dsmFreeAt (p : Nat) (s : State) : State :=
  match doorSideAt s p with
  | some side => dsmFree side s
  | none => s

/-- A poll that carried the TASK has been answered (R112). -/
def taskDelivered (side : DoorSide) (s : State) : State :=
  let t := taskOf s side
  if t.stage = .placed then
    setTask side { t with stage := .delivered, deadline := some (s.now + s.dsm.config.taskLimit) } s
  else s

/-- A RESEAT permit is granted for a door (R112). -/
def taskWorks (d : Door) (s : State) : State :=
  let t := taskOf s d.side
  if (t.stage = .placed || t.stage = .delivered) && t.door = some d then
    setTask d.side { t with stage := .working, deadline := none } s
  else s

/-- A RESEAT permit for a door leaves the set, released OK or not (R112). -/
def taskPermitEnds (d : Door) (ok : Bool) (s : State) : State :=
  let t := taskOf s d.side
  if t.stage = .working && t.door = some d then
    if ok then setTask d.side { t with stage := .testing, deadline := some (s.now + s.dsm.config.taskLimit) } s
    else setTask d.side {} s
  else s

/-- A SEAL naming a door has been evaluated (R112). -/
def taskSealed (d : Door) (s : State) : State :=
  if (taskOf s d.side).stage ≠ .none && (taskOf s d.side).door = some d then setTask d.side {} s else s

/-- The task deadline of a side's machine has been reached (R112). -/
def taskDue (s : State) (side : DoorSide) : Bool :=
  let t := taskOf s side
  match t.deadline with
  | some d => (t.stage = .delivered || t.stage = .testing) && reached s d
  | none => false

/-- The task deadline acts (R112): the record ends, and the machine may be free. -/
def taskLapses (side : DoorSide) (s : State) : State :=
  if taskDue s side then dsmFree side (setTask side {} s) else s

/-- The station of a side's door machine leaves ACTIVE (R112, R110). -/
def dsmStationLeft (side : DoorSide) (s : State) : State :=
  dsmFree side (setTask side {} s)

end Sys2Proof.Machine
end

