-- ==== Sys2Proof/Machine/Track.lean ====
section
/-!
DEFINITION. The quench track controller (Chapter 4): segments, occupancy and reservation, the handling of car
moves, the tower, and the car cycle. Handing a car to the schedule runner stands in Runner.lean.
-/
namespace Sys2Proof.Machine

open Sys2Proof

/-! ## Segments (4.2) -/

/-- Segment `k` of the table. -/
def segment (s : State) (k : Nat) : Segment := readNum s.qtc.segments k {}

/-- The segment numbers in use. -/
def segmentsInUse (s : State) : List Nat := (List.range s.qtc.count).map (· + 1)

/-- A stretch from `a` to `b` overlaps a segment. -/
def overlaps (a b : Int) (g : Segment) : Bool := a < g.stop && (g.start : Int) < b

/-- The segments in use that a stretch overlaps, rising. -/
def segmentsIn (s : State) (a b : Int) : List Nat :=
  (segmentsInUse s).filter fun k => overlaps a b (segment s k)

/-- Whether a segment is a TOWER segment. -/
def isTower (s : State) (k : Nat) : Bool := (segment s k).type = .tower

/-- The track extent (4.2). -/
def trackStart (s : State) : Nat := (segment s 1).start

/-- See `trackStart`. -/
def trackEnd (s : State) : Nat := (segment s s.qtc.count).stop

/-! ## A car's body (4.3) -/

/-- The configuration of a car, if loaded. -/
def carConfig (s : State) (c : Nat) : Option CarConfig := readNum s.qtc.config c none

/-- The half length of a car (4.3). -/
def halfLength (k : CarConfig) : Nat := k.length / 2

/-- The segments that the body of car `c` overlaps at a position; none without a configuration (R74, R76). -/
def bodySegments (s : State) (c : Nat) (p : Option Nat) : List Nat :=
  match carConfig s c, p with
  | some k, some p => segmentsIn s ((p : Int) - halfLength k) ((p : Int) + halfLength k)
  | some _, none => []
  | none, _ => []

/-- The other of the two cars. -/
def otherCar (c : Nat) : Nat := 3 - c

/-- Car `c` occupies or reserves segment `k`. -/
def holds (s : State) (c k : Nat) : Bool :=
  (carRec s c).occupied.contains k || (carRec s c).reserved.contains k

/-- Car `c` occupies the TOWER segment. -/
def occupiesTower (s : State) (c : Nat) : Bool := (carRec s c).occupied.any (isTower s)

/-- Recomputes the occupied segments of a car from its recorded position, and clears its reservations and its
move record (R73, R74). -/
def carReseated (c : Nat) (s : State) : State :=
  let r := carRec s c
  setCarRec c { r with occupied := bodySegments s c r.position, reserved := [], move := none } s

/-! ## Moves (R79 to R82) -/

/-- The direction of a move from `p` to `t` (R79). -/
def directionTo (p t : Nat) : Option Direction :=
  if p < t then some .up else if t < p then some .down else none

/-- The route segments of a move with half length `h` (R79). -/
def routeSegments (s : State) (h p t : Nat) : List Nat :=
  segmentsIn s ((min p t : Int) - h) ((max p t : Int) + h)

/-- The route segments that conflict for car `c` (R79). -/
def conflicts (s : State) (c : Nat) (route : List Nat) : List Nat :=
  route.filter fun k => holds s (otherCar c) k || (isTower s k && s.qtc.holder != some c)

/-- The first refusal of R79, by its reason. -/
def moveRefusal (s : State) (c t : Nat) : Option Nat :=
  match carConfig s c, (carRec s c).position with
  | some k, some _ =>
    let h := halfLength k
    if s.qtc.count = 0 || (t : Int) - h < trackStart s || trackEnd s < t + h then some Reason.badRange
    else if (carRec s c).state = .draining && !(segmentsIn s ((t : Int) - h) ((t : Int) + h)).any (isTower s) then
      some Reason.draining
    else none
  | some _, none => some Reason.carUnknown
  | none, _ => some Reason.carUnknown

/-- The clamped target of a move short of conflicting segments (R81), where it advances the car. -/
def clampedTarget (s : State) (k : CarConfig) (p : Nat) (dir : Option Direction) (conf : List Nat) : Option Nat :=
  let h := halfLength k
  match dir with
  | some .up =>
    let first := conf.foldl (fun acc j => min acc (segment s j).start) 16777216
    let t := (first : Int) - h - k.gap
    if (p : Int) < t then some t.toNat else none
  | some .down =>
    let first := conf.foldl (fun acc j => max acc (segment s j).stop) 0
    let t := first + h + k.gap
    if t < p then some t else none
  | none => none

/-- The telegram of a move with another target, at creep speed (R81); its CRC follows its bytes (R133). -/
def creepTo (t : Telegram) (target : Nat) : Telegram :=
  { t with body := moveBody target 0 (moveOven t) }

/-- The telegram a MOVE to a car goes out as, or the reason of its refusal (R79, R80, R81). -/
def carMoveForm (s : State) (c : Nat) (t : Telegram) : Except Nat Telegram :=
  match moveRefusal s c (moveTarget t), carConfig s c, (carRec s c).position with
  | some why, _, _ => .error why
  | none, some k, some p =>
    let conf := conflicts s c (routeSegments s (halfLength k) p (moveTarget t))
    if conf.isEmpty then .ok t
    else
      match clampedTarget s k p (directionTo p (moveTarget t)) conf with
      | some target => .ok (creepTo t target)
      | none => .error Reason.trackBlocked
  | none, _, _ => .error Reason.carUnknown

/-- The reservation and move record of a placed MOVE (R80). -/
def carReserves (c : Nat) (t : Telegram) (s : State) : State :=
  let r := carRec s c
  match carConfig s c, r.position with
  | some k, some p =>
    setCarRec c
      { r with
        reserved := routeSegments s (halfLength k) p (moveTarget t)
        move := some ⟨moveTarget t, directionTo p (moveTarget t), moveSpeed t⟩ } s
  | some _, none => s
  | none, _ => s

/-- A MOVE to car `c`, whose station stands at `pos`: the state and the telegram placed, or the reason of the
refusal (R79 to R82). -/
def carMove (c pos : Nat) (o : Order) (s : State) : Except Nat (State × Telegram) :=
  match carMoveForm s c o.telegram with
  | .error why => .error why
  | .ok t =>
    match offerOrder pos { o with telegram := t } s with
    | none => .error Reason.haltPending
    | some s => .ok (carReserves c t s, t)

/-! ## The tower (4.7) -/

/-- A free tower is granted to the head of the queue (R87). -/
def towerGrant (s : State) : State :=
  match s.qtc.holder, s.qtc.queue with
  | none, c :: rest => s.onQtc fun q => { q with holder := some c, queue := rest, entered := occupiesTower s c }
  | none, [] => s
  | some _, _ => s

/-- Car `c` joins the tower queue unless it holds the grant (R87). -/
def towerJoin (c : Nat) (s : State) : State :=
  if s.qtc.holder = some c || s.qtc.queue.contains c then s
  else towerGrant (s.onQtc fun q => { q with queue := q.queue ++ [c] })

/-- The grant of car `c` is released (R88, R95). -/
def towerRelease (c : Nat) (s : State) : State :=
  let r := carRec s c
  let s := setCarRec c { r with reserved := r.reserved.filter fun k => !isTower s k } s
  let s := towerGrant (s.onQtc fun q => { q with holder := none, entered := false })
  if (carRec s c).state = .loaded then towerJoin c s else s

/-- The tower grant release tested at a report of car `c` (R88). -/
def towerReport (c : Nat) (s : State) : State :=
  if s.qtc.holder = some c then
    if occupiesTower s c then s.onQtc fun q => { q with entered := true }
    else if s.qtc.entered then towerRelease c s
    else s
  else s

/-! ## The idle list and the run's car (R84, R85) -/

/-- Takes a car off the idle list. -/
def idleRemove (c : Nat) (s : State) : State :=
  s.onQtc fun q => { q with idle := q.idle.erase c }

/-- Appends a car at the tail of the idle list. -/
def idleAppend (c : Nat) (s : State) : State :=
  s.onQtc fun q => { q with idle := if q.idle.contains c then q.idle else q.idle ++ [c] }

/-- A car handed to the runner has left ASSIGNED: while the run is RUNNING or HELD it is no longer the run's car
(R85). -/
def dropRunCar (c : Nat) (s : State) : State :=
  if runEngaged s && s.run.car = some c then onRun (fun r => { r with car := none }) s else s

/-- The schedule runner returns a car (R85); what may follow from an outstanding request is the caller's. -/
def carReturned (c : Nat) (s : State) : State :=
  let r := carRec s c
  if r.state = .assigned then idleAppend c (setCarRec c { r with state := .idle, assignedOven := 0 } s) else s

/-! ## Permits of a car (R86, R89, R92) -/

/-- PUSH granted on oven `n` with car `c` recorded (R86). -/
def carReceives (c n : Nat) (s : State) : State :=
  let r := carRec s c
  let s := idleRemove c (setCarRec c { r with state := .receiving, assignedOven := n, loadOven := n } s)
  if s.run.state = .running && currentOven s = n then s else dropRunCar c s

/-- The PUSH of car `c` leaves the set (R86). -/
def carLoads (c : Nat) (uncertain : Bool) (s : State) : State :=
  let r := carRec s c
  if r.state = .receiving then
    towerJoin c
      (setCarRec c
        { r with
          state := .loaded, load := .hot, uncertain := uncertain, assignedOven := 0, hotStart := some s.now } s)
  else s

/-- QUENCH granted to car `c` (R89). -/
def carQuenches (c : Nat) (s : State) : State :=
  let r := carRec s c
  if r.state = .loaded || r.state = .draining || r.state = .quenched then
    setCarRec c { r with state := .quenching, drainDeadline := none, hotStart := none } s
  else s

/-- A car that has drained (R90). -/
def drained (r : CarRecord) : CarRecord :=
  { r with state := .quenched, load := .wet, drainDeadline := none }

/-- The QUENCH of car `c` leaves the set, released OK or not (R89). A car that fails while it no longer has the grant does not
join the queue by that (log 51). -/
def carQuenchEnds (c : Nat) (ok : Bool) (s : State) : State :=
  let r := carRec s c
  if r.state = .quenching then
    if ok then
      if s.qtc.timing.drain = 0 then setCarRec c (drained r) s
      else setCarRec c { r with state := .draining, drainDeadline := some (s.now + s.qtc.timing.drain) } s
    else setCarRec c { r with state := .loaded, load := .hot } s
  else s

/-- DUMP granted to car `c` (R92). -/
def carDumps (c : Nat) (s : State) : State :=
  let r := carRec s c
  if r.state = .quenched then setCarRec c { r with state := .dumping } s else s

/-- The DUMP of car `c` leaves the set, released OK or not (R92). -/
def carDumpEnds (c : Nat) (ok : Bool) (s : State) : State :=
  let r := carRec s c
  if r.state = .dumping then
    if ok then
      idleAppend c (setCarRec c { r with state := .idle, load := .empty, uncertain := false, loadOven := 0 } s)
    else setCarRec c { r with state := .quenched, load := .wet } s
  else s

/-! ## Reports (R76 to R78, R83, R93) -/

/-- The segments a report adds that the other car holds (R78). -/
def newConflicts (s : State) (c : Nat) (before : List Nat) : List Nat :=
  (carRec s c).occupied.filter fun k => !before.contains k && holds s (otherCar c) k

/-- A reserved segment lies wholly behind the body in the direction of travel (R83). -/
def isBehind (s : State) (c : Nat) (r : CarRecord) (k : Nat) : Bool :=
  match carConfig s c, r.position, r.move with
  | some g, some p, some m =>
    match m.direction with
    | some .up => ((segment s k).stop : Int) ≤ (p : Int) - halfLength g
    | some .down => p + halfLength g ≤ (segment s k).start
    | none => false
  | _, _, none => false
  | _, none, some _ => false
  | none, some _, some _ => false

/-- The recorded target is within 100 mm of the position (R83). -/
def atTarget (r : CarRecord) : Bool :=
  match r.position, r.move with
  | some p, some m => ((p : Int) - m.target).natAbs ≤ 100
  | some _, none => false
  | none, _ => false

/-- The reserved segments that the car does not occupy are released. -/
def keepOccupied (r : CarRecord) : CarRecord :=
  { r with reserved := r.reserved.filter fun k => r.occupied.contains k }

/-- The release tests of a report (R83). -/
def carReleases (c : Nat) (s : State) : State :=
  let r := carRec s c
  let r := { r with reserved := r.reserved.filter fun k => !isBehind s c r k }
  let r := if !r.moving && atTarget r then { keepOccupied r with move := none } else r
  let r := if r.move.isNone then keepOccupied r else r
  let r := if r.haltRelease && !r.moving then { keepOccupied r with move := none, haltRelease := false } else r
  setCarRec c r s

/-- A position conflict (R78). -/
def trackConflict (c k : Nat) (s : State) : State :=
  let s := raise .trackConflict 0 (addressOfClass s .car c) k s
  placeHalt .qtc HaltReason.trackConflict (posOfClass s .car 2)
    (placeHalt .qtc HaltReason.trackConflict (posOfClass s .car 1) s)

/-- Items 3 to 5 of a report: the conflict test, or else the releases and the tower (R76). -/
def carConflictOrRelease (c : Nat) (before : List Nat) (s : State) : State :=
  match newConflicts s c before with
  | k :: _ => trackConflict c k s
  | [] => towerReport c (carReleases c s)

/-- Places an UNKNOWN car in its cycle by its reported load (R77); at a report in conflict its reservations stay as
they are (R78, log 28). -/
def carPlaced (c : Nat) (conflict : Bool) (s : State) : State :=
  let r := carRec s c
  let r :=
    { (if conflict then r else keepOccupied r) with
      move := none, uncertain := false, assignedOven := 0, loadOven := 0, drainDeadline := none }
  match LoadState.ofStatus r.reportedLoad with
  | .empty => idleAppend c (setCarRec c { r with state := .idle, load := .empty } s)
  | .hot => towerJoin c (setCarRec c { r with state := .loaded, load := .hot, hotStart := some s.now } s)
  | .wet => setCarRec c { r with state := .quenched, load := .wet } s

/-- The load test of a car with load uncertain (R93). -/
def carLoadTest (c : Nat) (s : State) : State :=
  let r := carRec s c
  if r.uncertain && LoadState.ofStatus r.reportedLoad = .empty &&
      (r.state = .loaded || r.state = .quenching || r.state = .draining || r.state = .quenched) then
    raise .loadMismatch r.loadOven (addressOfClass s .car c) r.reportedLoad (setCarRec c { r with uncertain := false } s)
  else s

/-- A report taken from car `c` (R76). -/
def carReport (c p : Nat) (moving : Bool) (status : Nat) (s : State) : State :=
  let r := carRec s c
  let s := setCarRec c
    { r with position := some p, moving := moving, reportedLoad := status, occupied := bodySegments s c (some p) } s
  let conflict := !(newConflicts s c r.occupied).isEmpty
  let s := carConflictOrRelease c r.occupied s
  if (carRec s c).state = .unknown then carPlaced c conflict s else carLoadTest c s

/-! ## Timers and departures (R90, R94 to R96) -/

/-- The drain deadline of car `c` acts when it is reached (R90). -/
def carDrainDue (s : State) (c : Nat) : Bool :=
  match (carRec s c).drainDeadline with
  | some d => (carRec s c).state = .draining && reached s d
  | none => false

/-- The hot watch of car `c` has run out (R90). -/
def carHotDue (s : State) (c : Nat) : Bool :=
  match (carRec s c).hotStart with
  | some h => reached s (h + s.qtc.timing.hotLimit)
  | none => false

/-- HOT_CAR where the watch of car `c` has run out (R90). -/
def carHot (c : Nat) (s : State) : State :=
  if carHotDue s c then
    let r := carRec s c
    raise .hotCar r.loadOven (addressOfClass s .car c) s.qtc.timing.hotLimit (setCarRec c { r with hotStart := none } s)
  else s

/-- A car whose station has left ACTIVE becomes UNKNOWN (R94). -/
def carLost (c : Nat) (s : State) : State :=
  let r := carRec s c
  let s := setCarRec c { r with state := .unknown, assignedOven := 0, hotStart := none, drainDeadline := none } s
  dropRunCar c (idleRemove c (s.onQtc fun q => { q with queue := q.queue.erase c }))

/-- CLEAR CAR of a car whose station is not ACTIVE (R95). -/
def carCleared (c : Nat) (s : State) : State :=
  let r := carRec s c
  let s := setCarRec c
    { r with position := none, occupied := [], reserved := [], move := none, haltRelease := false } s
  if s.qtc.holder = some c then towerRelease c s else s

/-- A car record after a warm restart (R96). -/
def warmCar (r : CarRecord) : CarRecord :=
  { r with
    state := .unknown, assignedOven := 0, loadOven := 0, hotStart := none, drainDeadline := none,
    uncertain := false, reserved := [], move := none, haltRelease := false }

/-- The quench track controller at warm restart (R96). -/
def qtcWarm (s : State) : State :=
  s.onQtc fun q =>
    { q with
      cars := q.cars.map warmCar, holder := none, entered := false, queue := [], idle := [], carRequest := false }

/-- A delivered poll has carried a HALT to car `c` (R83). -/
def carHaltDelivered (c : Nat) (s : State) : State :=
  setCarRec c { carRec s c with haltRelease := true } s

/-- A car's place on the wharf (R28, R91): it occupies segments, and all of them are WHARF segments. -/
def atWharf (s : State) (c : Nat) : Bool :=
  !(carRec s c).occupied.isEmpty && (carRec s c).occupied.all fun k => (segment s k).type = .wharf

/-- A car stands within the CAR tolerance of the tower spot (R28). -/
def atTowerSpot (s : State) (c : Nat) : Bool :=
  match (carRec s c).position, (segmentsInUse s).find? (isTower s) with
  | some p, some k => ((p : Int) - (segment s k).spot).natAbs ≤ s.ovt.timing.tolCar
  | some _, none => false
  | none, _ => false

end Sys2Proof.Machine
end

