-- ==== Sys2Proof/Machine/Runner.lean ====
section
/-!
DEFINITION. The schedule runner (Chapter 3): the step sequence of one oven, skips, stops and completion, and the
handing of cars between it and the quench track controller (R85).
-/
namespace Sys2Proof.Machine

open Sys2Proof

/-! ## Entries, instants and places -/

/-- The series entry at a position (Table 3-1). -/
def seriesEntry (s : State) (k : Nat) : SeriesEntry := readNum s.sch.series k {}

/-- The phase of the run's current oven. -/
def currentPhase (s : State) : Phase := (ovenRec s (currentOven s)).phase

/-- The lead instant of the current oven has been reached (R53). -/
def leadReached (s : State) : Bool := reached s (s.run.planned - s.sch.timing.lead)

/-- Now plus a number of seconds. -/
def State.after (s : State) (seconds : Nat) : Int := s.now + seconds

/-- The centre of an oven (Table 1-1). -/
def centreOf (s : State) (n : Nat) : Nat :=
  match ovenConfig s n with
  | some c => c.centre
  | none => 0

/-- The run machines: the PM, the CGM, and the assigned car where the run has one (3.4). -/
def runMachines (s : State) : List RunMachine :=
  .pm :: .cgm :: s.run.car.toList.map RunMachine.car

/-- A run machine is in place at the current oven (R56). -/
def inPlace (s : State) : RunMachine → Bool
  | .pm => alignedAt s .pm (currentOven s)
  | .cgm => alignedAt s .cgm (currentOven s)
  | .car c => receivingAt s c (currentOven s)

/-- The position of a run machine's station. -/
def runMachinePos (s : State) : RunMachine → Option Nat
  | .pm => posOfClass s .pm 1
  | .cgm => posOfClass s .cgm 1
  | .car c => posOfClass s .car c

/-- Where a run machine is ordered to (R56). -/
def runTarget (s : State) : RunMachine → Nat
  | .pm => centreOf s (currentOven s)
  | .cgm => centreOf s (currentOven s)
  | .car _ => centreOf s (currentOven s) + s.ovt.timing.receiveOffset

/-- The PM, the CGM and a car of the run are in place (R57). -/
def allInPlace (s : State) : Bool := s.run.car.isSome && (runMachines s).all (inPlace s)

/-- A change of the run's state or step is a trigger of the freedom tests (R110). -/
def afterRun (before s : State) : State :=
  if before.run.state = s.run.state && before.run.step = s.run.step then s else dsmFreeBoth s

/-- Withdraws the car request (R53). -/
def withdrawCar (s : State) : State := s.onQtc fun q => { q with carRequest := false }

/-! ## Stops and completion (R61, R65) -/

/-- The address of the PM, named by HARD_PUSH and by two stop codes (Table 3-6). -/
def pmAddress (s : State) : Nat := addressOfClass s .pm 1

/-- HARD_PUSH of the current oven, where its last ram peak exceeds the warn limit (R60, R65, R72). -/
def hardPushOfRun (s : State) : State :=
  let peak := (ovenRec s (currentOven s)).ramPeak
  if s.sch.timing.hardWarn < peak then raise .hardPush (currentOven s) (pmAddress s) peak s else s

/-- A HALT for each machine of the moves set (R65). -/
def haltMoves (s : State) : State :=
  s.run.moves.foldl (fun s m => placeHalt .sch HaltReason.runStopped (runMachinePos s m.machine) s) s

/-- The assigned car goes back where no PUSH has been granted (R65); an outstanding request has ended. -/
def returnRunCar (s : State) : State :=
  match s.run.car, s.run.pushGrant with
  | some c, none => carReturned c s
  | some _, some _ => s
  | none, _ => s

/-- The run stops (R65), in a state in which the code of Table 3-6 may act. The step deadline, the push grant and the moves
set, of which R65 does not speak, stand in the STOPPED record as they stood (log 55). -/
def stopRun (code : StopCode) (station detail : Nat) (s : State) : State :=
  let step := s.run.step
  let s := withdrawCar (onRun (fun r => { r with state := .stopped, holdPending := false }) s)
  let s := s.onSch fun r => { r with sense := ⟨code, currentOven s, r.run.cursor, step, detail⟩ }
  let s := if step = .close && code ≠ .hardPush then hardPushOfRun s else s
  let s := if step = .wait || step = .position then haltMoves s else s
  let s := returnRunCar s
  raise .runStopped (currentOven s) station (code.code * 256 + s.run.progress : Nat) s

/-- The run completes (R61). Step, step deadline, push grant, moves set and assigned car stand in the IDLE record as they
stood (log 55). -/
def completeRun (s : State) : State :=
  let s := withdrawCar (onRun (fun r => { r with state := .idle, holdPending := false }) s)
  raise .runDone (currentOven s) 0 (s.run.progress * 256 + s.run.pushed : Nat) s

/-- The cursor arrives at the next position (R51, R52). -/
def arriveNext (s : State) : State :=
  onRun (fun r =>
    { r with
      cursor := r.cursor + 1, step := .wait, deadline := none, pushGrant := none, moves := []
      planned := r.planned + (seriesEntry s (r.cursor + 1)).interval }) s

/-! ## Moves (R56) -/

/-- A MOVE of the runner, speed class NORMAL (2). -/
def runMoveOrder (s : State) (p target : Nat) : Order :=
  { telegram := originated s.mgt.address (pollEntry s p).address Kind.move (moveBody target 2 (currentOven s))
    origin := .sch }

/-- Offers one MOVE of the moves set; `none` where it stays unplaced. -/
def offerRunMove (m : RunMove) (s : State) : Option State :=
  match runMachinePos s m.machine, m.machine with
  | some p, .car c =>
    match carMove c p (runMoveOrder s p m.target) s with
    | .ok (s, _) => some s
    | .error _ => none
  | some p, .pm => offerOrder p (runMoveOrder s p m.target) s
  | some p, .cgm => offerOrder p (runMoveOrder s p m.target) s
  | none, _ => none

/-- Marks a machine's MOVE placed. -/
def markPlaced (m : RunMove) (s : State) : State :=
  onRun (fun r =>
    { r with moves := r.moves.map fun x => if x.machine = m.machine then { x with placed := true } else x }) s

/-- Offers every unplaced MOVE (R56). -/
def offerMoves (s : State) : State :=
  (s.run.moves.filter fun m => !m.placed).foldl
    (fun s m => match offerRunMove m s with | some s => markPlaced m s | none => s) s

/-- Forms the MOVEs of the run machines not in place, and offers them (R56). -/
def formMoves (s : State) : State :=
  let moves := (runMachines s).filterMap fun m =>
    if inPlace s m then none else some ⟨m, runTarget s m, false⟩
  offerMoves (onRun (fun r => { r with moves := moves }) s)

/-! ## The steps (R54, R57, R58) -/

/-- Enters a step, its deadline `seconds` from now. -/
def enterStep (step : RunStep) (seconds : Nat) (s : State) : State :=
  onRun (fun r => { r with step := step, deadline := some (s.after seconds) }) s

/-- In OPEN, both doors REMOVED and the guide locked at the oven: PUSH (R58). -/
def openTest (s : State) : State :=
  let n := currentOven s
  if s.run.state = .running && s.run.step = .opening && bothDoorsOff s n && guideLockedAt s n then
    enterStep .push s.sch.timing.push s
  else s

/-- In POSITION, every machine in place: OPEN (R57). -/
def arrivalTest (s : State) : State :=
  if s.run.state = .running && s.run.step = .position && allInPlace s then
    openTest (onRun (fun r => { r with moves := [] }) (enterStep .opening s.sch.timing.opening s))
  else s

/-- The phases in which an oven can be taken to POSITION (R54). -/
def workable (ph : Phase) : Bool := ph = .coking || ph = .ready || ph = .doorsOff

/-- The conditions of R54. -/
def entryReady (s : State) : Bool :=
  s.run.state = .running && s.run.step = .wait && leadReached s && s.run.car.isSome &&
    workable (currentPhase s) && readyInstant s (currentOven s) ≤ s.after s.sch.timing.lead

/-- The entry test of POSITION (R54). -/
def entryTest (s : State) : State :=
  if entryReady s then
    arrivalTest (formMoves (withdrawCar (enterStep .position s.sch.timing.position s)))
  else s

/-- A car is assigned to the runner: the head of the idle list (R85). -/
def handCar (c : Nat) (s : State) : State :=
  let s := idleRemove c (setCarRec c { carRec s c with state := .assigned, assignedOven := currentOven s } s)
  entryTest (onRun (fun r => { r with car := some c }) (withdrawCar s))

/-- The runner asks for a car where R53 has it ask. -/
def carRequestTest (s : State) : State :=
  if s.run.state = .running && s.run.step = .wait && s.run.car.isNone && leadReached s then
    match s.qtc.idle with
    | c :: _ => handCar c s
    | [] => s.onQtc fun q => { q with carRequest := true }
  else s

/-- After a car has joined the idle list: an outstanding request takes it (R85). -/
def satisfyRequest (s : State) : State :=
  match s.qtc.carRequest, s.qtc.idle with
  | true, c :: _ => afterRun s (handCar c s)
  | true, [] => s
  | false, _ => s

/-- The tests of R53 and R54. -/
def waitTests (s : State) : State := entryTest (carRequestTest s)

/-! ## Taking up an oven (R52) -/

/-- The assigned car goes back to the idle list and is no longer the run's (R52). -/
def freeRunCar (s : State) : State :=
  match s.run.car with
  | some c => onRun (fun r => { r with car := none }) (carReturned c s)
  | none => s

/-- The current oven is skipped, the cursor's advance apart (R52). -/
def skipOven (s : State) : State :=
  let s := freeRunCar (onRun (fun r => { r with skipped := r.skipped + 1, residual := r.residual - 1 }) s)
  raise .ovenSkipped (currentOven s) 0 (currentPhase s).code s

/-- Phases at which an oven is skipped at once (R52). -/
def skippedPhase (ph : Phase) : Bool := ph = .outOfService || ph = .empty || ph = .charging

/-- The phase cases of R52 at the current oven, and at any oven that is not skipped the tests of R53 and R54: an oven in
PUSHING has its car asked for as any other, and passes no entry test. Each skip lowers the residual, which bounds the
ovens passed over: `fuel` above it is never spent. -/
def phaseCases : Nat → State → State
  | 0, s => s
  | fuel + 1, s =>
    if skippedPhase (currentPhase s) then
      let s := skipOven s
      if s.run.residual = 0 then completeRun s else phaseCases fuel (arriveNext s)
    else if currentPhase s = .pushInterrupted then stopRun .ovenHeld 0 (currentPhase s).code s
    else waitTests s

/-- Takes up the current oven (R52). -/
def takeUp (s : State) : State := phaseCases (s.run.residual + 1) s

/-! ## What the other blocks report -/

/-- A change of the phase or the charge stamp of oven `n` (R52, R63). -/
def schPhaseChange (n : Nat) (s : State) : State :=
  if s.run.state = .running && currentOven s = n then
    afterRun s
      (match s.run.step with
       | .wait => takeUp s
       | .position =>
         if currentPhase s = .outOfService then
           let s := skipOven (onRun (fun r => { r with moves := [] }) s)
           if s.run.residual = 0 then completeRun s else takeUp (arriveNext s)
         else s
       | .opening => if currentPhase s = .outOfService then stopRun .ovenHeld 0 (currentPhase s).code s else s
       | .push => if currentPhase s = .outOfService then stopRun .ovenHeld 0 (currentPhase s).code s else s
       | .close => if currentPhase s = .outOfService then stopRun .ovenHeld 0 (currentPhase s).code s else s)
  else s

/-- A change of the alignment oven, receiving set or guide-locked status of a machine (R57, R58). -/
def schAlignChange (s : State) : State := afterRun s (openTest (arrivalTest s))

/-- PUSH granted on oven `n` (R51, R59). -/
def schPushGranted (n : Nat) (s : State) : State :=
  if s.run.state = .running && currentOven s = n then
    onRun (fun r => { r with pushGrant := some s.now, lateness := s.now - r.planned }) s
  else s

/-- A matching PUSH DONE with result OK on oven `n` (R59). -/
def schPushDone (n : Nat) (s : State) : State :=
  if s.run.state = .running && currentOven s = n && s.run.step = .push then
    afterRun s (onRun (fun r => { r with car := none }) (enterStep .close s.sch.timing.close s))
  else s

/-- The PUSH of oven `n` failed, broke or expired (R39, R40, R59). -/
def schPushBroken (n detail : Nat) (s : State) : State :=
  if s.run.state = .running && currentOven s = n then afterRun s (stopRun .permitBroken (pmAddress s) detail s)
  else s

/-- The counts of a completed CLOSE (R60). -/
def closeAccount (s : State) : State :=
  let b := s.sch.block
  let s := onRun (fun r =>
    { r with
      pushed := r.pushed + 1, residual := r.residual - 1
      progress := if 0 < b then r.progress + 1 else r.progress }) s
  let s :=
    if 0 < b ∧ b ≤ s.run.progress then
      onRun (fun r => { r with progress := 0 })
        (raise .runBlock (currentOven s) 0 (s.run.pushed * 256 + s.run.skipped : Nat) s)
    else s
  hardPushOfRun s

/-- After the accounting of R60 the run completes, stops or goes on (R61). -/
def closeContinue (s : State) : State :=
  let peak := (ovenRec s (currentOven s)).ramPeak
  if s.run.residual = 0 then completeRun s
  else if s.sch.timing.hardStop < peak then stopRun .hardPush (pmAddress s) peak s
  else
    let s := arriveNext s
    if s.run.holdPending then onRun (fun r => { r with holdPending := false, state := .held }) s else takeUp s

/-- In CLOSE, neither door REMOVED: the step completes (R60). -/
def closeTest (s : State) : State :=
  if s.run.state = .running && s.run.step = .close && bothDoorsOn s (currentOven s) then
    closeContinue (closeAccount s)
  else s

/-- A change of a door record of oven `n` (R58, R60). -/
def schDoorChange (n : Nat) (s : State) : State :=
  if s.run.state = .running && currentOven s = n then
    afterRun s
      (match s.run.step with
       | .opening => openTest s
       | .close => closeTest s
       | .wait => s
       | .position => s
       | .push => s)
  else s

/-- The station at position `p` leaves ACTIVE (R64). -/
def schStationLeft (p : Nat) (s : State) : State :=
  let a := (pollEntry s p).address
  if runEngaged s && isRunMachine s p then afterRun s (stopRun .stationLost a a s) else s

/-! ## Tests at the clock (R53, R55, R62, R71) -/

/-- The lateness test has something to say (R55). -/
def lateTestDue (s : State) : Bool :=
  s.run.state = .running && (s.run.step = .wait || s.run.step = .position || s.run.step = .opening) &&
    reached s (s.run.planned + s.sch.timing.maxLateness)

/-- The lateness test (R55). -/
def latenessTest (s : State) : State :=
  if lateTestDue s then
    if s.run.step = .wait && s.run.car.isNone then afterRun s (stopRun .noCar 0 0 s)
    else if reached s (readyInstant s (currentOven s)) then s
    else afterRun s (stopRun .ovenNotReady 0 0 s)
  else s

/-- The step deadline of a RUNNING run has been reached (R62). -/
def stepDeadlineDue (s : State) : Bool :=
  match s.run.deadline with
  | some d => s.run.state = .running && s.run.step ≠ .wait && reached s d
  | none => false

/-- The step deadline acts (R62). -/
def stepTimeout (s : State) : State :=
  if stepDeadlineDue s then afterRun s (stopRun .stepTimeout 0 s.run.step.code s) else s

/-- The lead instant acts (R53): the car request and the entry test. -/
def leadInstant (s : State) : State :=
  if s.run.state = .running && s.run.step = .wait && leadReached s then afterRun s (waitTests s) else s

/-- A hold takes effect or is left pending (R66, R71). -/
def holdRun (s : State) : State :=
  if s.run.state = .running then
    if s.run.step = .wait || s.run.step = .position then
      afterRun s (withdrawCar (onRun (fun r => { r with state := .held }) s))
    else onRun (fun r => { r with holdPending := true }) s
  else s

/-- The silence watch has run for its limit without a telegram (R71). -/
def silenceDue (s : State) : Bool :=
  0 < s.sch.timing.silence && !s.sch.silenceRaised && reached s (s.sch.silenceStart + s.sch.timing.silence)

/-- The silence watch acts (R71). -/
def silenceActs (s : State) : State :=
  if silenceDue s then
    holdRun (raise .cpSilence 0 0 s.sch.timing.silence (s.onSch fun r => { r with silenceRaised := true }))
  else s

/-- Restarts the silence watch from now (R71). -/
def silenceRestart (s : State) : State :=
  s.onSch fun r => { r with silenceStart := s.now, silenceRaised := false }

/-- The per-advance tests of the runner: the offers of R56 and the entry test of R54. -/
def schAdvance (s : State) : State :=
  if s.run.state = .running then
    match s.run.step with
    | .position => offerMoves s
    | .wait => afterRun s (entryTest s)
    | .opening => s
    | .push => s
    | .close => s
  else s

/-- The run and sense records at warm restart (R72). -/
def schWarm (s : State) : State :=
  s.onSch fun r => { r with run := {}, sense := {}, latenessDue := false }

end Sys2Proof.Machine
end

