-- ==== Sys2Proof/Machine/Ovens.lean ====
section
/-!
DEFINITION. The oven table (Chapter 1): phase changes and what they hand on (R18), the recomputation of ready
instants (R8), and the alignment of machines (R16, R17).
-/
namespace Sys2Proof.Machine

open Sys2Proof

/-! ## Phases (1.6) -/

/-- Gives oven `n` a phase and a charge stamp; a change of either goes to the regulator, and to the runner for the
current oven of its run (R18). -/
def setPhase (n : Nat) (ph : Phase) (stamp : Int) (s : State) : State :=
  let r := ovenRec s n
  if r.phase = ph && r.stamp = stamp then s
  else schPhaseChange n (oprDerive n (setOvenRec n { r with phase := ph, stamp := stamp } s))

/-- Gives oven `n` a phase, its stamp kept. -/
def setPhaseOnly (n : Nat) (ph : Phase) (s : State) : State :=
  setPhase n ph (ovenRec s n).stamp s

/-- READY or COKING for oven `n` with a charge stamp, by the ready instant computed from it (R9, R14, R15). -/
def cokingPhase (s : State) (n : Nat) (stamp : Int) : Phase :=
  if reached s (stamp + ((targetOf s n : Int) - s.ovt.timing.early) * 60) then .ready else .coking

/-- COKING or READY, or DOORS_OFF with a door REMOVED (R14, R15). -/
def returnedPhase (s : State) (n : Nat) (stamp : Int) : Phase :=
  if bothDoorsOn s n then cokingPhase s n stamp else .doorsOff

/-- The phase of an oven in COKING or READY follows its ready instant after a load (R8). -/
def recomputeReady (n : Nat) (s : State) : State :=
  let r := ovenRec s n
  if r.phase = .coking || r.phase = .ready then setPhaseOnly n (cokingPhase s n r.stamp) s else s

/-- READY at the clock (R8). -/
def readyDue (s : State) (n : Nat) : Bool :=
  configured s n && (ovenRec s n).phase = .coking && reached s (readyInstant s n)

/-- The ready instant of oven `n` acts (R8). -/
def readyActs (n : Nat) (s : State) : State :=
  if readyDue s n then setPhaseOnly n .ready s else s

/-- The charge-hold end of oven `n` acts (R18). -/
def holdEndActs (n : Nat) (s : State) : State :=
  let ph := (ovenRec s n).phase
  if configured s n && (ph = .coking || ph = .ready) && reached s (chargeHoldEnd s n) then oprDerive n s else s

/-- The late instant of oven `n` acts (R18). -/
def lateActs (n : Nat) (s : State) : State :=
  let ph := (ovenRec s n).phase
  if configured s n && (ph = .coking || ph = .ready) && reached s (lateInstant s n) then oprDerive n s else s

/-- A charge cut short: COKING with stamp now, and CHARGE_INCOMPLETE with its cause (R11). -/
def chargeIncomplete (n station cause : Nat) (s : State) : State :=
  raise .chargeIncomplete n station cause (setPhase n .coking s.now s)

/-- DOOR_OFF completed OK (R9). -/
def ovtDoorOff (n : Nat) (s : State) : State :=
  let ph := (ovenRec s n).phase
  if ph = .coking || ph = .ready then setPhaseOnly n .doorsOff s else s

/-- DOOR_ON completed OK, the door records as it leaves them (R9). -/
def ovtDoorOn (n : Nat) (s : State) : State :=
  let r := ovenRec s n
  if r.phase = .doorsOff && bothDoorsOn s n then setPhaseOnly n (cokingPhase s n r.stamp) s else s

/-- A matching PUSH DONE: the ram peak, the hard-push count, HARD_PUSH where the runner will not raise it, and the
phase (R10). A measurement above 4,000 kN is recorded as carried (log 48). -/
def ovtPushDone (n station measurement : Nat) (ok : Bool) (s : State) : State :=
  let r := ovenRec s n
  let hard := s.sch.timing.hardWarn < measurement
  let s := setOvenRec n
    { r with
      ramPeak := measurement
      hardPushes := if hard then min 255 (r.hardPushes + 1) else r.hardPushes } s
  let ofRun := s.run.state = .running && currentOven s = n && s.run.step = .push
  let s := if hard && (!ok || !ofRun) then raise .hardPush n station measurement s else s
  if (ovenRec s n).phase = .pushing then setPhaseOnly n (if ok then .empty else .pushInterrupted) s else s

/-- The PUSH of oven `n` is broken or expires (R10). -/
def ovtPushBroken (n : Nat) (s : State) : State :=
  if (ovenRec s n).phase = .pushing then setPhaseOnly n .pushInterrupted s else s

/-- The CHARGE of oven `n` ends without a completion OK (R11). -/
def ovtChargeCut (n station cause : Nat) (s : State) : State :=
  if (ovenRec s n).phase = .charging then chargeIncomplete n station cause s else s

/-- The CHARGE of oven `n` completes OK (R11). -/
def ovtChargeDone (n : Nat) (s : State) : State :=
  if (ovenRec s n).phase = .charging then setPhase n .coking s.now s else s

/-! ## Alignment (R16, R17) -/

/-- The alignment tolerance of a class (Table 1-2). -/
def toleranceOf (t : Timing) : StationClass → Nat
  | .pm => t.tolPm
  | .cgm => t.tolCgm
  | .cc => t.tolCc
  | .car => t.tolCar
  | .os => 0
  | .aux => 0

/-- The working position of a class at an oven with a centre: the car's receive offset, else 0 (R16). -/
def workingPosition (t : Timing) (c : StationClass) (centre : Nat) : Nat :=
  if c = .car then centre + t.receiveOffset else centre

/-- The alignment oven of a machine of a class at a position (R16). -/
def alignmentOven (s : State) (c : StationClass) (p : Nat) : Nat :=
  let near := (configuredOvens s).find? fun n =>
    ((p : Int) - workingPosition s.ovt.timing c (centreOf s n)).natAbs ≤ toleranceOf s.ovt.timing c
  near.getD 0

/-- The receiving set of a car at a position (R17); empty for other classes. -/
def receivingSet (s : State) (c : StationClass) (p : Nat) : List Nat :=
  if c = .car then
    (configuredOvens s).filter fun n =>
      ((p : Int) - (centreOf s n + s.ovt.timing.receiveOffset : Nat)).natAbs ≤ s.ovt.timing.receiveSpan
  else []

/-- The alignment entry of the station at `i`, evaluated from its last position (R16). -/
def evaluated (s : State) (i : Nat) : Alignment :=
  let c := (pollEntry s i).cls
  match c.isMachine, (station s i).lastPos with
  | true, some p => { oven := alignmentOven s c p, receiving := receivingSet s c p, live := true }
  | true, none => {}
  | false, _ => {}

/-- Evaluates a machine's entry when a POSITION is handled (R16). -/
def evaluate (i : Nat) (s : State) : State := setAlignment i (evaluated s i) s

/-- Evaluates afresh, as part of a load, the entries of the machines that have reported since they last left
ACTIVE (R16, log 22). -/
def evaluateAll (s : State) : State :=
  (positions s).foldl (fun s i => if (alignment s i).live then evaluate i s else s) s

/-- The entry of a station that leaves ACTIVE (R16). -/
def clearAlignment (i : Nat) (s : State) : State := setAlignment i {} s

/-- The alignment entries, or the guide-locked status of the CGM, differ between two states (R57, R58). -/
def alignChanged (before s : State) : Bool :=
  before.ovt.align ≠ s.ovt.align ||
    (positions s).any fun p =>
      (pollEntry s p).cls = .cgm && guideLocked before p != guideLocked s p

end Sys2Proof.Machine
end

