-- ==== Sys2Proof/Machine/Interlock.lean ====
section
/-!
DEFINITION. The interlock (Chapter 2): condition terms, the permit table, the evaluation of a request, grants,
completions, breaks and expiries.
-/
namespace Sys2Proof.Machine

open Sys2Proof

/-! ## Kinds (Tables 2-1 to 2-3) -/

/-- The car kinds (2.1). -/
def isCarKind (k : PermitKind) : Bool := k = .quench || k = .dump

/-- The door kinds (2.1). -/
def isDoorKind (k : PermitKind) : Bool := k = .doorOff || k = .doorOn || k = .reseat

/-- The core terms of a kind (Table 2-3). -/
def coreTerms : PermitKind → List Nat
  | .doorOff => [1, 3, 4]
  | .doorOn => [1, 3]
  | .reseat => [1, 3, 10]
  | .push => [1, 3, 4, 5, 6, 7, 8, 9, 11]
  | .charge => [1, 3, 10, 12, 13]
  | .level => [1, 3, 14]
  | .quench => [1, 15]
  | .dump => [1, 16]

/-- The phases that term 2 allows an oven kind (Table 2-3). -/
def allowedPhases : PermitKind → List Phase
  | .doorOff => [.coking, .ready, .doorsOff, .empty]
  | .doorOn => [.doorsOff, .empty, .pushInterrupted]
  | .reseat => [.coking, .ready, .empty]
  | .push => [.doorsOff]
  | .charge => [.empty]
  | .level => [.charging]
  | .quench => []
  | .dump => []

/-- The terms that may be added to a kind (R29). -/
def addableTerms (k : PermitKind) : List Nat :=
  if isCarKind k then [15, 16] else [2, 3, 4, 5, 6, 7, 9, 10, 11, 12, 13, 14]

/-- The hold terms (Table 2-2). -/
def isHoldTerm (t : Nat) : Bool := [1, 3, 7, 8, 9, 10, 11, 14, 15].contains t

/-- The permit table entry of a kind (R30). -/
def permitEntry (s : State) (k : PermitKind) : PermitEntry :=
  (readNum s.ilk.table k.code none).getD ⟨[], 0⟩

/-- The effective term set of a kind, rising (R29). -/
def effectiveTerms (s : State) (k : PermitKind) : List Nat :=
  ((List.range 16).map (· + 1)).filter fun t =>
    (coreTerms k).contains t || (permitEntry s k).added.contains t || (t = 2 && !isCarKind k)

/-- The hold limit in force (R30). -/
def holdLimit (s : State) (k : PermitKind) : Nat :=
  let limit := (permitEntry s k).limit
  if limit ≠ 0 then limit
  else
    match k with
    | .doorOff => 120
    | .doorOn => 120
    | .reseat => 180
    | .push => 150
    | .charge => 420
    | .level => 300
    | .quench => s.qtc.timing.quench + 30
    | .dump => 120

/-! ## Terms (R22 to R28) -/

/-- What a term is evaluated on: the requester's position, the kind, the oven, the car for term 8, and whether
the permit is already active. -/
structure TermInput where
  pos : Option Nat
  kind : PermitKind
  oven : Nat
  car : Option Nat
  held : Bool

/-- The car for oven `n` at a request (R25). -/
def carFor (s : State) (n : Nat) : Option Nat :=
  match ([1, 2] : List Nat).find? fun c => (carRec s c).assignedOven = n with
  | some c => some c
  | none => s.qtc.idle.find? fun c => receivingAt s c n

/-- The active CHARGE permit on oven `n` (term 14). -/
def chargeOn (s : State) (n : Nat) : Option Permit :=
  s.ilk.permits.find? fun e => e.kind = .charge && e.oven = n

/-- The positions of the stations that a term names (R22); a station that no poll list position gives is absent. -/
def namedBy (s : State) (i : TermInput) : Nat → List (Option Nat)
  | 7 => [posOfClass s .cgm 1]
  | 8 => match i.car with | some c => [posOfClass s .car c] | none => []
  | 11 => [posOfClass s .os (servingStation s i.oven)]
  | 12 => [posOfClass s .os (servingStation s i.oven)]
  | 14 => match chargeOn s i.oven with | some e => [posOfAddress s e.station] | none => []
  | _ => []

/-- The requester and the stations its terms name (R22). -/
def namedStations (s : State) (i : TermInput) : List (Option Nat) :=
  i.pos :: (effectiveTerms s i.kind).flatMap (namedBy s i)

/-- The kinds that belong to a step of a run (R24). -/
def kindsOfStep : RunStep → List PermitKind
  | .wait => []
  | .position => []
  | .opening => [.doorOff]
  | .push => [.push]
  | .close => [.doorOn]

/-- A neighbour of an oven is neither CHARGING nor PUSHING (term 13). -/
def quiet (s : State) (m : Nat) : Bool :=
  !(configured s m && ((ovenRec s m).phase = .charging || (ovenRec s m).phase = .pushing))

/-- The car at a requester's position, if it is a car (R28). -/
def carOf (s : State) : Option Nat → Option Nat
  | some p => carAt s p
  | none => none

/-- Term 8 on the chosen or recorded car (R25). -/
def carReceivingTerm (s : State) (i : TermInput) : Bool :=
  match i.car with
  | none => false
  | some c =>
    let r := carRec s c
    receivingAt s c i.oven && r.load = .empty &&
      (if i.held then r.state = .receiving
       else if r.assignedOven = i.oven then r.state = .assigned || r.state = .receiving
       else r.state = .idle)

/-- Whether a term holds (Table 2-2, R22 to R28). -/
def termHolds (s : State) (i : TermInput) : Nat → Bool
  | 1 => (namedStations s i).all (activeAt s)
  | 2 => (allowedPhases i.kind).contains (ovenRec s i.oven).phase
  | 3 => match i.pos with | some p => (alignment s p).oven = i.oven && i.oven != 0 | none => false
  | 4 =>
    s.run.state ≠ .running || !(match i.pos with | some p => isRunMachine s p | none => false) ||
      (currentOven s = i.oven && (kindsOfStep s.run.step).contains i.kind)
  | 5 => reached s (readyInstant s i.oven)
  | 6 => !s.ilk.permits.any fun e => e.kind = .push
  | 7 => guideLockedAt s i.oven
  | 8 => carReceivingTerm s i
  | 9 => bothDoorsOff s i.oven
  | 10 => bothDoorsOn s i.oven
  | 11 => match freshFeedback s i.oven with | some f => f ≤ s.opr.config.isolate | none => false
  | 12 => match freshFeedback s i.oven with | some f => s.opr.config.openAt ≤ f | none => false
  | 13 => quiet s (i.oven - 1) && quiet s (i.oven + 1)
  | 14 => (chargeOn s i.oven).isSome
  | 15 => match carOf s i.pos with | some c => s.qtc.holder = some c && atTowerSpot s c | none => false
  | 16 => match carOf s i.pos with | some c => atWharf s c && (carRec s c).load = .wet | none => false
  | _ => true

/-- The first term of the effective set that fails a request (R29, R32). -/
def firstFailure (s : State) (i : TermInput) : Option Nat :=
  (effectiveTerms s i.kind).find? fun t => !termHolds s i t

/-- What the terms of an active entry are evaluated on. -/
def inputOf (s : State) (e : Permit) : TermInput :=
  { pos := posOfAddress s e.station, kind := e.kind, oven := e.oven, car := e.car, held := true }

/-- The first hold term that fails an active entry (R38). -/
def failedHold (s : State) (e : Permit) : Option Nat :=
  (effectiveTerms s e.kind).find? fun t => isHoldTerm t && !termHolds s (inputOf s e) t

/-! ## Inputs of the hold terms (R38) -/

/-- What R38 watches of a car: state, load state, position and occupancy (R91). -/
def carInput (s : State) (c : Nat) : CarState × LoadState × Option Nat × List Nat :=
  let r := carRec s c
  (r.state, r.load, r.position, r.occupied)

/-- A machine's alignment or guide-locked status has changed at position `p` (R38). -/
def alignMoved (b s : State) (p : Nat) : Bool :=
  (alignment b p).oven ≠ (alignment s p).oven || (alignment b p).receiving ≠ (alignment s p).receiving ||
    ((pollEntry s p).cls = .cgm && guideLocked b p != guideLocked s p)

/-- The members of two lists that only one of them has. -/
def differing (l m : List Nat) : List Nat :=
  l.filter (fun n => !m.contains n) ++ m.filter (fun n => !l.contains n)

/-- The ovens that a machine leaves or reaches, by its alignment oven or by its receiving set, each on its own (R38); oven 0
is none (log 24). -/
def ovensMoved (b s : State) (p : Nat) : List Nat :=
  (differing [(alignment b p).oven] [(alignment s p).oven] ++
    differing (alignment b p).receiving (alignment s p).receiving).filter (· ≠ 0)

/-- What R100 hands on of a door record. -/
def doorInput (r : DoorRecord) : DoorState × Option Severity × Bool := (r.state, r.severity, r.overdue)

/-- The rows of R38's table, from the state `b` before the change to the state `s`: an input of an entry has
changed. A guide-locked status that changes at an alignment that stays is an input of PUSH entries alone, as the table's row
has it, and of no other kind to which the permit table adds term 7: the model's choice (log 59). -/
def inputChanged (b s : State) (e : Permit) : Bool :=
  let i := inputOf s e
  let own := i.pos
  let terms := effectiveTerms s e.kind
  -- a station's state
  (namedStations s i).any (fun q => match q with
    | some p => (station b p).state ≠ (station s p).state
    | none => false) ||
  -- a machine's alignment, receiving set or guide-locked status
  (positions s).any (fun p => alignMoved b s p &&
    (own = some p || (ovensMoved b s p).contains e.oven || ((pollEntry s p).cls = .cgm && e.kind = .push))) ||
  -- a door record's state, severity or overdue flag (R100)
  (doorInput (doorPair b e.oven).ps ≠ doorInput (doorPair s e.oven).ps ||
    doorInput (doorPair b e.oven).cs ≠ doorInput (doorPair s e.oven).cs) ||
  -- a car record, and the tower grant
  (match carOf s own with
   | some c => carInput b c ≠ carInput s c || b.qtc.holder ≠ s.qtc.holder
   | none => false) ||
  (match e.car with | some c => carInput b c ≠ carInput s c | none => false) ||
  -- a recorded feedback
  (regRec b e.oven).feedback ≠ (regRec s e.oven).feedback ||
  -- the start of a round, and the isolate threshold (R122)
  (terms.contains 11 &&
    (b.fpl.roundNumber ≠ s.fpl.roundNumber || b.opr.config.isolate ≠ s.opr.config.isolate)) ||
  -- the departure of a CHARGE entry
  ((chargeOn b e.oven).isSome && (chargeOn s e.oven).isNone)

/-! ## Departures (R36, R39, R40) -/

/-- Removes an entry. -/
def dropEntryOf (e : Permit) (s : State) : State :=
  s.onIlk fun k => { k with permits := k.permits.erase e }

/-- The side's door of an entry of a door kind. -/
def doorOf (e : Permit) : Option Door :=
  match e.side.door with
  | some side => some ⟨e.oven, side⟩
  | none => none

/-- Hands a departure to the door seal monitor, for the PM and the CGM (R35, R36). -/
def departFree (e : Permit) (s : State) : State :=
  match posOfAddress s e.station with
  | some p => dsmFreeAt p s
  | none => s

/-- The car of a car kind's entry. -/
def carOfEntry (s : State) (e : Permit) : Option Nat := carOf s (posOfAddress s e.station)

/-- Applies a change where there is a car. -/
def withCar (c : Option Nat) (f : Nat → State → State) (s : State) : State :=
  match c with
  | some c => f c s
  | none => s

/-- Applies a change where there is a door. -/
def withDoor (d : Option Door) (f : Door → State → State) (s : State) : State :=
  match d with
  | some d => f d s
  | none => s

/-- The effects by kind of a break or an expiry (R39, R40): the detail of the run's stop, and the cause of
CHARGE_INCOMPLETE. The runner takes the phase change of a PUSH first, so that a run in WAIT stops OVEN_HELD (R52) and not
PERMIT_BROKEN: the model's choice (log 58). -/
def cutEffects (e : Permit) (detail cause : Nat) (s : State) : State :=
  match e.kind with
  | .push =>
    schPushBroken e.oven detail (withCar e.car (fun c => carLoads c true) (ovtPushBroken e.oven s))
  | .charge => ovtChargeCut e.oven e.station cause s
  | .doorOff => oprDerive e.oven s
  | .doorOn => s
  | .reseat => withDoor (doorOf e) (fun d => taskPermitEnds d false) s
  | .quench => withCar (carOfEntry s e) (fun c => carQuenchEnds c false) s
  | .dump => withCar (carOfEntry s e) (fun c => carDumpEnds c false) s
  | .level => s

/-- The removal of an entry that is cut: its event, the HALT for its holder, the effects by kind, and the departure
(R39, R40). -/
def cutPermit (e : Permit) (ev : EventKind) (evDetail reason detail cause : Nat) (s : State) : State :=
  let s := raise ev e.oven e.station evDetail (dropEntryOf e s)
  let s := placeHalt .ilk reason (posOfAddress s e.station) s
  departFree e (cutEffects e detail cause s)

/-- A break on a term (R39). -/
def breakPermit (e : Permit) (term : Nat) (s : State) : State :=
  cutPermit e .permitBroken term HaltReason.permitBroken term 2 s

/-- An expiry (R40). -/
def expirePermit (e : Permit) (s : State) : State :=
  cutPermit e .permitExpired e.kind.code HaltReason.permitExpired 0 3 s

/-- The first entry, in grant order, of which an input has changed and a hold term fails. -/
def firstBroken (b s : State) : Option (Permit × Nat) :=
  s.ilk.permits.findSome? fun e =>
    if inputChanged b s e then (failedHold s e).map fun t => (e, t) else none

/-- Breaks entries one at a time, in grant order, each departure handed on before the next is taken (R41). -/
def settleLoop (b : State) : Nat → State → State
  | 0, s => s
  | fuel + 1, s =>
    match firstBroken b s with
    | some (e, t) => settleLoop b fuel (breakPermit e t s)
    | none => s

/-- The re-evaluation of the hold terms after a change from `b` to `s` (R38, R41, log 24). Each round removes an
entry. -/
def ilkSettle (b s : State) : State := settleLoop b s.ilk.permits.length s

/-- A change in which the runner may take up or give back a car, whose record is an input to the permits the car holds
(R38, R91), with the interlock's re-evaluation after it. -/
def settled (f : State → State) (s : State) : State := ilkSettle s (f s)

/-- A change of a door's state, severity or overdue flag handed on, `b` being the state before it: to the interlock, the
schedule runner and the offtake pressure regulator (R100). -/
def doorHandedOn (b : State) (d : Door) (s : State) : State :=
  oprDerive d.oven (settled (schDoorChange d.oven) (ilkSettle b s))

/-! ## Requests (R21, R32 to R35) -/

/-- The class that may ask for a kind and a side, with the side as recorded (R21). -/
def sideFor (c : StationClass) (k : PermitKind) (side : Nat) : Option Side :=
  if isDoorKind k then
    if c = .pm && side = 1 then some .ps else if c = .cgm && side = 2 then some .cs else none
  else
    let asker : StationClass :=
      match k with
      | .push => .pm
      | .level => .pm
      | .charge => .cc
      | .quench => .car
      | .dump => .car
      | .doorOff => .pm
      | .doorOn => .pm
      | .reseat => .pm
    if c = asker then some .none else none

/-- A REQUEST or DONE as the interlock reads it (R21): its kind if the code has one, its oven as recorded, and its
side as recorded where the class is right. -/
structure Asked where
  kind : Option PermitKind
  oven : Nat
  side : Option Side

/-- Normalises kind, oven and side (R21). -/
def asked (s : State) (p : Nat) (kind oven side : Nat) : Asked :=
  match PermitKind.ofCode kind with
  | some k => ⟨some k, if isCarKind k then 0 else oven, sideFor (pollEntry s p).cls k side⟩
  | none => ⟨none, oven, none⟩

/-- The active entry of a station with a kind, oven and side. -/
def activeEntry (s : State) (station : Nat) (k : PermitKind) (oven : Nat) (side : Side) : Option Permit :=
  s.ilk.permits.find? fun e => e.station = station && e.kind = k && e.oven = oven && e.side = side

/-- The exclusion check fails (R34). -/
def excluded (s : State) (k : PermitKind) (n : Nat) : Bool :=
  s.ilk.permits.any fun e =>
    e.oven = n && !isCarKind k &&
      (e.kind = .push || (e.kind = .charge && k ≠ .level) || k = .push || k = .charge)

/-- A REFUSE to the requester (R32). -/
def refuseRequest (p kind oven reason : Nat) (s : State) : State :=
  placeAnswer p (.refuse kind oven reason) s

/-- What a request at position `p` is evaluated on. -/
def requestInput (s : State) (p : Nat) (k : PermitKind) (oven : Nat) : TermInput :=
  { pos := some p, kind := k, oven := oven, car := if k = .push then carFor s oven else none, held := false }

/-- The effect of a grant by kind (R35). -/
def grantEffects (e : Permit) (p : Nat) (s : State) : State :=
  match e.kind with
  | .push =>
    schPushGranted e.oven (withCar e.car (fun c => carReceives c e.oven) (setPhaseOnly e.oven .pushing s))
  | .charge => setPhaseOnly e.oven .charging s
  | .doorOff => oprDerive e.oven s
  | .quench => withCar (carAt s p) carQuenches s
  | .dump => withCar (carAt s p) carDumps s
  | .reseat => withDoor (doorOf e) taskWorks s
  | .doorOn => s
  | .level => s

/-- The entry of a grant (R35 item 1). -/
def grantEntry (s : State) (p : Nat) (k : PermitKind) (oven : Nat) (side : Side) : Permit :=
  { station := (pollEntry s p).address, kind := k, oven := oven, side := side, grant := s.now
    deadline := s.now + holdLimit s k, car := (requestInput s p k oven).car }

/-- A grant (R35). A changed car record or charge is an input to other entries (R38). -/
def grant (p : Nat) (e : Permit) (s : State) : State :=
  let b := s
  let s := s.onIlk fun k => { k with permits := k.permits ++ [e] }
  let s := placeAnswer p (.permit e.kind.code e.oven e.side.code (e.deadline - e.grant)) s
  ilkSettle b (grantEffects e p s)

/-- The checks of R32 after the wrong class has been ruled out. -/
def requestChecked (p : Nat) (k : PermitKind) (oven : Nat) (side : Side) (s : State) : State :=
  match activeEntry s (pollEntry s p).address k oven side with
  | some e => placeAnswer p (.permit k.code oven side.code (e.deadline - s.now)) s
  | none =>
    if 8 ≤ s.ilk.permits.length then refuseRequest p k.code oven Reason.setFull s
    else if excluded s k oven then refuseRequest p k.code oven Reason.ovenBusy s
    else
      match firstFailure s (requestInput s p k oven) with
      | some t => refuseRequest p k.code oven t s
      | none => grant p (grantEntry s p k oven side) s

/-- Whether check 2 of R32 asks for a configured oven: every kind but the car kinds. -/
def namesOven (a : Asked) : Bool :=
  match a.kind with
  | some k => !isCarKind k
  | none => true

/-- A REQUEST from the station at `p` (R32). -/
def ilkRequest (p kind oven side : Nat) (s : State) : State :=
  let a := asked s p kind oven side
  if s.mgt.mode ≠ .service then refuseRequest p kind a.oven Reason.notInService s
  else if namesOven a && !configured s a.oven then refuseRequest p kind a.oven Reason.unknownOven s
  else
    match a.kind, a.side with
    | some k, some side => requestChecked p k a.oven side s
    | some _, none => refuseRequest p kind a.oven Reason.wrongClass s
    | none, _ => refuseRequest p kind a.oven Reason.wrongClass s

/-! ## Completion (R36, R37) -/

/-- A door kind completed OK, from the door record to the regulator, in the order of R98. -/
def doorCompleted (b : State) (d : Door) (off : Bool) (s : State) : State :=
  let s := if off then doorRemoved d s else doorReplaced d s
  let s := if off then ovtDoorOff d.oven s else ovtDoorOn d.oven s
  let s := doorHandedOn b d s
  if leakEntries s = leakEntries b then s else dsmFreeBoth s

/-- The effects of a matching DONE by kind (R36); `b` is the state before the release. A run in WAIT takes the phase change
of a PUSH first, as at a break (log 58). -/
def doneEffects (b : State) (e : Permit) (ok : Bool) (measurement : Nat) (s : State) : State :=
  match e.kind with
  | .doorOff =>
    if ok then withDoor (doorOf e) (fun d => doorCompleted b d true) s else oprDerive e.oven s
  | .doorOn => if ok then withDoor (doorOf e) (fun d => doorCompleted b d false) s else s
  | .reseat => withDoor (doorOf e) (fun d => taskPermitEnds d ok) s
  | .push =>
    let s := withCar e.car (fun c => carLoads c (!ok)) (ovtPushDone e.oven e.station measurement ok s)
    if ok then schPushDone e.oven s else schPushBroken e.oven 255 s
  | .charge => if ok then ovtChargeDone e.oven s else ovtChargeCut e.oven e.station 1 s
  | .level => s
  | .quench => withCar (carOfEntry s e) (fun c => carQuenchEnds c ok) s
  | .dump =>
    if ok then withCar (carOfEntry s e) (fun c s => satisfyRequest (carDumpEnds c true s)) s
    else withCar (carOfEntry s e) (fun c => carDumpEnds c false) s

/-- A DONE from the station at `p` (R36, R37). A result above 1 is FAIL (R137). -/
def ilkDone (p kind oven side result measurement : Nat) (s : State) : State :=
  let a := asked s p kind oven side
  let address := (pollEntry s p).address
  let entry :=
    match a.kind, a.side with
    | some k, some side => activeEntry s address k a.oven side
    | some _, none => none
    | none, _ => none
  match entry with
  | some e => departFree e (ilkSettle s (doneEffects s e (result = 0) measurement (dropEntryOf e s)))
  | none => raise .lateDone a.oven address kind s

/-! ## Expiry (R40, R41) -/

/-- The first entry in grant order whose hold deadline has been reached. -/
def dueEntry (s : State) : Option Permit :=
  s.ilk.permits.find? fun e => reached s e.deadline

/-- The hold deadline of the first due entry acts (R40). -/
def expireFirst (s : State) : State :=
  match dueEntry s with
  | some e => ilkSettle s (expirePermit e s)
  | none => s

/-- Every due entry expires, in grant order (R41). -/
def expireAll : Nat → State → State
  | 0, s => s
  | fuel + 1, s =>
    match dueEntry s with
    | some _ => expireAll fuel (expireFirst s)
    | none => s

/-- The holder of a permit whose effective set holds term 3, at an address (R45, R153). -/
def holdsTerm3 (s : State) (address : Nat) : Bool :=
  s.ilk.permits.any fun e => e.station = address && (effectiveTerms s e.kind).contains 3

end Sys2Proof.Machine
end

