-- ==== Sys2Proof/Machine/FieldReports.lean ====
section
/-!
DEFINITION. The handlers of the field reports whose effects reach several blocks: SEAL (R102, R103), SAMPLE
(R114 to R116) and POSITION (R151).
-/
namespace Sys2Proof.Machine

open Sys2Proof

/-! ## SEAL -/

/-- The side of a seal test, where the sender may test it (R102). -/
def sealSide (s : State) (p side : Nat) : Option DoorSide :=
  match doorSideAt s p with
  | some d => if doorCode d = side then some d else none
  | none => none

/-- The door of a SEAL that is not unexpected (R102). -/
def sealDoor (s : State) (p oven side : Nat) : Option Door :=
  match sealSide s p side with
  | some d => if configured s oven && !isOff (doorRec s ⟨oven, d⟩) then some ⟨oven, d⟩ else none
  | none => none

/-- The door record of an evaluated SEAL, and whether SEAL_FAIL with detail 0 is raised (R103). -/
def sealResult (c : SealConfig) (now : Int) (i : Nat) (r : DoorRecord) : DoorRecord × Bool :=
  let r := { r with lastIndex := i }
  let leaks (v : Severity) : DoorRecord :=
    if r.state = .leaking ∧ r.severity = some v then r
    else { r with state := .leaking, severity := some v, leakInstant := now, overdue := false, retryDue := false }
  if i ≤ c.accept then
    ({ r with state := .sealed, severity := none, overdue := false, retryDue := false }, false)
  else if i ≤ c.reject then (leaks .minor, false)
  else if r.state = .unsealed ∧ r.retries < c.maxRetries then
    ({ r with retries := r.retries + 1, retryDue := true }, false)
  else (leaks .major, r.state = .unsealed)

/-- The leak list after an evaluated SEAL, from the record before it (R103, R107, R108). -/
def sealList (d : Door) (old : DoorRecord) (station : Nat) (s : State) : State :=
  let r := doorRec s d
  if r.state = .leaking then
    if old.state ≠ .leaking then offerDoor d station s
    else if old.severity = r.severity then s
    else if r.listed then
      -- a listed door leaves its place and joins its new class (R108)
      setLeaks (joinClass s d (s.dsm.leaks.erase d)) s
    else offerDoor d station s
  else if old.state = .leaking then leaveList d s
  else s

/-- An evaluated SEAL (R103, R112), and the freedom tests that a change of a leak list entry, the end of a task and a
retry ordered once more call for (R110). -/
def sealEvaluated (d : Door) (station i : Nat) (s : State) : State :=
  let b := s
  let old := doorRec s d
  let (r, failed) := sealResult s.dsm.config s.now i old
  let s := setDoorRec d r s
  let s := if failed then raise .sealFail d.oven station 0 s else s
  let s := sealList d old station s
  let s := taskSealed d (doorHandedOn b d s)
  let listMoved := leakEntries s ≠ leakEntries b
  let ended := taskOf b d.side ≠ taskOf s d.side
  let owed := old.retries < r.retries
  if listMoved then dsmFreeBoth s else if ended ∨ owed then dsmFree d.side s else s

/-- SEAL_OVERDUE where the seal deadline of a door has been reached, the overdue flag handed on (R105, R100). -/
def sealOverdue (d : Door) (s : State) : State :=
  if overdueNow s d then
    doorHandedOn s d
      (raise .sealOverdue d.oven 0 (doorCode d.side) (setDoorRec d { doorRec s d with overdue := true } s))
  else s

/-- A SEAL from the station at `p` (R102). -/
def dsmSeal (p oven side i : Nat) (s : State) : State :=
  let a := (pollEntry s p).address
  if (station s p).state ≠ .active then s
  else
    match sealDoor s p oven side with
    | some d => sealEvaluated d a i s
    | none => raise .sealFail (if oven ≤ 128 then oven else 0) a 1 s

/-! ## SAMPLE -/

/-- A slot taken for oven `m` (R114): the feedback and the interlock, the mismatch test, the pressure. -/
def sampleSlot (m fb : Nat) (pressure : Int) (s : State) : State :=
  oprPressure m pressure (oprMismatch m fb (ilkSettle s (oprFeedback m fb s)))

/-- Slot `k` of a SAMPLE. -/
structure SampleSlot where
  k : Nat
  valid : Bool
  pressure : Int
  feedback : Nat

/-- The eight slots of a SAMPLE body (R138). -/
def slotsOf (body : List Byte) : List SampleSlot :=
  (List.range 8).map fun k =>
    { k := k
      valid := (body.getD 1 0).getLsbD k
      pressure := toSigned 16 (ofBytes ((body.drop (2 + 2 * k)).take 2))
      feedback := (body.getD (18 + k) 0).toNat }

/-- A SAMPLE from the station at `p` (R114). -/
def oprSample (p : Nat) (body : List Byte) (s : State) : State :=
  let e := pollEntry s p
  if e.cls ≠ .os || (station s p).state ≠ .active then s
  else
    (slotsOf body).foldl
      (fun s q =>
        let m := (body.getD 0 0).toNat + q.k
        if slotTaken s e.inst q.k m q.valid q.feedback then sampleSlot m q.feedback q.pressure s else s) s

/-! ## POSITION -/

/-- The fields of a POSITION body (R137). -/
def reportedPosition (body : List Byte) : Nat := ofBytes (body.take 3)

/-- See `reportedPosition`; any value but 0 is moving (log 17). -/
def reportedMoving (body : List Byte) : Bool := body.getD 3 0 ≠ 0

/-- See `reportedPosition`. -/
def reportedStatus (body : List Byte) : Nat := (body.getD 4 0).toNat

/-- The field poller records a POSITION in the station record (R162). -/
def recordPosition (p : Nat) (body : List Byte) (s : State) : State :=
  setStation p
    { station s p with
      lastPos := some (reportedPosition body), moving := reportedMoving body, status := reportedStatus body } s

/-- The quench track controller takes the report of an ACTIVE car (R76). -/
def qtcPosition (p : Nat) (body : List Byte) (s : State) : State :=
  match carAt s p with
  | some c =>
    if (station s p).state = .active then
      satisfyRequest (carReport c (reportedPosition body) (reportedMoving body) (reportedStatus body) s)
    else s
  | none => s

/-- A POSITION of the station at `p`: field poller, oven table, quench track controller, interlock, in that order
(R151), then the schedule runner, whose steps wait for machines (R57, R58, log 25). -/
def handlePosition (p : Nat) (body : List Byte) (s : State) : State :=
  let b := s
  let s := qtcPosition p body (evaluate p (recordPosition p body s))
  let s := ilkSettle b s
  if alignChanged b s then schAlignChange s else s

end Sys2Proof.Machine
end

