-- ==== Sys2Proof/Machine/Membership.lean ====
section
/-!
DEFINITION. The field poller (Chapter 9): departures, misses, joining, rounds, the forming of polls, the delivery
of what they carried, and the field restart.
-/
namespace Sys2Proof.Machine

open Sys2Proof

/-! ## Departures (R168, R42) -/

/-- The blocks that take a departure after the interlock, in the order of R168. -/
def departureHanded (p : Nat) (s : State) : State :=
  let e := pollEntry s p
  let s := schStationLeft p s
  let s := withCar (carAt s p) carLost s
  let s := if e.cls = .os then oprStationLeft e.inst s else s
  match doorSideAt s p with
  | some side => dsmStationLeft side s
  | none => s

/-- A departure taken by those blocks; a car that the runner gives back is an input to the interlock (R91). -/
def departureTaken (p : Nat) (s : State) : State := settled (departureHanded p) s

/-- The station at `p`, ACTIVE in `b`, has left ACTIVE in `s` (R168). -/
def departure (b : State) (p : Nat) (s : State) : State :=
  departureTaken p (ilkSettle b (clearAlignment p s))

/-! ## Misses (R168) -/

/-- A miss of the station at `p`. -/
def miss (p : Nat) (s : State) : State :=
  let r := station s p
  match r.state with
  | .active =>
    let count := r.misses + 1
    if s.fpl.settings.misses ≤ count then
      let a := (pollEntry s p).address
      departure s p
        (raise .stationLost 0 a count (setStation p { r with state := .lost, misses := count } s))
    else setStation p { r with misses := count } s
  | .joining => setStation p { r with state := .absent, joinProgress := 0, joinRef := none } s
  | .absent => s
  | .lost => s

/-! ## Joining (R170, R171) -/

/-- Whether a READY succeeds at the station at `p` (R170). -/
def readySucceeds (s : State) (p selfCheck claimed : Nat) : Bool :=
  selfCheck = 0 && claimed = (pollEntry s p).cls.code

/-- STATION_FAULT (R170). A self-check above 1 is FAULT (R137); the detail carries the byte's meaning, 1. -/
def stationFault (p selfCheck claimed : Nat) (s : State) : State :=
  raise .stationFault 0 (pollEntry s p).address (claimed * 256 + min 1 selfCheck : Nat) s

/-- A station that has declared itself (R170). -/
def joiningRecord (r : StationRecord) : StationRecord :=
  { r with state := .joining, misses := 0, joinProgress := 0, joinRef := none }

/-- A READY at a station that is not in service (R170). -/
def readyWaiting (p selfCheck claimed : Nat) (s : State) : State :=
  if readySucceeds s p selfCheck claimed then setStation p (joiningRecord (station s p)) s
  else stationFault p selfCheck claimed s

/-- A READY (R170). A JOINING station whose READY fails also loses its join progress and join reference (log 54). -/
def fplReady (p selfCheck claimed : Nat) (s : State) : State :=
  let r := station s p
  match r.state with
  | .absent => readyWaiting p selfCheck claimed s
  | .lost => readyWaiting p selfCheck claimed s
  | .joining =>
    if readySucceeds s p selfCheck claimed then setStation p { r with joinProgress := 0, joinRef := none } s
    else
      stationFault p selfCheck claimed
        (setStation p { r with state := .absent, joinProgress := 0, joinRef := none } s)
  | .active =>
    let lost := raise .stationLost 0 (pollEntry s p).address 0 (setStation p { r with state := .lost, misses := 0 } s)
    readyWaiting p selfCheck claimed (departure s p lost)

/-- The lowest and the highest centre of the configured ovens. -/
def centreSpan (s : State) : Option (Nat × Nat) :=
  match (configuredOvens s).map (centreOf s) with
  | [] => none
  | c :: rest => some (rest.foldl min c, rest.foldl max c)

/-- Whether a reply is plausible for the class of the station at `p` (R171). -/
def plausible (s : State) (p : Nat) (t : Telegram) : Bool :=
  let pos := reportedPosition t.body
  let nearBattery :=
    kindOf t = Kind.position &&
      (match centreSpan s with
       | some (lo, hi) => (lo : Int) - 20000 ≤ pos && (pos : Int) ≤ hi + 20000
       | none => false)
  match (pollEntry s p).cls with
  | .pm => nearBattery
  | .cgm => nearBattery
  | .cc => nearBattery
  | .car => kindOf t = Kind.position && s.qtc.count ≠ 0 && trackStart s ≤ pos && pos ≤ trackEnd s
  | .os => kindOf t = Kind.sample && t.body.getD 1 0 ≠ 0
  | .aux => true

/-- The station at `p` becomes ACTIVE (R171, R110, R127). -/
def joined (p : Nat) (s : State) : State :=
  let b := s
  let e := pollEntry s p
  let s := setStation p { station s p with state := .active, misses := 0, joinProgress := 2, joinRef := none } s
  let s := ilkSettle b (raise .stationJoined 0 e.address e.cls.code s)
  let s := dsmFreeAt p s
  if e.cls = .os then markDirty e.inst s else s

/-- A plausible machine report lies more than 500 mm from the join reference (R171). -/
def strayed (r : StationRecord) (cls : StationClass) (pos : Nat) : Bool :=
  cls.isMachine &&
    match r.joinRef with
    | some ref => 500 < ((pos : Int) - ref).natAbs
    | none => false

/-- The join test of a reply from a JOINING station (R171). -/
def joinTest (p : Nat) (t : Telegram) (s : State) : State :=
  let r := station s p
  let cls := (pollEntry s p).cls
  let pos := reportedPosition t.body
  if kindOf t = Kind.ready then s
  else if !plausible s p t then setStation p { r with joinProgress := 0, joinRef := none } s
  else if r.joinProgress = 0 then
    setStation p { r with joinProgress := 1, joinRef := if cls.isMachine then some pos else none } s
  else if strayed r cls pos then setStation p { r with joinRef := some pos } s
  else joined p s

/-! ## Rounds (R166) -/

/-- The station at `p` is polled or probed in the present round. -/
def takesTurn (s : State) (p : Nat) : Bool :=
  match (station s p).state with
  | .active => true
  | .joining => true
  | .absent => s.fpl.roundNumber % 8 = 0
  | .lost => s.fpl.roundNumber % 8 = 0

/-- The first position from `q` on that is not passed over. -/
def nextTurn (s : State) (q : Nat) : Option Nat :=
  (positions s).find? fun p => q ≤ p && takesTurn s p

/-- A round begins: its number, the interlock, and its first turn; with nothing to poll it ends at once. -/
def beginRound (s : State) : State :=
  let b := s
  let s := ilkSettle b (s.onFpl fun f => { f with roundNumber := (f.roundNumber + 1) % 4294967296, owed := false })
  s.onFpl fun f => { f with round := nextTurn s 0 }

/-- A round ends; an owed one begins at once, with ROUND_OVERRUN and the length of the round just ended, a free value
(log 13). -/
def endRound (s : State) : State :=
  let s := s.onFpl fun f => { f with round := none }
  if s.fpl.owed then
    let length := (Config.roundLength s.drawn).toNat
    raise .roundOverrun 0 0 length (beginRound { s with drawn := s.drawn + 1 })
  else s

/-- Positions are passed over up to the next turn, or the round ends (log 33). -/
def roundOn (s : State) : State :=
  match s.fpl.round with
  | some q =>
    match nextTurn s q with
    | some p => s.onFpl fun f => { f with round := some p }
    | none => endRound s
  | none => s

/-- An expiry of the round timer (R166, R161). -/
def roundTimer (s : State) : State :=
  let s := s.onFpl fun f => { f with timerPeriod := f.settings.period }
  match s.fpl.round with
  | some _ => s.onFpl fun f => { f with owed := true }
  | none => beginRound s

/-! ## Polls (R165) -/

/-- The image of the station at `p` goes out in its poll (R165 item 4). -/
def imageWaits (s : State) (p : Nat) : Bool :=
  (pollEntry s p).cls = .os && isDirty s (pollEntry s p).inst && s.mgt.mode = .service

/-- The item that the poll of the station at `p` carries (R165). -/
def pollItem (s : State) (p : Nat) : PollItem :=
  let o := outbound s p
  let haltWaits := match o.order with | some w => isHalt w | none => false
  match (station s p).state with
  | .active =>
    if haltWaits then .halt
    else if o.answer.isSome then .answer
    else if o.order.isSome then .order
    else if imageWaits s p then .valve (pollEntry s p).inst
    else .bare
  | .joining => if haltWaits then .halt else .bare
  | .absent => .bare
  | .lost => .bare

/-- A bare POLL to the station at `p`. -/
def barePoll (s : State) (p : Nat) : Telegram :=
  originated s.mgt.address (pollEntry s p).address Kind.poll []

/-- The telegram of a poll (R134, R165). -/
def pollTelegram (s : State) (p : Nat) : PollItem → Telegram
  | .halt => match (outbound s p).order with | some w => w.telegram | none => barePoll s p
  | .order => match (outbound s p).order with | some w => w.telegram | none => barePoll s p
  | .answer =>
    match (outbound s p).answer with
    | some a => originated s.mgt.address (pollEntry s p).address (answerKind a.body) (answerBody a.body)
    | none => barePoll s p
  | .valve i =>
    originated s.mgt.address (pollEntry s p).address Kind.valve ((valveImage s i).flatMap (toBytes 2))
  | .bare => barePoll s p

/-- Marks the item that a poll carries, and clears the dirty flag of a carried image (R165, R127). -/
def markCarried (p : Nat) (item : PollItem) (s : State) : State :=
  let o := outbound s p
  match item with
  | .halt => setOutbound p { o with order := o.order.map fun w => { w with carried := true } } s
  | .order => setOutbound p { o with order := o.order.map fun w => { w with carried := true } } s
  | .answer => setOutbound p { o with answer := o.answer.map fun a => { a with carried := true } } s
  | .valve i => s.onOpr fun r => { r with dirty := writeNum r.dirty i false }
  | .bare => s

/-- Forms the poll of the station at `p`: the field port interface takes it and enters SENDING (R144, R165). -/
def formPoll (p : Nat) (s : State) : State :=
  let item := pollItem s p
  let t := pollTelegram s p item
  let s := markCarried p item s
  let s := s.onFpl fun f =>
    { f with
      round := some (p + 1)
      exchange := some
        { position := p, item := item, poll := t, rate := f.settings.rate, response := f.settings.response
          gap := f.settings.gap } }
  s.onFpi fun f => { f with line := .sending }

/-- The turn of the round's next station, once the line is IDLE. -/
def pollTurn (s : State) : State :=
  if s.fpi.line = .idle then
    let s := roundOn s
    match s.fpl.round with
    | some p => formPoll p s
    | none => s
  else s

/-! ## The ending of an exchange (R167, R168) -/

/-- The items of a position are no longer carried. -/
def uncarry (p : Nat) (s : State) : State :=
  let o := outbound s p
  setOutbound p
    { answer := o.answer.map fun a => { a with carried := false }
      order := o.order.map fun w => { w with carried := false } } s

/-- The line returns to IDLE and its receiver stops (R144). -/
def lineIdle (s : State) : State :=
  (s.onFpi fun f => { f with line := .idle, assembling := false }).onFpl fun f => { f with exchange := none }

/-- A delivered order leaves its slot, a HALT where the poll carried the HALT and another order where it carried that
(R167 item 1, R112, R110). -/
def deliverOrder (halt : Bool) (p : Nat) (s : State) : State :=
  match (outbound s p).order with
  | some w =>
    if w.carried && isHalt w == halt then
      let s := setOutbound p { outbound s p with order := none } s
      let s :=
        match doorSideAt s p with
        | some side => if w.origin = .dsm then taskDelivered side s else s
        | none => s
      dsmFreeAt p s
    else s
  | none => s

/-- A delivered answer leaves its slot (R163). -/
def deliverAnswer (p : Nat) (s : State) : State :=
  match (outbound s p).answer with
  | some a => if a.carried then setOutbound p { outbound s p with answer := none } s else s
  | none => s

/-- Delivery of what a poll carried (R167 item 1). -/
def deliver (p : Nat) (item : PollItem) (s : State) : State :=
  match item with
  | .halt => withCar (carAt s p) carHaltDelivered (deliverOrder true p s)
  | .order => deliverOrder false p s
  | .answer => deliverAnswer p s
  | .valve _ => s
  | .bare => s

/-- The station record at a reply (R167 item 2). -/
def recordReply (p : Nat) (s : State) : State :=
  let r := station s p
  setStation p
    { r with
      misses := if r.state = .active then 0 else r.misses
      lastReply := some s.fpl.roundNumber } s

/-- Items 1 to 3 of a taken reply (R167). -/
def replyTaken (p : Nat) (item : PollItem) (t : Telegram) (s : State) : State :=
  let s := uncarry p (recordReply p (deliver p item s))
  if (station s p).state = .joining then joinTest p t s else s

/-- Whether a taken reply is handed to the classifier (R167 item 4). -/
def passedOn (s : State) (p : Nat) (t : Telegram) : Bool :=
  (station s p).state = .active || (station s p).state = .joining || kindOf t = Kind.ready

/-- An exchange ends as a miss: the carried image is dirty again, and the station acts by its state (R168). -/
def exchangeMissed (s : State) : State :=
  match s.fpl.exchange with
  | some x =>
    let s := lineIdle s
    if x.void then roundOn s
    else
      let s := uncarry x.position s
      let s := match x.item with
        | .valve i => markDirty i s
        | .halt => s
        | .answer => s
        | .order => s
        | .bare => s
      roundOn (miss x.position s)
  | none => s

/-! ## Restarts (R172, R173) -/

/-- The answer slots emptied. -/
def emptyAnswers (s : State) : State :=
  s.onFpl fun f => { f with outbound := f.outbound.map fun o => { o with answer := none } }

/-- An order other than a HALT leaves the slot of a position, undelivered (R164, R172). -/
def clearOrder (p : Nat) (s : State) : State :=
  match (outbound s p).order with
  | some w =>
    if isHalt w then s else orderLeftUndelivered p w (setOutbound p { outbound s p with order := none } s)
  | none => s

/-- Every station ABSENT, its alignment entry empty (R172 items 3 and 4). -/
def allAbsent (s : State) : State :=
  let s := s.onFpl fun f =>
    { f with
      stations := f.stations.map fun r =>
        { r with state := .absent, misses := 0, joinProgress := 0, joinRef := none } }
  s.onOvt fun o => { o with align := o.align.map fun _ => {} }

/-- The field restart (R172, R183). -/
def fieldRestart (s : State) : State :=
  let s := lineIdle s
  let s := (positions s).foldl (fun s p => uncarry p (clearOrder p s)) (emptyAnswers s)
  let b := s
  let s := ilkSettle b (allAbsent s)
  let s := ((positions s).filter fun p => (station b p).state = .active).foldl (fun s p => departureTaken p s) s
  roundOn s

end Sys2Proof.Machine
end

