-- ==== Sys2Proof/Machine/Classifier.lean ====
section
/-!
DEFINITION. The classifier (Chapter 8): the choice of the dispatch entry, deposits, copies, field telegrams, and the
orders and other telegrams of the control station.
-/
namespace Sys2Proof.Machine

open Sys2Proof

/-! ## The entry (R148) -/

/-- The header word of a telegram (8.2.1). -/
def headerWord (t : Telegram) : Nat :=
  t.dest.toNat * 2 ^ 24 + t.source.toNat * 2 ^ 16 + kindOf t * 2 ^ 8 + t.body.length

/-- The selector parameters of a port. -/
def selectorOf (s : State) : Port → Selector
  | .control => s.cls.control
  | .field => s.cls.field

/-- The selector of a header word under a port's parameters. -/
def selected (g : Selector) (word : Nat) : Nat :=
  if 32 < g.offset + g.width then 0 else word / 2 ^ g.offset % 2 ^ g.width

/-- The index of the entry that a telegram reads. -/
def entryIndex (s : State) (port : Port) (t : Telegram) : Nat :=
  (selectorOf s port).base ||| selected (selectorOf s port) (headerWord t)

/-- The entry that a telegram reads. -/
def entryFor (s : State) (port : Port) (t : Telegram) : DispatchEntry :=
  readAt s.cls.dispatch (entryIndex s port t) {}

/-! ## Deposits and copies (R154, R151) -/

/-- The station state code at an address; an address that the poll list does not hold is ABSENT. -/
def stateCodeOf (s : State) (a : Nat) : Nat :=
  match posOfAddress s a with
  | some p => (station s p).state.code
  | none => StationState.code .absent

/-- The value of a deposit (R154); `a` is the station concerned. -/
def depositValue (s : State) (e : DispatchEntry) (a : Nat) : Nat :=
  match e.source with
  | .clockLow => (s.now % 65536).toNat
  | .stationState => stateCodeOf s a
  | .mode => s.mgt.mode.code
  | .constant => e.constant

/-- A telegram with the deposit of an entry, or unchanged where it does not fit (R154). -/
def deposited (s : State) (e : DispatchEntry) (a : Nat) (t : Telegram) : Telegram :=
  if t.body.length < e.offset + e.width then t
  else
    { t with
      body := t.body.take e.offset ++ toBytes e.width (depositValue s e a) ++ t.body.drop (e.offset + e.width) }

/-- The copy of a field telegram of a core kind that its entry sends on (R151). -/
def coreCopy (e : DispatchEntry) (t : Telegram) (s : State) : State :=
  match e.action with
  | .pass => queueCopy t s
  | .depositPass => queueCopy (deposited s e t.source.toNat t) s
  | .absorb => s
  | .check => s
  | .drop => s

/-! ## Handler checks (R153, Table 8-5) -/

/-- What a handler makes of a dispatched telegram. -/
inductive Verdict where
  | passes
  | refused (reason : Nat)
  | mismatch
  deriving DecidableEq, Repr

/-- The machine-specific kinds (Table 7-2). -/
def machineSpecific (kind : Nat) : Bool := 0x60 ≤ kind && kind ≤ 0x7F

/-- The verdict of the quench track controller on a telegram to car `c` (Table 8-5). -/
def carVerdict (s : State) (c : Nat) : Verdict :=
  match (carRec s c).state with
  | .unknown => .refused Reason.carUnknown
  | .quenching => .refused Reason.draining
  | .draining => .refused Reason.draining
  | .idle => .passes
  | .assigned => .passes
  | .receiving => .passes
  | .loaded => .passes
  | .quenched => .passes
  | .dumping => .passes

/-- The verdict of Table 8-5; `p` is the position of the station concerned, `kind` the telegram's kind. -/
def verdict (s : State) (port : Port) (h : Handler) (p kind : Nat) : Verdict :=
  match h, port with
  | .ilk, .control =>
    if machineSpecific kind && (pollEntry s p).cls.isMachine then
      if holdsTerm3 s (pollEntry s p).address then .refused Reason.permitHeld else .passes
    else .mismatch
  | .qtc, .control =>
    match carAt s p with
    | some c => if machineSpecific kind then carVerdict s c else .mismatch
    | none => .mismatch
  | .fpl, _ => if (station s p).state = .active then .passes else .refused Reason.unknownStation
  | .mgt, _ => if s.mgt.mode = .service then .passes else .refused Reason.notInService
  | .ilk, .field => .mismatch
  | .qtc, .field => .mismatch
  | .none, _ => .mismatch
  | .dsm, _ => .mismatch
  | .opr, _ => .mismatch
  | .sch, _ => .mismatch

/-- DISPATCH_MISMATCH (R153). -/
def mismatch (index kind station : Nat) (s : State) : State :=
  raise .dispatchMismatch 0 station (index * 256 + kind : Nat) s

/-! ## Field telegrams (R151, R152) -/

/-- A field telegram of a kind not in Table 8-4 (R152). -/
def fieldOther (p : Nat) (t : Telegram) (s : State) : State :=
  let e := entryFor s .field t
  let index := entryIndex s .field t
  match e.action with
  | .pass => queueCopy t s
  | .depositPass => queueCopy (deposited s e t.source.toNat t) s
  | .absorb => if e.handler = .none then s else mismatch index (kindOf t) t.source.toNat s
  | .check =>
    match verdict s .field e.handler p (kindOf t) with
    | .passes => queueCopy t s
    | .refused _ => s
    | .mismatch => mismatch index (kindOf t) t.source.toNat s
  | .drop => s

/-- Byte `i` of a body, as a number. -/
def bodyByte (t : Telegram) (i : Nat) : Nat := (t.body.getD i 0).toNat

/-- A field telegram from the station at `p`: its fixed handlers and its copy, or its entry alone (R151, R152). -/
def classifyField (p : Nat) (t : Telegram) (s : State) : State :=
  let e := entryFor s .field t
  let k := kindOf t
  if k = Kind.position then coreCopy e t (handlePosition p t.body s)
  else if k = Kind.request then coreCopy e t (ilkRequest p (bodyByte t 0) (bodyByte t 1) (bodyByte t 2) s)
  else if k = Kind.done then
    coreCopy e t
      (ilkDone p (bodyByte t 0) (bodyByte t 1) (bodyByte t 2) (bodyByte t 3) (ofBytes ((t.body.drop 4).take 2)) s)
  else if k = Kind.seal then coreCopy e t (dsmSeal p (bodyByte t 0) (bodyByte t 1) (bodyByte t 2) s)
  else if k = Kind.sample then coreCopy e t (oprSample p t.body s)
  else if k = Kind.ready then coreCopy e t (fplReady p (bodyByte t 0) (bodyByte t 1) s)
  else fieldOther p t s

/-! ## Orders of the control station (R44, R45, R156) -/

/-- The echo of a placed order under the mirror flag of its entry (R156, R157). -/
def echo (e : DispatchEntry) (t : Telegram) (s : State) : State :=
  if e.mirror then queueCopy t s else s

/-- An order of the control station. -/
def controlOrder (t : Telegram) : Order := { telegram := t, origin := .control }

/-- Offers an order to the slot of `p`, and echoes it or refuses it (R156). -/
def placeControl (e : DispatchEntry) (p oven : Nat) (t : Telegram) (s : State) : State :=
  match offerOrder p (controlOrder t) s with
  | some s => echo e t s
  | none => refuseControl (kindOf t) oven Reason.haltPending s

/-- The checks that a MOVE and a TASK share (R45 checks 1 and 2), by the reason of the refusal. -/
def orderRefusal (s : State) (p : Nat) : Option Nat :=
  if !(pollEntry s p).cls.isMachine then some Reason.wrongClass
  else if runEngaged s && isRunMachine s p then some Reason.runOwned
  else none

/-- A MOVE at creep speed outside SERVICE (R45 check 4). -/
def creepOutside (s : State) (t : Telegram) : Telegram :=
  if s.mgt.mode = .service then t else creepTo t (moveTarget t)

/-- A MOVE of the control station to the station at `p` (R45). -/
def controlMove (e : DispatchEntry) (p : Nat) (t : Telegram) (s : State) : State :=
  match orderRefusal s p with
  | some why => refuseControl Kind.move (moveOven t) why s
  | none =>
    if holdsTerm3 s (pollEntry s p).address then refuseControl Kind.move (moveOven t) Reason.permitHeld s
    else
      let t := creepOutside s t
      match carAt s p with
      | some c =>
        match carMove c p (controlOrder t) s with
        | .ok (s, t) => echo e t s
        | .error why => refuseControl Kind.move (moveOven t) why s
      | none => placeControl e p (moveOven t) t s

/-- The refusal of check 1 of R45 that is a TASK's own. -/
def taskRefusal (s : State) (p task oven side : Nat) : Option Nat :=
  if !(pollEntry s p).cls.isMachine || task ≠ 1 || (sealSide s p side).isNone then some Reason.wrongClass
  else if !configured s oven then some Reason.unknownOven
  else none

/-- A TASK of the control station to the station at `p` (R45). -/
def controlTask (e : DispatchEntry) (p : Nat) (t : Telegram) (s : State) : State :=
  let oven := bodyByte t 1
  match taskRefusal s p (bodyByte t 0) oven (bodyByte t 2) with
  | some why => refuseControl Kind.task oven why s
  | none =>
    match orderRefusal s p with
    | some why => refuseControl Kind.task oven why s
    | none => placeControl e p oven t s

/-- A HALT of the control station to the station at `p` (R44): never refused. -/
def controlHalt (e : DispatchEntry) (p : Nat) (t : Telegram) (s : State) : State :=
  echo e t (putOrder p (controlOrder t) s)

/-! ## Other telegrams of the control station (R155, R157, R158) -/

/-- An offer for placement, its handler check made (R157 items 3 to 5). -/
def offerOther (e : DispatchEntry) (p : Nat) (t : Telegram) (s : State) : State :=
  let t := if e.action = .depositPass then deposited s e t.dest.toNat t else t
  placeControl e p 0 t s

/-- A telegram of another kind to the station at `p` (R157). -/
def controlOther (e : DispatchEntry) (index p : Nat) (t : Telegram) (s : State) : State :=
  let k := kindOf t
  let owned := runEngaged s && isRunMachine s p
  match e.action with
  | .drop => s
  | .absorb => if e.handler = .none then s else mismatch index k t.dest.toNat s
  | .pass => if owned then refuseControl k 0 Reason.runOwned s else offerOther e p t s
  | .depositPass => if owned then refuseControl k 0 Reason.runOwned s else offerOther e p t s
  | .check =>
    if owned then refuseControl k 0 Reason.runOwned s
    else
      match verdict s .control e.handler p k with
      | .passes => offerOther e p t s
      | .refused why => refuseControl k 0 why s
      | .mismatch => mismatch index k t.dest.toNat s

/-- The oven that a refused telegram names (R155): the purpose oven of a MOVE, the oven of a TASK, else 0. -/
def namedOven (t : Telegram) : Nat :=
  if kindOf t = Kind.move then moveOven t else if kindOf t = Kind.task then bodyByte t 1 else 0

/-- A broadcast HALT: a HALT for every station, then one copy (R158). -/
def broadcastHalt (e : DispatchEntry) (t : Telegram) (s : State) : State :=
  let place (s : State) (p : Nat) : State :=
    putOrder p (controlOrder { t with dest := BitVec.ofNat 8 (pollEntry s p).address }) s
  echo e t ((positions s).foldl place s)

/-- A control-port telegram to a station in the poll list (R156, R157). -/
def controlToStation (p : Nat) (t : Telegram) (s : State) : State :=
  let e := entryFor s .control t
  if kindOf t = Kind.move then controlMove e p t s
  else if kindOf t = Kind.halt then controlHalt e p t s
  else if kindOf t = Kind.task then controlTask e p t s
  else controlOther e (entryIndex s .control t) p t s

/-- A control-port telegram that is not a MGMT to the part, by its destination (R155). -/
def classifyControl (t : Telegram) (s : State) : State :=
  if t.dest.toNat = s.mgt.address then mismatch 0 (kindOf t) 0 s
  else if t.dest.toNat = 255 then
    if kindOf t = Kind.halt then broadcastHalt (entryFor s .control t) t s
    else refuseControl (kindOf t) (namedOven t) Reason.broadcastKind s
  else
    match posOfAddress s t.dest.toNat with
    | some p => controlToStation p t s
    | none => refuseControl (kindOf t) (namedOven t) Reason.unknownStation s

end Sys2Proof.Machine
end

