-- ==== Sys2Proof/Machine/Operands.lean ====
section
/-!
DEFINITION. The operand forms of the management requests: the entries that a LOAD carries, read field by field
(R140) with the range checks of each table's own rule. `none` is an entry that the rule refuses with BAD_RANGE.
-/
namespace Sys2Proof.Machine

open Sys2Proof

/-- `w` bytes of an entry from byte `i` on, unsigned. -/
def field (e : List Byte) (i w : Nat) : Nat := ofBytes ((e.drop i).take w)

/-- A flag byte: any value but 0 is set (log 17). -/
def flagAt (e : List Byte) (i : Nat) : Bool := field e i 1 ≠ 0

/-- A value within its range. -/
def within (v lo hi : Nat) : Bool := lo ≤ v && v ≤ hi

/-- Rows of `size` bytes, at most `count` of them. -/
def rows (size : Nat) : Nat → List Byte → List (List Byte)
  | 0, _ => []
  | count + 1, bs => bs.take size :: rows size count (bs.drop size)

/-- Every entry of a load parsed, or `none` if one is refused. -/
def parseAll {α : Type} (parse : List Byte → Option α) : List (List Byte) → Option (List α)
  | [] => some []
  | e :: rest =>
    match parse e, parseAll parse rest with
    | some a, some as => some (a :: as)
    | some _, none => none
    | none, _ => none

/-- A dispatch entry (Table 8-2, R150). -/
def parseDispatch (e : List Byte) : Option DispatchEntry :=
  match Action.ofCode (field e 0 1), Handler.ofCode (field e 1 1), DepositSource.ofCode (field e 5 1) with
  | some a, some h, some src =>
    if field e 3 1 ≤ 47 && within (field e 4 1) 1 2 then
      some ⟨a, h, flagAt e 2, field e 3 1, field e 4 1, src, field e 6 2⟩
    else none
  | _, _, none => none
  | _, none, _ => none
  | none, _, _ => none

/-- The selector parameters of a port (Table 8-1, R149). -/
def parseSelector (e : List Byte) : Option Selector :=
  if field e 0 1 ≤ 31 && field e 1 1 ≤ 8 then some ⟨field e 0 1, field e 1 1, field e 2 1⟩ else none

/-- The field line settings (Table 9-2, R161). -/
def parseLine (e : List Byte) : Option LineSettings :=
  match Rate.ofCode (field e 0 1) with
  | some r =>
    if within (field e 1 2) 50 2000 && within (field e 3 1) 8 64 && within (field e 4 1) 2 8 &&
        within (field e 5 1) 1 8 then
      some ⟨r, field e 1 2, field e 3 1, field e 4 1, field e 5 1⟩
    else none
  | none => none

/-- The highest instance of a class (Table 9-1). -/
def maxInstance : StationClass → Nat
  | .pm => 1
  | .cgm => 1
  | .cc => 1
  | .car => 2
  | .os => 16
  | .aux => 8

/-- A poll list entry (Table 9-1, R160). -/
def parsePoll (e : List Byte) : Option PollEntry :=
  match StationClass.ofCode (field e 1 1) with
  | some c =>
    if within (field e 0 1) 16 239 && within (field e 2 1) 1 (maxInstance c) then
      some ⟨field e 0 1, c, field e 2 1⟩
    else none
  | none => none

/-- An oven configuration entry (Table 1-1, R1): the centre is not among the checks (log 45). -/
def parseOven (e : List Byte) : Option OvenConfig :=
  if within (field e 4 2) 600 3000 && within (field e 6 1) 1 16 && field e 7 1 ≤ 7 then
    some ⟨field e 0 3, flagAt e 3, field e 4 2, field e 6 1, field e 7 1⟩
  else none

/-- An OVENSTATE entry (R15): a phase that can be loaded, and the elapsed minutes. -/
def parseOvenState (e : List Byte) : Option (Phase × Nat) :=
  match Phase.ofCode (field e 0 1) with
  | some ph =>
    if ph = .pushing || ph = .charging || ph = .doorsOff then none else some (ph, field e 1 2)
  | none => none

/-- A permit table entry with the terms that may be added (R29, R30). -/
def parsePermit (addable : List Nat) (e : List Byte) : Option PermitEntry :=
  let added := maskItems 16 (field e 0 2)
  let limit := field e 2 2
  if added.all addable.contains && (limit = 0 || within limit 10 1800) then some ⟨added, limit⟩ else none

/-- A segment entry (Table 4-1, R73). -/
def parseSegment (e : List Byte) : Option Segment :=
  match SegmentType.ofCode (field e 6 1) with
  | some t =>
    let start := field e 0 3
    let stop := field e 3 3
    let spot := field e 7 3
    if start < stop && (t ≠ .tower || (start < spot && spot < stop)) then some ⟨start, stop, t, spot⟩ else none
  | none => none

/-- A car configuration entry (Table 4-2, R74). -/
def parseCar (e : List Byte) : Option CarConfig :=
  if within (field e 0 2) 4000 40000 && field e 2 2 ≤ 20000 then some ⟨field e 0 2, field e 2 2⟩ else none

/-- The timing table (Table 1-2, R3). -/
def parseTiming (e : List Byte) : Option Timing :=
  if field e 0 1 ≤ 120 && field e 1 1 ≤ 240 && field e 2 1 ≤ 30 && within (field e 3 1) 5 100 &&
      within (field e 4 1) 5 100 && within (field e 5 1) 5 100 && within (field e 6 1) 5 100 &&
      field e 7 2 ≤ 8000 && field e 9 2 ≤ 8000 then
    some ⟨field e 0 1, field e 1 1, field e 2 1, field e 3 1, field e 4 1, field e 5 1, field e 6 1, field e 7 2,
      field e 9 2⟩
  else none

/-- A series entry (Table 3-1, R46). -/
def parseSeries (e : List Byte) : Option SeriesEntry :=
  if within (field e 0 1) 1 128 && field e 1 2 ≤ 3600 then some ⟨field e 0 1, field e 1 2⟩ else none

/-- The step timing table (Table 3-2, R47). -/
def parseStep (e : List Byte) : Option StepTiming :=
  if field e 0 2 ≤ 900 && within (field e 2 2) 30 900 && within (field e 4 2) 30 900 &&
      within (field e 6 2) 30 900 && within (field e 8 2) 30 900 && field e 10 2 ≤ 3600 &&
      field e 14 2 ≤ 4000 && field e 12 2 ≤ field e 14 2 && field e 16 1 ≤ 60 then
    some ⟨field e 0 2, field e 2 2, field e 4 2, field e 6 2, field e 8 2, field e 10 2, field e 12 2, field e 14 2,
      field e 16 1⟩
  else none

/-- The track timing table (Table 4-3, R75). -/
def parseTrack (e : List Byte) : Option TrackTiming :=
  if within (field e 0 2) 30 300 && field e 2 2 ≤ 300 && within (field e 4 2) 60 900 then
    some ⟨field e 0 2, field e 2 2, field e 4 2⟩
  else none

/-- The seal configuration (Table 5-3, R101). -/
def parseSeal (e : List Byte) : Option SealConfig :=
  if field e 0 1 ≤ field e 1 1 && field e 2 1 ≤ 3 && within (field e 3 1) 1 60 && field e 4 2 ≤ 900 &&
      within (field e 6 2) 30 900 then
    some ⟨field e 0 1, field e 1 1, field e 2 1, field e 3 1, field e 4 2, field e 6 2⟩
  else none

/-- A pressure mode entry (Table 6-1, R118). -/
def parseMode (e : List Byte) : Option ModeEntry :=
  if field e 4 2 ≤ 1000 && field e 2 2 ≤ field e 4 2 then
    some ⟨toSigned 16 (field e 0 2), field e 2 2, field e 4 2, flagAt e 6⟩
  else none

/-- The regulator configuration (Table 6-3, R122 check 1; the test for zero weights is check 2). -/
def parseReg (e : List Byte) : Option RegConfig :=
  let s := field e 4 2
  let sw := field e 6 2
  if field e 0 1 ≤ 15 && field e 1 1 ≤ 15 && field e 2 1 ≤ 15 && field e 3 1 ≤ 15 && s ≤ 1000 &&
      within sw s 2000 && within (field e 8 1) 1 100 && within (field e 9 2) sw 8000 &&
      within (field e 11 1) 1 15 && within (field e 12 1) 1 15 && field e 13 2 ≤ 500 &&
      field e 15 1 ≤ 20 && within (field e 16 1) 180 200 then
    some ⟨field e 0 1, field e 1 1, field e 2 1, field e 3 1, s, sw, field e 8 1, field e 9 2, field e 11 1,
      field e 12 1, field e 13 2, field e 15 1, field e 16 1⟩
  else none

/-- The enable flags of the event mask (R180): flag k at value 2^(k − 1). -/
def parseMask (e : List Byte) : Vector Bool 24 :=
  Vector.ofFn fun k => field e 0 3 / 2 ^ k.val % 2 = 1

/-! ## The same entries as a READ returns them (R140) -/

/-- A dispatch entry. -/
def dispatchBytes (d : DispatchEntry) : List Byte :=
  codeByte d.action.code ++ codeByte d.handler.code ++ flagByte d.mirror ++ codeByte d.offset ++ codeByte d.width ++
    codeByte d.source.code ++ toBytes 2 d.constant

/-- Selector parameters. -/
def selectorBytes (g : Selector) : List Byte :=
  codeByte g.offset ++ codeByte g.width ++ codeByte g.base

/-- Field line settings. -/
def lineBytesOf (l : LineSettings) : List Byte :=
  codeByte l.rate.code ++ toBytes 2 l.period ++ codeByte l.response ++ codeByte l.gap ++ codeByte l.misses

/-- A poll list entry. -/
def pollBytes (p : PollEntry) : List Byte :=
  codeByte p.address ++ codeByte p.cls.code ++ codeByte p.inst

/-- An oven configuration entry; zeros where none is loaded (log 8). -/
def ovenBytes : Option OvenConfig → List Byte
  | some c => toBytes 3 c.centre ++ flagByte c.inService ++ toBytes 2 c.target ++ codeByte c.station ++ codeByte c.slot
  | none => List.replicate 8 0#8

/-- A permit table entry; zeros where none is loaded (log 8). -/
def permitBytes : Option PermitEntry → List Byte
  | some e => maskBytes 2 e.added ++ toBytes 2 e.limit
  | none => List.replicate 4 0#8

/-- A segment entry. -/
def segmentBytes (g : Segment) : List Byte :=
  toBytes 3 g.start ++ toBytes 3 g.stop ++ codeByte g.type.code ++ toBytes 3 g.spot

/-- A car configuration entry; zeros where none is loaded (log 8). -/
def carBytes : Option CarConfig → List Byte
  | some c => toBytes 2 c.length ++ toBytes 2 c.gap
  | none => List.replicate 4 0#8

/-- The timing table. -/
def timingBytes (t : Timing) : List Byte :=
  [t.early, t.lateWindow, t.chargeHold, t.tolPm, t.tolCgm, t.tolCc, t.tolCar].flatMap codeByte ++
    [t.receiveOffset, t.receiveSpan].flatMap (toBytes 2)

/-- A series entry. -/
def seriesBytes (e : SeriesEntry) : List Byte := codeByte e.oven ++ toBytes 2 e.interval

/-- The step timing table. -/
def stepBytes (t : StepTiming) : List Byte :=
  [t.lead, t.position, t.opening, t.push, t.close, t.maxLateness, t.hardWarn, t.hardStop].flatMap (toBytes 2) ++
    codeByte t.silence

/-- The track timing table. -/
def trackBytes (t : TrackTiming) : List Byte := [t.quench, t.drain, t.hotLimit].flatMap (toBytes 2)

/-- The seal configuration. -/
def sealBytes (c : SealConfig) : List Byte :=
  [c.accept, c.reject, c.maxRetries, c.deadline].flatMap codeByte ++ [c.allowance, c.taskLimit].flatMap (toBytes 2)

/-- A pressure mode entry. -/
def modeBytes (m : ModeEntry) : List Byte :=
  signedBytes 2 m.target ++ toBytes 2 m.vmin ++ toBytes 2 m.vmax ++ flagByte m.regulate

/-- The regulator configuration. -/
def regBytes (c : RegConfig) : List Byte :=
  [c.w0, c.w1, c.w2, c.w3].flatMap codeByte ++ toBytes 2 c.stable ++ toBytes 2 c.wide ++ codeByte c.step ++
    toBytes 2 c.fast ++ codeByte c.interval ++ codeByte c.limit ++ toBytes 2 c.leakOffset ++ codeByte c.isolate ++
    codeByte c.openAt

/-- The event enable mask. -/
def enableBytes (v : Vector Bool 24) : List Byte :=
  maskBytes 3 ((v.toList.zipIdx.filter fun b => b.1).map fun b => b.2 + 1)

end Sys2Proof.Machine
end

