-- ==== Sys2Proof/Machine/Requests.lean ====
section
/-!
DEFINITION. The management requests other than LOAD and READ (Chapter 10 and the rules it names), each as the
state it leaves, its answer's status and its answer's data.
-/
namespace Sys2Proof.Machine

open Sys2Proof

/-- What a request comes to: the state it leaves, and the status and data of its ANSWER (R174). -/
structure Reply where
  state : State
  status : Nat
  data : List Byte := []

/-- An answer OK. -/
def okay (s : State) : Reply := ⟨s, Status.ok, []⟩

/-- A refusal, which leaves the state as it was. -/
def refuse (status : Nat) (s : State) : Reply := ⟨s, status, []⟩

/-- The sense record cleared to code NONE, its other fields 0 (R69, log 50). -/
def clearSense (s : State) : State := s.onSch fun r => { r with sense := {} }

/-- Queues the ANSWER to a request (R140, R174). -/
def answer (code : Nat) (r : Reply) : State :=
  enqueue ⟨.answer, toControl r.state Kind.answer (answerTelegramBody code r.status (stamp r.state) r.data)⟩ r.state

/-! ## Time and ovens (Chapter 1) -/

/-- SET TIME (R5). -/
def setTime (wall : Int) (s : State) : Reply :=
  okay (s.onOvt fun o => { o with wallOffset := wrap32 (wall - o.clock) })

/-- OVEN SERVICE out (R13). -/
def ovenServiceOut (n : Nat) (s : State) : Reply :=
  let ph := (ovenRec s n).phase
  if !configured s n then refuse Status.unknownOven s
  else if ph = .pushing || ph = .charging then refuse Status.ovenBusy s
  else if ph = .outOfService then okay s
  else okay (settled (setPhaseOnly n .outOfService) s)

/-- OVEN SERVICE in (R14). -/
def ovenServiceIn (n elapsed : Nat) (s : State) : Reply :=
  if !configured s n then refuse Status.unknownOven s
  else if (ovenRec s n).phase ≠ .outOfService then refuse Status.wrongPhase s
  else
    let stamp := s.now - elapsed * 60
    let s := setOvenRec n { ovenRec s n with hardPushes := 0, ramPeak := 0 } s
    okay (settled (setPhase n (returnedPhase s n stamp) stamp) s)

/-- RELEASE OVEN (R12). -/
def releaseOven (n : Nat) (s : State) : Reply :=
  if !configured s n then refuse Status.unknownOven s
  else if (ovenRec s n).phase ≠ .pushInterrupted then refuse Status.wrongPhase s
  else okay (settled (setPhaseOnly n .empty) s)

/-- Sets or clears the freeze flag of an oven. -/
def putFreeze (b : Bool) (n : Nat) (s : State) : State :=
  setOvenRec n { ovenRec s n with freeze := b } s

/-- FREEZE and UNFREEZE (R125); oven 0 is every configured oven. -/
def freezeOvens (b : Bool) (n : Nat) (s : State) : Reply :=
  if n = 0 then okay ((configuredOvens s).foldl (fun s n => putFreeze b n s) s)
  else if configured s n then okay (putFreeze b n s)
  else refuse Status.unknownOven s

/-! ## Runs (Chapter 3) -/

/-- SET BLOCK (R48). -/
def setBlock (size : Nat) (s : State) : Reply :=
  if size ≤ 16 then okay (s.onSch fun r => { r with block := size })
  else ⟨s.onSch fun r => { r with block := 0 }, Status.unsupported, []⟩

/-- A start position and a count outside the series (R50 check 3, R70). -/
def badStretch (s : State) (start count : Nat) : Bool :=
  start = 0 || s.sch.length < start || (0 < count && s.sch.length + 1 < start + count)

/-- The number of positions of a stretch (R50, R70). -/
def stretch (s : State) (start count : Nat) : Nat :=
  if count = 0 then s.sch.length + 1 - start else count

/-- Removes an order that came from the control station, whatever source it carries, and is not a HALT from a slot (R50,
R155, log 30). -/
def discardControl (p : Option Nat) (s : State) : State :=
  match p with
  | some p =>
    match (outbound s p).order with
    | some w => if w.origin = .control && !isHalt w then dsmFreeAt p (clearOrder p s) else s
    | none => s
  | none => s

/-- An accepted RUN (R50). Its RUNNING is a change of the run's state, whatever follows it in the same event (R110). -/
def startRun (start count : Nat) (s : State) : State :=
  let n := stretch s start count
  let s := clearSense s
  let s := discardControl (posOfClass s .cgm 1) (discardControl (posOfClass s .pm 1) s)
  let s := onRun (fun _ =>
    { state := .running, start := start, requested := n, residual := n, cursor := start, planned := s.now }) s
  dsmFreeBoth (takeUp s)

/-- RUN (R50). -/
def runRequest (start count : Nat) (s : State) : Reply :=
  if s.mgt.mode ≠ .service then refuse Status.notInService s
  else if runEngaged s then refuse Status.runActive s
  else if badStretch s start count then refuse Status.badRange s
  else okay (settled (startRun start count) s)

/-- HOLD (R66). -/
def holdRequest (s : State) : Reply :=
  if runEngaged s then okay (holdRun s) else refuse Status.noRun s

/-- The deadline of a step (Table 3-2). -/
def stepLimit (t : StepTiming) : RunStep → Option Nat
  | .wait => none
  | .position => some t.position
  | .opening => some t.opening
  | .push => some t.push
  | .close => some t.close

/-- The tests that the step of a resumed run calls for (R67). -/
def resumeTests (s : State) : State :=
  match s.run.step with
  | .wait => latenessTest (takeUp s)
  | .position => latenessTest (arrivalTest (formMoves s))
  | .opening => latenessTest (openTest s)
  | .push => s
  | .close => closeTest s

/-- A HELD run resumes (R67). -/
def resumeRun (s : State) : State :=
  let s' := onRun (fun r => { r with
    state := .running
    deadline := match stepLimit s.sch.timing r.step with
      | some limit => some (s.after limit)
      | none => r.deadline }) s
  afterRun s (resumeTests s')

/-- RESUME (R67). -/
def resumeRequest (s : State) : Reply :=
  match s.run.state with
  | .held => okay (settled resumeRun s)
  | .running =>
    if s.run.holdPending then okay (onRun (fun r => { r with holdPending := false }) s)
    else refuse Status.notHeld s
  | .idle => refuse Status.noRun s
  | .stopped => refuse Status.noRun s

/-- ABORT (R68). -/
def abortRequest (s : State) : Reply :=
  if runEngaged s then okay (settled (fun s => afterRun s (stopRun .aborted 0 0 s)) s) else refuse Status.noRun s

/-- The five fields of the sense record (R69). -/
def senseBytes (r : Sense) : List Byte :=
  codeByte r.code.code ++ codeByte r.oven ++ codeByte r.position ++ codeByte r.step.code ++ toBytes 2 r.detail

/-- SENSE (R69). -/
def senseRequest (s : State) : Reply := ⟨clearSense s, Status.ok, senseBytes s.sch.sense⟩

/-- The reason a position of a verification fails, at its predicted instant (R70). -/
def verifyFinding (s : State) (n : Nat) (predicted : Int) : Option Nat :=
  match (ovenRec s n).phase with
  | .outOfService => none
  | .empty => none
  | .charging => none
  | .pushInterrupted => some (StopCode.code .ovenHeld)
  | .pushing => some Status.ovenBusy
  | .coking => if predicted < readyInstant s n then some (StopCode.code .ovenNotReady) else none
  | .ready => if predicted < readyInstant s n then some (StopCode.code .ovenNotReady) else none
  | .doorsOff => if predicted < readyInstant s n then some (StopCode.code .ovenNotReady) else none

/-- The finding of a verification: position, oven, reason, verified, residual (R70). -/
structure Finding where
  position : Nat := 0
  oven : Nat := 0
  reason : Nat := 0
  verified : Nat
  residual : Nat := 0

/-- The walk over `left` positions from `k` on, `done` of them behind it (R70). -/
def verifyWalk (s : State) (k : Nat) (predicted : Int) (done : Nat) : Nat → Finding
  | 0 => { verified := done }
  | left + 1 =>
    let e := seriesEntry s k
    match verifyFinding s e.oven predicted with
    | some why => { position := k, oven := e.oven, reason := why, verified := done, residual := left + 1 }
    | none => verifyWalk s (k + 1) (predicted + (seriesEntry s (k + 1)).interval) (done + 1) left

/-- VERIFY (R70). -/
def verifyRequest (start count : Nat) (s : State) : Reply :=
  if badStretch s start count then refuse Status.badRange s
  else
    let f := verifyWalk s start s.now 0 (stretch s start count)
    ⟨s, Status.ok, [f.position, f.oven, f.reason, f.verified, f.residual].flatMap codeByte⟩

/-! ## Cars (Chapter 4) -/

/-- CLEAR CAR (R95). The changed car record and grant are inputs to the interlock (R38). -/
def clearCarRequest (c : Nat) (s : State) : Reply :=
  if c ≠ 1 ∧ c ≠ 2 then refuse Status.badRange s
  else if activeAt s (posOfClass s .car c) then refuse Status.carActive s
  else okay (ilkSettle s (carCleared c s))

/-! ## STATUS (R181) -/

/-- The validity flags as a mask, the flag of table c at value 2^(c − 1) (R181). -/
def validityItems (v : Validity) : List Nat :=
  [(v.dispatch, 1), (v.selector, 2), (v.line, 3), (v.pollList, 4), (v.ovens, 5), (v.permits, 7), (v.segments, 8),
    (v.cars, 9)].filterMap fun f => if f.1 then some f.2 else none

/-- The data of STATUS. -/
def statusBytes (s : State) : List Byte :=
  codeByte s.mgt.mode.code ++ maskBytes 2 (validityItems s.mgt.validity) ++ s.mgt.counts.toList.flatMap codeByte ++
    toBytes 2 s.cpi.discards ++ toBytes 2 s.fpi.discards

/-- The counts that STATUS clears as it is answered. -/
def clearCounts (s : State) : State :=
  ((s.onMgt fun m => { m with counts := Vector.replicate 24 0 }).onCpi fun c => { c with discards := 0 }).onFpi
    fun f => { f with discards := 0 }

/-- STATUS (R181). -/
def statusRequest (s : State) : Reply := ⟨clearCounts s, Status.ok, statusBytes s⟩

/-! ## Modes (R176, R177) -/

/-- The distances between the centres of adjacent configured ovens (R3, Table 10-4). -/
def pitches (s : State) : List Nat :=
  let centres := (configuredOvens s).map (centreOf s)
  (centres.zip (centres.drop 1)).map fun p => ((p.2 : Int) - p.1).natAbs

/-- A tolerance is less than half the smallest pitch (R3, Table 10-4 check 3). -/
def fitsPitch (s : State) (tolerance : Nat) : Bool := (pitches s).all fun d => 2 * tolerance < d

/-- The four tolerances of a timing table, with their class codes. -/
def tolerances (t : Timing) : List (Nat × Nat) := [(0, t.tolPm), (1, t.tolCgm), (2, t.tolCc), (3, t.tolCar)]

/-- The first number of a list that fails a test. -/
def firstFailing (l : List Nat) (ok : Nat → Bool) : Option Nat := l.find? fun n => !ok n

/-- The first CAR instance of the poll list whose configuration is not written (R178). -/
def missingCar (s : State) : Option Nat :=
  firstFailing ([1, 2].filter fun c => (posOfClass s .car c).isSome) fun c => (carConfig s c).isSome

/-- A failed check: table code and index (R176). -/
abbrev Failure := Nat × Nat

/-- Check 1: every guarded table is valid. Of several that are not, the one of the lowest code is reported, the model's
choice (log 32). -/
def checkTables (s : State) : Option Failure :=
  let v := s.mgt.validity
  let firstOf (o : Option Nat) : Nat := o.getD 0
  if !v.dispatch then some (1, 0)
  else if !v.selector then some (2, 0)
  else if !v.line then some (3, 0)
  else if !v.pollList then some (4, 0)
  else if !v.ovens then some (5, firstOf (firstFailing allOvens (configured s)))
  else if !v.permits then
    some (7, firstOf (firstFailing [1, 2, 3, 4, 5, 6, 7, 8] fun k => (readNum s.ilk.table k none).isSome))
  else if !v.segments then some (8, 0)
  else if !v.cars then some (9, firstOf (missingCar s))
  else none

/-- Check 2: centres rise with oven number. -/
def checkCentres (s : State) : Option Failure :=
  (firstFailing (allOvens.filter fun n => 1 < n && n ≤ nOven s) fun n => centreOf s (n - 1) < centreOf s n).map
    fun n => (5, n)

/-- Check 3: the tolerances. -/
def checkTolerances (s : State) : Option Failure :=
  ((tolerances s.ovt.timing).find? fun t => !fitsPitch s t.2).map fun t => (16, t.1)

/-- A series position names a configured oven that no earlier position names. -/
def seriesFits (s : State) (k : Nat) : Bool :=
  configured s (seriesEntry s k).oven &&
    (List.range (k - 1)).all fun j => (seriesEntry s (j + 1)).oven ≠ (seriesEntry s k).oven

/-- Check 4: the series. -/
def checkSeries (s : State) : Option Failure :=
  (firstFailing ((List.range s.sch.length).map (· + 1)) (seriesFits s)).map fun k => (17, k)

/-- The number of stations of a class in the poll list. -/
def classCount (s : State) (c : StationClass) : Nat :=
  ((positions s).filter fun p => (pollEntry s p).cls = c).length

/-- Check 5: the numbers of stations. -/
def checkStations (s : State) : Option Failure :=
  if classCount s .pm ≠ 1 then some (4, 0)
  else if classCount s .cgm ≠ 1 then some (4, 1)
  else if 1 < classCount s .cc then some (4, 2)
  else if !(1 ≤ classCount s .car && classCount s .car ≤ 2) then some (4, 3)
  else if !(1 ≤ classCount s .os && classCount s .os ≤ 16) then some (4, 4)
  else none

/-- A configured oven names a listed station, and a slot that no lower oven names (log 32). -/
def offtakeFits (s : State) (n : Nat) : Bool :=
  match ovenConfig s n with
  | some c => (posOfClass s .os c.station).isSome && imageOven s c.station c.slot = some n
  | none => true

/-- Check 6: offtake stations and slots. -/
def checkOfftakes (s : State) : Option Failure :=
  (firstFailing (configuredOvens s) (offtakeFits s)).map fun n => (5, n)

/-- The number of segments of a type. -/
def typeCount (s : State) (t : SegmentType) : Nat :=
  ((segmentsInUse s).filter fun k => (segment s k).type = t).length

/-- Check 7: the segments. -/
def checkSegments (s : State) : Option Failure :=
  match firstFailing (segmentsInUse s) fun k => k ≤ 1 || (segment s k).start = (segment s (k - 1)).stop with
  | some k => some (8, k)
  | none =>
    if typeCount s .tower ≠ 1 || !(1 ≤ typeCount s .wharf && typeCount s .wharf ≤ 2) then some (8, 0) else none

/-- Check 8: the window weights. -/
def checkWeights (s : State) : Option Failure :=
  if (weights s.opr.config).all (· = 0) then some (22, 0) else none

/-- The checks of Table 10-4 in order. -/
def serviceChecks : List (Nat × (State → Option Failure)) :=
  [(1, checkTables), (2, checkCentres), (3, checkTolerances), (4, checkSeries), (5, checkStations),
    (6, checkOfftakes), (7, checkSegments), (8, checkWeights)]

/-- The first failed check: its number, table code and index. -/
def failedCheck (s : State) : Option (Nat × Failure) :=
  serviceChecks.findSome? fun c => (c.2 s).map fun f => (c.1, f)

/-- Gives the part a mode. -/
def setMode (m : OpMode) (s : State) : State := s.onMgt fun g => { g with mode := m }

/-- ENTER SERVICE (R176, R175). -/
def enterService (s : State) : Reply :=
  if s.mgt.mode = .service then okay s
  else
    match failedCheck s with
    | some (number, table, index) => ⟨s, Status.checkFailed, [number, table, index].flatMap codeByte⟩
    | none => okay (dsmFreeBoth (setMode .service s))

/-- ENTER MAINTENANCE (R177). -/
def enterMaintenance (s : State) : Reply :=
  if s.mgt.mode = .service then
    if runEngaged s then refuse Status.runActive s
    else if !s.ilk.permits.isEmpty then refuse Status.permitsActive s
    else okay (setMode .maintenance s)
  else okay (setMode .maintenance s)

/-! ## Restarts (R182, R183) -/

/-- An oven at warm restart, the permit set emptied: PUSHING and CHARGING end (R19). -/
def warmOven (n : Nat) (s : State) : State :=
  ovtChargeCut n 0 4 (ovtPushBroken n s)

/-- Empties the active permit set, without breaks (R43). -/
def emptyPermits (s : State) : State := s.onIlk fun k => { k with permits := [] }

/-- Both task records back to NONE (R113). -/
def endTasks (s : State) : State := setTask .cs {} (setTask .ps {} s)

/-- The HALT of a warm restart for every machine (R182). -/
def haltMachines (s : State) : State :=
  ((positions s).filter fun p => (pollEntry s p).cls.isMachine).foldl
    (fun s p => placeHalt .mgt HaltReason.restart (some p) s) s

/-- HARD_PUSH for a run that the restart meets in CLOSE (R72); `b` is the state before the restart. -/
def closeCut (b s : State) : State :=
  let peak := (ovenRec b (currentOven b)).ramPeak
  if b.run.state = .running && b.run.step = .close && b.sch.timing.hardWarn < peak then
    raise .hardPush (currentOven b) (pmAddress b) peak s
  else s

/-- The warm restart (R182). The run record, the permit set and the regulator's counters are reset before the oven
phases change, so that the changes find no run and no permit; the events stand in the order of the blocks in
R182, and the mode derivation comes last (R130). -/
def warmRestart (s : State) : State :=
  let b := s
  let s := oprWarm (qtcWarm (schWarm (emptyPermits s)))
  let s := closeCut b (allOvens.foldl (fun s n => warmOven n s) s)
  let s := setMode .standby (haltMachines (emptyAnswers (endTasks s)))
  oprDeriveAll allOvens s

/-- RESTART (R182). -/
def restartRequest (s : State) : Reply := okay (warmRestart s)

/-- FIELD RESTART (R183). -/
def fieldRestartRequest (s : State) : Reply := okay (fieldRestart s)

end Sys2Proof.Machine
end

