-- ==== Sys2Proof/Machine/Loads.lean ====
section
/-!
DEFINITION. LOAD (R178): the checks that every load shares, and each table's own rule.
-/
namespace Sys2Proof.Machine

open Sys2Proof

/-! ## The checks that loads share -/

/-- The three bytes and the entries of a LOAD. -/
structure LoadArgs where
  first : Nat
  count : Nat
  entries : List Byte

/-- Checks 2 and 3 of R178: GUARDED in SERVICE for a guarded table, and BAD_RANGE for entries of another size. -/
def loadCheck (s : State) (guarded : Bool) (size : Nat) (a : LoadArgs) : Option Nat :=
  if guarded && s.mgt.mode = .service then some Status.guarded
  else if a.entries.length ≠ a.count * size then some Status.badRange
  else none

/-- A load of a table of many entries: the shared checks, the entries parsed, and the table's own rule. `fits` is
the rule's range of first and count. -/
def loadMany {α : Type} (guarded : Bool) (size : Nat) (a : LoadArgs) (fits : Bool) (parse : List Byte → Option α)
    (rule : List α → State → Reply) (s : State) : Reply :=
  match loadCheck s guarded size a with
  | some why => refuse why s
  | none =>
    if !fits then refuse Status.badRange s
    else
      match parseAll parse (rows size a.count a.entries) with
      | some es => rule es s
      | none => refuse Status.badRange s

/-- A load of a table of one entry: first and count are 1 and 1 (R178). -/
def loadOne {α : Type} (guarded : Bool) (size : Nat) (a : LoadArgs) (parse : List Byte → Option α)
    (rule : α → State → Reply) (s : State) : Reply :=
  match loadCheck s guarded size a with
  | some why => refuse why s
  | none =>
    if a.first ≠ 1 ∨ a.count ≠ 1 then refuse Status.badRange s
    else
      match parse a.entries with
      | some e => rule e s
      | none => refuse Status.badRange s

/-- First and count within a table numbered from 1. -/
def fitsFrom1 (a : LoadArgs) (max : Nat) : Bool := a.first ≠ 0 && a.first + a.count ≤ max + 1

/-- First and count within a table numbered from 0. -/
def fitsFrom0 (a : LoadArgs) (max : Nat) : Bool := a.first + a.count ≤ max + 1

/-- Writes entries at the indices from `i` on. -/
def writeFrom {α : Type} {n : Nat} (t : Vector α n) (i : Nat) (es : List α) : Vector α n :=
  es.zipIdx.foldl (fun t e => writeAt t (i + e.2) e.1) t

/-- Sets validity flags. -/
def onValidity (f : Validity → Validity) (s : State) : State :=
  s.onMgt fun m => { m with validity := f m.validity }

/-- The car configuration's flag tested afresh (R178). -/
def testCars (s : State) : State :=
  onValidity (fun v => { v with cars := (missingCar s).isNone }) s

/-! ## Guarded tables -/

/-- LOAD of the dispatch table (R150). -/
def loadDispatch (a : LoadArgs) : State → Reply :=
  loadMany true 8 a (fitsFrom0 a 255) parseDispatch fun es s =>
    okay (s.onCls fun c => { c with dispatch := writeFrom c.dispatch a.first es })

/-- The parameters of both ports with those of a load written. -/
def writePorts (first : Nat) (es : List Selector) (c : Classifier) : Classifier :=
  match first, es with
  | 0, g :: h :: _ => { c with control := g, field := h }
  | 0, [g] => { c with control := g }
  | _, g :: _ => { c with field := g }
  | _, [] => c

/-- LOAD of the selector parameters (R149). -/
def loadSelectors (a : LoadArgs) : State → Reply :=
  loadMany true 3 a (a.first ≤ 1 && fitsFrom0 a 1) parseSelector fun es s => okay (s.onCls (writePorts a.first es))

/-- LOAD of the field line settings (R161). -/
def loadLine (a : LoadArgs) : State → Reply :=
  loadOne true 6 a parseLine fun l s => okay (s.onFpl fun f => { f with settings := l })

/-- A rewritten position of the poll list, its old entry still in place (R160 items 1 to 5): a HALT waiting there
takes the new address. -/
def rewritePosition (p : Nat) (new : PollEntry) (s : State) : State :=
  let b := s
  let s := clearOrder p (setStation p {} s)
  let halt := (outbound s p).order.map fun w =>
    { w with carried := false, telegram := { w.telegram with dest := BitVec.ofNat 8 new.address } }
  let s := setOutbound p { answer := none, order := halt } s
  let s := s.onFpl fun f =>
    { f with exchange := f.exchange.map fun x => { x with void := x.void || x.position = p } }
  if (station b p).state = .active then departure b p s else clearAlignment p s

/-- No two positions of a list hold the same address, or the same class and instance (R160). -/
def distinctStations : List PollEntry → Bool
  | [] => true
  | e :: rest =>
    rest.all (fun f => e.address ≠ f.address && !(e.cls = f.cls && e.inst = f.inst)) && distinctStations rest

/-- LOAD of the poll list (R160). The round goes on past positions now passed over, unless an exchange is in
progress (log 33). -/
def loadPoll (a : LoadArgs) : State → Reply := fun s =>
  let fits := a.first ≠ 0 && a.first ≤ s.fpl.length + 1 && a.first + a.count ≤ 25
  loadMany true 3 a fits parsePoll (fun es s =>
    let list := writeFrom s.fpl.list (a.first - 1) es
    let length := if a.count = 0 then s.fpl.length else max s.fpl.length (a.first + a.count - 1)
    if !distinctStations (list.toList.take length) then refuse Status.badRange s
    else
      let s := es.zipIdx.foldl
        (fun s e =>
          let p := a.first - 1 + e.2
          if pollEntry s p = e.1 then s else rewritePosition p e.1 s) s
      let s := s.onFpl fun f => { f with list := list, length := length }
      let s := testCars (onValidity (fun v => { v with pollList := 1 ≤ length }) s)
      okay (if s.fpl.exchange.isNone then roundOn s else s)) s

/-- The oven configuration's flag tested afresh (R178). -/
def testOvens (s : State) : State :=
  onValidity
    (fun v => { v with ovens := 8 ≤ nOven s && ((List.range (nOven s)).all fun i => configured s (i + 1)) }) s

/-- The phase changes that a written configuration entry brings to an oven already configured (R2, R8, R18). -/
def reconfigured (n : Nat) (old new : OvenConfig) (s : State) : State :=
  let s :=
    if old.inService && !new.inService then setPhaseOnly n .outOfService s
    else if !old.inService && new.inService && (ovenRec s n).phase = .outOfService then setPhase n .coking s.now s
    else s
  if old.target = new.target then s else oprDerive n (recomputeReady n s)

/-- Writes one configuration entry and acts on the oven's record (R2). -/
def writeOven (n : Nat) (new : OvenConfig) (s : State) : State :=
  let old := ovenConfig s n
  let s := s.onOvt fun o => { o with config := writeNum o.config n (some new) }
  match old with
  | some old => reconfigured n old new s
  | none =>
    let r := { ovenRec s n with
      phase := if new.inService then .coking else .outOfService, stamp := s.now, hardPushes := 0, ramPeak := 0 }
    oprDerive n (setOvenRec n r s)

/-- LOAD of the oven configuration (R1, R2). -/
def loadOvens (a : LoadArgs) : State → Reply :=
  loadMany true 8 a (fitsFrom1 a 128) parseOven fun es s =>
    let b := s
    let s := es.zipIdx.foldl (fun s e => writeOven (a.first + e.2) e.1 s) s
    okay (testOvens (evaluateAll (markMoved b s)))

/-- One oven of an OVENSTATE load (R15). -/
def putOvenState (n : Nat) (e : Phase × Nat) (s : State) : State :=
  let stamp := s.now - e.2 * 60
  let ph := if e.1 = .coking || e.1 = .ready then returnedPhase s n stamp else e.1
  setPhase n ph stamp s

/-- LOAD of OVENSTATE (R15): the oven numbers first, then the phase codes, then the phases of the ovens. -/
def loadOvenState (a : LoadArgs) : State → Reply := fun s =>
  let named := (List.range a.count).map (a.first + ·)
  match loadCheck s true 3 a with
  | some why => refuse why s
  | none =>
    if !named.all (configured s) then refuse Status.unknownOven s
    else
      match parseAll parseOvenState (rows 3 a.count a.entries) with
      | none => refuse Status.badRange s
      | some es =>
        if named.any fun n => (ovenRec s n).phase = .pushing || (ovenRec s n).phase = .charging then
          refuse Status.ovenBusy s
        else okay (es.zipIdx.foldl (fun s e => putOvenState (a.first + e.2) e.1 s) s)

/-- The permit kinds from a code on. -/
def addableFrom (first i : Nat) : List Nat :=
  match PermitKind.ofCode (first + i) with
  | some k => addableTerms k
  | none => []

/-- LOAD of the permit table (R30); which terms may be added depends on the kind of each entry. -/
def loadPermits (a : LoadArgs) : State → Reply := fun s =>
  match loadCheck s true 4 a with
  | some why => refuse why s
  | none =>
    let parsed := ((rows 4 a.count a.entries).zipIdx).map fun r => parsePermit (addableFrom a.first r.2) r.1
    if !fitsFrom1 a 8 || parsed.any Option.isNone then refuse Status.badRange s
    else
      let s := s.onIlk fun k => { k with table := writeFrom k.table (a.first - 1) parsed }
      okay (onValidity (fun v => { v with permits := s.ilk.table.toList.all Option.isSome }) s)

/-- The tower record's entered flag after a load (R73). -/
def testEntered (s : State) : State :=
  s.onQtc fun q => { q with entered := match q.holder with | some c => occupiesTower s c | none => false }

/-- LOAD of the segment table (R73). -/
def loadSegments (a : LoadArgs) : State → Reply := fun s =>
  let fits := a.first ≠ 0 && a.first ≤ s.qtc.count + 1 && a.first + a.count ≤ 33
  loadMany true 10 a fits parseSegment (fun es s =>
    let count := if a.count = 0 then a.first - 1 else max s.qtc.count (a.first + a.count - 1)
    let s := s.onQtc fun q => { q with segments := writeFrom q.segments (a.first - 1) es, count := count }
    let s := testEntered (carReseated 2 (carReseated 1 s))
    okay (onValidity (fun v => { v with segments := 1 ≤ count }) s)) s

/-- LOAD of the car configuration (R74). -/
def loadCars (a : LoadArgs) : State → Reply :=
  loadMany true 4 a (fitsFrom1 a 2) parseCar fun es s =>
    let s := es.zipIdx.foldl
      (fun s e =>
        let c := a.first + e.2
        carReseated c (s.onQtc fun q => { q with config := writeNum q.config c (some e.1) })) s
    okay (testCars s)

/-! ## Live tables -/

/-- LOAD of the timing table (R3, R8, R18). A load that changes E with a tolerance, the receive offset or the receive span
recomputes the phases, with the runner's tests on them, before the fresh alignment evaluation: the model's choice
(log 57). -/
def loadTiming (a : LoadArgs) : State → Reply :=
  loadOne false 11 a parseTiming fun t s =>
    if s.mgt.mode = .service && !((tolerances t).all fun x => fitsPitch s x.2) then refuse Status.badRange s
    else
      let b := s
      let ovens := configuredOvens s
      let s := s.onOvt fun o => { o with timing := t }
      let s := if t.early = b.ovt.timing.early then s else ovens.foldl (fun s n => recomputeReady n s) s
      let s :=
        if t.lateWindow = b.ovt.timing.lateWindow ∧ t.chargeHold = b.ovt.timing.chargeHold then s
        else oprDeriveAll ovens s
      let s := ilkSettle b (evaluateAll s)
      okay (if alignChanged b s then schAlignChange s else s)

/-- The series names no oven twice (R46 check 4). -/
def noRepeat : List Nat → Bool
  | [] => true
  | n :: rest => !rest.contains n && noRepeat rest

/-- LOAD of the series table (R46), its checks in order. -/
def loadSeries (a : LoadArgs) : State → Reply := fun s =>
  match loadCheck s false 3 a with
  | some why => refuse why s
  | none =>
    if runEngaged s then refuse Status.runActive s
    else if a.first = 0 || s.sch.length + 1 < a.first || 129 < a.first + a.count then refuse Status.badRange s
    else
      match parseAll parseSeries (rows 3 a.count a.entries) with
      | none => refuse Status.badRange s
      | some es =>
        if s.mgt.mode = .service && !es.all fun e => configured s e.oven then refuse Status.unknownOven s
        else
          let series := writeFrom s.sch.series (a.first - 1) es
          let length := if a.count = 0 then a.first - 1 else max s.sch.length (a.first + a.count - 1)
          if !noRepeat ((series.toList.take length).map SeriesEntry.oven) then refuse Status.duplicateOven s
          else okay (s.onSch fun r => { r with series := series, length := length })

/-- LOAD of the step timing table (R47): the tests of R53, R54 and R55 are made afresh, then the freedom tests
(R110). -/
def loadStepTiming (a : LoadArgs) : State → Reply :=
  loadOne false 17 a parseStep fun t s =>
    let changed := s.sch.timing.silence ≠ t.silence
    let s := s.onSch fun r => { r with timing := t }
    let s := if changed then silenceRestart s else s
    okay (dsmFreeBoth (settled (fun s => latenessTest (leadInstant s)) s))

/-- LOAD of the track timing table (R75). Where it makes both hot watches due, HOT_CAR of car 1 comes before that of car 2:
the model's choice (log 57). -/
def loadTrackTiming (a : LoadArgs) : State → Reply :=
  loadOne false 6 a parseTrack fun t s => okay (carHot 2 (carHot 1 (s.onQtc fun q => { q with timing := t })))

/-- LOAD of the seal configuration (R101, R105, R110). -/
def loadSealConfig (a : LoadArgs) : State → Reply :=
  loadOne false 8 a parseSeal fun c s =>
    let s := s.onDsm fun d => { d with config := c }
    okay (dsmFreeBoth (allDoors.foldl (fun s d => sealOverdue d s) s))

/-- LOAD of the pressure mode table (R118). -/
def loadModes (a : LoadArgs) : State → Reply :=
  loadMany false 7 a (fitsFrom0 a 4) parseMode fun es s =>
    okay (oprClampAll (s.onOpr fun o => { o with modes := writeFrom o.modes a.first es }))

/-- LOAD of the regulator configuration (R122). -/
def loadRegulator (a : LoadArgs) : State → Reply :=
  loadOne false 17 a parseReg fun c s =>
    if (weights c).all (· = 0) then refuse Status.zeroWeights s
    else okay (ilkSettle s (oprReweigh (s.onOpr fun o => { o with config := c })))

/-- LOAD of the event enable mask (R180). -/
def loadMask (a : LoadArgs) : State → Reply :=
  loadOne false 3 a (fun e => some (parseMask e)) fun v s => okay (s.onMgt fun m => { m with enabled := v })

end Sys2Proof.Machine
end

