-- ==== Sys2Proof/Machine/Reads.lean ====
section
/-!
DEFINITION. READ (R179): the records of every readable table, field by field in the order of its READ rule, with
the choices of layout that log 15 and the ranges that log 16 names.
-/
namespace Sys2Proof.Machine

open Sys2Proof

/-- A quantity of `w` bytes that may be absent, after a presence byte (R140); a field that may be `none` is laid out the
same way, `none` as absent (log 15). -/
def optNat (w : Nat) (v : Option Nat) : List Byte := optBytes w (v.map (toBytes w))

/-- The same of a signed quantity (R140). -/
def optInt (w : Nat) (v : Option Int) : List Byte := optBytes w (v.map (signedBytes w))

/-- A list: a count byte and its items (R140). -/
def listBytes (items : List (List Byte)) : List Byte := codeByte items.length ++ items.flatten

/-! ## Status records -/

/-- An oven record (R6). An instant past 2,147,483,647 wraps in its 4 bytes (log 49). -/
def ovenRecordBytes (s : State) (n : Nat) : List Byte :=
  let r := ovenRec s n
  codeByte r.phase.code ++ signedBytes 4 r.stamp ++ signedBytes 4 (elapsedMinutes s n) ++
    signedBytes 4 (readyInstant s n) ++ signedBytes 4 (dueInstant s n) ++ codeByte r.hardPushes ++
    toBytes 2 r.ramPeak ++ flagByte r.freeze

/-- A door record (R97); severity `none` is carried as an absent field (log 15). -/
def doorBytes (r : DoorRecord) : List Byte :=
  codeByte r.state.code ++ optNat 1 (r.severity.map Severity.code) ++ codeByte r.retries ++ flagByte r.retryDue ++
    signedBytes 4 r.doorOn ++ signedBytes 4 r.leakInstant ++ codeByte r.lastIndex ++ flagByte r.listed ++
    flagByte r.overdue

/-- The doors of an oven, PS then CS: one record of a READ (R97, log 15). -/
def doorPairBytes (s : State) (n : Nat) : List Byte :=
  doorBytes (doorPair s n).ps ++ doorBytes (doorPair s n).cs

/-- What an answer slot holds (R162). -/
def answerSlotBytes (o : Outbound) : List Byte :=
  optBytes 4 (o.answer.map fun a => codeByte (answerKind a.body) ++ (answerBody a.body).take 3)

/-- What an order slot holds: kind and source, and the reason of a HALT (R162). -/
def orderSlotBytes (o : Outbound) : List Byte :=
  optBytes 4
    (o.order.map fun w =>
      codeByte (kindOf w.telegram) ++ [w.telegram.source] ++
        optBytes 1 (if isHalt w then some (w.telegram.body.take 1) else none))

/-- A station record with its outbound record (R162). -/
def stationBytes (s : State) (p : Nat) : List Byte :=
  let r := station s p
  let e := pollEntry s p
  codeByte r.state.code ++ codeByte r.misses ++ codeByte r.joinProgress ++ optNat 3 r.joinRef ++ optNat 3 r.lastPos ++
    flagByte r.moving ++ codeByte r.status ++ optNat 4 r.lastReply ++ answerSlotBytes (outbound s p) ++
    orderSlotBytes (outbound s p) ++
    optBytes 1 (if p < s.fpl.length ∧ e.cls = .os then some (flagByte (isDirty s e.inst)) else none)

/-- The round number and whether a round start is owed, after the station records (R162). -/
def roundBytes (s : State) : List Byte := toBytes 4 s.fpl.roundNumber ++ flagByte s.fpl.owed

/-- An active permit entry with its remaining hold (R31). A hold deadline past 2,147,483,647 wraps in its bytes
(log 49). -/
def entryBytes (s : State) (e : Permit) : List Byte :=
  codeByte e.station ++ codeByte e.kind.code ++ codeByte e.oven ++ codeByte e.side.code ++ signedBytes 4 e.grant ++
    signedBytes 4 e.deadline ++ optNat 1 e.car ++ signedBytes 4 (e.deadline - s.now)

/-- The address of a run machine's station, 0 where there is none. -/
def runMachineAddress (s : State) (m : RunMachine) : Nat :=
  match runMachinePos s m with
  | some p => (pollEntry s p).address
  | none => 0

/-- The run record (R49); a member of the moves set is its station address and its placed flag; assigned car `none`
and the oven at the cursor of a run that is not RUNNING or HELD are carried as absent fields (log 15). A planned
instant or step deadline past 2,147,483,647 wraps in its bytes (log 49). -/
def runBytes (s : State) : List Byte :=
  let r := s.run
  codeByte r.state.code ++ [r.start, r.requested, r.pushed, r.skipped, r.residual, r.cursor].flatMap codeByte ++
    codeByte r.step.code ++ signedBytes 4 r.planned ++ optInt 4 r.deadline ++ optInt 4 r.pushGrant ++
    signedBytes 4 r.lateness ++ codeByte r.progress ++ flagByte r.holdPending ++ optNat 1 r.car ++
    listBytes (r.moves.map fun m => codeByte (runMachineAddress s m.machine) ++ flagByte m.placed) ++
    optNat 1 (if runEngaged s then some (currentOven s) else none)

/-- The move record of a car; the direction's code is not stated (log 14). -/
def carMoveBytes (m : CarMove) : List Byte :=
  toBytes 3 m.target ++ [Config.directionCode (Direction.index m.direction)] ++ codeByte m.speed

/-- A car record (R76). A drain deadline past 2,147,483,647 wraps in its bytes (log 49). -/
def carRecordBytes (s : State) (c : Nat) : List Byte :=
  let r := carRec s c
  codeByte r.state.code ++ codeByte r.load.code ++ flagByte r.uncertain ++ codeByte r.reportedLoad ++
    optNat 3 r.position ++ flagByte r.moving ++ maskBytes 4 r.occupied ++ maskBytes 4 r.reserved ++
    optBytes 5 (r.move.map carMoveBytes) ++ flagByte r.haltRelease ++ codeByte r.assignedOven ++ codeByte r.loadOven ++
    optInt 4 r.hotStart ++ optInt 4 r.drainDeadline

/-- The tower record and the idle list (R84, R87); holder `none` is carried as an absent field (log 15). -/
def towerBytes (s : State) : List Byte :=
  optNat 1 s.qtc.holder ++ flagByte s.qtc.entered ++ listBytes (s.qtc.queue.map codeByte) ++
    listBytes (s.qtc.idle.map codeByte)

/-- A leak list entry (R106). -/
def leakBytes (s : State) (d : Door) : List Byte :=
  codeByte d.oven ++ codeByte (doorCode d.side) ++
    codeByte (if isMajor s d then Severity.code .major else Severity.code .minor) ++
    signedBytes 4 (doorRec s d).leakInstant

/-- A task record, after the leak list (5.8); the stage's code is not stated (log 14), and a deadline past
2,147,483,647 wraps in its bytes (log 49). -/
def taskBytes (t : TaskRecord) : List Byte :=
  [Config.taskStageCode t.stage.index] ++
    optBytes 2 (t.door.map fun d => codeByte d.oven ++ codeByte (doorCode d.side)) ++ flagByte t.retry ++
    optInt 4 t.deadline

/-- A segment's state (R80); reserving car and grant holder `none` are carried as absent fields (log 15). -/
def segmentStateBytes (s : State) (k : Nat) : List Byte :=
  codeByte (segment s k).type.code ++ maskBytes 1 ([1, 2].filter fun c => (carRec s c).occupied.contains k) ++
    optNat 1 ([1, 2].find? fun c => (carRec s c).reserved.contains k) ++
    (if isTower s k then optNat 1 s.qtc.holder else [])

/-- A regulator record with its target and freeze flag (R129): one presence byte stands before feedback and feedback round
(log 15), and the limit direction's code is not stated (log 14). -/
def regRecordBytes (s : State) (n : Nat) : List Byte :=
  let r := regRec s n
  codeByte r.mode.code ++ listBytes (r.window.map (signedBytes 2)) ++ optInt 2 r.average ++ toBytes 2 r.valve ++
    flagByte r.correcting ++ codeByte r.updates ++ codeByte r.limitCount ++
    [Config.limitDirectionCode (LimitDir.index r.limitDir)] ++ flagByte r.limitReported ++ flagByte r.hold ++
    optBytes 5 (r.feedback.map fun f => codeByte f.value ++ toBytes 4 f.round) ++ codeByte r.mismatches ++
    flagByte r.mismatchReported ++ signedBytes 2 (targetPressure s n) ++ flagByte (ovenRec s n).freeze

/-- A valve image with its dirty flag (R127). -/
def imageBytes (s : State) (i : Nat) : List Byte :=
  (valveImage s i).flatMap (toBytes 2) ++ flagByte (isDirty s i)

/-- The number of waiting items of a sort (R142). -/
def sortCount (s : State) (k : ItemSort) : Nat := (s.cpi.queue.filter fun i => i.sort = k).length

/-- The port counts (R142, R146). -/
def portBytes (s : State) : List Byte :=
  toBytes 2 s.cpi.discards ++ toBytes 2 s.fpi.discards ++ codeByte s.cpi.queue.length ++
    ([.answer, .refuse, .event, .copy] : List ItemSort).flatMap fun k => codeByte (sortCount s k)

/-! ## Answers -/

/-- Whole records, from the first on, that fit in `room` bytes. -/
def fitting (room : Nat) : List (List Byte) → List (List Byte)
  | [] => []
  | r :: rest => if r.length ≤ room then r :: fitting (room - r.length) rest else []

/-- The data of a READ: the number of records, what stands before them, the records that fit the 41 bytes, and what
stands after them where all of it fits too (R179, log 15). -/
def readData (before : List Byte) (records : List (List Byte)) (after : List Byte) : List Byte :=
  let shown := fitting (41 - before.length) records
  let used := before.length + shown.flatten.length
  codeByte shown.length ++ before ++ shown.flatten ++
    (if shown.length = records.length ∧ used + after.length ≤ 41 then after else [])

/-- The numbers of a range, if it lies in a table numbered from 1 (log 16). -/
def range1 (max first count : Nat) : Option (List Nat) :=
  if first ≠ 0 ∧ first + count ≤ max + 1 then some ((List.range count).map (first + ·)) else none

/-- The numbers of a range, if it lies in a table numbered from 0 (log 16). -/
def range0 (max first count : Nat) : Option (List Nat) :=
  if first + count ≤ max + 1 then some ((List.range count).map (first + ·)) else none

/-- The one record of a table of one entry (log 16). -/
def range11 (first count : Nat) : Option (List Nat) :=
  if first = 1 ∧ count = 1 then some [1] else none

/-- The items of a list that a range of places names. -/
def picked {α : Type} (l : List α) (places : List Nat) : List α :=
  places.filterMap fun k => if k = 0 then none else l[k - 1]?

/-- The valve images of the stations that serve the ovens read (R129). -/
def imagesFor (s : State) (ovens : List Nat) : List Byte :=
  (instances.filter fun i => ovens.any fun n => servingStation s n = i).flatMap (imageBytes s)

/-- The data of a READ of a table, `none` where the range or the code is not allowed (R179, Table 10-5). The event counts
are 24 records of one byte, ranged by kind (log 16). -/
def readTable (s : State) (table first count : Nat) : Option (List Byte) :=
  let plain (ns : Option (List Nat)) (f : Nat → List Byte) : Option (List Byte) :=
    ns.map fun ns => readData [] (ns.map f) []
  let single (bs : List Byte) : Option (List Byte) := plain (range11 first count) fun _ => bs
  match table with
  | 1 => plain (range0 255 first count) fun i => dispatchBytes (readAt s.cls.dispatch i {})
  | 2 => plain (if first ≤ 1 then range0 1 first count else none) fun i => selectorBytes (if i = 0 then s.cls.control else s.cls.field)
  | 3 => single (lineBytesOf s.fpl.settings)
  | 4 =>
    (range1 24 first count).map fun ns =>
      readData (codeByte s.fpl.length) (ns.map fun k => pollBytes (pollEntry s (k - 1))) []
  | 5 => plain (range1 128 first count) fun n => ovenBytes (ovenConfig s n)
  | 7 => plain (range1 8 first count) fun k => permitBytes (readNum s.ilk.table k none)
  | 8 => plain (range1 32 first count) fun k => segmentBytes (segment s k)
  | 9 => plain (range1 2 first count) fun c => carBytes (carConfig s c)
  | 16 => single (timingBytes s.ovt.timing)
  | 17 =>
    (range1 128 first count).map fun ns =>
      readData (codeByte s.sch.length) (ns.map fun k => seriesBytes (seriesEntry s k)) []
  | 18 => single (stepBytes s.sch.timing)
  | 19 => single (trackBytes s.qtc.timing)
  | 20 => single (sealBytes s.dsm.config)
  | 21 => plain (range0 4 first count) fun m => modeBytes (readAt s.opr.modes m ⟨0, 0, 0, false⟩)
  | 22 => single (regBytes s.opr.config)
  | 23 => single (enableBytes s.mgt.enabled)
  | 32 => plain (range1 128 first count) (ovenRecordBytes s)
  | 33 => plain (range1 128 first count) (doorPairBytes s)
  | 34 =>
    (range1 24 first count).map fun ns => readData [] (ns.map fun k => stationBytes s (k - 1)) (roundBytes s)
  | 35 => (range1 8 first count).map fun ns => readData [] ((picked s.ilk.permits ns).map (entryBytes s)) []
  | 36 => single (runBytes s)
  | 37 => plain (range1 2 first count) (carRecordBytes s)
  | 38 => single (towerBytes s)
  | 39 =>
    (range1 32 first count).map fun ns =>
      readData (codeByte s.dsm.leaks.length) ((picked s.dsm.leaks ns).map (leakBytes s))
        (taskBytes s.dsm.taskPm ++ taskBytes s.dsm.taskCgm)
  | 40 =>
    (range1 32 first count).map fun ns =>
      readData [] ((picked (segmentsInUse s) ns).map (segmentStateBytes s)) []
  | 41 =>
    (range1 128 first count).map fun ns => readData [] (ns.map (regRecordBytes s)) (imagesFor s ns)
  | 42 => single (portBytes s)
  | 43 => plain (range1 24 first count) fun k => codeByte (readNum s.mgt.counts k 0)
  | _ => none

/-- READ (R179). -/
def readRequest (table first count : Nat) (s : State) : Reply :=
  match readTable s table first count with
  | some data => ⟨s, Status.ok, data⟩
  | none => refuse Status.badRange s

end Sys2Proof.Machine
end

