-- ==== Sys2Proof/Machine/Lines.lean ====
section
/-!
DEFINITION. What arrives on the two ports (R131, R141, R144, R167), the carrying out of a MGMT body (R174), and the
taking of the instants that fall due at the clock (R4).
-/
namespace Sys2Proof.Machine

open Sys2Proof

/-! ## Receivers (R131, R146) -/

/-- A saturating discard count raised by one (R146). -/
def countDiscard (n : Nat) : Nat := min 65535 (n + 1)

/-- The control receiver discards a telegram and hunts; `restart` when the failing byte starts the next (R131). -/
def controlDiscard (restart : Bool) (s : State) : State :=
  s.onCpi fun c => { c with discards := countDiscard c.discards, assembling := restart }

/-- The control receiver hands a telegram on: it hunts again, and the silence watch restarts (R141, R71). -/
def controlAccepted (s : State) : State :=
  silenceRestart (s.onCpi fun c => { c with assembling := false })

/-- The field receiver discards a telegram: a failed reply, taken as a miss (R144, R146, R167). -/
def fieldDiscard (s : State) : State :=
  exchangeMissed (s.onFpi fun f => { f with discards := countDiscard f.discards })

/-! ## Management bodies (R174) -/

/-- The operand bytes of a request of fixed length, or BAD_RANGE (R174). -/
def withArgs (n : Nat) (args : List Byte) (f : (Nat → Nat) → State → Reply) (s : State) : Reply :=
  if args.length = n then f (fun i => field args i 1) s else refuse Status.badRange s

/-- LOAD by its table code; a code that is not loadable is BAD_RANGE (R178). -/
def loadTable (table : Nat) (a : LoadArgs) (s : State) : Reply :=
  match table with
  | 1 => loadDispatch a s
  | 2 => loadSelectors a s
  | 3 => loadLine a s
  | 4 => loadPoll a s
  | 5 => loadOvens a s
  | 6 => loadOvenState a s
  | 7 => loadPermits a s
  | 8 => loadSegments a s
  | 9 => loadCars a s
  | 16 => loadTiming a s
  | 17 => loadSeries a s
  | 18 => loadStepTiming a s
  | 19 => loadTrackTiming a s
  | 20 => loadSealConfig a s
  | 21 => loadModes a s
  | 22 => loadRegulator a s
  | 23 => loadMask a s
  | _ => refuse Status.badRange s

/-- OVEN SERVICE by its direction, out 0 and in 1 (Table 10-1); another direction is BAD_RANGE (log 18), but for an oven
that is not configured, which is UNKNOWN_OVEN in every case (R1). -/
def ovenService (oven direction elapsed : Nat) (s : State) : Reply :=
  match direction with
  | 0 => ovenServiceOut oven s
  | 1 => ovenServiceIn oven elapsed s
  | _ => refuse (if configured s oven then Status.badRange else Status.unknownOven) s

/-- A request by its code and argument bytes (Table 10-1, R174). -/
def perform (code : Nat) (args : List Byte) (s : State) : Reply :=
  if code = ReqCode.load then
    if args.length < 3 then refuse Status.badRange s
    else loadTable (field args 0 1) ⟨field args 1 1, field args 2 1, args.drop 3⟩ s
  else if code = ReqCode.read then withArgs 3 args (fun b => readRequest (b 0) (b 1) (b 2)) s
  else if code = ReqCode.status then withArgs 0 args (fun _ => statusRequest) s
  else if code = ReqCode.enterService then withArgs 0 args (fun _ => enterService) s
  else if code = ReqCode.enterMaintenance then withArgs 0 args (fun _ => enterMaintenance) s
  else if code = ReqCode.restart then withArgs 0 args (fun _ => restartRequest) s
  else if code = ReqCode.fieldRestart then withArgs 0 args (fun _ => fieldRestartRequest) s
  else if code = ReqCode.setTime then withArgs 4 args (fun _ => setTime (toSigned 32 (field args 0 4))) s
  else if code = ReqCode.run then withArgs 2 args (fun b => runRequest (b 0) (b 1)) s
  else if code = ReqCode.hold then withArgs 0 args (fun _ => holdRequest) s
  else if code = ReqCode.resume then withArgs 0 args (fun _ => resumeRequest) s
  else if code = ReqCode.abort then withArgs 0 args (fun _ => abortRequest) s
  else if code = ReqCode.sense then withArgs 0 args (fun _ => senseRequest) s
  else if code = ReqCode.verify then withArgs 2 args (fun b => verifyRequest (b 0) (b 1)) s
  else if code = ReqCode.setBlock then withArgs 1 args (fun b => setBlock (b 0)) s
  else if code = ReqCode.ovenService then withArgs 4 args (fun b => ovenService (b 0) (b 1) (field args 2 2)) s
  else if code = ReqCode.releaseOven then withArgs 1 args (fun b => releaseOven (b 0)) s
  else if code = ReqCode.freeze then withArgs 1 args (fun b => freezeOvens true (b 0)) s
  else if code = ReqCode.unfreeze then withArgs 1 args (fun b => freezeOvens false (b 0)) s
  else if code = ReqCode.clearCar then withArgs 1 args (fun b => clearCarRequest (b 0)) s
  else refuse Status.unknownRequest s

/-- A request taken: the sense record cleared, unless it is SENSE, the request carried out, its ANSWER queued last
(R69, R174). -/
def managed (code : Nat) (f : State → Reply) (s : State) : State :=
  answer code (f (if code = ReqCode.sense then s else clearSense s))

/-- The arrival of a MGMT telegram to the part, `size` bytes of body in all: longer than 48 it never passes its
framing, and its length byte is examined as the first of the hunt (R131, R132, log 9). -/
def mgmtArrival (code size : Nat) (f : State → Reply) (s : State) : State :=
  if 48 < size then controlDiscard (size % 256 = 0xC3) s else managed code f (controlAccepted s)

/-- The arrival of a MGMT of any body (R135, R174); without one it fails at its last CRC byte (log 9). -/
def mgmtBody (body : List Byte) (s : State) : State :=
  match body with
  | [] => controlDiscard (restartsHunt ⟨BitVec.ofNat 8 s.mgt.address, 0#8, kindByteOf Kind.mgmt false, []⟩) s
  | code :: args => mgmtArrival code.toNat body.length (perform code.toNat args) s

/-! ## Arrivals on the control port (R141, R155) -/

/-- The arrival of a telegram on the control port. -/
def controlArrival (t : Telegram) (s : State) : State :=
  if !framed t then controlDiscard (restartsHunt t) s
  else if kindOf t = Kind.mgmt ∧ t.dest.toNat = s.mgt.address then mgmtBody t.body s
  else classifyControl t (controlAccepted s)

/-! ## Arrivals on the field port (R144, R167) -/

/-- A reply taken by the exchange with the station at `p` (R167), which then ends (log 44). -/
def takeReply (p : Nat) (item : PollItem) (t : Telegram) (s : State) : State :=
  let s := replyTaken p item t (lineIdle s)
  roundOn (if passedOn s p t then classifyField p t s else s)

/-- The arrival of a telegram on the field port: heard in AWAITING alone (R144). -/
def fieldArrival (t : Telegram) (s : State) : State :=
  if s.fpi.line ≠ .awaiting then s
  else if !framed t then fieldDiscard s
  else
    match s.fpl.exchange with
    | some x =>
      if !x.void && t.source.toNat = (pollEntry s x.position).address then takeReply x.position x.item t s
      else exchangeMissed s
    | none => s

/-! ## Line events (R131, R132, R144) -/

/-- The response window runs out with the receiver hunting (R144). -/
def responseExpiry (s : State) : State :=
  if s.fpi.line = .awaiting && !s.fpi.assembling then exchangeMissed s else s

/-- The gap window runs out with no byte while a telegram assembles (R132). -/
def gapExpiry (port : Port) (s : State) : State :=
  match port with
  | .control => if s.cpi.assembling then controlDiscard false s else s
  | .field => if s.fpi.line = .awaiting && s.fpi.assembling then fieldDiscard s else s

/-- The gap window in force for the field receiver (R161). -/
def fieldGap (s : State) : Nat :=
  match s.fpl.exchange with
  | some x => x.gap
  | none => s.fpl.settings.gap

/-- The bytes after a preamble, up to the one at which a framing test fails (R131 to R135); other rows of bytes
discard nothing (log 9). -/
def framingDiscard (port : Port) (line : List LineByte) (s : State) : State :=
  match port with
  | .control =>
    match frame controlGapWindow [] line with
    | .discarded _ last [] => controlDiscard (startsAssembly last) s
    | .discarded _ _ (_ :: _) => s
    | .assembling => s
    | .complete _ _ => s
  | .field =>
    if s.fpi.line = .awaiting then
      match frame (fieldGap s) [] line with
      | .discarded _ _ [] => fieldDiscard s
      | .discarded _ _ (_ :: _) => s
      | .assembling => s
      | .complete _ _ => s
    else s

/-- A preamble received while hunting starts assembly (R131); the field receiver hunts in AWAITING alone. -/
def preamble (port : Port) (s : State) : State :=
  match port with
  | .control => s.onCpi fun c => { c with assembling := true }
  | .field => if s.fpi.line = .awaiting then s.onFpi fun f => { f with assembling := true } else s

/-- The last byte of a telegram to the control station has gone (R141). -/
def transmitDone (s : State) : State :=
  s.onCpi fun c => startTransmitter { c with sending := none }

/-- The last stop bit of a poll has gone (R144). -/
def pollSent (s : State) : State :=
  if s.fpi.line = .sending then s.onFpi fun f => { f with line := .awaiting, assembling := false } else s

/-! ## The clock (R4) -/

/-- The largest value of the clock. -/
def clockTop : Int := 2147483647

/-- The lateness test of the present advance, once (R55, log 5). -/
def latenessOnce (s : State) : State :=
  if s.sch.latenessDue then settled latenessTest (s.onSch fun r => { r with latenessDue := false }) else s

/-- The drain deadline of car `c` acts: its record is an input to the interlock (R90, R38). -/
def drainActs (c : Nat) (s : State) : State :=
  if carDrainDue s c then ilkSettle s (setCarRec c (drained (carRec s c)) s) else s

/-- Every instant due at the present clock value is taken, in the order of the rows (log 3, log 4). -/
def takeDue (s : State) : State :=
  let s := allOvens.foldl (fun s n => settled (readyActs n) s) s
  let s := allOvens.foldl (fun s n => holdEndActs n s) s
  let s := allOvens.foldl (fun s n => lateActs n s) s
  let s := expireAll s.ilk.permits.length s
  let s := latenessOnce (settled leadInstant (settled stepTimeout s))
  let s := drainActs 2 (drainActs 1 s)
  let s := carHot 2 (carHot 1 s)
  let s := allDoors.foldl (fun s d => sealOverdue d s) s
  silenceActs (taskLapses .cs (taskLapses .ps s))

/-- The clock advanced by one, holding at its top (R4); the lateness test of the new advance is to be made. -/
def tick (s : State) : State :=
  let s := s.onOvt fun o => { o with clock := if o.clock < clockTop then o.clock + 1 else o.clock }
  s.onSch fun r => { r with latenessDue := true }

/-- A clock advance: what is still due before it, the clock, and the tests of every advance (R56, R54, R110). -/
def advance (s : State) : State :=
  dsmFreeBoth (schAdvance (tick (takeDue s)))

/-- The part after a power-on reset with the straps as read: 0 is address 1 (R184, R134); the commands still waiting
outside the part, and the free values drawn, are no state of it (log 38). -/
def powerOn (straps : BitVec 4) (s : State) : State :=
  let base : State := { State.reset with pending := s.pending, drawn := s.drawn }
  base.onMgt fun m => { m with address := if straps = 0#4 then 1 else straps.toNat }

end Sys2Proof.Machine
end

