-- ==== Sys2Proof/Machine/Clock.lean ====
section
/-!
DEFINITION. The meanings of the commands of the clock: the reset, the advance, and the instants that fall due (R4).
-/
namespace Sys2Proof.Machine

open Sys2Proof

/-- POWER_ON_RESET (R184). -/
def execPowerOnReset (straps : BitVec 4) (s : State) : Host.Outcome State Fault Refusal :=
  .next (powerOn straps s)

/-- CLOCK_ADVANCE (R4). -/
def execClockAdvance (s : State) : Host.Outcome State Fault Refusal :=
  .next (advance s)

/-- READY_INSTANT_REACHED (R8). -/
def execReadyInstantReached (oven : Nat) (s : State) : Host.Outcome State Fault Refusal :=
  .next (settled (readyActs oven) s)

/-- CHARGE_HOLD_END_REACHED (R18). -/
def execChargeHoldEndReached (oven : Nat) (s : State) : Host.Outcome State Fault Refusal :=
  .next (holdEndActs oven s)

/-- LATE_INSTANT_REACHED (R18). -/
def execLateInstantReached (oven : Nat) (s : State) : Host.Outcome State Fault Refusal :=
  .next (lateActs oven s)

/-- HOLD_DEADLINE_REACHED (R40). -/
def execHoldDeadlineReached (s : State) : Host.Outcome State Fault Refusal :=
  .next (expireFirst s)

/-- STEP_DEADLINE_REACHED (R62). -/
def execStepDeadlineReached (s : State) : Host.Outcome State Fault Refusal :=
  .next (settled stepTimeout s)

/-- LEAD_INSTANT_REACHED (R53). -/
def execLeadInstantReached (s : State) : Host.Outcome State Fault Refusal :=
  .next (settled leadInstant s)

/-- MAXIMUM_LATENESS_TEST (R55). -/
def execMaximumLatenessTest (s : State) : Host.Outcome State Fault Refusal :=
  .next (latenessOnce s)

/-- DRAIN_DEADLINE_REACHED (R90). -/
def execDrainDeadlineReached (car : Nat) (s : State) : Host.Outcome State Fault Refusal :=
  .next (drainActs car s)

/-- HOT_LIMIT_REACHED (R90). -/
def execHotLimitReached (car : Nat) (s : State) : Host.Outcome State Fault Refusal :=
  .next (carHot car s)

/-- SEAL_DEADLINE_REACHED (R105). -/
def execSealDeadlineReached (oven : Nat) (side : DoorSide) (s : State) : Host.Outcome State Fault Refusal :=
  .next (sealOverdue ⟨oven, side⟩ s)

/-- TASK_DEADLINE_REACHED (R112). -/
def execTaskDeadlineReached (side : DoorSide) (s : State) : Host.Outcome State Fault Refusal :=
  .next (taskLapses side s)

/-- CP_SILENCE (R71). -/
def execCpSilence (s : State) : Host.Outcome State Fault Refusal :=
  .next (silenceActs s)

/-- ROUND_TIMER_EXPIRY (R166). -/
def execRoundTimerExpiry (s : State) : Host.Outcome State Fault Refusal :=
  .next (roundTimer s)

end Sys2Proof.Machine
end

