-- ==== Sys2Proof/Machine/ControlPort.lean ====
section
/-!
DEFINITION. The meanings of the commands of the control port other than management requests: orders, other telegrams and the transmitter (R141, R155). A telegram is taken by its own bytes (log 42).
-/
namespace Sys2Proof.Machine

open Sys2Proof

/-- CONTROL_TRANSMIT_DONE (R141). -/
def execControlTransmitDone (s : State) : Host.Outcome State Fault Refusal :=
  .next (transmitDone s)

/-- CONTROL_MOVE (R136, R45). -/
def execControlMove (h : Header) (target : BitVec 24) (speed oven : Byte) (s : State) : Host.Outcome State Fault Refusal :=
  .next (controlArrival (arrived h Kind.move (toBytes 3 target.toNat ++ [speed, oven])) s)

/-- CONTROL_HALT (R136, R44). -/
def execControlHalt (h : Header) (reason : Byte) (s : State) : Host.Outcome State Fault Refusal :=
  .next (controlArrival (arrived h Kind.halt [reason]) s)

/-- CONTROL_TASK (R136, R45). -/
def execControlTask (h : Header) (task oven side : Byte) (s : State) : Host.Outcome State Fault Refusal :=
  .next (controlArrival (arrived h Kind.task [task, oven, side]) s)

/-- BROADCAST_HALT (R158). -/
def execBroadcastHalt (source : Byte) (marked : Bool) (reason : Byte) (s : State) : Host.Outcome State Fault Refusal :=
  .next (controlArrival (arrived ⟨255#8, source, marked⟩ Kind.halt [reason]) s)

/-- BROADCAST_OTHER_KIND (R155). -/
def execBroadcastOtherKind (t : Telegram) (s : State) : Host.Outcome State Fault Refusal :=
  .next (controlArrival t s)

/-- UNKNOWN_STATION_TELEGRAM (R155). -/
def execUnknownStationTelegram (t : Telegram) (s : State) : Host.Outcome State Fault Refusal :=
  .next (controlArrival t s)

/-- CONTROL_OTHER_KIND (R157). -/
def execControlOtherKind (t : Telegram) (s : State) : Host.Outcome State Fault Refusal :=
  .next (controlArrival t s)

/-- OWN_ADDRESS_NON_MGMT (R153). -/
def execOwnAddressNonMgmt (t : Telegram) (s : State) : Host.Outcome State Fault Refusal :=
  .next (controlArrival t s)

/-- MGMT_UNKNOWN_REQUEST (R174). -/
def execMgmtUnknownRequest (body : List Byte) (s : State) : Host.Outcome State Fault Refusal :=
  .next (mgmtBody body s)

end Sys2Proof.Machine
end

