-- ==== Sys2Proof/Machine/FieldPort.lean ====
section
/-!
DEFINITION. The meanings of the commands of the field port: polls, their endings, and the replies of the stations (R144, R167). A reply stands for its telegram, bytes and all (log 9).
-/
namespace Sys2Proof.Machine

open Sys2Proof

/-- POLL_FORMED (R165). -/
def execPollFormed (s : State) : Host.Outcome State Fault Refusal :=
  .next (pollTurn s)

/-- POLL_SENT (R144). -/
def execPollSent (s : State) : Host.Outcome State Fault Refusal :=
  .next (pollSent s)

/-- RESPONSE_WINDOW_EXPIRY (R144). -/
def execResponseWindowExpiry (s : State) : Host.Outcome State Fault Refusal :=
  .next (responseExpiry s)

/-- FOREIGN_REPLY (R167). -/
def execForeignReply (t : Telegram) (s : State) : Host.Outcome State Fault Refusal :=
  .next (fieldArrival t s)

/-- POSITION (R137, R151). -/
def execPosition (h : Header) (pos : BitVec 24) (moving status : Byte) (s : State) : Host.Outcome State Fault Refusal :=
  .next (fieldArrival (arrived h Kind.position (toBytes 3 pos.toNat ++ [moving, status])) s)

/-- REQUEST (R137, R32). -/
def execRequest (h : Header) (kind oven side : Byte) (s : State) : Host.Outcome State Fault Refusal :=
  .next (fieldArrival (arrived h Kind.request [kind, oven, side]) s)

/-- DONE (R137, R36). -/
def execDone (h : Header) (kind oven side result : Byte) (measurement : BitVec 16)
    (s : State) : Host.Outcome State Fault Refusal :=
  .next (fieldArrival (arrived h Kind.done ([kind, oven, side, result] ++ toBytes 2 measurement.toNat)) s)

/-- SEAL (R137, R102). -/
def execSeal (h : Header) (oven side leak : Byte) (s : State) : Host.Outcome State Fault Refusal :=
  .next (fieldArrival (arrived h Kind.seal [oven, side, leak]) s)

/-- SAMPLE (R138, R114). -/
def execSample (h : Header) (firstOven validity : Byte) (pressures : Vector (BitVec 16) 8)
    (feedbacks : Vector Byte 8) (s : State) : Host.Outcome State Fault Refusal :=
  .next (fieldArrival
    (arrived h Kind.sample
      ([firstOven, validity] ++ pressures.toList.flatMap (fun p => toBytes 2 p.toNat) ++ feedbacks.toList)) s)

/-- READY (R137, R170). -/
def execReady (h : Header) (selfCheck claimed : Byte) (s : State) : Host.Outcome State Fault Refusal :=
  .next (fieldArrival (arrived h Kind.ready [selfCheck, claimed]) s)

/-- FIELD_OTHER_KIND (R152). -/
def execFieldOtherKind (t : Telegram) (s : State) : Host.Outcome State Fault Refusal :=
  .next (fieldArrival t s)

/-- GAP_WINDOW_EXPIRY (R132). -/
def execGapWindowExpiry (port : Port) (s : State) : Host.Outcome State Fault Refusal :=
  .next (gapExpiry port s)

/-- FRAMING_DISCARD (R131). -/
def execFramingDiscard (port : Port) (line : List LineByte) (s : State) : Host.Outcome State Fault Refusal :=
  .next (framingDiscard port line s)

/-- PREAMBLE_STARTS_ASSEMBLY (R131). -/
def execPreambleStartsAssembly (port : Port) (s : State) : Host.Outcome State Fault Refusal :=
  .next (preamble port s)

end Sys2Proof.Machine
end

