-- ==== Sys2Proof/Machine/Management.lean ====
section
/-!
DEFINITION. The meanings of the management requests other than LOAD and READ (Table 10-1).
-/
namespace Sys2Proof.Machine

open Sys2Proof

/-- STATUS (R181). -/
def execStatus (s : State) : Host.Outcome State Fault Refusal :=
  .next (mgmtArrival ReqCode.status 1 statusRequest s)

/-- ENTER_SERVICE (R176). -/
def execEnterService (s : State) : Host.Outcome State Fault Refusal :=
  .next (mgmtArrival ReqCode.enterService 1 enterService s)

/-- ENTER_MAINTENANCE (R177). -/
def execEnterMaintenance (s : State) : Host.Outcome State Fault Refusal :=
  .next (mgmtArrival ReqCode.enterMaintenance 1 enterMaintenance s)

/-- RESTART (R182). -/
def execRestart (s : State) : Host.Outcome State Fault Refusal :=
  .next (mgmtArrival ReqCode.restart 1 restartRequest s)

/-- FIELD_RESTART (R183). -/
def execFieldRestart (s : State) : Host.Outcome State Fault Refusal :=
  .next (mgmtArrival ReqCode.fieldRestart 1 fieldRestartRequest s)

/-- SET_TIME (R5). -/
def execSetTime (wall : BitVec 32) (s : State) : Host.Outcome State Fault Refusal :=
  .next (mgmtArrival ReqCode.setTime 5 (setTime wall.toInt) s)

/-- RUN (R50). -/
def execRun (start count : Byte) (s : State) : Host.Outcome State Fault Refusal :=
  .next (mgmtArrival ReqCode.run 3 (runRequest start.toNat count.toNat) s)

/-- HOLD (R66). -/
def execHold (s : State) : Host.Outcome State Fault Refusal :=
  .next (mgmtArrival ReqCode.hold 1 holdRequest s)

/-- RESUME (R67). -/
def execResume (s : State) : Host.Outcome State Fault Refusal :=
  .next (mgmtArrival ReqCode.resume 1 resumeRequest s)

/-- ABORT (R68). -/
def execAbort (s : State) : Host.Outcome State Fault Refusal :=
  .next (mgmtArrival ReqCode.abort 1 abortRequest s)

/-- SENSE (R69). -/
def execSense (s : State) : Host.Outcome State Fault Refusal :=
  .next (mgmtArrival ReqCode.sense 1 senseRequest s)

/-- VERIFY (R70). -/
def execVerify (start count : Byte) (s : State) : Host.Outcome State Fault Refusal :=
  .next (mgmtArrival ReqCode.verify 3 (verifyRequest start.toNat count.toNat) s)

/-- SET_BLOCK (R48). -/
def execSetBlock (size : Byte) (s : State) : Host.Outcome State Fault Refusal :=
  .next (mgmtArrival ReqCode.setBlock 2 (setBlock size.toNat) s)

/-- OVEN_SERVICE_OUT (R13): the elapsed minutes are carried and not read. -/
def execOvenServiceOut (oven : Byte) (_elapsed : BitVec 16) (s : State) : Host.Outcome State Fault Refusal :=
  .next (mgmtArrival ReqCode.ovenService 5 (ovenServiceOut oven.toNat) s)

/-- OVEN_SERVICE_IN (R14). -/
def execOvenServiceIn (oven : Byte) (elapsed : BitVec 16) (s : State) : Host.Outcome State Fault Refusal :=
  .next (mgmtArrival ReqCode.ovenService 5 (ovenServiceIn oven.toNat elapsed.toNat) s)

/-- RELEASE_OVEN (R12). -/
def execReleaseOven (oven : Byte) (s : State) : Host.Outcome State Fault Refusal :=
  .next (mgmtArrival ReqCode.releaseOven 2 (releaseOven oven.toNat) s)

/-- FREEZE (R125). -/
def execFreeze (oven : Byte) (s : State) : Host.Outcome State Fault Refusal :=
  .next (mgmtArrival ReqCode.freeze 2 (freezeOvens true oven.toNat) s)

/-- UNFREEZE (R125). -/
def execUnfreeze (oven : Byte) (s : State) : Host.Outcome State Fault Refusal :=
  .next (mgmtArrival ReqCode.unfreeze 2 (freezeOvens false oven.toNat) s)

/-- CLEAR_CAR (R95). -/
def execClearCar (car : Byte) (s : State) : Host.Outcome State Fault Refusal :=
  .next (mgmtArrival ReqCode.clearCar 2 (clearCarRequest car.toNat) s)

end Sys2Proof.Machine
end

