-- ==== Sys2Proof/Machine/Tables.lean ====
section
/-!
DEFINITION. The meanings of LOAD, table by table (R178), and of READ (R179).
-/
namespace Sys2Proof.Machine

open Sys2Proof

/-- A LOAD of one table: its request code, table code, first index, count and entries (R178). -/
def loadArrival (rule : LoadArgs → State → Reply) (first count : Byte) (entries : List Byte) (s : State) : State :=
  mgmtArrival ReqCode.load (4 + entries.length) (rule ⟨first.toNat, count.toNat, entries⟩) s

/-- LOAD_DISPATCH_TABLE (R150). -/
def execLoadDispatchTable (first count : Byte) (entries : List Byte) (s : State) : Host.Outcome State Fault Refusal :=
  .next (loadArrival loadDispatch first count entries s)

/-- LOAD_SELECTOR_PARAMETERS (R149). -/
def execLoadSelectorParameters (first count : Byte) (entries : List Byte) (s : State) : Host.Outcome State Fault Refusal :=
  .next (loadArrival loadSelectors first count entries s)

/-- LOAD_FIELD_LINE_SETTINGS (R161). -/
def execLoadFieldLineSettings (first count : Byte) (entries : List Byte) (s : State) : Host.Outcome State Fault Refusal :=
  .next (loadArrival loadLine first count entries s)

/-- LOAD_POLL_LIST (R160). -/
def execLoadPollList (first count : Byte) (entries : List Byte) (s : State) : Host.Outcome State Fault Refusal :=
  .next (loadArrival loadPoll first count entries s)

/-- LOAD_OVEN_CONFIGURATION (R1, R2). -/
def execLoadOvenConfiguration (first count : Byte) (entries : List Byte) (s : State) : Host.Outcome State Fault Refusal :=
  .next (loadArrival loadOvens first count entries s)

/-- LOAD_OVENSTATE (R15). -/
def execLoadOvenstate (first count : Byte) (entries : List Byte) (s : State) : Host.Outcome State Fault Refusal :=
  .next (loadArrival loadOvenState first count entries s)

/-- LOAD_PERMIT_TABLE (R30). -/
def execLoadPermitTable (first count : Byte) (entries : List Byte) (s : State) : Host.Outcome State Fault Refusal :=
  .next (loadArrival loadPermits first count entries s)

/-- LOAD_SEGMENT_TABLE (R73). -/
def execLoadSegmentTable (first count : Byte) (entries : List Byte) (s : State) : Host.Outcome State Fault Refusal :=
  .next (loadArrival loadSegments first count entries s)

/-- LOAD_CAR_CONFIGURATION (R74). -/
def execLoadCarConfiguration (first count : Byte) (entries : List Byte) (s : State) : Host.Outcome State Fault Refusal :=
  .next (loadArrival loadCars first count entries s)

/-- LOAD_TIMING_TABLE (R3). -/
def execLoadTimingTable (first count : Byte) (entries : List Byte) (s : State) : Host.Outcome State Fault Refusal :=
  .next (loadArrival loadTiming first count entries s)

/-- LOAD_SERIES_TABLE (R46). -/
def execLoadSeriesTable (first count : Byte) (entries : List Byte) (s : State) : Host.Outcome State Fault Refusal :=
  .next (loadArrival loadSeries first count entries s)

/-- LOAD_STEP_TIMING_TABLE (R47). -/
def execLoadStepTimingTable (first count : Byte) (entries : List Byte) (s : State) : Host.Outcome State Fault Refusal :=
  .next (loadArrival loadStepTiming first count entries s)

/-- LOAD_TRACK_TIMING_TABLE (R75). -/
def execLoadTrackTimingTable (first count : Byte) (entries : List Byte) (s : State) : Host.Outcome State Fault Refusal :=
  .next (loadArrival loadTrackTiming first count entries s)

/-- LOAD_SEAL_CONFIGURATION (R101). -/
def execLoadSealConfiguration (first count : Byte) (entries : List Byte) (s : State) : Host.Outcome State Fault Refusal :=
  .next (loadArrival loadSealConfig first count entries s)

/-- LOAD_PRESSURE_MODE_TABLE (R118). -/
def execLoadPressureModeTable (first count : Byte) (entries : List Byte) (s : State) : Host.Outcome State Fault Refusal :=
  .next (loadArrival loadModes first count entries s)

/-- LOAD_REGULATOR_CONFIGURATION (R122). -/
def execLoadRegulatorConfiguration (first count : Byte) (entries : List Byte) (s : State) : Host.Outcome State Fault Refusal :=
  .next (loadArrival loadRegulator first count entries s)

/-- LOAD_EVENT_ENABLE_MASK (R180). -/
def execLoadEventEnableMask (first count : Byte) (entries : List Byte) (s : State) : Host.Outcome State Fault Refusal :=
  .next (loadArrival loadMask first count entries s)

/-- READ (R179). -/
def execRead (table first count : Byte) (s : State) : Host.Outcome State Fault Refusal :=
  .next (mgmtArrival ReqCode.read 4 (readRequest table.toNat first.toNat count.toNat) s)

end Sys2Proof.Machine
end

