-- ==== Sys2Proof/Machine/Dispatch.lean ====
section
/-!
DEFINITION. The command dispatch: one arm per constructor of Instr, each one call of its meaning.
-/
namespace Sys2Proof.Machine

open Sys2Proof

def exec (i : Instr) (s : State) : Host.Outcome State Fault Refusal :=
  match i with
  | .powerOnReset straps => Sys2Proof.Machine.execPowerOnReset straps s
  | .clockAdvance => Sys2Proof.Machine.execClockAdvance s
  | .readyInstantReached oven => Sys2Proof.Machine.execReadyInstantReached oven s
  | .chargeHoldEndReached oven => Sys2Proof.Machine.execChargeHoldEndReached oven s
  | .lateInstantReached oven => Sys2Proof.Machine.execLateInstantReached oven s
  | .holdDeadlineReached => Sys2Proof.Machine.execHoldDeadlineReached s
  | .stepDeadlineReached => Sys2Proof.Machine.execStepDeadlineReached s
  | .leadInstantReached => Sys2Proof.Machine.execLeadInstantReached s
  | .maximumLatenessTest => Sys2Proof.Machine.execMaximumLatenessTest s
  | .drainDeadlineReached car => Sys2Proof.Machine.execDrainDeadlineReached car s
  | .hotLimitReached car => Sys2Proof.Machine.execHotLimitReached car s
  | .sealDeadlineReached oven side => Sys2Proof.Machine.execSealDeadlineReached oven side s
  | .taskDeadlineReached side => Sys2Proof.Machine.execTaskDeadlineReached side s
  | .cpSilence => Sys2Proof.Machine.execCpSilence s
  | .roundTimerExpiry => Sys2Proof.Machine.execRoundTimerExpiry s
  | .pollFormed => Sys2Proof.Machine.execPollFormed s
  | .pollSent => Sys2Proof.Machine.execPollSent s
  | .responseWindowExpiry => Sys2Proof.Machine.execResponseWindowExpiry s
  | .gapWindowExpiry port => Sys2Proof.Machine.execGapWindowExpiry port s
  | .framingDiscard port line => Sys2Proof.Machine.execFramingDiscard port line s
  | .controlTransmitDone => Sys2Proof.Machine.execControlTransmitDone s
  | .foreignReply t => Sys2Proof.Machine.execForeignReply t s
  | .position h pos moving status => Sys2Proof.Machine.execPosition h pos moving status s
  | .request h kind oven side => Sys2Proof.Machine.execRequest h kind oven side s
  | .done h kind oven side result measurement => Sys2Proof.Machine.execDone h kind oven side result measurement s
  | .sealReport h oven side leak => Sys2Proof.Machine.execSeal h oven side leak s
  | .sample h firstOven validity pressures feedbacks => Sys2Proof.Machine.execSample h firstOven validity pressures feedbacks s
  | .ready h selfCheck claimed => Sys2Proof.Machine.execReady h selfCheck claimed s
  | .fieldOtherKind t => Sys2Proof.Machine.execFieldOtherKind t s
  | .controlMove h target speed oven => Sys2Proof.Machine.execControlMove h target speed oven s
  | .controlHalt h reason => Sys2Proof.Machine.execControlHalt h reason s
  | .controlTask h task oven side => Sys2Proof.Machine.execControlTask h task oven side s
  | .broadcastHalt source marked reason => Sys2Proof.Machine.execBroadcastHalt source marked reason s
  | .broadcastOtherKind t => Sys2Proof.Machine.execBroadcastOtherKind t s
  | .unknownStationTelegram t => Sys2Proof.Machine.execUnknownStationTelegram t s
  | .controlOtherKind t => Sys2Proof.Machine.execControlOtherKind t s
  | .ownAddressNonMgmt t => Sys2Proof.Machine.execOwnAddressNonMgmt t s
  | .mgmtUnknownRequest body => Sys2Proof.Machine.execMgmtUnknownRequest body s
  | .loadDispatchTable first count entries => Sys2Proof.Machine.execLoadDispatchTable first count entries s
  | .loadSelectorParameters first count entries => Sys2Proof.Machine.execLoadSelectorParameters first count entries s
  | .loadFieldLineSettings first count entries => Sys2Proof.Machine.execLoadFieldLineSettings first count entries s
  | .loadPollList first count entries => Sys2Proof.Machine.execLoadPollList first count entries s
  | .loadOvenConfiguration first count entries => Sys2Proof.Machine.execLoadOvenConfiguration first count entries s
  | .loadOvenstate first count entries => Sys2Proof.Machine.execLoadOvenstate first count entries s
  | .loadPermitTable first count entries => Sys2Proof.Machine.execLoadPermitTable first count entries s
  | .loadSegmentTable first count entries => Sys2Proof.Machine.execLoadSegmentTable first count entries s
  | .loadCarConfiguration first count entries => Sys2Proof.Machine.execLoadCarConfiguration first count entries s
  | .loadTimingTable first count entries => Sys2Proof.Machine.execLoadTimingTable first count entries s
  | .loadSeriesTable first count entries => Sys2Proof.Machine.execLoadSeriesTable first count entries s
  | .loadStepTimingTable first count entries => Sys2Proof.Machine.execLoadStepTimingTable first count entries s
  | .loadTrackTimingTable first count entries => Sys2Proof.Machine.execLoadTrackTimingTable first count entries s
  | .loadSealConfiguration first count entries => Sys2Proof.Machine.execLoadSealConfiguration first count entries s
  | .loadPressureModeTable first count entries => Sys2Proof.Machine.execLoadPressureModeTable first count entries s
  | .loadRegulatorConfiguration first count entries => Sys2Proof.Machine.execLoadRegulatorConfiguration first count entries s
  | .loadEventEnableMask first count entries => Sys2Proof.Machine.execLoadEventEnableMask first count entries s
  | .read table first count => Sys2Proof.Machine.execRead table first count s
  | .status => Sys2Proof.Machine.execStatus s
  | .enterService => Sys2Proof.Machine.execEnterService s
  | .enterMaintenance => Sys2Proof.Machine.execEnterMaintenance s
  | .restart => Sys2Proof.Machine.execRestart s
  | .fieldRestart => Sys2Proof.Machine.execFieldRestart s
  | .setTime wall => Sys2Proof.Machine.execSetTime wall s
  | .run start count => Sys2Proof.Machine.execRun start count s
  | .hold => Sys2Proof.Machine.execHold s
  | .resume => Sys2Proof.Machine.execResume s
  | .abort => Sys2Proof.Machine.execAbort s
  | .sense => Sys2Proof.Machine.execSense s
  | .verify start count => Sys2Proof.Machine.execVerify start count s
  | .setBlock size => Sys2Proof.Machine.execSetBlock size s
  | .ovenServiceOut oven elapsed => Sys2Proof.Machine.execOvenServiceOut oven elapsed s
  | .ovenServiceIn oven elapsed => Sys2Proof.Machine.execOvenServiceIn oven elapsed s
  | .releaseOven oven => Sys2Proof.Machine.execReleaseOven oven s
  | .freeze oven => Sys2Proof.Machine.execFreeze oven s
  | .unfreeze oven => Sys2Proof.Machine.execUnfreeze oven s
  | .clearCar car => Sys2Proof.Machine.execClearCar car s
  | .preambleStartsAssembly port => Sys2Proof.Machine.execPreambleStartsAssembly port s

end Sys2Proof.Machine
end

