-- ==== Sys2Proof/WellFormed.lean ====
section
/-!
DEFINITION. Which terms of Instr are commands that the spec's tables can spell: operands within the numbers of
Tables 1-3, 4-2 and 5-1, and telegrams of the row they stand in (R134, R135, R155).
-/
namespace Sys2Proof

open Sys2Proof.Machine

/-- An oven number of the tables (Table 1-3). -/
def Instr.ovenFits (n : Nat) : Bool := 1 ≤ n && n ≤ 128

/-- A kind that a control-port telegram to a station has no row of its own for (R156, R157). -/
def Instr.isOrderKind (k : Nat) : Bool := k = Kind.move || k = Kind.halt || k = Kind.task

/-- The entry bytes of a LOAD within one body of at most 48 bytes (R178). -/
def Instr.entriesFit (entries : List Byte) : Bool := entries.length ≤ 44

/-- A command that the tables can spell. -/
def Instr.wellFormed (i : Instr) : Bool :=
  match i with
  | .readyInstantReached oven => Instr.ovenFits oven
  | .chargeHoldEndReached oven => Instr.ovenFits oven
  | .lateInstantReached oven => Instr.ovenFits oven
  | .sealDeadlineReached oven _ => Instr.ovenFits oven
  | .drainDeadlineReached car => car = 1 || car = 2
  | .hotLimitReached car => car = 1 || car = 2
  | .framingDiscard _ line => !line.isEmpty && line.length ≤ 54
  | .foreignReply t => framed t
  | .fieldOtherKind t => framed t && !(Kind.position ≤ kindOf t && kindOf t ≤ Kind.ready)
  | .broadcastOtherKind t => framed t && t.dest = 255#8 && kindOf t ≠ Kind.halt
  | .unknownStationTelegram t => framed t && t.dest ≠ 255#8
  | .controlOtherKind t =>
    framed t && !Instr.isOrderKind (kindOf t) && 16 ≤ t.dest.toNat && t.dest.toNat ≤ 239
  | .ownAddressNonMgmt t => framed t && kindOf t ≠ Kind.mgmt && 1 ≤ t.dest.toNat && t.dest.toNat ≤ 15
  | .mgmtUnknownRequest body => 1 ≤ body.length && body.length ≤ 48
  | .loadDispatchTable _ _ es => Instr.entriesFit es
  | .loadSelectorParameters _ _ es => Instr.entriesFit es
  | .loadFieldLineSettings _ _ es => Instr.entriesFit es
  | .loadPollList _ _ es => Instr.entriesFit es
  | .loadOvenConfiguration _ _ es => Instr.entriesFit es
  | .loadOvenstate _ _ es => Instr.entriesFit es
  | .loadPermitTable _ _ es => Instr.entriesFit es
  | .loadSegmentTable _ _ es => Instr.entriesFit es
  | .loadCarConfiguration _ _ es => Instr.entriesFit es
  | .loadTimingTable _ _ es => Instr.entriesFit es
  | .loadSeriesTable _ _ es => Instr.entriesFit es
  | .loadStepTimingTable _ _ es => Instr.entriesFit es
  | .loadTrackTimingTable _ _ es => Instr.entriesFit es
  | .loadSealConfiguration _ _ es => Instr.entriesFit es
  | .loadPressureModeTable _ _ es => Instr.entriesFit es
  | .loadRegulatorConfiguration _ _ es => Instr.entriesFit es
  | .loadEventEnableMask _ _ es => Instr.entriesFit es
  | .powerOnReset _ => true
  | .clockAdvance => true
  | .holdDeadlineReached => true
  | .stepDeadlineReached => true
  | .leadInstantReached => true
  | .maximumLatenessTest => true
  | .taskDeadlineReached _ => true
  | .cpSilence => true
  | .roundTimerExpiry => true
  | .pollFormed => true
  | .pollSent => true
  | .responseWindowExpiry => true
  | .gapWindowExpiry _ => true
  | .controlTransmitDone => true
  | .position _ _ _ _ => true
  | .request _ _ _ _ => true
  | .done _ _ _ _ _ _ => true
  | .sealReport _ _ _ _ => true
  | .sample _ _ _ _ _ => true
  | .ready _ _ _ => true
  | .controlMove h _ _ _ => 16 ≤ h.dest.toNat && h.dest.toNat ≤ 239
  | .controlHalt h _ => 16 ≤ h.dest.toNat && h.dest.toNat ≤ 239
  | .controlTask h _ _ _ => 16 ≤ h.dest.toNat && h.dest.toNat ≤ 239
  | .broadcastHalt _ _ _ => true
  | .read _ _ _ => true
  | .status => true
  | .enterService => true
  | .enterMaintenance => true
  | .restart => true
  | .fieldRestart => true
  | .setTime _ => true
  | .run _ _ => true
  | .hold => true
  | .resume => true
  | .abort => true
  | .sense => true
  | .verify _ _ => true
  | .setBlock _ => true
  | .ovenServiceOut _ _ => true
  | .ovenServiceIn _ _ => true
  | .releaseOven _ => true
  | .freeze _ => true
  | .unfreeze _ => true
  | .clearCar _ => true
  | .preambleStartsAssembly _ => true

end Sys2Proof
end

