-- ==== Sys2Proof/Safety.lean ====
section
/-!
DEFINITION. The laws that the spec says always hold, as predicates on the state, and the aspects of a state that a
command may or may not touch: the vocabulary in which the statements about the model are written.
-/
namespace Sys2Proof.Machine

open Sys2Proof

/-! ## Laws -/

/-- R7: no oven's charge stamp lies after the clock. -/
def StampLaw (s : State) : Prop :=
  ∀ n, 1 ≤ n → n ≤ 128 → (ovenRec s n).stamp ≤ s.now

/-- A valve position within the limits of the mode that a record holds. -/
def ValveFits (s : State) (r : RegRecord) : Prop :=
  (modeEntry s r.mode).vmin ≤ r.valve ∧ r.valve ≤ (modeEntry s r.mode).vmax

/-- R118 and R120: no mode has its limits crossed, and every oven's valve position lies within the limits of the
oven's mode. -/
def ValveLaw (s : State) : Prop :=
  (∀ m, (modeEntry s m).vmin ≤ (modeEntry s m).vmax) ∧ ∀ n, 1 ≤ n → n ≤ 128 → ValveFits s (regRec s n)

/-- Two entries that may stand in the active permit set together (R31). -/
def compatible (a b : Permit) : Bool :=
  !(a.station = b.station && a.kind = b.kind && a.oven = b.oven && a.side = b.side) &&
    !(a.kind = .push && b.kind = .push) &&
    (a.oven ≠ b.oven || isCarKind a.kind || isCarKind b.kind ||
      (a.kind ≠ .push && b.kind ≠ .push && (a.kind ≠ .charge || b.kind = .level) &&
        (b.kind ≠ .charge || a.kind = .level)))

/-- R31: the active permit set is empty outside SERVICE, holds at most 8 entries, and every two of them may stand
together. -/
def PermitLaw (s : State) : Prop :=
  (s.mgt.mode ≠ .service → s.ilk.permits = []) ∧ s.ilk.permits.length ≤ 8 ∧ s.ilk.permits.Pairwise (compatible · ·)

/-- R142: at most 32 telegrams wait for the control station, and at most one POSITION copy of a source. -/
def QueueLaw (s : State) : Prop :=
  s.cpi.queue.length ≤ 32 ∧
    s.cpi.queue.Pairwise fun a b => !(isPositionCopy a.telegram.source a && isPositionCopy a.telegram.source b)

/-- A run that is RUNNING or HELD. -/
def RunRecord.engaged (r : RunRecord) : Bool := r.state = .running || r.state = .held

/-- R49: pushed, skipped and residual make up the requested count, and a run that is RUNNING or HELD has a position
left. -/
def RunLaw (s : State) : Prop :=
  s.run.pushed + s.run.skipped + s.run.residual = s.run.requested ∧ (s.run.engaged → 0 < s.run.residual)

/-- R79 and R80: a recorded car position is a number of 24 bits, no segment is reserved by both cars, and a TOWER
segment only by the holder of the tower grant. -/
def TrackLaw (s : State) : Prop :=
  (∀ c p, (carRec s c).position = some p → p < 16777216) ∧
    (∀ k ∈ (carRec s 1).reserved, k ∉ (carRec s 2).reserved) ∧
    ∀ c, ∀ k ∈ (carRec s c).reserved, isTower s k → s.qtc.holder = some c

/-- R84 and R87: no car stands twice in the idle list or the tower queue, the holder of the grant does not queue for it,
and of the two cars the idle list holds those in state IDLE. -/
def ListLaw (s : State) : Prop :=
  s.qtc.idle.Nodup ∧ s.qtc.queue.Nodup ∧ (∀ c, s.qtc.holder = some c → c ∉ s.qtc.queue) ∧
    ∀ c, c = 1 ∨ c = 2 → (c ∈ s.qtc.idle ↔ (carRec s c).state = .idle)

/-- One of the 256 doors (5.2). -/
def isDoor (d : Door) : Prop := 1 ≤ d.oven ∧ d.oven ≤ 128

/-- R106 and Table 5-1: the leak list holds at most 32 entries, no door twice, LEAKING doors alone, and every MAJOR entry
before every MINOR one; a door is listed exactly while it has an entry, and has a severity exactly while LEAKING; and a
LEAKING door is unlisted only while the list is full. -/
def LeakLaw (s : State) : Prop :=
  s.dsm.leaks.length ≤ 32 ∧ s.dsm.leaks.Nodup ∧
    (s.dsm.leaks.Pairwise fun a b => isMajor s b → isMajor s a) ∧
    (∀ d ∈ s.dsm.leaks, isDoor d ∧ (doorRec s d).state = .leaking) ∧
    (∀ d, isDoor d → ((doorRec s d).listed ↔ d ∈ s.dsm.leaks)) ∧
    (∀ d, isDoor d → ((doorRec s d).severity.isSome ↔ (doorRec s d).state = .leaking)) ∧
    (s.dsm.leaks.length < 32 → ∀ d, isDoor d → (doorRec s d).state = .leaking → (doorRec s d).listed)

/-- R38 with what it rests on: every active permit is held by a station in state ACTIVE, no permit is active outside
SERVICE (R31), no two positions in use have the same address (R160), and an exchange in progress is with a position in
use. -/
def HolderLaw (s : State) : Prop :=
  (s.mgt.mode ≠ .service → s.ilk.permits = []) ∧ s.fpl.length ≤ 24 ∧
    (∀ p q, p < s.fpl.length → q < s.fpl.length → (pollEntry s p).address = (pollEntry s q).address → p = q) ∧
    (∀ x, s.fpl.exchange = some x → x.position < s.fpl.length) ∧
    ∀ e ∈ s.ilk.permits, activeAt s (posOfAddress s e.station)

/-! ## Aspects -/

/-- A HALT waits in the order slot of a position. -/
def haltWaits (s : State) (p : Nat) : Bool :=
  match (outbound s p).order with
  | some w => isHalt w
  | none => false

/-- The answer that waits in the slot of a position, whether or not a poll carries it (R163). -/
def answerAt (s : State) (p : Nat) : Option AnswerBody := (outbound s p).answer.map Answer.body

/-- The summary count at an index from 0 (R180). -/
def countAt (s : State) (i : Nat) : Nat := readAt s.mgt.counts i 0

/-- R180: no summary count passes 255. -/
def CountLaw (s : State) : Prop := ∀ i, countAt s i ≤ 255

/-- What a command may touch. The first rows are pieces of the state; the last rows are relations and laws that a
command may break only where it touches the aspect. -/
inductive Aspect where
  | ovens
  | align
  | clock
  | wall
  | ovenTables
  | permits
  | permitTable
  | run
  | sense
  | watch
  | latenessMark
  | runnerTables
  | cars
  | tower
  | idle
  | trackTables
  | doors
  | leaks
  | tasks
  | sealTable
  | regs
  | dirty
  | regTables
  | transmit
  | receiver
  | controlDiscards
  | line
  | fieldDiscards
  | classifier
  | stations
  | outbound
  | rounds
  | exchange
  | pollTables
  | mode
  | validity
  | counts
  | mask
  | address
  | pending
  | drawn
  /-- No permit is added. -/
  | grants
  /-- A HALT that waits goes on waiting. -/
  | halts
  /-- The run keeps its start position and its requested count. -/
  | stretch
  /-- A car keeps its position and its occupied segments. -/
  | places
  /-- No answer that waits is taken, replaced or written. -/
  | answers
  /-- No summary count falls, or passes 255. -/
  | tally
  | stampLaw
  | valveLaw
  | permitLaw
  | queueLaw
  | runLaw
  | trackLaw
  | listLaw
  | countLaw
  | leakLaw
  | holderLaw
  deriving DecidableEq, Repr

/-- What it means that an aspect is not touched on the way from `s` to `t`. -/
def Aspect.same (a : Aspect) (s t : State) : Prop :=
  match a with
  | .ovens => t.ovt.ovens = s.ovt.ovens
  | .align => t.ovt.align = s.ovt.align
  | .clock => t.ovt.clock = s.ovt.clock
  | .wall => t.ovt.wallOffset = s.ovt.wallOffset
  | .ovenTables => t.ovt.config = s.ovt.config ∧ t.ovt.timing = s.ovt.timing
  | .permits => t.ilk.permits = s.ilk.permits
  | .permitTable => t.ilk.table = s.ilk.table
  | .run => t.sch.run = s.sch.run
  | .sense => t.sch.sense = s.sch.sense
  | .watch => t.sch.silenceStart = s.sch.silenceStart ∧ t.sch.silenceRaised = s.sch.silenceRaised
  | .latenessMark => t.sch.latenessDue = s.sch.latenessDue
  | .runnerTables =>
    t.sch.series = s.sch.series ∧ t.sch.length = s.sch.length ∧ t.sch.timing = s.sch.timing ∧ t.sch.block = s.sch.block
  | .cars => t.qtc.cars = s.qtc.cars
  | .tower => t.qtc.holder = s.qtc.holder ∧ t.qtc.entered = s.qtc.entered ∧ t.qtc.queue = s.qtc.queue
  | .idle => t.qtc.idle = s.qtc.idle ∧ t.qtc.carRequest = s.qtc.carRequest
  | .trackTables =>
    t.qtc.segments = s.qtc.segments ∧ t.qtc.count = s.qtc.count ∧ t.qtc.config = s.qtc.config ∧
      t.qtc.timing = s.qtc.timing
  | .doors => t.dsm.doors = s.dsm.doors
  | .leaks => t.dsm.leaks = s.dsm.leaks
  | .tasks => t.dsm.taskPm = s.dsm.taskPm ∧ t.dsm.taskCgm = s.dsm.taskCgm
  | .sealTable => t.dsm.config = s.dsm.config
  | .regs => t.opr.records = s.opr.records
  | .dirty => t.opr.dirty = s.opr.dirty
  | .regTables => t.opr.modes = s.opr.modes ∧ t.opr.config = s.opr.config
  | .transmit => t.cpi.queue = s.cpi.queue ∧ t.cpi.sending = s.cpi.sending
  | .receiver => t.cpi.assembling = s.cpi.assembling
  | .controlDiscards => t.cpi.discards = s.cpi.discards
  | .line => t.fpi.line = s.fpi.line ∧ t.fpi.assembling = s.fpi.assembling
  | .fieldDiscards => t.fpi.discards = s.fpi.discards
  | .classifier => t.cls = s.cls
  | .stations => t.fpl.stations = s.fpl.stations
  | .outbound => t.fpl.outbound = s.fpl.outbound
  | .rounds =>
    t.fpl.roundNumber = s.fpl.roundNumber ∧ t.fpl.round = s.fpl.round ∧ t.fpl.owed = s.fpl.owed ∧
      t.fpl.timerPeriod = s.fpl.timerPeriod
  | .exchange => t.fpl.exchange = s.fpl.exchange
  | .pollTables => t.fpl.list = s.fpl.list ∧ t.fpl.length = s.fpl.length ∧ t.fpl.settings = s.fpl.settings
  | .mode => t.mgt.mode = s.mgt.mode
  | .validity => t.mgt.validity = s.mgt.validity
  | .counts => t.mgt.counts = s.mgt.counts
  | .mask => t.mgt.enabled = s.mgt.enabled
  | .address => t.mgt.address = s.mgt.address
  | .pending => t.pending = s.pending
  | .drawn => t.drawn = s.drawn
  | .grants => t.ilk.permits.Sublist s.ilk.permits
  | .halts => ∀ p, haltWaits s p → haltWaits t p
  | .stretch => t.sch.run.start = s.sch.run.start ∧ t.sch.run.requested = s.sch.run.requested
  | .places => ∀ c, (carRec t c).position = (carRec s c).position ∧ (carRec t c).occupied = (carRec s c).occupied
  | .answers => ∀ p, answerAt t p = answerAt s p
  | .tally => ∀ i, countAt s i ≤ 255 → countAt s i ≤ countAt t i ∧ countAt t i ≤ 255
  | .stampLaw => StampLaw s → StampLaw t
  | .valveLaw => ValveLaw s → ValveLaw t
  | .permitLaw => PermitLaw s → PermitLaw t
  | .queueLaw => QueueLaw s → QueueLaw t
  | .runLaw => RunLaw s → RunLaw t
  | .trackLaw => TrackLaw s → TrackLaw t
  | .listLaw => ListLaw s → ListLaw t
  | .countLaw => CountLaw s → CountLaw t
  | .leakLaw => LeakLaw s → LeakLaw t
  | .holderLaw => HolderLaw s → HolderLaw t

/-- On the way from `s` to `t` no aspect is touched but those of a list. -/
def Touches (l : List Aspect) (s t : State) : Prop := ∀ a, a ∉ l → a.same s t

/-! ## What each command may touch -/

/-- What the steps of a run may touch. -/
abbrev runAspects : List Aspect := [.run, .sense, .cars, .idle, .counts, .transmit, .outbound, .tasks]

/-- What an entry into POSITION may touch. -/
abbrev entryAspects : List Aspect := [.run, .cars, .idle, .outbound, .tasks]

/-- What a change of an oven's phase may touch. -/
abbrev phaseAspects : List Aspect := .ovens :: .regs :: .dirty :: runAspects

/-- What the end of a permit, or a break, may touch. -/
abbrev cutAspects : List Aspect := .permits :: .tower :: phaseAspects

/-- What the departure of a station may touch. -/
abbrev positionAspects : List Aspect := .stations :: .align :: cutAspects

/-- What a round that begins or ends may touch. -/
abbrev roundAspects : List Aspect := .rounds :: .drawn :: cutAspects

/-- What the forming of a poll may touch. -/
abbrev pollAspects : List Aspect := .exchange :: .line :: roundAspects

/-- What an exchange that ends as a miss may touch. -/
abbrev endingAspects : List Aspect := .line :: .exchange :: .rounds :: .drawn :: positionAspects

/-- What a telegram of the control station to a station may touch. -/
abbrev orderAspects : List Aspect := [.outbound, .tasks, .cars, .counts, .transmit]

/-- What a field report of a kind may touch that no other kind may: a POSITION moves a car, a REQUEST is answered and
grants permits, a DONE and a SEAL change door records. -/
def reportAspectsOf (kind : Nat) : List Aspect :=
  if kind = Kind.position then [.places]
  else if kind = Kind.request then [.grants, .answers]
  else if kind = Kind.done ∨ kind = Kind.seal then [.doors, .leaks]
  else []

/-- What a reply of a kind may touch: what its poll carried is delivered, be it a HALT or an answer. -/
def replyAspects (kind : Nat) : List Aspect :=
  reportAspectsOf kind ++ (.halts :: .answers :: .fieldDiscards :: endingAspects)

/-- What the arrival of any telegram on the control port may touch. -/
abbrev arrivalAspects : List Aspect := [.receiver, .watch, .controlDiscards]

/-- What a telegram of the control station that is no MGMT may touch. -/
abbrev controlAspects : List Aspect := arrivalAspects ++ orderAspects

/-- What a management request may touch, beside what its own row does: the sense record and the queue of answers. -/
abbrev mgmtAspects : List Aspect := .sense :: .transmit :: arrivalAspects

/-- What a warm restart may touch. -/
abbrev warmAspects : List Aspect := .mode :: .latenessMark :: .stretch :: .answers :: cutAspects

/-- What a LOAD of the poll list may touch. -/
abbrev pollLoadAspects : List Aspect :=
  .pollTables :: .validity :: .rounds :: .drawn :: .exchange :: .answers :: positionAspects

/-- What some management request may touch. -/
abbrev anyMgmtAspects : List Aspect :=
  [.wall, .ovenTables, .permitTable, .runnerTables, .trackTables, .doors, .sealTable, .regTables, .mask, .classifier,
    .fieldDiscards, .line, .mode, .latenessMark, .stretch, .places, .answers, .tally] ++ arrivalAspects ++ pollLoadAspects

/-- What a telegram of any kind on the control port may touch. -/
def telegramAspects (kind : Nat) : List Aspect :=
  if kind = Kind.mgmt then anyMgmtAspects else controlAspects

/-- What a power-on reset touches: everything but the queue of commands and the free values drawn. -/
abbrev powerAspects : List Aspect :=
  [.ovens, .align, .clock, .wall, .ovenTables, .permits, .permitTable, .run, .sense, .watch, .latenessMark,
    .runnerTables, .cars, .tower, .idle, .trackTables, .doors, .leaks, .tasks, .sealTable, .regs, .dirty, .regTables,
    .transmit, .receiver, .controlDiscards, .line, .fieldDiscards, .classifier, .stations, .outbound, .rounds,
    .exchange, .pollTables, .mode, .validity, .counts, .mask, .address, .halts, .stretch, .places, .answers, .tally]

/-- What a command may touch, beside the queue of commands. No command but POWER_ON_RESET touches the address, no
command but a REQUEST adds a permit, and none breaks one of the laws. -/
def footprint : Instr → List Aspect
  | .powerOnReset _ => powerAspects
  | .clockAdvance => .clock :: .latenessMark :: .watch :: .doors :: cutAspects
  | .readyInstantReached _ => cutAspects
  | .chargeHoldEndReached _ => [.regs, .dirty]
  | .lateInstantReached _ => [.regs, .dirty]
  | .holdDeadlineReached => cutAspects
  | .stepDeadlineReached => cutAspects
  | .leadInstantReached => cutAspects
  | .maximumLatenessTest => .latenessMark :: cutAspects
  | .drainDeadlineReached _ => cutAspects
  | .hotLimitReached _ => [.cars, .counts, .transmit]
  | .sealDeadlineReached _ _ => .doors :: cutAspects
  | .taskDeadlineReached _ => [.outbound, .tasks]
  | .cpSilence => [.watch, .counts, .transmit, .run, .idle, .outbound, .tasks]
  | .roundTimerExpiry => .rounds :: cutAspects
  | .pollFormed => pollAspects
  | .pollSent => [.line]
  | .responseWindowExpiry => endingAspects
  | .gapWindowExpiry port =>
    match port with
    | .control => [.receiver, .controlDiscards]
    | .field => .fieldDiscards :: endingAspects
  | .framingDiscard port _ =>
    match port with
    | .control => [.receiver, .controlDiscards]
    | .field => .fieldDiscards :: endingAspects
  | .controlTransmitDone => [.transmit]
  | .foreignReply t => replyAspects (kindOf t)
  | .position _ _ _ _ => replyAspects Kind.position
  | .request _ _ _ _ => replyAspects Kind.request
  | .done _ _ _ _ _ _ => replyAspects Kind.done
  | .sealReport _ _ _ _ => replyAspects Kind.seal
  | .sample _ _ _ _ _ => replyAspects Kind.sample
  | .ready _ _ _ => replyAspects Kind.ready
  | .fieldOtherKind t => replyAspects (kindOf t)
  | .controlMove _ _ _ _ => controlAspects
  | .controlHalt _ _ => controlAspects
  | .controlTask _ _ _ _ => controlAspects
  | .broadcastHalt _ _ _ => controlAspects
  | .broadcastOtherKind t => telegramAspects (kindOf t)
  | .unknownStationTelegram t => telegramAspects (kindOf t)
  | .controlOtherKind t => telegramAspects (kindOf t)
  | .ownAddressNonMgmt t => telegramAspects (kindOf t)
  | .mgmtUnknownRequest _ => anyMgmtAspects
  | .loadDispatchTable _ _ _ => .classifier :: mgmtAspects
  | .loadSelectorParameters _ _ _ => .classifier :: mgmtAspects
  | .loadFieldLineSettings _ _ _ => .pollTables :: mgmtAspects
  | .loadPollList _ _ _ => pollLoadAspects ++ mgmtAspects
  | .loadOvenConfiguration _ _ _ => .ovenTables :: .align :: .validity :: (phaseAspects ++ mgmtAspects)
  | .loadOvenstate _ _ _ => phaseAspects ++ mgmtAspects
  | .loadPermitTable _ _ _ => .permitTable :: .validity :: mgmtAspects
  | .loadSegmentTable _ _ _ => .trackTables :: .cars :: .places :: .tower :: .validity :: mgmtAspects
  | .loadCarConfiguration _ _ _ => .trackTables :: .cars :: .places :: .validity :: mgmtAspects
  | .loadTimingTable _ _ _ => .ovenTables :: .align :: (cutAspects ++ mgmtAspects)
  | .loadSeriesTable _ _ _ => .runnerTables :: mgmtAspects
  | .loadStepTimingTable _ _ _ => .runnerTables :: (cutAspects ++ mgmtAspects)
  | .loadTrackTimingTable _ _ _ => .trackTables :: .cars :: .counts :: mgmtAspects
  | .loadSealConfiguration _ _ _ => .sealTable :: .doors :: (cutAspects ++ mgmtAspects)
  | .loadPressureModeTable _ _ _ => .regTables :: .regs :: .dirty :: mgmtAspects
  | .loadRegulatorConfiguration _ _ _ => .regTables :: (cutAspects ++ mgmtAspects)
  | .loadEventEnableMask _ _ _ => .mask :: mgmtAspects
  | .read _ _ _ => mgmtAspects
  | .status => .counts :: .tally :: .fieldDiscards :: mgmtAspects
  | .enterService => .mode :: .outbound :: .tasks :: mgmtAspects
  | .enterMaintenance => .mode :: mgmtAspects
  | .restart => warmAspects ++ mgmtAspects
  | .fieldRestart => .answers :: endingAspects ++ mgmtAspects
  | .setTime _ => .wall :: mgmtAspects
  | .run _ _ => .stretch :: (cutAspects ++ mgmtAspects)
  | .hold => .run :: .idle :: .outbound :: .tasks :: mgmtAspects
  | .resume => cutAspects ++ mgmtAspects
  | .abort => cutAspects ++ mgmtAspects
  | .sense => mgmtAspects
  | .verify _ _ => mgmtAspects
  | .setBlock _ => .runnerTables :: mgmtAspects
  | .ovenServiceOut _ _ => cutAspects ++ mgmtAspects
  | .ovenServiceIn _ _ => cutAspects ++ mgmtAspects
  | .releaseOven _ => cutAspects ++ mgmtAspects
  | .freeze _ => .ovens :: mgmtAspects
  | .unfreeze _ => .ovens :: mgmtAspects
  | .clearCar _ => .places :: (cutAspects ++ mgmtAspects)
  | .preambleStartsAssembly port =>
    match port with
    | .control => [.receiver]
    | .field => [.line]

/-! ## Words of the statements -/

/-- How often a kind of event has been counted since the last STATUS (R180). -/
def eventCount (s : State) (k : EventKind) : Nat := countAt s (k.code - 1)

/-- On the way from `s` to `t` an event of a kind was raised: its count has risen, or stands at 255 (R180). -/
def Counted (k : EventKind) (s t : State) : Prop :=
  eventCount s k ≤ 255 → min 255 (eventCount s k + 1) ≤ eventCount t k

/-- The line awaits the reply of an exchange (R144), with a station at one of the 24 positions of the poll list. -/
def Awaits (s : State) (x : Exchange) : Prop :=
  s.fpi.line = .awaiting ∧ s.fpl.exchange = some x ∧ x.void = false ∧ x.position < 24

/-- A telegram has the source of the station that an exchange polled (R167). -/
def fromPolled (s : State) (x : Exchange) (t : Telegram) : Bool := t.source.toNat = (pollEntry s x.position).address

/-- The state once a reply has been taken: what the poll carried is delivered, the station record updated, and the
join test made (R167 items 1 to 3). -/
def afterReply (s : State) (x : Exchange) (t : Telegram) : State := replyTaken x.position x.item t (lineIdle s)

/-- The telegram of a command that is a reply on the field line. -/
def replyTelegram : Instr → Option Telegram
  | .foreignReply t => some t
  | .position h pos moving status => some (arrived h Kind.position (toBytes 3 pos.toNat ++ [moving, status]))
  | .request h kind oven side => some (arrived h Kind.request [kind, oven, side])
  | .done h kind oven side result m =>
    some (arrived h Kind.done ([kind, oven, side, result] ++ toBytes 2 m.toNat))
  | .sealReport h oven side leak => some (arrived h Kind.seal [oven, side, leak])
  | .sample h first validity ps fs =>
    some (arrived h Kind.sample
      ([first, validity] ++ ps.toList.flatMap (fun p => toBytes 2 p.toNat) ++ fs.toList))
  | .ready h selfCheck claimed => some (arrived h Kind.ready [selfCheck, claimed])
  | .fieldOtherKind t => some t
  | _ => none

/-- The telegram of a command that arrives on the control port and is not one of the rows of MGMT. -/
def controlTelegram : Instr → Option Telegram
  | .controlMove h target speed oven => some (arrived h Kind.move (toBytes 3 target.toNat ++ [speed, oven]))
  | .controlHalt h reason => some (arrived h Kind.halt [reason])
  | .controlTask h task oven side => some (arrived h Kind.task [task, oven, side])
  | .broadcastHalt source marked reason => some (arrived ⟨255#8, source, marked⟩ Kind.halt [reason])
  | .broadcastOtherKind t => some t
  | .unknownStationTelegram t => some t
  | .controlOtherKind t => some t
  | .ownAddressNonMgmt t => some t
  | _ => none

/-- A command ends the exchange it finds awaiting as a miss: the response window runs out with the receiver hunting,
the gap window with it assembling, a framing test fails, or the source is not the polled station's (R144, R167). -/
def endsAsMiss (s : State) (x : Exchange) : Instr → Bool
  | .responseWindowExpiry => !s.fpi.assembling
  | .gapWindowExpiry .field => s.fpi.assembling
  | .framingDiscard .field line =>
    match frame x.gap [] line with
    | .discarded _ _ [] => true
    | _ => false
  | .foreignReply t => framed t && !fromPolled s x t
  | _ => false

/-- The answer that the checks of R32, in their order, give a REQUEST from the station at `p` (R33, R35). -/
def requestAnswer (s : State) (p kind oven side : Nat) : AnswerBody :=
  let a := asked s p kind oven side
  if s.mgt.mode ≠ .service then .refuse kind a.oven Reason.notInService
  else if namesOven a && !configured s a.oven then .refuse kind a.oven Reason.unknownOven
  else
    match a.kind, a.side with
    | some k, some sd =>
      match activeEntry s (pollEntry s p).address k a.oven sd with
      | some e => .permit k.code a.oven sd.code (e.deadline - s.now)
      | none =>
        if 8 ≤ s.ilk.permits.length then .refuse k.code a.oven Reason.setFull
        else if excluded s k a.oven then .refuse k.code a.oven Reason.ovenBusy
        else
          match firstFailure s (requestInput s p k a.oven) with
          | some t => .refuse k.code a.oven t
          | none => .permit k.code a.oven sd.code (holdLimit s k)
    | some _, none => .refuse kind a.oven Reason.wrongClass
    | none, _ => .refuse kind a.oven Reason.wrongClass

/-- A management row's request code, the size of its body, and the rule that carries it out (Table 10-1). -/
structure Request where
  code : Nat
  size : Nat
  rule : State → Reply

/-- The request of a LOAD row. -/
def loadRequest (rule : LoadArgs → State → Reply) (first count : Byte) (entries : List Byte) : Request :=
  ⟨ReqCode.load, 4 + entries.length, rule ⟨first.toNat, count.toNat, entries⟩⟩

/-- The request of a management row; MGMT_UNKNOWN_REQUEST, which carries a body of any kind, apart. -/
def requestOf : Instr → Option Request
  | .loadDispatchTable f c e => some (loadRequest loadDispatch f c e)
  | .loadSelectorParameters f c e => some (loadRequest loadSelectors f c e)
  | .loadFieldLineSettings f c e => some (loadRequest loadLine f c e)
  | .loadPollList f c e => some (loadRequest loadPoll f c e)
  | .loadOvenConfiguration f c e => some (loadRequest loadOvens f c e)
  | .loadOvenstate f c e => some (loadRequest loadOvenState f c e)
  | .loadPermitTable f c e => some (loadRequest loadPermits f c e)
  | .loadSegmentTable f c e => some (loadRequest loadSegments f c e)
  | .loadCarConfiguration f c e => some (loadRequest loadCars f c e)
  | .loadTimingTable f c e => some (loadRequest loadTiming f c e)
  | .loadSeriesTable f c e => some (loadRequest loadSeries f c e)
  | .loadStepTimingTable f c e => some (loadRequest loadStepTiming f c e)
  | .loadTrackTimingTable f c e => some (loadRequest loadTrackTiming f c e)
  | .loadSealConfiguration f c e => some (loadRequest loadSealConfig f c e)
  | .loadPressureModeTable f c e => some (loadRequest loadModes f c e)
  | .loadRegulatorConfiguration f c e => some (loadRequest loadRegulator f c e)
  | .loadEventEnableMask f c e => some (loadRequest loadMask f c e)
  | .read t f c => some ⟨ReqCode.read, 4, readRequest t.toNat f.toNat c.toNat⟩
  | .status => some ⟨ReqCode.status, 1, statusRequest⟩
  | .enterService => some ⟨ReqCode.enterService, 1, enterService⟩
  | .enterMaintenance => some ⟨ReqCode.enterMaintenance, 1, enterMaintenance⟩
  | .restart => some ⟨ReqCode.restart, 1, restartRequest⟩
  | .fieldRestart => some ⟨ReqCode.fieldRestart, 1, fieldRestartRequest⟩
  | .setTime w => some ⟨ReqCode.setTime, 5, setTime w.toInt⟩
  | .run start count => some ⟨ReqCode.run, 3, runRequest start.toNat count.toNat⟩
  | .hold => some ⟨ReqCode.hold, 1, holdRequest⟩
  | .resume => some ⟨ReqCode.resume, 1, resumeRequest⟩
  | .abort => some ⟨ReqCode.abort, 1, abortRequest⟩
  | .sense => some ⟨ReqCode.sense, 1, senseRequest⟩
  | .verify start count => some ⟨ReqCode.verify, 3, verifyRequest start.toNat count.toNat⟩
  | .setBlock b => some ⟨ReqCode.setBlock, 2, setBlock b.toNat⟩
  | .ovenServiceOut n _ => some ⟨ReqCode.ovenService, 5, ovenServiceOut n.toNat⟩
  | .ovenServiceIn n m => some ⟨ReqCode.ovenService, 5, ovenServiceIn n.toNat m.toNat⟩
  | .releaseOven n => some ⟨ReqCode.releaseOven, 2, releaseOven n.toNat⟩
  | .freeze n => some ⟨ReqCode.freeze, 2, freezeOvens true n.toNat⟩
  | .unfreeze n => some ⟨ReqCode.unfreeze, 2, freezeOvens false n.toNat⟩
  | .clearCar c => some ⟨ReqCode.clearCar, 2, clearCarRequest c.toNat⟩
  | _ => none

/-- The state on which a request is carried out: the receiver hunts, the silence watch restarts, and the sense record
is cleared unless the request reads it (R141, R71, R69). -/
def requestState (code : Nat) (s : State) : State :=
  if code = ReqCode.sense then controlAccepted s else clearSense (controlAccepted s)

/-- The request codes of Table 10-1. -/
def requestCodes : List Nat :=
  [0x01, 0x02, 0x03, 0x04, 0x05, 0x06, 0x07, 0x08, 0x10, 0x11, 0x12, 0x13, 0x14, 0x15, 0x16, 0x20, 0x21, 0x22, 0x23, 0x24]

/-- A state is what an arrival leaves that was answered with a status and data, the ANSWER queued last (R174). -/
def Answered (code status : Nat) (data : List Byte) (t : State) : Prop := ∃ u, t = answer code ⟨u, status, data⟩

/-- The LOAD rows of the guarded tables (R178). -/
def guardedLoad : Instr → Bool
  | .loadDispatchTable _ _ _ => true
  | .loadSelectorParameters _ _ _ => true
  | .loadFieldLineSettings _ _ _ => true
  | .loadPollList _ _ _ => true
  | .loadOvenConfiguration _ _ _ => true
  | .loadOvenstate _ _ _ => true
  | .loadPermitTable _ _ _ => true
  | .loadSegmentTable _ _ _ => true
  | .loadCarConfiguration _ _ _ => true
  | _ => false

/-- The effects by kind of a break or an expiry of an entry (R39, R40), `detail` being that of a stop of the run: from the
state `s` that has the entry to the state `w` that has cut it, before anything else follows. -/
def CutTakesEffect (e : Permit) (detail : Nat) (s w : State) : Prop :=
  (e.kind = .push → (ovenRec s e.oven).phase = .pushing →
    ovenRec w e.oven = { ovenRec s e.oven with phase := .pushInterrupted } ∧
    (s.run.state = .running → s.run.step = .push → currentOven s = e.oven →
      w.run.state = .stopped ∧ w.sch.sense = ⟨.permitBroken, e.oven, s.run.cursor, .push, detail⟩) ∧
    ∀ c, e.car = some c → (carRec s c).state = .receiving →
      (carRec w c).state = .loaded ∧ (carRec w c).load = .hot ∧ (carRec w c).uncertain = true) ∧
  (e.kind = .charge → (ovenRec s e.oven).phase = .charging →
    ovenRec w e.oven = { ovenRec s e.oven with phase := .coking, stamp := s.now } ∧ Counted .chargeIncomplete s w) ∧
  (e.kind = .doorOff → 1 ≤ e.oven → e.oven ≤ 128 → (regRec w e.oven).mode = derivedMode w e.oven) ∧
  (∀ d, e.kind = .reseat → doorOf e = some d → (taskOf s d.side).stage = .working → (taskOf s d.side).door = some d →
    taskOf w d.side = {} ∨ (taskOf w d.side).stage = .placed) ∧
  (∀ c, e.kind = .quench → carOfEntry s e = some c → (carRec s c).state = .quenching →
    carRec w c = { carRec s c with state := .loaded, load := .hot }) ∧
  (∀ c, e.kind = .dump → carOfEntry s e = some c → (carRec s c).state = .dumping →
    carRec w c = { carRec s c with state := .quenched, load := .wet }) ∧
  (e.kind = .doorOn ∨ e.kind = .level → w.ovt.ovens = s.ovt.ovens ∧ w.sch = s.sch ∧
    w.qtc.cars = s.qtc.cars ∧ w.opr.records = s.opr.records)

/-! ## What a run does -/

/-- Both doors of the current oven are REMOVED, and the CGM stands there with its guide locked (R58). -/
def opened (s : State) : Prop :=
  bothDoorsOff s (currentOven s) = true ∧ guideLockedAt s (currentOven s) = true

/-- The run enters POSITION, from the state `s` in which it stands in WAIT with its car (R54): it orders a MOVE to each run
machine that is not in place (R56), and with none left it goes on to OPEN (R57), or to PUSH (R58). -/
def PositionEntered (s y : State) : Prop :=
  y.run.state = .running ∧ y.run.car = s.run.car ∧ y.qtc.carRequest = false ∧
  (allInPlace s = false →
    y.run.step = .position ∧ y.run.deadline = some (s.now + s.sch.timing.position) ∧
    y.run.moves.map RunMove.machine = (runMachines s).filter fun m => !inPlace s m) ∧
  (allInPlace s = true → y.run.moves = [] ∧
    (opened s → y.run.step = .push ∧ y.run.deadline = some (s.now + s.sch.timing.push)) ∧
    (¬ opened s → y.run.step = .opening ∧ y.run.deadline = some (s.now + s.sch.timing.opening)))

/-- The tests of R53 and R54 on a RUNNING run in WAIT, from `s` to `y`: nothing before the lead instant; from it on a run
without a car takes the head of the idle list, or leaves its request outstanding, and with a car it enters POSITION where the
oven's phase allows and the oven will be ready within the lead time. -/
def WaitTested (s y : State) : Prop :=
  let led := s.run.planned - s.sch.timing.lead ≤ s.now
  let enters := led ∧ workable (currentPhase s) = true ∧
    readyInstant s (currentOven s) ≤ s.now + s.sch.timing.lead
  (¬ led → y = s) ∧
  (led → s.run.car = none → s.qtc.idle = [] → y = s.onQtc fun q => { q with carRequest := true }) ∧
  (∀ c rest, led → s.run.car = none → s.qtc.idle = c :: rest →
    let given := onRun (fun r => { r with car := some c }) s
    y.qtc.idle = rest ∧ y.qtc.carRequest = false ∧
    (c = 1 ∨ c = 2 → (carRec y c).state = .assigned ∧ (carRec y c).assignedOven = currentOven s) ∧
    (enters → PositionEntered given y) ∧ (¬ enters → y.run = given.run)) ∧
  ∀ c, s.run.car = some c → (enters → PositionEntered s y) ∧ (¬ enters → y = s)

/-- The skip of the current oven, the cursor's advance apart (R52): it is counted, OVEN_SKIPPED is raised, and an assigned
car goes back to the tail of the idle list. -/
def OvenSkipped (s u : State) : Prop :=
  Touches [.run, .runLaw, .cars, .idle, .counts, .transmit] s u ∧
  u.run = { s.run with skipped := s.run.skipped + 1, residual := s.run.residual - 1, car := none } ∧
  Counted .ovenSkipped s u ∧ u.qtc.carRequest = s.qtc.carRequest ∧
  (∀ c, s.run.car = some c → (carRec s c).state = .assigned →
    carRec u c = { carRec s c with state := .idle, assignedOven := 0 } ∧
    u.qtc.idle = if s.qtc.idle.contains c then s.qtc.idle else s.qtc.idle ++ [c]) ∧
  ((∀ c, s.run.car = some c → (carRec s c).state ≠ .assigned) → u.qtc = s.qtc) ∧
  ∀ d, s.run.car ≠ some d → carRec u d = carRec s d

/-- The run completes (R61): IDLE, with RUN_DONE, the rest of its record as it is (log 55). -/
def RunCompleted (s y : State) : Prop :=
  y.run = { s.run with state := .idle, holdPending := false } ∧ y.qtc.carRequest = false ∧ Counted .runDone s y

/-- The cursor at the next position, in WAIT, with its planned instant (R51, R52). -/
def atNext (s : State) : State :=
  onRun (fun r =>
    { r with
      cursor := r.cursor + 1, step := .wait, deadline := none, pushGrant := none, moves := []
      planned := r.planned + (seriesEntry s (r.cursor + 1)).interval }) s

/-- The current oven of a RUNNING run in WAIT is taken up, from `s` to `y`, by its phase (R52): an oven OUT_OF_SERVICE, EMPTY
or CHARGING is skipped and the next one taken up, or the run completes with the last; one PUSH_INTERRUPTED stops the run with
OVEN_HELD; at any other the run stays in WAIT and makes its tests, of which an oven PUSHING passes no entry test. -/
inductive TakenUp : State → State → Prop
  | next {s u y : State} : skippedPhase (currentPhase s) = true → OvenSkipped s u → u.run.residual ≠ 0 →
      TakenUp (atNext u) y → TakenUp s y
  | last {s u y : State} : skippedPhase (currentPhase s) = true → OvenSkipped s u → u.run.residual = 0 →
      RunCompleted u y → TakenUp s y
  | held {s y : State} : currentPhase s = .pushInterrupted → y.run.state = .stopped →
      y.sch.sense = ⟨.ovenHeld, currentOven s, s.run.cursor, s.run.step, (currentPhase s).code⟩ →
      Counted .runStopped s y → TakenUp s y
  | waits {s y : State} : skippedPhase (currentPhase s) = false → currentPhase s ≠ .pushInterrupted →
      WaitTested s y → TakenUp s y

/-- What a run in POSITION or OPEN does at a change that may let it go on, from `z` to `y` (R57, R58). -/
def RunGoesOn (z y : State) : Prop :=
  let r := z.run
  let toPush := some (z.now + z.sch.timing.push)
  (r.state = .running → r.step = .position → allInPlace z = true →
    (opened z → y.run = { r with step := .push, deadline := toPush, moves := [] }) ∧
    (¬ opened z →
      y.run = { r with step := .opening, deadline := some (z.now + z.sch.timing.opening), moves := [] })) ∧
  (r.state = .running → r.step = .opening → opened z → y.run = { r with step := .push, deadline := toPush }) ∧
  (r.state = .running → r.step = .opening → ¬ opened z → y.run = r) ∧
  (r.step = .position → allInPlace z = false → y.run = r) ∧
  (r.state ≠ .running ∨ (r.step ≠ .position ∧ r.step ≠ .opening) → y.run = r)

/-- A RUNNING run completes its step CLOSE, from `z` to `y`: the accounting of R60, with RUN_BLOCK and HARD_PUSH, and what
R61 has follow it, the run's completion, its stop, its hold, or the next oven taken up. -/
def CloseCompleted (z y : State) : Prop :=
  let r := z.run
  let peak := (ovenRec z (currentOven z)).ramPeak
  let progress := if 0 < z.sch.block then r.progress + 1 else r.progress
  let full := 0 < z.sch.block ∧ z.sch.block ≤ progress
  let hard := z.sch.timing.hardStop < peak
  ∃ u,
    Touches [.run, .runLaw, .counts, .transmit] z u ∧
    u.run = { r with pushed := r.pushed + 1, residual := r.residual - 1, progress := if full then 0 else progress } ∧
    (full → Counted .runBlock z u) ∧ (z.sch.timing.hardWarn < peak → Counted .hardPush z u) ∧
    (u.run.residual = 0 → RunCompleted u y) ∧
    (u.run.residual ≠ 0 → hard →
      y.run = { u.run with state := .stopped, holdPending := false } ∧ Counted .runStopped u y ∧
      y.sch.sense = ⟨.hardPush, currentOven z, r.cursor, .close, peak⟩) ∧
    (u.run.residual ≠ 0 → ¬ hard → r.holdPending = true →
      y = onRun (fun r => { r with holdPending := false, state := .held }) (atNext u)) ∧
    (u.run.residual ≠ 0 → ¬ hard → r.holdPending = false → TakenUp (atNext u) y)

/-- What the blocks do that take the departure of the station at `p` after the interlock, from `z` to `y`: a RUNNING or HELD
run of which it is a run machine stops STATION_LOST (R64), its car becomes UNKNOWN and leaves idle list and tower queue (R94),
the ovens of an offtake station are held with their windows emptied, and its image is dirty (R126, R127), and the task of a
door machine ends (R112). -/
def StationLeaves (p : Nat) (z y : State) : Prop :=
  let e := pollEntry z p
  let stops := runEngaged z = true ∧ isRunMachine z p = true
  (stops → y.run.state = .stopped ∧ Counted .runStopped z y ∧
    y.sch.sense = ⟨.stationLost, currentOven z, z.run.cursor, z.run.step, e.address⟩) ∧
  (¬ stops → y.run = z.run ∧ y.sch.sense = z.sch.sense) ∧
  (∀ c, (c = 1 ∨ c = 2) → carAt z p = some c →
    carRec y c =
      { carRec z c with state := .unknown, assignedOven := 0, hotStart := none, drainDeadline := none } ∧
    y.qtc.holder = z.qtc.holder ∧ (ListLaw z → c ∉ y.qtc.idle ∧ c ∉ y.qtc.queue)) ∧
  (e.cls = .os →
    (∀ m, configured z m = true → servingStation z m = e.inst →
      regRec y m = { regRec z m with
        window := [], average := none, updates := 0, limitCount := 0, limitDir := none, limitReported := false
        mismatches := 0, mismatchReported := false, hold := true }) ∧
    (1 ≤ e.inst → e.inst ≤ 16 → isDirty y e.inst = true)) ∧
  ∀ side, doorSideAt z p = some side → doorMachinePos z side = some p → (station z p).state ≠ .active →
    taskOf y side = {}

/-- How many argument bytes the requests of Table 10-1 need: LOAD three and its entries, any other an exact number
(R174). -/
def argsFit (code length : Nat) : Bool :=
  if code = ReqCode.load then 3 ≤ length
  else if code = ReqCode.read then length = 3
  else if code = ReqCode.setTime ∨ code = ReqCode.ovenService then length = 4
  else if code = ReqCode.run ∨ code = ReqCode.verify then length = 2
  else if code = ReqCode.setBlock ∨ code = ReqCode.releaseOven ∨ code = ReqCode.freeze ∨ code = ReqCode.unfreeze ∨
      code = ReqCode.clearCar then length = 1
  else length = 0

/-! ## Reports, orders and requests -/

/-- What a report taken from car `c` does (R76): from the state `v`, in which the station record and the alignment entry of
the report stand already, to the state `w`, before the car so placed can answer a request of the runner. A position conflict
(R78) leaves every reservation and releases nothing; else the reserved segments are released that R83 names, and the tower
grant as R88 says; then an UNKNOWN car is placed in its cycle (R77), and any other tested for LOAD_MISMATCH (R93). -/
def CarReportTakesEffect (c pos : Nat) (moving : Bool) (status : Nat) (v w : State) : Prop :=
  let r := carRec v c
  let body := bodySegments v c (some pos)
  let recorded := { r with position := some pos, moving := moving, reportedLoad := status, occupied := body }
  let conf := body.filter fun k => !r.occupied.contains k && holds v (otherCar c) k
  let behind (k : Nat) : Prop := ∃ g m, carConfig v c = some g ∧ r.move = some m ∧
    (m.direction = some .up ∧ ((segment v k).stop : Int) ≤ (pos : Int) - (g.length / 2 : Nat) ∨
      m.direction = some .down ∧ pos + g.length / 2 ≤ (segment v k).start)
  let arrived : Prop := moving = false ∧ ∃ m, r.move = some m ∧ ((pos : Int) - m.target).natAbs ≤ 100
  let halted : Prop := moving = false ∧ r.haltRelease = true
  let inTower : Prop := ∃ k ∈ body, isTower v k = true
  let released : Prop := v.qtc.holder = some c ∧ ¬ inTower ∧ v.qtc.entered = true
  let sameTower (b : State) : Prop :=
    b.qtc.holder = v.qtc.holder ∧ b.qtc.entered = v.qtc.entered ∧ b.qtc.queue = v.qtc.queue
  let load := LoadState.ofStatus status
  let tested : Prop := r.uncertain = true ∧ load = .empty ∧
    (r.state = .loaded ∨ r.state = .quenching ∨ r.state = .draining ∨ r.state = .quenched)
  ∃ b : State,
    (∀ k rest, conf = k :: rest →
      b = placeHalt .qtc HaltReason.trackConflict (posOfClass v .car 2)
        (placeHalt .qtc HaltReason.trackConflict (posOfClass v .car 1)
          (raise .trackConflict 0 (addressOfClass v .car c) k (setCarRec c recorded v)))) ∧
    (conf = [] →
      (∃ l m, carRec b c = { recorded with reserved := l, move := m, haltRelease := r.haltRelease && moving } ∧
        (arrived ∨ halted → m = none) ∧ (¬ (arrived ∨ halted) → m = r.move) ∧ l.Sublist r.reserved ∧
        ∀ k, k ∈ l ↔ k ∈ r.reserved ∧ ¬ behind k ∧ (r.move = none ∨ arrived ∨ halted → k ∈ body) ∧
          ¬ (released ∧ isTower v k = true)) ∧
      (∀ d, d ≠ c → carRec b d = carRec v d) ∧
      (v.qtc.holder ≠ some c → sameTower b) ∧
      (v.qtc.holder = some c → ¬ inTower → v.qtc.entered = false → sameTower b) ∧
      (v.qtc.holder = some c → inTower →
        b.qtc.holder = some c ∧ b.qtc.entered = true ∧ b.qtc.queue = v.qtc.queue) ∧
      (released → v.qtc.queue = [] →
        b.qtc.holder = (if r.state = .loaded then some c else none) ∧ b.qtc.entered = false ∧ b.qtc.queue = []) ∧
      ∀ d rest, released → v.qtc.queue = d :: rest →
        b.qtc.holder = some d ∧ b.qtc.entered = occupiesTower b d ∧
          b.qtc.queue = if r.state = .loaded ∧ d ≠ c ∧ c ∉ rest then rest ++ [c] else rest) ∧
    (r.state = .unknown →
      let q := carRec b c
      let placed := { q with
        reserved := if conf = [] then q.reserved.filter fun k => body.contains k else q.reserved
        move := none, uncertain := false, assignedOven := 0, loadOven := 0, drainDeadline := none }
      (load = .empty → carRec w c = { placed with state := .idle, load := .empty } ∧
        w.qtc.idle = if b.qtc.idle.contains c then b.qtc.idle else b.qtc.idle ++ [c]) ∧
      (load = .hot → carRec w c = { placed with state := .loaded, load := .hot, hotStart := some v.now } ∧
        (w.qtc.holder = some c ∨ c ∈ w.qtc.queue)) ∧
      (load = .wet → carRec w c = { placed with state := .quenched, load := .wet }) ∧
      (∀ d, b.qtc.holder = some d → w.qtc.holder = some d)) ∧
    (r.state ≠ .unknown → tested →
      w = raise .loadMismatch r.loadOven (addressOfClass v .car c) status
        (setCarRec c { carRec b c with uncertain := false } b)) ∧
    (r.state ≠ .unknown → ¬ tested → w = b)

/-- The order slot of a position holds a telegram of the control station. -/
def OrderPlaced (t : State) (p : Nat) (u : Telegram) : Prop :=
  ∃ carried, (outbound t p).order = some ⟨u, .control, carried⟩

/-- A telegram that passes its framing, from the control station to the station at a position of the poll list. -/
def ForStation (s : State) (p : Nat) (u : Telegram) : Prop :=
  framed u = true ∧ p < 24 ∧ posOfAddress s u.dest.toNat = some p ∧ u.dest.toNat ≠ s.mgt.address ∧ u.dest.toNat ≠ 255

/-- The body of a MGMT to the part itself that a command brings by its bytes, under a row whose operand is a whole body or
telegram (log 20, log 42). -/
def mgmtBodyOf (s : State) : Instr → Option (List Byte)
  | .mgmtUnknownRequest body => some body
  | c =>
    (controlTelegram c).bind fun u =>
      if kindOf u = Kind.mgmt ∧ u.dest.toNat = s.mgt.address then some u.body else none

end Sys2Proof.Machine
end

