-- ==== Sys2Proof/Certificates/Slice0/Obligations.lean ====
section
/-!
DEFINITION. The statements about the model that the provers are given.
-/

open Sys2Proof Sys2Proof.Machine

/-! ## The machine -/

/-- A step takes the command at the front of the queue and runs it on the state with the queue's rest; on an empty queue
the block idles. The queue and the idling are the model's own (log 2). -/
def Obligations.StepRunsTheFrontCommand : Prop :=
  (∀ (c : Instr) (rest : List Instr) (s : State),
    step { s with pending := c :: rest } = exec c { s with pending := rest }) ∧
  ∀ s : State, s.pending = [] → step s = .next s

/-- No command stops the part: each one, whatever its operands, leaves a next state. -/
def Obligations.EveryCommandAnswersNext : Prop :=
  ∀ (c : Instr) (s : State), ∃ t, exec c s = .next t

/-- What a power-on reset leaves in every state: State.reset with the address that the straps give, block by block the
power-on values of the tables. That the queue of commands and the count of free values are kept is the model's choice
(log 38), and that State.reset stands for straps that read 15 (log 7). -/
def Obligations.PowerOnResetLeavesThePowerOnValues : Prop :=
  ∀ (straps : BitVec 4) (s : State), ∃ t, exec (.powerOnReset straps) s = .next t ∧
    t = ({ State.reset with pending := s.pending, drawn := s.drawn } : State).onMgt
      (fun m => { m with address := if straps = 0#4 then 1 else straps.toNat }) ∧
    t.mgt.address = (if straps = 0#4 then 1 else straps.toNat) ∧ t.mgt.mode = .standby ∧
    t.mgt.validity = ⟨true, true, true, false, false, false, false, false⟩ ∧
    (∀ i, countAt t i = 0) ∧ (∀ i, i < 24 → readAt t.mgt.enabled i false = true) ∧
    t.ovt.clock = 0 ∧ t.ovt.wallOffset = 0 ∧ (∀ n, configured t n = false) ∧
    t.ovt.timing = ⟨30, 60, 10, 20, 20, 30, 50, 0, 600⟩ ∧ (∀ n, ovenRec t n = ⟨.outOfService, 0, 0, 0, false⟩) ∧
    (∀ p, alignment t p = ⟨0, [], false⟩) ∧
    t.ilk.permits = [] ∧ t.sch.run.state = .idle ∧ t.sch.length = 0 ∧ t.sch.sense.code = .none ∧ t.sch.block = 0 ∧
    t.sch.timing = ⟨120, 300, 240, 240, 300, 600, 2500, 3200, 0⟩ ∧
    t.qtc.count = 0 ∧ t.qtc.holder = none ∧ t.qtc.queue = [] ∧ t.qtc.idle = [] ∧ t.qtc.timing = ⟨90, 60, 300⟩ ∧
    (∀ c, carRec t c = ⟨.unknown, .empty, false, 0, none, false, [], [], none, false, 0, 0, none, none⟩) ∧
    t.dsm.leaks = [] ∧ t.dsm.taskPm.stage = .none ∧ t.dsm.taskCgm.stage = .none ∧
    t.dsm.config = ⟨40, 120, 2, 15, 300, 180⟩ ∧
    (∀ d, doorRec t d = ⟨.sealed, none, 0, false, 0, 0, 0, false, false⟩) ∧
    t.opr.config = ⟨8, 4, 2, 2, 30, 80, 5, 320, 2, 4, 100, 10, 190⟩ ∧
    t.opr.modes = #v[⟨0, 0, 0, false⟩, ⟨0, 0, 0, false⟩, ⟨0, 1000, 1000, false⟩, ⟨1200, 200, 850, true⟩,
      ⟨800, 100, 600, true⟩] ∧
    (∀ n, regRec t n = ⟨.out, [], none, 0, false, 0, 0, none, false, false, none, 0, false⟩) ∧
    (∀ i, isDirty t i = false) ∧ t.cls.control = ⟨8, 7, 0⟩ ∧ t.cls.field = ⟨8, 7, 128⟩ ∧
    t.cpi.queue = [] ∧ t.cpi.sending = none ∧ t.cpi.assembling = false ∧ t.cpi.discards = 0 ∧
    t.fpi.line = .idle ∧ t.fpi.discards = 0 ∧ t.fpl.length = 0 ∧ t.fpl.settings = ⟨.r19200, 200, 20, 4, 3⟩ ∧
    t.fpl.exchange = none ∧ t.fpl.roundNumber = 0 ∧
    (∀ p, (station t p).state = .absent ∧ outbound t p = {}) ∧
    exec (.powerOnReset 15#4) State.reset = .next State.reset

/-- The laws hold right after reset. -/
def Obligations.LawsHoldAtReset : Prop :=
  StampLaw State.reset ∧ ValveLaw State.reset ∧ PermitLaw State.reset ∧ QueueLaw State.reset ∧ RunLaw State.reset ∧
    TrackLaw State.reset ∧ ListLaw State.reset ∧ CountLaw State.reset ∧ LeakLaw State.reset ∧ HolderLaw State.reset

/-! ## Laws that every step keeps -/

/-- R7: no charge stamp comes to lie after the clock, and the clock runs back at a power-on reset alone. -/
def Obligations.StampsNeverLieAfterTheClock : Prop :=
  (∀ s t : State, step s = .next t → StampLaw s → StampLaw t) ∧
    ∀ (c : Instr) (s t : State), exec c s = .next t → (∀ straps, c ≠ .powerOnReset straps) → s.now ≤ t.now

/-- R118, R120: a valve position never leaves the limits of its oven's mode. -/
def Obligations.ValvesStayWithinTheirLimits : Prop :=
  ∀ s t : State, step s = .next t → ValveLaw s → ValveLaw t

/-- R31: the permit set stays empty outside SERVICE, within 8 entries, and free of entries that exclude each other. -/
def Obligations.PermitSetStaysLawful : Prop :=
  ∀ s t : State, step s = .next t → PermitLaw s → PermitLaw t

/-- R142: the transmit queue stays within 32 items, with at most one POSITION copy of a source. -/
def Obligations.TransmitQueueStaysLawful : Prop :=
  ∀ s t : State, step s = .next t → QueueLaw s → QueueLaw t

/-- R49: pushed, skipped and residual go on making up the requested count. -/
def Obligations.RunCountsStayTrue : Prop :=
  ∀ s t : State, step s = .next t → RunLaw s → RunLaw t

/-- R79, R80: no segment comes to be reserved by both cars, nor a TOWER segment by a car without the grant. -/
def Obligations.TrackReservationsStayApart : Prop :=
  ∀ s t : State, step s = .next t → TrackLaw s → TrackLaw t

/-- R84, R87: no car comes to stand twice in the idle list or the tower queue, the grant's holder never queues, and of the
two cars the idle list goes on holding those in state IDLE. -/
def Obligations.CarListsStayLawful : Prop :=
  ∀ s t : State, step s = .next t → ListLaw s → ListLaw t

/-- R180: no summary count passes 255. -/
def Obligations.SummaryCountsStayBytes : Prop :=
  ∀ s t : State, step s = .next t → CountLaw s → CountLaw t

/-- R106: the leak list stays within 32 entries, no door twice, LEAKING doors alone and MAJOR before MINOR, and a door's
listed flag goes on saying whether it has an entry. -/
def Obligations.LeakListStaysLawful : Prop :=
  ∀ s t : State, step s = .next t → LeakLaw s → LeakLaw t

/-- R38: every active permit goes on being held by a station in state ACTIVE. -/
def Obligations.PermitHoldersStayActive : Prop :=
  ∀ s t : State, step s = .next t → HolderLaw s → HolderLaw t

/-! ## What commands leave as it was -/

/-- The frame of every command: nothing changes but the aspects of the command's footprint, and no law is broken by a
command whose footprint does not name it. That the queue of commands is in no footprint is the model's choice (log 2), and
that POWER_ON_RESET keeps it and the count of free values too (log 38). -/
def Obligations.CommandsTouchOnlyTheirFootprint : Prop :=
  ∀ (c : Instr) (s t : State), exec c s = .next t → Touches (footprint c) s t

/-- R164, R167: a HALT that waits stays in its slot through every command but a power-on reset and a taken reply to the very
poll that carries the HALT of that position. -/
def Obligations.WaitingHaltsStayUntilAPollIsAnswered : Prop :=
  ∀ (c : Instr) (s t : State) (p : Nat), exec c s = .next t → (∀ straps, c ≠ .powerOnReset straps) →
    (∀ u x, replyTelegram c = some u → Awaits s x → fromPolled s x u = true → framed u = true →
      ¬ (x.position = p ∧ x.item = .halt)) →
    haltWaits s p = true → haltWaits t p = true

/-- R175: the mode changes at ENTER SERVICE, ENTER MAINTENANCE, RESTART and a power-on reset alone. A row that carries a
whole telegram or body brings such a request where its bytes spell it, to the part itself and without arguments; that it is
taken by its bytes is the model's choice (log 20, log 42). -/
def Obligations.ModeChangesOnlyByItsCommands : Prop :=
  ∀ (c : Instr) (s t : State), exec c s = .next t → t.mgt.mode ≠ s.mgt.mode →
    c = .enterService ∨ c = .enterMaintenance ∨ c = .restart ∨ (∃ straps, c = .powerOnReset straps) ∨
      ∃ code, code ∈ [ReqCode.enterService, ReqCode.enterMaintenance, ReqCode.restart] ∧
        mgmtBodyOf s c = some [BitVec.ofNat 8 code]

/-- R35: only a REQUEST adds a permit; every other command leaves some of the entries, in their order. -/
def Obligations.OnlyRequestsGrantPermits : Prop :=
  ∀ (c : Instr) (s t : State), exec c s = .next t →
    (∀ u, replyTelegram c = some u → kindOf u ≠ Kind.request) → t.ilk.permits.Sublist s.ilk.permits

/-- R131 to R135: the bytes of a telegram, each with good parity and no gap before it, frame back to the telegram, and
leave what follows them. -/
def Obligations.TelegramBytesFrameBack : Prop :=
  ∀ (window : Nat) (t : Telegram) (rest : List LineByte), framed t = true →
    frame window [] ((tailBytes t).map (fun v => ⟨v, true, 0⟩) ++ rest) = .complete t rest

/-! ## The clock -/

/-- R4, R40: a clock advance adds one second, up to the top of the clock, and no permit is left whose deadline lay at or
before the clock value it found. That the advance itself takes what was due first (log 3), that the lateness test of the
advance is then to be made by a mark (log 5), and that both hold at the top of the clock too (log 6), are the model's
choices. -/
def Obligations.ClockAdvanceAddsASecond : Prop :=
  ∀ s : State, ∃ t, exec .clockAdvance s = .next t ∧
    t.now = (if s.now < 2147483647 then s.now + 1 else s.now) ∧ t.sch.latenessDue = true ∧
    ∀ e ∈ t.ilk.permits, s.now < e.deadline

/-- R8, R18, Table 6-2: at its ready instant an oven in COKING becomes READY, its stamp and counts kept, no other oven's
record changed by that, and its pressure mode derived afresh; the interlock then looks at what the runner may have given
back (log 24). The charge-hold end and the late instant of an oven in COKING or READY derive its pressure mode. -/
def Obligations.OvenInstantsAct : Prop :=
  (∀ (n : Nat) (s : State), configured s n = true → (ovenRec s n).phase = .coking → readyInstant s n ≤ s.now →
    ∃ w, exec (.readyInstantReached n) s = .next (ilkSettle s w) ∧
      ovenRec w n = { ovenRec s n with phase := .ready } ∧ ovenRec (ilkSettle s w) n = ovenRec w n ∧
      (∀ m, m ≠ n → ovenRec w m = ovenRec s m) ∧ (regRec w n).mode = derivedMode w n) ∧
  ∀ (n : Nat) (s : State), configured s n = true → ((ovenRec s n).phase = .coking ∨ (ovenRec s n).phase = .ready) →
    (chargeHoldEnd s n ≤ s.now → ∃ t, exec (.chargeHoldEndReached n) s = .next t ∧
      (regRec t n).mode =
        if doorOffActive s n then .isolated else if lateInstant s n ≤ s.now then .late else .coking) ∧
    (lateInstant s n ≤ s.now → ∃ t, exec (.lateInstantReached n) s = .next t ∧
      (regRec t n).mode =
        if doorOffActive s n then .isolated else if s.now < chargeHoldEnd s n then .charge else .late)

/-- R40, R41: of the entries whose deadline has been reached the first in grant order expires: it leaves the set, the
event is counted, a HALT waits for its holder, and its effects by kind are those of a break but for the run's detail, 0. A
PUSH makes an oven in PUSHING PUSH_INTERRUPTED and its car LOADED with load uncertain, and stops a run in PUSH with
PERMIT_BROKEN and detail 0; a CHARGE makes an oven in CHARGING COKING with stamp now and CHARGE_INCOMPLETE; a DOOR_OFF has
its oven's pressure mode derived; a RESEAT ends its task, after which R110 may place another; a QUENCH puts its car back
to LOADED and a DUMP to QUENCHED; a DOOR_ON and a LEVEL do no more. The interlock then looks at what the departure has
changed, one entry at a time (log 24). -/
def Obligations.HoldDeadlineExpiresTheFirstEntry : Prop :=
  ∀ (s : State) (e : Permit), (s.ilk.permits.find? fun e => e.deadline ≤ s.now) = some e →
    ∃ w t, exec .holdDeadlineReached s = .next t ∧ t = ilkSettle s w ∧
      t.ilk.permits.Sublist (s.ilk.permits.erase e) ∧ Counted .permitExpired s t ∧
      (∀ p, p < 24 → posOfAddress s e.station = some p → haltWaits t p = true) ∧
      w.ilk.permits = s.ilk.permits.erase e ∧ CutTakesEffect e 0 s w

/-- R62: at its step deadline a RUNNING run stops with STEP_TIMEOUT, its counts and its cursor kept. -/
def Obligations.StepDeadlineStopsTheRun : Prop :=
  ∀ (s : State) (d : Int), s.run.state = .running → s.run.step ≠ .wait → s.run.deadline = some d → d ≤ s.now →
    ∃ t, exec .stepDeadlineReached s = .next t ∧ t.run.state = .stopped ∧
      t.sch.sense = ⟨.stepTimeout, currentOven s, s.run.cursor, s.run.step, s.run.step.code⟩ ∧
      t.run.pushed = s.run.pushed ∧ t.run.skipped = s.run.skipped ∧ t.run.residual = s.run.residual ∧
      t.run.cursor = s.run.cursor ∧ Counted .runStopped s t

/-- R55: past the greatest lateness a RUNNING run in WAIT, POSITION or OPEN stops with NO_CAR when it waits for a car,
else with OVEN_NOT_READY when the oven has not reached its ready instant, and else goes on. The test is made once an
advance (log 5). -/
def Obligations.LatenessTestStopsTheRun : Prop :=
  ∀ s : State, s.sch.latenessDue = true → s.run.state = .running →
    (s.run.step = .wait ∨ s.run.step = .position ∨ s.run.step = .opening) →
    s.run.planned + s.sch.timing.maxLateness ≤ s.now →
    ((s.run.step = .wait ∧ s.run.car = none) → ∃ t, exec .maximumLatenessTest s = .next t ∧
      t.run.state = .stopped ∧ t.sch.sense = ⟨.noCar, currentOven s, s.run.cursor, s.run.step, 0⟩) ∧
    (¬ (s.run.step = .wait ∧ s.run.car = none) → s.now < readyInstant s (currentOven s) →
      ∃ t, exec .maximumLatenessTest s = .next t ∧
        t.run.state = .stopped ∧ t.sch.sense = ⟨.ovenNotReady, currentOven s, s.run.cursor, s.run.step, 0⟩) ∧
    (¬ (s.run.step = .wait ∧ s.run.car = none) → readyInstant s (currentOven s) ≤ s.now →
      exec .maximumLatenessTest s = .next (s.onSch fun r => { r with latenessDue := false }))

/-- R53, R54, R85: at the lead instant a run waiting without a car takes the head of the idle list, or leaves its request
standing; and a run whose conditions for POSITION hold leaves WAIT. The interlock then looks at the record of a car so taken
(R38; log 24). -/
def Obligations.LeadInstantAsksForACar : Prop :=
  ∀ s : State, s.run.state = .running → s.run.step = .wait → s.run.planned - s.sch.timing.lead ≤ s.now →
    ∃ w, exec .leadInstantReached s = .next (ilkSettle s w) ∧
      (s.run.car = none → s.qtc.idle = [] → w.qtc.carRequest = true ∧ w.run = s.run) ∧
      (∀ c rest, s.run.car = none → s.qtc.idle = c :: rest →
        w.run.car = some c ∧ w.qtc.idle = rest ∧ w.qtc.carRequest = false) ∧
      ∀ c, s.run.car = some c →
        (currentPhase s = .coking ∨ currentPhase s = .ready ∨ currentPhase s = .doorsOff) →
        readyInstant s (currentOven s) ≤ s.now + s.sch.timing.lead →
        w.run.step ≠ .wait ∧ w.run.car = some c ∧ w.qtc.carRequest = false

/-- R90: at its drain deadline a DRAINING car becomes QUENCHED and WET, and the interlock looks at the permits that read
its record; at the hot limit HOT_CAR is counted and the watch ends, the rest of the record kept. -/
def Obligations.CarDeadlinesAct : Prop :=
  (∀ (c : Nat) (s : State) (d : Int), (carRec s c).state = .draining → (carRec s c).drainDeadline = some d → d ≤ s.now →
    exec (.drainDeadlineReached c) s =
      .next (ilkSettle s
        (setCarRec c { carRec s c with state := .quenched, load := .wet, drainDeadline := none } s))) ∧
  ∀ (c : Nat) (s : State) (h : Int), (c = 1 ∨ c = 2) → (carRec s c).hotStart = some h →
    h + s.qtc.timing.hotLimit ≤ s.now →
    ∃ t, exec (.hotLimitReached c) s = .next t ∧ carRec t c = { carRec s c with hotStart := none } ∧ Counted .hotCar s t

/-- R105, R100: at the seal deadline of an UNSEALED door that is not overdue yet, it becomes overdue and SEAL_OVERDUE is
counted; the flag so set is handed to the interlock, the schedule runner and the regulator, in the order of doorHandedOn
(log 24). -/
def Obligations.SealDeadlineMakesTheDoorOverdue : Prop :=
  ∀ (d : Door) (s : State), 1 ≤ d.oven → d.oven ≤ 128 → (doorRec s d).state = .unsealed → (doorRec s d).overdue = false →
    (doorRec s d).doorOn + s.dsm.config.deadline * 60 ≤ s.now →
    ∃ w, exec (.sealDeadlineReached d.oven d.side) s = .next (doorHandedOn s d w) ∧
      doorRec w d = { doorRec s d with overdue := true } ∧ doorRec (doorHandedOn s d w) d = doorRec w d ∧
      Counted .sealOverdue s w ∧ Counted .sealOverdue s (doorHandedOn s d w)

/-- R112: at the deadline of a task record in DELIVERED or TESTING the record ends, and the machine may be given another
task at once (R110). -/
def Obligations.TaskDeadlineEndsTheTask : Prop :=
  ∀ (side : DoorSide) (s : State) (d : Int),
    ((taskOf s side).stage = .delivered ∨ (taskOf s side).stage = .testing) → (taskOf s side).deadline = some d →
    d ≤ s.now →
    exec (.taskDeadlineReached side) s = .next (dsmFree side (setTask side {} s))

/-- R71, R66: the silence watch raises CP_SILENCE once and holds a RUNNING run, at once in WAIT and POSITION and else at
the end of the oven. -/
def Obligations.SilenceHoldsTheRun : Prop :=
  ∀ s : State, 0 < s.sch.timing.silence → s.sch.silenceRaised = false →
    s.sch.silenceStart + s.sch.timing.silence ≤ s.now →
    ∃ t, exec .cpSilence s = .next t ∧ t.sch.silenceRaised = true ∧ Counted .cpSilence s t ∧
      (s.run.state = .running → s.run.step = .wait ∨ s.run.step = .position → t.run = { s.run with state := .held }) ∧
      (s.run.state = .running → s.run.step ≠ .wait → s.run.step ≠ .position →
        t.run = { s.run with holdPending := true }) ∧
      (s.run.state ≠ .running → t.run = s.run)

/-! ## The ports and the poller -/

/-- R166, R161: the round timer starts the next round where none is in progress, and else leaves its start owed; it runs
on with the period of the settings. -/
def Obligations.RoundTimerStartsARound : Prop :=
  ∀ s : State, ∃ t, exec .roundTimerExpiry s = .next t ∧ t.fpl.timerPeriod = s.fpl.settings.period ∧
    (s.fpl.round = none → t.fpl.roundNumber = (s.fpl.roundNumber + 1) % 4294967296 ∧ t.fpl.owed = false) ∧
    (s.fpl.round ≠ none → t.fpl.owed = true ∧ t.fpl.round = s.fpl.round ∧ t.fpl.roundNumber = s.fpl.roundNumber)

/-- R165, R144: on an IDLE line the poll of the station whose turn it is goes out with the item that waits for it, and
the line is SENDING. What waits is carried in the order HALT, answer, other order, valve image; a JOINING station is sent a
HALT or a bare poll, and an ABSENT or LOST one a bare poll. -/
def Obligations.PollCarriesTheItemThatWaits : Prop :=
  (∀ (s : State) (p : Nat), s.fpi.line = .idle → s.fpl.round = some p → p < s.fpl.length → takesTurn s p = true →
    ∃ t x, exec .pollFormed s = .next t ∧ t.fpi.line = .sending ∧ t.fpl.exchange = some x ∧ x.position = p ∧
      x.void = false ∧ x.item = pollItem s p ∧ x.poll = pollTelegram s p x.item ∧ t.fpl.round = some (p + 1)) ∧
  ∀ (s : State) (p : Nat),
    ((station s p).state = .active → pollItem s p =
      if haltWaits s p then .halt else if (outbound s p).answer.isSome then .answer
      else if (outbound s p).order.isSome then .order
      else if (pollEntry s p).cls = .os && isDirty s (pollEntry s p).inst && s.mgt.mode = .service then
        .valve (pollEntry s p).inst
      else .bare) ∧
    ((station s p).state = .joining → pollItem s p = if haltWaits s p then .halt else .bare) ∧
    (((station s p).state = .absent ∨ (station s p).state = .lost) → pollItem s p = .bare)

/-- R144, R131, R141: a poll that has gone is AWAITING its reply with the receiver hunting; a preamble starts assembly;
and the transmitter goes on with the head of the queue when a telegram has gone. -/
def Obligations.LineEventsMoveTheLines : Prop :=
  (∀ s : State, s.fpi.line = .sending →
    exec .pollSent s = .next (s.onFpi fun f => { f with line := .awaiting, assembling := false })) ∧
  (∀ s : State, exec (.preambleStartsAssembly .control) s = .next (s.onCpi fun c => { c with assembling := true })) ∧
  (∀ s : State, s.fpi.line = .awaiting →
    exec (.preambleStartsAssembly .field) s = .next (s.onFpi fun f => { f with assembling := true })) ∧
  (∀ s : State, s.cpi.queue = [] →
    exec .controlTransmitDone s = .next (s.onCpi fun c => { c with sending := none })) ∧
  ∀ (s : State) (i : QueueItem) (rest : List QueueItem), s.cpi.queue = i :: rest →
    exec .controlTransmitDone s = .next (s.onCpi fun c => { c with sending := some i.telegram, queue := rest })

/-- R131, R132, R146: a telegram that fails on a line is counted as discarded there, saturating; the control receiver
then hunts, or assembles again if the failing byte was a good C3h. -/
def Obligations.FailedTelegramsAreCounted : Prop :=
  (∀ s : State, s.cpi.assembling = true → exec (.gapWindowExpiry .control) s =
    .next (s.onCpi fun c => { c with discards := min 65535 (c.discards + 1), assembling := false })) ∧
  (∀ (s : State) (line : List LineByte) (why : FramingFault) (last : LineByte),
    frame 8 [] line = .discarded why last [] → exec (.framingDiscard .control line) s =
      .next (s.onCpi fun c =>
        { c with discards := min 65535 (c.discards + 1), assembling := last.value = 0xC3#8 && last.parityOk })) ∧
  (∀ s : State, s.fpi.line = .awaiting → s.fpi.assembling = true →
    ∃ t, exec (.gapWindowExpiry .field) s = .next t ∧ t.fpi.discards = min 65535 (s.fpi.discards + 1)) ∧
  ∀ (s : State) (x : Exchange) (line : List LineByte) (why : FramingFault) (last : LineByte), Awaits s x →
    frame x.gap [] line = .discarded why last [] →
    ∃ t, exec (.framingDiscard .field line) s = .next t ∧ t.fpi.discards = min 65535 (s.fpi.discards + 1)

/-- R167, R168: an exchange that ends as a miss (RESPONSE_WINDOW_EXPIRY with the receiver hunting, GAP_WINDOW_EXPIRY with
it assembling, a FRAMING_DISCARD, a FOREIGN_REPLY with another source) leaves the line IDLE; the station's misses rise by
one, and at the limit an ACTIVE station is LOST and STATION_LOST counted, its alignment entry emptied, and once the
interlock has broken what its departure breaks the other blocks take it: a RUNNING or HELD run of which it is then a run
machine stops STATION_LOST, a car becomes UNKNOWN and leaves idle list and tower queue, the ovens of an offtake station
are held with their windows emptied and its image dirty, a door machine loses its task, and the hold terms are looked at
again (log 24); a JOINING one is ABSENT; an ABSENT or LOST one stays. -/
def Obligations.MissesCountAgainstTheStation : Prop :=
  ∀ (c : Instr) (s : State) (x : Exchange), Awaits s x → endsAsMiss s x c = true →
    ∃ t, exec c s = .next t ∧ t.fpi.line = .idle ∧
      ((station s x.position).state = .active → (station s x.position).misses + 1 < s.fpl.settings.misses →
        station t x.position = { station s x.position with misses := (station s x.position).misses + 1 }) ∧
      ((station s x.position).state = .active → s.fpl.settings.misses ≤ (station s x.position).misses + 1 →
        (station t x.position).state = .lost ∧ Counted .stationLost s t ∧ alignment t x.position = {} ∧
        ∃ u y, Touches [.line, .exchange, .fieldDiscards, .outbound, .dirty] s u ∧
          let misses := (station s x.position).misses + 1
          let lost := raise .stationLost 0 (pollEntry s x.position).address (misses : Nat)
            (setStation x.position { station s x.position with state := .lost, misses := misses } u)
          let z := ilkSettle u (setAlignment x.position {} lost)
          StationLeaves x.position z y ∧ t = roundOn (ilkSettle z y)) ∧
      ((station s x.position).state = .joining → (station t x.position).state = .absent) ∧
      ((station s x.position).state = .absent ∨ (station s x.position).state = .lost →
        station t x.position = station s x.position)

/-- R167, R151: a reply with the polled station's source is taken: the exchange ends, and an ACTIVE or JOINING station's
telegram, or a READY, goes to the classifier. That the round's end (roundOn) comes after the classifier is the model's choice
(log 44). -/
def Obligations.RepliesAreTakenAndClassified : Prop :=
  ∀ (c : Instr) (u : Telegram) (s : State) (x : Exchange), replyTelegram c = some u → Awaits s x →
    fromPolled s x u = true → framed u = true →
    ∃ t, exec c s = .next t ∧ t.fpi.line = .idle ∧
      t = roundOn
        (if passedOn (afterReply s x u) x.position u then classifyField x.position u (afterReply s x u)
         else afterReply s x u)

/-- R162, R76 to R78, R83, R88, R93, R16, R17, R57, R58: a POSITION of an ACTIVE station is recorded, and that of an
ACTIVE car gives the car its position and the segments its body covers. A report that adds a segment which the other car
holds raises TRACK_CONFLICT with the lowest such segment, leaves a HALT for each car, and changes no reservation. Any
other releases the reserved segments that lie behind the body, and at the target, without a move or after a halt those it
does not cover; it sets the entered flag of a grant holder in the tower, and of one that has left it passes the grant to
the head of the queue, whose tail it joins while LOADED. An UNKNOWN car becomes IDLE, LOADED or QUENCHED by its reported
load; one with load uncertain that reports EMPTY under a load raises LOAD_MISMATCH once. A car so made IDLE answers a
request that waits, and the interlock and then, where the alignment entry or the CGM's guide has changed, the runner look
at the report: a RUNNING run in POSITION with every machine now in place passes to OPEN with its deadline and no MOVEs,
one there or in OPEN with both doors REMOVED and the guide locked to PUSH with its deadline, and any other run stays as it
was; before that look the run stands as it stood, past WAIT, with no request for a car and no PUSH permit on its oven. A
machine's alignment oven becomes the lowest configured oven whose working position, the centre, or for a car the centre
and the receive offset, lies within the tolerance of its class of the reported position, or 0 where there is none; a car's
receiving set becomes the configured ovens whose receiving spot lies within the receive span of it, and any other
machine's is empty. The model's choices: every moving flag other than 0 reads as moving (log 17; R137 names 0 and 1), an
UNKNOWN car in conflict keeps its reservations (log 28), a HALT of a conflict stands whole over one that waits (log 56),
and the order of what comes after the report (log 24, log 25, log 44). -/
def Obligations.PositionsAreRecorded : Prop :=
  ∀ (h : Header) (pos : BitVec 24) (moving status : Byte) (s : State) (x : Exchange), Awaits s x →
    h.source.toNat = (pollEntry s x.position).address → (station s x.position).state = .active →
    let cls := (pollEntry s x.position).cls
    let working (n : Nat) : Nat := if cls = .car then centreOf s n + s.ovt.timing.receiveOffset else centreOf s n
    let aligned (n : Nat) : Prop :=
      configured s n = true ∧ ((pos.toNat : Int) - working n).natAbs ≤ toleranceOf s.ovt.timing cls
    ∃ t, exec (.position h pos moving status) s = .next t ∧
      (station t x.position).lastPos = some pos.toNat ∧ (station t x.position).moving = (moving != 0#8) ∧
      (station t x.position).status = status.toNat ∧
      (cls.isMachine = true →
        (∀ n, aligned n → (∀ m, m < n → ¬ aligned m) → (alignment t x.position).oven = n) ∧
        ((∀ n, ¬ aligned n) → (alignment t x.position).oven = 0) ∧
        ∀ n, n ∈ (alignment t x.position).receiving ↔
          cls = .car ∧ configured s n = true ∧ ((pos.toNat : Int) - working n).natAbs ≤ s.ovt.timing.receiveSpan) ∧
      (∀ q, q ≠ x.position → alignment t q = alignment s q) ∧
      let u := arrived h Kind.position (toBytes 3 pos.toNat ++ [moving, status])
      let v := afterReply s x u
      let changed := alignment t x.position ≠ alignment s x.position ∨
        (x.position < s.fpl.length ∧ cls = .cgm ∧ guideLocked t x.position ≠ guideLocked s x.position)
      ∃ m z y, Touches [.stations, .align] v m ∧ m.fpl.stations = t.fpl.stations ∧ m.ovt.align = t.ovt.align ∧
        (cls ≠ .car → z = ilkSettle v m) ∧
        (∀ c, (c = 1 ∨ c = 2) → cls = .car → (pollEntry s x.position).inst = c →
          (carRec t c).position = some pos.toNat ∧ (carRec t c).occupied = bodySegments s c (some pos.toNat) ∧
          ∃ w, CarReportTakesEffect c pos.toNat (moving != 0#8) status.toNat m w ∧
            z = ilkSettle v (satisfyRequest w)) ∧
        (s.run.step ≠ .wait → s.qtc.carRequest = false →
          (∀ e ∈ s.ilk.permits, e.kind = .push → e.oven ≠ currentOven s) → z.sch = s.sch) ∧
        z.now = s.now ∧ z.fpl.stations = t.fpl.stations ∧ z.ovt.align = t.ovt.align ∧
        (changed → RunGoesOn z y) ∧ (¬ changed → y = z) ∧
        t = roundOn (coreCopy (entryFor s .field u) u y)

/-- R32, R33, R35, R163: a REQUEST of an ACTIVE station is answered by the first check that fails, or by a PERMIT, in the
station's answer slot, whatever waited there. -/
def Obligations.RequestsAreAnswered : Prop :=
  ∀ (h : Header) (kind oven side : Byte) (s : State) (x : Exchange), Awaits s x →
    h.source.toNat = (pollEntry s x.position).address → (station s x.position).state = .active →
    ∃ t, exec (.request h kind oven side) s = .next t ∧
      answerAt t x.position = some (requestAnswer (afterReply s x (arrived h Kind.request [kind, oven, side]))
        x.position kind.toNat oven.toNat side.toNat)

/-- R36, R37: a DONE of an ACTIVE station takes the permit it matches out of the set; one that matches none is counted as
LATE_DONE and takes no permit out by itself. -/
def Obligations.DonesReleaseTheirPermit : Prop :=
  ∀ (h : Header) (kind oven side result : Byte) (m : BitVec 16) (s : State) (x : Exchange), Awaits s x →
    h.source.toNat = (pollEntry s x.position).address → (station s x.position).state = .active →
    let a := asked s x.position kind.toNat oven.toNat side.toNat
    (∀ k sd e, a.kind = some k → a.side = some sd →
      activeEntry s (pollEntry s x.position).address k a.oven sd = some e →
      ∃ t, exec (.done h kind oven side result m) s = .next t ∧ t.ilk.permits.Sublist (s.ilk.permits.erase e)) ∧
    ((∀ k sd, a.kind = some k → a.side = some sd →
        activeEntry s (pollEntry s x.position).address k a.oven sd = none) →
      ∃ t, exec (.done h kind oven side result m) s = .next t ∧ Counted .lateDone s t ∧
        (s.fpl.owed = false → t.ilk.permits = s.ilk.permits))

/-- R102, R103: a SEAL of an ACTIVE door machine for a door of its side that is configured and not REMOVED is evaluated. Its
leak index is recorded. At or below the accept threshold the door is SEALED, with neither severity, overdue flag nor retry
due; above it and at or below the reject threshold it is LEAKING MINOR. Above the reject threshold an UNSEALED door with
retries left stays UNSEALED with one more retry, which is due; one without is LEAKING MAJOR with SEAL_FAIL counted, and a
SEALED or LEAKING door is LEAKING MAJOR. A door that comes to leak, or to leak in another class, has its leak instant set to
now, one that goes on leaking as it did keeps it, and a door that comes to leak loses the overdue and retry due flags. Any
other SEAL of an ACTIVE station is counted as SEAL_FAIL and changes no door. -/
def Obligations.SealsAreEvaluated : Prop :=
  ∀ (h : Header) (oven side leak : Byte) (s : State) (x : Exchange), Awaits s x →
    h.source.toNat = (pollEntry s x.position).address → (station s x.position).state = .active →
    (∀ d, sealDoor s x.position oven.toNat side.toNat = some d →
      let i := leak.toNat
      let c := s.dsm.config
      let r := doorRec s d
      ∃ t, exec (.sealReport h oven side leak) s = .next t ∧
        let r' := doorRec t d
        let leaks (v : Severity) : Prop := r'.state = .leaking ∧ r'.severity = some v ∧ r'.retries = r.retries ∧
          (r.state = .leaking → r.severity = some v → r'.leakInstant = r.leakInstant) ∧
          (r.state = .leaking → r.severity ≠ some v → r'.leakInstant = s.now) ∧
          (r.state ≠ .leaking → r'.leakInstant = s.now ∧ r'.overdue = false ∧ r'.retryDue = false)
        r'.lastIndex = i ∧ r'.doorOn = r.doorOn ∧
        (i ≤ c.accept → r'.state = .sealed ∧ r'.severity = none ∧ r'.overdue = false ∧ r'.retryDue = false ∧
          r'.retries = r.retries ∧ r'.leakInstant = r.leakInstant) ∧
        (c.accept < i → i ≤ c.reject → leaks .minor) ∧
        (c.accept < i → c.reject < i → r.state = .unsealed → r.retries < c.maxRetries →
          r'.state = .unsealed ∧ r'.retries = r.retries + 1 ∧ r'.retryDue = true ∧ r'.severity = r.severity ∧
          r'.overdue = r.overdue ∧ r'.leakInstant = r.leakInstant) ∧
        (c.accept < i → c.reject < i → r.state = .unsealed → c.maxRetries ≤ r.retries →
          leaks .major ∧ Counted .sealFail s t) ∧
        (c.accept < i → c.reject < i → r.state ≠ .unsealed → leaks .major)) ∧
    (sealDoor s x.position oven.toNat side.toNat = none →
      ∃ t, exec (.sealReport h oven side leak) s = .next t ∧ Counted .sealFail s t ∧ t.dsm.doors = s.dsm.doors)

/-- R114 to R116, R123, R124, R128: a SAMPLE of an ACTIVE offtake station is taken slot by slot, each slot whose oven is
configured for the station and the slot, whose validity bit is set and whose feedback is at most 200. A taken slot first
records the feedback with the round number, at which the interlock looks. The mismatch test then leaves an oven on hold as it
is, clears the count while the image is dirty, and else counts a feedback that lies more than 100 off the valve, with
VALVE_MISMATCH at 3, or clears count and report. The pressure last ends a hold, or is ignored in OUT and ISOLATED, or enters
the window of at most four, the average is computed afresh, and at the update interval an update is made and the counter
returns to 0. An update of an oven that regulates and is not frozen, e being its average less its target, leaves a STABLE
oven within the wide band as it is, makes a CORRECTING one within the stable band STABLE, and else makes a step, doubled above
the fast threshold, up or down and clamped to the mode's limits: it moves the valve and marks the image dirty, or, at the
bound, raises the limit counter, afresh for another direction, and at the limit PRESSURE_HIGH or PRESSURE_LOW once. That the
slots are taken before the round's end (roundOn), so that a feedback carries the number of the round of its poll, is the
model's choice (log 44), and the order in which the interlock's breaks come (log 24). -/
def Obligations.SamplesAreTakenSlotBySlot : Prop :=
  (∀ (h : Header) (first validity : Byte) (ps : Vector (BitVec 16) 8) (fs : Vector Byte 8) (s : State) (x : Exchange),
    Awaits s x → h.source.toNat = (pollEntry s x.position).address → (station s x.position).state = .active →
    (pollEntry s x.position).cls = .os →
    let u := arrived h Kind.sample
      ([first, validity] ++ ps.toList.flatMap (fun p => toBytes 2 p.toNat) ++ fs.toList)
    let inst := (pollEntry s x.position).inst
    exec (.sample h first validity ps fs) s =
      .next (roundOn (coreCopy (entryFor s .field u) u
        ((slotsOf u.body).foldl
          (fun v q =>
            if slotTaken v inst q.k (first.toNat + q.k) q.valid q.feedback then
              sampleSlot (first.toNat + q.k) q.feedback q.pressure v
            else v) (afterReply s x u))))) ∧
  (∀ (s : State) (inst k m : Nat) (valid : Bool) (fb : Nat), slotTaken s inst k m valid fb = true ↔
    ∃ c, ovenConfig s m = some c ∧ c.station = inst ∧ c.slot = k ∧ valid = true ∧ fb ≤ 200) ∧
  (∀ (m fb : Nat) (p : Int) (s : State),
    let b := ilkSettle s (setRegRec m { regRec s m with feedback := some ⟨fb, s.fpl.roundNumber⟩ } s)
    let r := regRec b m
    let image := isDirty b (servingStation b m)
    let off : Prop := 100 < ((fb * 5 : Int) - r.valve).natAbs
    let count := min 3 (r.mismatches + 1)
    let t := sampleSlot m fb p s
    ∃ w,
      (r.hold = true → w = b) ∧
      (r.hold = false → image = true → w = setRegRec m { r with mismatches := 0 } b) ∧
      (r.hold = false → image = false → ¬ off →
        w = setRegRec m { r with mismatches := 0, mismatchReported := false } b) ∧
      (r.hold = false → image = false → off → count = 3 → r.mismatchReported = false →
        w = raise .valveMismatch m (servingAddress b m) r.valve
          (setRegRec m { r with mismatches := 3, mismatchReported := true } b)) ∧
      (r.hold = false → image = false → off → count ≠ 3 ∨ r.mismatchReported = true →
        w = setRegRec m { r with mismatches := count } b) ∧
      let q := regRec w m
      let window := (p :: q.window).take 4
      let v := setRegRec m { q with
        window := window, average := averageOf w.opr.config window q.average, updates := q.updates + 1 } w
      (q.hold = true → t = setRegRec m { q with hold := false } w) ∧
      (q.hold = false → q.mode = .out ∨ q.mode = .isolated → t = w) ∧
      (q.hold = false → q.mode ≠ .out → q.mode ≠ .isolated →
        (q.updates + 1 < w.opr.config.interval → t = v) ∧
        (w.opr.config.interval ≤ q.updates + 1 →
          t = setRegRec m { regRec (oprUpdate m v) m with updates := 0 } (oprUpdate m v)))) ∧
  ∀ (m : Nat) (avg : Int) (s : State), (regRec s m).average = some avg →
    let r := regRec s m
    let mode := modeEntry s r.mode
    let c := s.opr.config
    let harder (d : DoorSide) : Prop := (doorRec s ⟨m, d⟩).state = .leaking ∨ (doorRec s ⟨m, d⟩).overdue = true
    let target : Int :=
      if harder .ps ∨ harder .cs then max (-32768) (mode.target - c.leakOffset) else mode.target
    let e := avg - target
    let still : Prop := mode.regulate = false ∨ (ovenRec s m).freeze = true
    let size := if e.natAbs ≤ c.fast then c.step else 2 * c.step
    let valve := min (max (if 0 < e then r.valve + size else r.valve - size) mode.vmin) mode.vmax
    let dir : LimitDir := if 0 < e then .high else .low
    let same : Prop := r.limitDir = some dir
    let said : Prop := same ∧ r.limitReported = true
    let count := min c.limit ((if same then r.limitCount else 0) + 1)
    (still → oprUpdate m s = s) ∧
    (¬ still → r.correcting = false → e.natAbs ≤ c.wide → oprUpdate m s = s) ∧
    (¬ still → r.correcting = true → e.natAbs ≤ c.stable →
      oprUpdate m s = setRegRec m
        { r with correcting := false, limitCount := 0, limitDir := none, limitReported := false } s) ∧
    (¬ still → (r.correcting = false → c.wide < e.natAbs) → (r.correcting = true → c.stable < e.natAbs) →
      (valve ≠ r.valve → oprUpdate m s = markDirty (servingStation s m) (setRegRec m
        { r with
          correcting := true, valve := valve, limitCount := 0, limitDir := none, limitReported := false } s)) ∧
      (valve = r.valve → said ∨ count < c.limit → oprUpdate m s = setRegRec m
        { r with
          correcting := true, limitCount := count, limitDir := some dir
          limitReported := if same then r.limitReported else false } s) ∧
      (valve = r.valve → ¬ said → c.limit ≤ count → oprUpdate m s =
        raise (if 0 < e then .pressureHigh else .pressureLow) m (servingAddress s m) avg (setRegRec m
          { r with correcting := true, limitCount := count, limitDir := some dir, limitReported := true } s)))

/-- R170: a READY with self-check OK and the station's own class makes an ABSENT or LOST station JOINING; any other READY
counts STATION_FAULT, and leaves an ABSENT station ABSENT and a LOST one LOST. A JOINING station stays JOINING with its
progress at 0, or becomes ABSENT with STATION_FAULT. An ACTIVE station is LOST with STATION_LOST, detail 0, its alignment
entry emptied; once the interlock has broken what that breaks, its run stops, its car, ovens or task are left as at any
loss (StationLeaves: R64, R94, R112, R126, R127), and the hold terms are looked at again (log 24); no permit of its
address stays, and then it is JOINING, or stays LOST with STATION_FAULT. The place of the round's end (roundOn) is the
model's choice (log 44). -/
def Obligations.ReadyStationsJoin : Prop :=
  ∀ (h : Header) (selfCheck claimed : Byte) (s : State) (x : Exchange), Awaits s x →
    h.source.toNat = (pollEntry s x.position).address →
    let p := x.position
    let u := arrived h Kind.ready [selfCheck, claimed]
    let good := selfCheck = 0#8 ∧ claimed.toNat = (pollEntry s p).cls.code
    ∃ t, exec (.ready h selfCheck claimed) s = .next t ∧
      ((station s p).state = .absent ∨ (station s p).state = .lost →
        (good → (station t p).state = .joining ∧ (station t p).joinProgress = 0 ∧ (station t p).joinRef = none) ∧
        (¬ good → (station t p).state = (station s p).state ∧ Counted .stationFault s t)) ∧
      ((station s p).state = .joining →
        (good → (station t p).state = .joining ∧ (station t p).joinProgress = 0 ∧ (station t p).joinRef = none) ∧
        (¬ good → (station t p).state = .absent ∧ Counted .stationFault s t)) ∧
      ((station s p).state = .active →
        (let v := afterReply s x u
         let lost := raise .stationLost 0 (pollEntry s p).address 0
           (setStation p { station v p with state := .lost, misses := 0 } v)
         let z := ilkSettle v (setAlignment p {} lost)
         ∃ y, StationLeaves p z y ∧ t = roundOn (coreCopy (entryFor s .field u) u
           (readyWaiting p selfCheck.toNat claimed.toNat (ilkSettle z y)))) ∧
        Counted .stationLost s t ∧ alignment t p = {} ∧
        (∀ e ∈ t.ilk.permits, posOfAddress s e.station ≠ some p) ∧
        (good → (station t p).state = .joining ∧ (station t p).joinProgress = 0 ∧ (station t p).joinRef = none) ∧
        (¬ good → (station t p).state = .lost ∧ Counted .stationFault s t))

/-- R171: the second plausible POSITION of a JOINING machine, within 500 mm of the first, makes the station ACTIVE and
counts STATION_JOINED. -/
def Obligations.JoiningMachinesBecomeActive : Prop :=
  ∀ (h : Header) (pos : BitVec 24) (moving status : Byte) (s : State) (x : Exchange) (ref : Nat), Awaits s x →
    h.source.toNat = (pollEntry s x.position).address → (station s x.position).state = .joining →
    (pollEntry s x.position).cls.isMachine = true → (station s x.position).joinProgress ≠ 0 →
    (station s x.position).joinRef = some ref → ((pos.toNat : Int) - ref).natAbs ≤ 500 →
    plausible s x.position (arrived h Kind.position (toBytes 3 pos.toNat ++ [moving, status])) = true →
    ∃ t, exec (.position h pos moving status) s = .next t ∧ (station t x.position).state = .active ∧
      Counted .stationJoined s t

/-- R152, R153: a telegram of an ACTIVE station of a kind outside the six report kinds goes as its dispatch entry says: PASS
copies it, DEPOSIT_PASS copies it with its deposit, ABSORB with no handler and DROP end it, ABSORB with a handler counts
DISPATCH_MISMATCH with the source as station, and CHECK copies it, ends it or counts DISPATCH_MISMATCH by the handler's
verdict. That the round's end (roundOn) comes after the copy is the model's choice (log 44). -/
def Obligations.OtherFieldKindsFollowTheirEntry : Prop :=
  ∀ (u : Telegram) (s : State) (x : Exchange), Awaits s x → fromPolled s x u = true → framed u = true →
    (station s x.position).state = .active → ¬ (Kind.position ≤ kindOf u ∧ kindOf u ≤ Kind.ready) →
    let v := afterReply s x u
    let e := entryFor s .field u
    let mismatched :=
      raise .dispatchMismatch 0 u.source.toNat ((entryIndex s .field u * 256 + kindOf u : Nat) : Int) v
    (e.action = .pass → exec (.fieldOtherKind u) s = .next (roundOn (queueCopy u v))) ∧
    (e.action = .depositPass →
      exec (.fieldOtherKind u) s = .next (roundOn (queueCopy (deposited v e u.source.toNat u) v))) ∧
    (e.action = .absorb → e.handler = .none → exec (.fieldOtherKind u) s = .next (roundOn v)) ∧
    (e.action = .absorb → e.handler ≠ .none → exec (.fieldOtherKind u) s = .next (roundOn mismatched)) ∧
    (e.action = .check → verdict v .field e.handler x.position (kindOf u) = .passes →
      exec (.fieldOtherKind u) s = .next (roundOn (queueCopy u v))) ∧
    (∀ why, e.action = .check → verdict v .field e.handler x.position (kindOf u) = .refused why →
      exec (.fieldOtherKind u) s = .next (roundOn v)) ∧
    (e.action = .check → verdict v .field e.handler x.position (kindOf u) = .mismatch →
      exec (.fieldOtherKind u) s = .next (roundOn mismatched)) ∧
    (e.action = .drop → exec (.fieldOtherKind u) s = .next (roundOn v))

/-! ## The interlock -/

/-- R34: the exclusion check of a request fails exactly in the cases of the rule, and passes for the car kinds. -/
def Obligations.ExclusionCheckFollowsItsCases : Prop :=
  ∀ (s : State) (k : PermitKind) (n : Nat),
    (isCarKind k = true → excluded s k n = false) ∧
    (isCarKind k = false → (excluded s k n = true ↔
      (∃ e ∈ s.ilk.permits, e.kind = .push ∧ e.oven = n) ∨
      (k ≠ .level ∧ ∃ e ∈ s.ilk.permits, e.kind = .charge ∧ e.oven = n) ∨
      ((k = .push ∨ k = .charge) ∧ ∃ e ∈ s.ilk.permits, e.oven = n)))

/-- R35: a REQUEST answered by a new PERMIT adds its entry at the tail of the set, and acts by kind. PUSH makes the oven
PUSHING (R10) and the entry's car, EMPTY still, RECEIVING with the oven as assigned oven and load oven, out of the idle list
(R86); a RUNNING run, whose current oven it then is (R24), records the grant instant and its lateness (R51). CHARGE makes the
oven CHARGING (R11). DOOR_OFF makes its pressure mode ISOLATED (R119). QUENCH makes a car in LOADED, DRAINING or QUENCHED
QUENCHING with neither drain deadline nor hot watch (R89), DUMP one in QUENCHED DUMPING (R92); a car in another state keeps
its record. RESEAT moves a task of its door in PLACED or DELIVERED on to WORKING with no deadline, and leaves any other task
as it is (R112). DOOR_ON and LEVEL do no more. The interlock then looks at what the grant has changed (R38). That it looks
until no entry fails (log 24), and that the copy and then the round's end (roundOn) come after it (log 44), are the model's
choices. -/
def Obligations.GrantsTakeTheirEffect : Prop :=
  ∀ (h : Header) (kind oven side : Byte) (s : State) (x : Exchange) (k : PermitKind) (sd : Side), Awaits s x →
    h.source.toNat = (pollEntry s x.position).address → (station s x.position).state = .active →
    let u := arrived h Kind.request [kind, oven, side]
    let v := afterReply s x u
    let n := (asked v x.position kind.toNat oven.toNat side.toNat).oven
    let e := grantEntry v x.position k n sd
    (asked v x.position kind.toNat oven.toNat side.toNat).kind = some k →
    (asked v x.position kind.toNat oven.toNat side.toNat).side = some sd →
    activeEntry v (pollEntry v x.position).address k n sd = none →
    requestAnswer v x.position kind.toNat oven.toNat side.toNat = .permit k.code n sd.code (holdLimit v k) →
    ∃ w, exec (.request h kind oven side) s = .next (roundOn (coreCopy (entryFor s .field u) u (ilkSettle v w))) ∧
      w.ilk.permits = s.ilk.permits ++ [e] ∧
      (k = .push → ovenRec w n = { ovenRec s n with phase := .pushing } ∧
        (∃ c, e.car = some c ∧ (carRec s c).load = .empty ∧ w.qtc.idle = s.qtc.idle.erase c ∧
          carRec w c = { carRec v c with state := .receiving, assignedOven := n, loadOven := n }) ∧
        (s.run.state = .running → currentOven s = n ∧
          w.run = { s.run with pushGrant := some s.now, lateness := s.now - s.run.planned })) ∧
      (k = .charge → ovenRec w n = { ovenRec s n with phase := .charging }) ∧
      (k = .doorOff → (regRec w n).mode = .isolated) ∧
      (∀ c, carAt s x.position = some c →
        (k = .quench → carRec w c =
          if (carRec s c).state = .loaded ∨ (carRec s c).state = .draining ∨ (carRec s c).state = .quenched then
            { carRec v c with state := .quenching, drainDeadline := none, hotStart := none }
          else carRec v c) ∧
        (k = .dump → carRec w c =
          if (carRec s c).state = .quenched then { carRec v c with state := .dumping } else carRec v c)) ∧
      (∀ sideOf, k = .reseat → sd.door = some sideOf → taskOf w sideOf =
        if ((taskOf v sideOf).stage = .placed ∨ (taskOf v sideOf).stage = .delivered) ∧
            (taskOf v sideOf).door = some ⟨n, sideOf⟩ then
          { taskOf v sideOf with stage := .working, deadline := none }
        else taskOf v sideOf) ∧
      (k = .doorOn ∨ k = .level →
        w = placeAnswer x.position (.permit k.code n sd.code (holdLimit v k))
          (v.onIlk fun i => { i with permits := i.permits ++ [e] }))

/-- R9, R10, R11, R36, R58 to R61, R86, R89, R92, R98, R99: what the DONE of an active permit of each kind does. PUSH
takes an oven in PUSHING to EMPTY with result OK and to PUSH_INTERRUPTED with any other, records the ram peak, counts a
push above the warn limit, and keeps the stamp; it makes its RECEIVING car LOADED and HOT, uncertain where it failed, with
assigned oven 0, the hot watch from now, and the tower grant or a place in its queue (where ListLaw holds, which
CarListsStayLawful says every step keeps); and it takes a run in PUSH on the oven to CLOSE with no car, or stops it with
PERMIT_BROKEN and detail 255. CHARGE makes an oven in CHARGING COKING with stamp now, with CHARGE_INCOMPLETE where it
failed. DOOR_OFF makes the door REMOVED, and an oven in COKING or READY DOORS_OFF; DOOR_ON makes the door UNSEALED from
now, and with neither door off any more an oven in DOORS_OFF COKING or READY; failed, they change no door. Where PermitLaw
holds, a run in OPEN on the oven goes on to PUSH with its deadline at the DOOR_OFF after which both doors are REMOVED, the
guide locked there, and else stays; a run in CLOSE completes it at the DOOR_ON after which neither is REMOVED: its counts,
RUN_BLOCK and HARD_PUSH (R60), and then RUN_DONE, the stop, the pending hold, or the next oven taken up (R61), between the
breaks that the door calls for and those that a car taken or given back calls for (log 24). PermitSetStaysLawful says
every step keeps PermitLaw. RESEAT moves its task on to TESTING, or ends it. QUENCH leaves the car DRAINING, or QUENCHED
at once with drain time 0, or LOADED where it failed. DUMP leaves it EMPTY and IDLE at the tail of the idle list, or
handed to a request that waits, or QUENCHED where it failed. LEVEL changes nothing but the set. That a ram peak above 4000
stands as carried (log 48), what the record of a completed or stopped run keeps (log 55), and the order settling, freedom
test, copy, round's end (log 24, log 44), are the model's choices. -/
def Obligations.DonesTakeTheirEffect : Prop :=
  ∀ (h : Header) (kind oven side result : Byte) (m : BitVec 16) (s : State) (x : Exchange) (k : PermitKind) (sd : Side)
    (e : Permit), Awaits s x → h.source.toNat = (pollEntry s x.position).address → (station s x.position).state = .active →
    let u := arrived h Kind.done ([kind, oven, side, result] ++ toBytes 2 m.toNat)
    let v := afterReply s x u
    let a := asked s x.position kind.toNat oven.toNat side.toNat
    let n := a.oven
    let ok := result = 0#8
    a.kind = some k → a.side = some sd → activeEntry s (pollEntry s x.position).address k n sd = some e →
    ∃ w t, exec (.done h kind oven side result m) s = .next t ∧
      t = roundOn (coreCopy (entryFor s .field u) u (departFree e (ilkSettle v w))) ∧
      w.ilk.permits.Sublist (s.ilk.permits.erase e) ∧
      (k = .push → (ovenRec s n).phase = .pushing → ovenRec t n = { ovenRec s n with
        phase := if ok then .empty else .pushInterrupted
        ramPeak := m.toNat
        hardPushes := if s.sch.timing.hardWarn < m.toNat then min 255 ((ovenRec s n).hardPushes + 1)
          else (ovenRec s n).hardPushes }) ∧
      (k = .push → ∀ c, e.car = some c → (carRec s c).state = .receiving → ListLaw s →
        (carRec w c).state = .loaded ∧ (carRec w c).load = .hot ∧ ((carRec w c).uncertain = true ↔ ¬ ok) ∧
        (carRec w c).assignedOven = 0 ∧ (carRec w c).loadOven = (carRec s c).loadOven ∧
        (carRec w c).hotStart = some s.now ∧ (w.qtc.holder = some c ∨ c ∈ w.qtc.queue)) ∧
      (k = .push → s.run.state = .running → s.run.step = .push → currentOven s = n →
        (ok → w.run =
          { s.run with step := .close, deadline := some (s.now + s.sch.timing.close), car := none }) ∧
        (¬ ok → w.run.state = .stopped ∧ w.sch.sense = ⟨.permitBroken, n, s.run.cursor, .push, 255⟩)) ∧
      (k = .charge → (ovenRec s n).phase = .charging →
        ovenRec t n = { ovenRec s n with phase := .coking, stamp := s.now } ∧ (¬ ok → Counted .chargeIncomplete s t)) ∧
      (∀ sideOf, sd.door = some sideOf → 1 ≤ n → n ≤ 128 →
        (k = .doorOff → ok →
          (doorRec t ⟨n, sideOf⟩).state = .removed ∧ (doorRec t ⟨n, sideOf⟩).severity = none ∧
          (doorRec t ⟨n, sideOf⟩).retries = 0 ∧ (doorRec t ⟨n, sideOf⟩).retryDue = false ∧
          (doorRec t ⟨n, sideOf⟩).overdue = false ∧
          ((ovenRec s n).phase = .coking ∨ (ovenRec s n).phase = .ready → (ovenRec t n).phase = .doorsOff)) ∧
        (k = .doorOn → ok →
          (doorRec t ⟨n, sideOf⟩).state = .unsealed ∧ (doorRec t ⟨n, sideOf⟩).severity = none ∧
          (doorRec t ⟨n, sideOf⟩).retries = 0 ∧ (doorRec t ⟨n, sideOf⟩).retryDue = false ∧
          (doorRec t ⟨n, sideOf⟩).overdue = false ∧ (doorRec t ⟨n, sideOf⟩).doorOn = s.now ∧
          ((ovenRec s n).phase = .doorsOff → (ovenRec t n).phase =
            if bothDoorsOn t n then (if readyInstant s n ≤ s.now then .ready else .coking) else .doorsOff)) ∧
        (k = .doorOff → ok → PermitLaw s → s.run.state = .running → s.run.step = .opening → currentOven s = n →
          let opens := (∀ o, o ≠ sideOf → (doorRec s ⟨n, o⟩).state = .removed) ∧ guideLockedAt s n = true
          (opens → w.run = { s.run with step := .push, deadline := some (s.now + s.sch.timing.push) }) ∧
          (¬ opens → w.run = s.run)) ∧
        (k = .doorOn → ok → PermitLaw s → s.run.state = .running → s.run.step = .close → currentOven s = n →
          let closes := ∀ o, o ≠ sideOf → (doorRec s ⟨n, o⟩).state ≠ .removed
          (closes → ∃ d z x y, z = ilkSettle v d ∧ (∀ g, g ≠ n → ovenRec d g = ovenRec s g) ∧ z.sch = s.sch ∧
            z.now = s.now ∧ (ovenRec z n).ramPeak = (ovenRec s n).ramPeak ∧
            CloseCompleted z x ∧ Touches [.outbound, .tasks] x y ∧ w.sch = (ilkSettle z y).sch ∧
            (x.qtc.cars = z.qtc.cars → w.sch = x.sch)) ∧
          (¬ closes → w.sch = s.sch)) ∧
        (k = .doorOff → ¬ ok → (regRec w n).mode = derivedMode w n) ∧
        ((k = .doorOff ∨ k = .doorOn) → ¬ ok → t.dsm.doors = s.dsm.doors) ∧
        (k = .reseat → (taskOf v sideOf).stage = .working → (taskOf v sideOf).door = some ⟨n, sideOf⟩ →
          taskOf w sideOf =
            if ok then
              { taskOf v sideOf with stage := .testing, deadline := some (s.now + s.dsm.config.taskLimit) }
            else {})) ∧
      (∀ c, carOfEntry s e = some c →
        (k = .quench → (carRec s c).state = .quenching →
          carRec w c =
            if ok then
              if s.qtc.timing.drain = 0 then
                { carRec v c with state := .quenched, load := .wet, drainDeadline := none }
              else { carRec v c with state := .draining, drainDeadline := some (s.now + s.qtc.timing.drain) }
            else { carRec v c with state := .loaded, load := .hot }) ∧
        (k = .dump → (carRec s c).state = .dumping →
          (ok → (carRec w c).load = .empty ∧ (carRec w c).uncertain = false ∧ (carRec w c).loadOven = 0 ∧
            (s.qtc.carRequest = false → (carRec w c).state = .idle ∧
              w.qtc.idle = if s.qtc.idle.contains c then s.qtc.idle else s.qtc.idle ++ [c]) ∧
            (s.qtc.carRequest = true → s.qtc.idle = [] → (carRec w c).state = .assigned ∧ w.run.car = some c)) ∧
          (¬ ok → carRec w c = { carRec v c with state := .quenched, load := .wet }))) ∧
      (k = .level → w = dropEntryOf e v)

/-- R38, R39, R41, R42: what the interlock does after each change. It breaks the first entry, in grant order, of which an
input has changed and an effective hold term fails, on the lowest such term, no entry before it in the set having both,
and goes on until there is none; where there is none from the start it changes nothing. A break takes the entry out of the
set, counts PERMIT_BROKEN and leaves a HALT for its holder. It makes an oven in PUSHING PUSH_INTERRUPTED, its car LOADED
with load uncertain, and stops a run in PUSH with PERMIT_BROKEN; an oven in CHARGING COKING with stamp now and
CHARGE_INCOMPLETE; it derives the pressure mode of a DOOR_OFF, ends the task of a RESEAT, after which R110 may place
another, puts the car of a QUENCH back to LOADED and of a DUMP to QUENCHED, and does no more for a DOOR_ON and a LEVEL.
When a miss takes an ACTIVE station to LOST, no permit of its address stays. That the breaks of one event go on one by one
until none fails is the model's choice (log 24), and so is what counts as a change where the permit table adds term 7 to a
kind other than PUSH (log 59). -/
def Obligations.BreaksTakeTheirEffect : Prop :=
  (∀ b s : State, firstBroken b s = none → ilkSettle b s = s) ∧
  (∀ b s : State,
    (∀ e ∈ s.ilk.permits, inputChanged b s e = true → ∀ t ∈ effectiveTerms s e.kind, isHoldTerm t = true →
      termHolds s (inputOf s e) t = true) → firstBroken b s = none) ∧
  (∀ (b s : State) (e : Permit) (t : Nat), firstBroken b s = some (e, t) →
    (∃ earlier later, s.ilk.permits = earlier ++ e :: later ∧
      ∀ d ∈ earlier, inputChanged b s d = true → failedHold s d = none) ∧
    inputChanged b s e = true ∧ failedHold s e = some t ∧ t ∈ effectiveTerms s e.kind ∧ isHoldTerm t = true ∧
    termHolds s (inputOf s e) t = false ∧
    (∀ u ∈ effectiveTerms s e.kind, u < t → isHoldTerm u = true → termHolds s (inputOf s e) u = true) ∧
    ilkSettle b s = ilkSettle b (breakPermit e t s)) ∧
  (∀ b s : State, ∀ e ∈ (ilkSettle b s).ilk.permits,
    inputChanged b (ilkSettle b s) e = true → failedHold (ilkSettle b s) e = none) ∧
  (∀ (e : Permit) (t : Nat) (s : State),
    let w := breakPermit e t s
    w.ilk.permits = s.ilk.permits.erase e ∧ Counted .permitBroken s w ∧
    (∀ p, p < 24 → posOfAddress s e.station = some p → haltWaits w p = true) ∧
    CutTakesEffect e t s w) ∧
  ∀ (c : Instr) (s : State) (x : Exchange), Awaits s x → endsAsMiss s x c = true →
    (station s x.position).state = .active → s.fpl.settings.misses ≤ (station s x.position).misses + 1 →
    ∃ t, exec c s = .next t ∧ ∀ e ∈ t.ilk.permits, posOfAddress s e.station ≠ some x.position

/-! ## The regulator -/

/-- R117: with weight above 0 the average is the weighted mean rounded to the nearest whole, halves upward; with weight 0
it keeps its value; it is absent once the window is emptied and after a power-on reset; and an update made while it is
absent changes nothing. -/
def Obligations.AverageIsTheRoundedMean : Prop :=
  (∀ (c : RegConfig) (window : List Int) (old : Option Int), 0 < weightOf c window →
    ∃ a : Int, averageOf c window old = some a ∧
      2 * (weightOf c window : Int) * a ≤ 2 * weightedSum c window + weightOf c window ∧
      2 * weightedSum c window + weightOf c window < 2 * (weightOf c window : Int) * (a + 1)) ∧
  (∀ (c : RegConfig) (window : List Int) (old : Option Int), weightOf c window = 0 → averageOf c window old = old) ∧
  (∀ r : RegRecord, (clearWindow r).window = [] ∧ (clearWindow r).average = none) ∧
  (∀ n, (regRec State.reset n).average = none) ∧
  ∀ (n : Nat) (s : State), (regRec s n).average = none → oprUpdate n s = s

/-! ## The control port -/

/-- R44, R45, R156, R164: a HALT of the control station is placed in the station's order slot whatever waits there, and
touches neither permits nor run; that over a waiting HALT the whole new telegram stands there, its kind byte with it, is
the model's choice (log 56; R164 names source and reason). A MOVE to an OS or AUX station is refused WRONG_CLASS, to a run
machine of a run RUN_OWNED, and to the holder of a permit of a set with term 3 PERMIT_HELD; one that passes, to a machine
that is no car, is refused HALT_PENDING over a HALT that waits, and else placed, at creep speed outside SERVICE. A TASK is
refused WRONG_CLASS unless it is a RESEAT to the PM with PS or the CGM with CS, UNKNOWN_OVEN for an oven that is not
configured, RUN_OWNED to a run machine of a run, and HALT_PENDING over a HALT that waits, and is else placed. -/
def Obligations.ControlOrdersArePlaced : Prop :=
  (∀ (h : Header) (reason : Byte) (s : State) (p : Nat), ForStation s p (arrived h Kind.halt [reason]) →
    ∃ t, exec (.controlHalt h reason) s = .next t ∧ OrderPlaced t p (arrived h Kind.halt [reason]) ∧
      t.ilk.permits = s.ilk.permits ∧ t.run = s.run) ∧
  (∀ (h : Header) (target : BitVec 24) (speed oven : Byte) (s : State) (p : Nat),
    ForStation s p (arrived h Kind.move (toBytes 3 target.toNat ++ [speed, oven])) →
    let refused (why : Nat) : Prop := exec (.controlMove h target speed oven) s =
      .next (refuseControl Kind.move oven.toNat why (controlAccepted s))
    let machine : Prop := (pollEntry s p).cls ≠ .os ∧ (pollEntry s p).cls ≠ .aux
    let owned := runEngaged s && isRunMachine s p
    let held := holdsTerm3 s (pollEntry s p).address
    (¬ machine → refused Reason.wrongClass) ∧
    (machine → owned = true → refused Reason.runOwned) ∧
    (machine → owned = false → held = true → refused Reason.permitHeld) ∧
    (machine → owned = false → held = false → carAt s p = none → haltWaits s p = true → refused Reason.haltPending) ∧
    (machine → owned = false → held = false → carAt s p = none → haltWaits s p = false →
      ∃ t, exec (.controlMove h target speed oven) s = .next t ∧
        OrderPlaced t p
          (arrived h Kind.move (toBytes 3 target.toNat ++ [if s.mgt.mode = .service then speed else 0#8, oven])))) ∧
  ∀ (h : Header) (task oven side : Byte) (s : State) (p : Nat),
    ForStation s p (arrived h Kind.task [task, oven, side]) →
    let refused (why : Nat) : Prop := exec (.controlTask h task oven side) s =
      .next (refuseControl Kind.task oven.toNat why (controlAccepted s))
    let cls := (pollEntry s p).cls
    let fits : Prop := task = 1#8 ∧ (cls = .pm ∧ side = 1#8 ∨ cls = .cgm ∧ side = 2#8)
    (¬ fits → refused Reason.wrongClass) ∧
    (fits → configured s oven.toNat = false → refused Reason.unknownOven) ∧
    (fits → configured s oven.toNat = true → runEngaged s = true → refused Reason.runOwned) ∧
    (fits → configured s oven.toNat = true → runEngaged s = false → haltWaits s p = true →
      refused Reason.haltPending) ∧
    (fits → configured s oven.toNat = true → runEngaged s = false → haltWaits s p = false →
      ∃ t, exec (.controlTask h task oven side) s = .next t ∧
        OrderPlaced t p (arrived h Kind.task [task, oven, side]))

/-- R45, R79 to R82: a MOVE to a car that no run owns and no permit with term 3 holds is refused CAR_UNKNOWN where the car has
no configuration or no position, BAD_RANGE where the body at the target would leave the track, and DRAINING where a DRAINING
car would leave the tower. One that passes, at creep speed outside SERVICE and with no HALT waiting, is placed and reserves
its route where no segment conflicts; where one does it is clamped, at creep speed and with the route reserved up to the
clamped target, or refused TRACK_BLOCKED. One that could be placed is refused HALT_PENDING over a HALT that waits, the car's
record as it was. -/
def Obligations.CarMovesReserveTheirRoute : Prop :=
  ∀ (h : Header) (target : BitVec 24) (speed oven : Byte) (s : State) (p c : Nat),
    ForStation s p (arrived h Kind.move (toBytes 3 target.toNat ++ [speed, oven])) →
    carAt s p = some c → (c = 1 ∨ c = 2) → (runEngaged s && isRunMachine s p) = false →
    holdsTerm3 s (pollEntry s p).address = false →
    let refused (why : Nat) : Prop := exec (.controlMove h target speed oven) s =
      .next (refuseControl Kind.move oven.toNat why (controlAccepted s))
    (carConfig s c = none ∨ (carRec s c).position = none → refused Reason.carUnknown) ∧
    ∀ (k : CarConfig) (q : Nat), carConfig s c = some k → (carRec s c).position = some q →
      let half := k.length / 2
      let outside : Prop :=
        s.qtc.count = 0 ∨ (target.toNat : Int) - half < trackStart s ∨ trackEnd s < target.toNat + half
      let towered : Prop :=
        ∃ j ∈ segmentsIn s ((target.toNat : Int) - half) ((target.toNat : Int) + half), isTower s j = true
      let passes : Prop := ¬ outside ∧ ((carRec s c).state = .draining → towered)
      let conf := conflicts s c (routeSegments s half q target.toNat)
      let sp : Byte := if s.mgt.mode = .service then speed else 0#8
      (outside → refused Reason.badRange) ∧
      (¬ outside → (carRec s c).state = .draining → ¬ towered → refused Reason.draining) ∧
      (passes → conf = [] →
        (haltWaits s p = true → refused Reason.haltPending) ∧
        (haltWaits s p = false → ∃ t, exec (.controlMove h target speed oven) s = .next t ∧
          OrderPlaced t p (arrived h Kind.move (toBytes 3 target.toNat ++ [sp, oven])) ∧
          carRec t c = { carRec s c with
            reserved := routeSegments s half q target.toNat
            move := some ⟨target.toNat, directionTo q target.toNat, sp.toNat⟩ })) ∧
      (passes → conf ≠ [] → ∀ z, clampedTarget s k q (directionTo q target.toNat) conf = some z →
        (haltWaits s p = true → refused Reason.haltPending) ∧
        (haltWaits s p = false → z < 16777216 → ∃ t, exec (.controlMove h target speed oven) s = .next t ∧
          OrderPlaced t p (arrived h Kind.move (toBytes 3 z ++ [0#8, oven])) ∧
          carRec t c = { carRec s c with
            reserved := routeSegments s half q z, move := some ⟨z, directionTo q z, 0⟩ })) ∧
      (passes → conf ≠ [] → clampedTarget s k q (directionTo q target.toNat) conf = none →
        refused Reason.trackBlocked)

/-- R158: a HALT to broadcast is placed in the order slot of every station in the poll list, addressed to that station,
and touches no permit. That over a waiting HALT the whole new telegram stands there, its kind byte with it, is the model's
choice (log 56; R158 and R164 name source and reason). -/
def Obligations.BroadcastHaltReachesEveryStation : Prop :=
  ∀ (source : Byte) (marked : Bool) (reason : Byte) (s : State), s.mgt.address ≠ 255 →
    ∃ t, exec (.broadcastHalt source marked reason) s = .next t ∧ t.ilk.permits = s.ilk.permits ∧
      ∀ p, p < 24 → p < s.fpl.length →
        OrderPlaced t p
          { arrived ⟨255#8, source, marked⟩ Kind.halt [reason] with
            dest := BitVec.ofNat 8 (pollEntry s p).address }

/-- R153, R155, R157: a broadcast of a kind other than HALT and a telegram to an address that no station of the poll list
has are refused; a telegram to the part itself that is no MGMT counts DISPATCH_MISMATCH. A telegram of another kind to a
station goes as its dispatch entry says: DROP and ABSORB with no handler end it, ABSORB with a handler counts
DISPATCH_MISMATCH with the destination as station, and PASS, DEPOSIT_PASS and CHECK offer it for placement: refused RUN_OWNED
for a run machine of a run, then under CHECK refused or counted DISPATCH_MISMATCH by the handler's verdict, then refused
HALT_PENDING over a HALT that waits, and else placed, under DEPOSIT_PASS with its deposit. -/
def Obligations.OtherControlTelegramsAreSorted : Prop :=
  (∀ (u : Telegram) (s : State), framed u = true → u.dest.toNat = 255 → s.mgt.address ≠ 255 → kindOf u ≠ Kind.halt →
    exec (.broadcastOtherKind u) s =
      .next (refuseControl (kindOf u) (namedOven u) Reason.broadcastKind (controlAccepted s))) ∧
  (∀ (u : Telegram) (s : State), framed u = true → u.dest.toNat ≠ 255 → u.dest.toNat ≠ s.mgt.address →
    posOfAddress s u.dest.toNat = none →
    exec (.unknownStationTelegram u) s =
      .next (refuseControl (kindOf u) (namedOven u) Reason.unknownStation (controlAccepted s))) ∧
  (∀ (u : Telegram) (s : State), framed u = true → u.dest.toNat = s.mgt.address → kindOf u ≠ Kind.mgmt →
    exec (.ownAddressNonMgmt u) s = .next (raise .dispatchMismatch 0 0 (kindOf u) (controlAccepted s))) ∧
  ∀ (u : Telegram) (s : State) (p : Nat), ForStation s p u → kindOf u ≠ Kind.move → kindOf u ≠ Kind.halt →
    kindOf u ≠ Kind.task →
    let e := entryFor s .control u
    let owned := runEngaged s && isRunMachine s p
    let judged := verdict s .control e.handler p (kindOf u)
    let refused (why : Nat) := refuseControl (kindOf u) 0 why (controlAccepted s)
    let mismatched := raise .dispatchMismatch 0 u.dest.toNat ((entryIndex s .control u * 256 + kindOf u : Nat) : Int)
      (controlAccepted s)
    (e.action = .drop → exec (.controlOtherKind u) s = .next (controlAccepted s)) ∧
    (e.action = .absorb → e.handler = .none → exec (.controlOtherKind u) s = .next (controlAccepted s)) ∧
    (e.action = .absorb → e.handler ≠ .none → exec (.controlOtherKind u) s = .next mismatched) ∧
    (e.action = .pass ∨ e.action = .depositPass ∨ e.action = .check → owned = true →
      exec (.controlOtherKind u) s = .next (refused Reason.runOwned)) ∧
    (∀ why, e.action = .check → owned = false → judged = .refused why →
      exec (.controlOtherKind u) s = .next (refused why)) ∧
    (e.action = .check → owned = false → judged = .mismatch → exec (.controlOtherKind u) s = .next mismatched) ∧
    (e.action = .pass ∨ e.action = .depositPass ∨ e.action = .check ∧ judged = .passes → owned = false →
      haltWaits s p = true → exec (.controlOtherKind u) s = .next (refused Reason.haltPending)) ∧
    (e.action = .pass ∨ e.action = .check ∧ judged = .passes → owned = false → haltWaits s p = false →
      ∃ t, exec (.controlOtherKind u) s = .next t ∧ OrderPlaced t p u) ∧
    (e.action = .depositPass → owned = false → haltWaits s p = false →
      ∃ t, exec (.controlOtherKind u) s = .next t ∧ OrderPlaced t p (deposited s e u.dest.toNat u))

/-! ## Management requests -/

/-- R174, R69, R141 to R143: a management request is carried out whole on the state its arrival leaves, and answered with
one ANSWER, queued last; a request code outside Table 10-1 is answered UNKNOWN_REQUEST and changes nothing but the sense
record, which it clears as every request does (the model's choice, log 19). A known code whose arguments have another
length than Table 10-1 gives, in a body that MGMT_UNKNOWN_REQUEST spells (log 20), is answered BAD_RANGE and changes no
more than that, SENSE not even the sense record. The ANSWER is appended behind every item that waits, of which a
transmitter that is not sending takes the head. An ANSWER that meets a full queue takes the place of the oldest copy, else
of the oldest EVENT, and is else not queued. -/
def Obligations.EveryRequestGetsOneAnswer : Prop :=
  (∀ (c : Instr) (r : Request) (s : State), requestOf c = some r → r.size ≤ 48 →
    exec c s = .next (answer r.code (r.rule (requestState r.code s)))) ∧
  (∀ (code : Byte) (args : List Byte) (s : State), code.toNat ∉ requestCodes → args.length ≤ 47 →
    exec (.mgmtUnknownRequest (code :: args)) s =
      .next (answer code.toNat ⟨clearSense (controlAccepted s), Status.unknownRequest, []⟩)) ∧
  (∀ (code : Byte) (args : List Byte) (s : State), code.toNat ∈ requestCodes →
    argsFit code.toNat args.length = false → args.length ≤ 47 →
    exec (.mgmtUnknownRequest (code :: args)) s =
      .next (answer code.toNat ⟨requestState code.toNat s, Status.badRange, []⟩)) ∧
  ∀ (code : Nat) (r : Reply),
    let q := r.state.cpi.queue
    let a : QueueItem :=
      ⟨.answer, toControl r.state Kind.answer (answerTelegramBody code r.status (stamp r.state) r.data)⟩
    let after := (answer code r).cpi
    (q.length < 32 →
      (r.state.cpi.sending ≠ none → after.queue = q ++ [a] ∧ after.sending = r.state.cpi.sending) ∧
      (r.state.cpi.sending = none → ∀ head rest, q ++ [a] = head :: rest →
        after.queue = rest ∧ after.sending = some head.telegram)) ∧
    (32 ≤ q.length → r.state.cpi.sending ≠ none → after.sending = r.state.cpi.sending ∧
      (q.any isCopy = true → after.queue = q.eraseP isCopy ++ [a]) ∧
      (q.any isCopy = false → q.any isEvent = true → after.queue = q.eraseP isEvent ++ [a]) ∧
      (q.any isCopy = false → q.any isEvent = false → after.queue = q))

/-- R12, R13: RELEASE OVEN makes an oven in PUSH_INTERRUPTED EMPTY, and OVEN SERVICE out makes an oven OUT_OF_SERVICE; both keep
its stamp, hard-push count and ram peak and release no permit themselves, after which the interlock looks at what the runner
may have given back (R38; log 24). RELEASE OVEN is answered WRONG_PHASE in any other phase, and OVEN SERVICE out OVEN_BUSY in
PUSHING and CHARGING and OK in OUT_OF_SERVICE; for an unconfigured oven both are answered UNKNOWN_OVEN; and nothing changes
beyond what every request does (R69, R174). -/
def Obligations.ReleaseAndServiceOut : Prop :=
  ∀ (n : Byte) (elapsed : BitVec 16) (s : State),
    let v := clearSense (controlAccepted s)
    (configured s n.toNat = true → (ovenRec s n.toNat).phase = .pushInterrupted →
      ∃ w, exec (.releaseOven n) s = .next (answer ReqCode.releaseOven ⟨ilkSettle v w, Status.ok, []⟩) ∧
        ovenRec w n.toNat = { ovenRec s n.toNat with phase := .empty } ∧ w.ilk.permits = s.ilk.permits ∧
        ovenRec (ilkSettle v w) n.toNat = ovenRec w n.toNat) ∧
    (configured s n.toNat = true → (ovenRec s n.toNat).phase ≠ .pushInterrupted →
      exec (.releaseOven n) s = .next (answer ReqCode.releaseOven ⟨v, Status.wrongPhase, []⟩)) ∧
    (configured s n.toNat = true →
      ((ovenRec s n.toNat).phase = .pushing ∨ (ovenRec s n.toNat).phase = .charging →
        exec (.ovenServiceOut n elapsed) s = .next (answer ReqCode.ovenService ⟨v, Status.ovenBusy, []⟩)) ∧
      ((ovenRec s n.toNat).phase = .outOfService →
        exec (.ovenServiceOut n elapsed) s = .next (answer ReqCode.ovenService ⟨v, Status.ok, []⟩)) ∧
      ((ovenRec s n.toNat).phase ≠ .pushing → (ovenRec s n.toNat).phase ≠ .charging →
        ∃ w, exec (.ovenServiceOut n elapsed) s = .next (answer ReqCode.ovenService ⟨ilkSettle v w, Status.ok, []⟩) ∧
          ovenRec w n.toNat = { ovenRec s n.toNat with phase := .outOfService } ∧ w.ilk.permits = s.ilk.permits ∧
          ovenRec (ilkSettle v w) n.toNat = ovenRec w n.toNat)) ∧
    (configured s n.toNat = false →
      exec (.releaseOven n) s = .next (answer ReqCode.releaseOven ⟨v, Status.unknownOven, []⟩) ∧
      exec (.ovenServiceOut n elapsed) s = .next (answer ReqCode.ovenService ⟨v, Status.unknownOven, []⟩))

/-- R5, R14, R48, R95, R125: what SET TIME, SET BLOCK, OVEN SERVICE in, FREEZE, UNFREEZE and CLEAR CAR leave where they are
accepted, and SET BLOCK above 16. CLEAR CAR of the grant's holder passes the tower grant on to the head of the queue; the
interlock then looks at the changed record (R38; log 24). -/
def Obligations.TimeBlockOvenAndCarCommandsAct : Prop :=
  (∀ (w : BitVec 32) (s : State), ∃ t, exec (.setTime w) s = .next t ∧ Answered ReqCode.setTime Status.ok [] t ∧
    t.ovt.wallOffset = wrap32 (w.toInt - s.now) ∧ t.now = s.now) ∧
  (∀ (b : Byte) (s : State),
    (b.toNat ≤ 16 → ∃ t, exec (.setBlock b) s = .next t ∧ Answered ReqCode.setBlock Status.ok [] t ∧
      t.sch.block = b.toNat ∧ t.run = s.run) ∧
    (16 < b.toNat → ∃ t, exec (.setBlock b) s = .next t ∧ Answered ReqCode.setBlock Status.unsupported [] t ∧
      t.sch.block = 0 ∧ t.run = s.run)) ∧
  (∀ (n : Byte) (elapsed : BitVec 16) (s : State), configured s n.toNat = true →
    (ovenRec s n.toNat).phase = .outOfService →
    ∃ t, exec (.ovenServiceIn n elapsed) s = .next t ∧ Answered ReqCode.ovenService Status.ok [] t ∧
      ovenRec t n.toNat = { ovenRec s n.toNat with
        phase := returnedPhase s n.toNat (s.now - elapsed.toNat * 60)
        stamp := s.now - elapsed.toNat * 60, hardPushes := 0, ramPeak := 0 }) ∧
  (∀ (n : Byte) (s : State), (configured s n.toNat = true ∨ n = 0#8) →
    (∃ t, exec (.freeze n) s = .next t ∧ Answered ReqCode.freeze Status.ok [] t ∧
      ∀ m, configured s m = true → n = 0#8 ∨ m = n.toNat → ovenRec t m = { ovenRec s m with freeze := true }) ∧
    ∃ t, exec (.unfreeze n) s = .next t ∧ Answered ReqCode.unfreeze Status.ok [] t ∧
      ∀ m, configured s m = true → n = 0#8 ∨ m = n.toNat → ovenRec t m = { ovenRec s m with freeze := false }) ∧
  ∀ (c : Byte) (s : State), (c = 1#8 ∨ c = 2#8) → activeAt s (posOfClass s .car c.toNat) = false →
    ∃ w t, exec (.clearCar c) s = .next t ∧
      t = answer ReqCode.clearCar ⟨ilkSettle (clearSense (controlAccepted s)) w, Status.ok, []⟩ ∧
      (carRec t c.toNat).position = none ∧ (carRec t c.toNat).occupied = [] ∧
      carRec w c.toNat = { carRec s c.toNat with
        position := none, occupied := [], reserved := [], move := none, haltRelease := false } ∧
      (s.qtc.holder ≠ some c.toNat → w.qtc.holder = s.qtc.holder ∧ w.qtc.queue = s.qtc.queue) ∧
      (s.qtc.holder = some c.toNat → (∀ d rest, s.qtc.queue = d :: rest → w.qtc.holder = some d) ∧
        ((carRec s c.toNat).state ≠ .loaded → w.qtc.holder = s.qtc.queue.head? ∧ w.qtc.queue = s.qtc.queue.tail))

/-- R69, R70, R179, R181: SENSE is answered with the sense record, which it clears; STATUS with the mode, the validity
flags and the counts, which it clears; READ with the records of the range and VERIFY with its finding, and neither
changes the blocks' records; VERIFY of a stretch outside the series is answered BAD_RANGE. -/
def Obligations.ReadingRequestsAnswerWithData : Prop :=
  (∀ s : State, exec .sense s =
    .next (answer ReqCode.sense ⟨clearSense (controlAccepted s), Status.ok, senseBytes s.sch.sense⟩)) ∧
  (∀ s : State, ∃ t, exec .status s = .next t ∧ Answered ReqCode.status Status.ok (statusBytes s) t ∧
    (∀ i, countAt t i = 0) ∧ t.cpi.discards = 0 ∧ t.fpi.discards = 0) ∧
  (∀ (table first count : Byte) (s : State) (data : List Byte),
    readTable (clearSense (controlAccepted s)) table.toNat first.toNat count.toNat = some data →
    exec (.read table first count) s =
      .next (answer ReqCode.read ⟨clearSense (controlAccepted s), Status.ok, data⟩)) ∧
  (∀ (table first count : Byte) (s : State),
    readTable (clearSense (controlAccepted s)) table.toNat first.toNat count.toNat = none →
    exec (.read table first count) s =
      .next (answer ReqCode.read ⟨clearSense (controlAccepted s), Status.badRange, []⟩)) ∧
  (∀ (start count : Byte) (s : State), badStretch s start.toNat count.toNat = true →
    exec (.verify start count) s =
      .next (answer ReqCode.verify ⟨clearSense (controlAccepted s), Status.badRange, []⟩)) ∧
  ∀ (start count : Byte) (s : State), badStretch s start.toNat count.toNat = false →
    let f := verifyWalk s start.toNat s.now 0 (stretch s start.toNat count.toNat)
    exec (.verify start count) s =
      .next (answer ReqCode.verify
        ⟨clearSense (controlAccepted s), Status.ok,
          [f.position, f.oven, f.reason, f.verified, f.residual].flatMap codeByte⟩)

/-- R69, R172, R175 to R177, R182, R183: ENTER SERVICE reaches SERVICE where no check of Table 10-4 fails, and is else
answered CHECK_FAILED and changes nothing of its own; taken in SERVICE it is answered OK and changes nothing but the sense
record, which R69 clears at every request but SENSE; ENTER MAINTENANCE leaves SERVICE with no run and no permit, and is
else refused; RESTART leaves STANDBY, no permit, no run and no answer waiting; FIELD RESTART leaves every station ABSENT,
the line IDLE, the mode as it was and every waiting HALT waiting, and, where HolderLaw holds, as PermitHoldersStayActive
says every step keeps, no permit. -/
def Obligations.ModesAndRestarts : Prop :=
  (∀ s : State, s.mgt.mode ≠ .service → failedCheck s = none →
    ∃ t, exec .enterService s = .next t ∧ Answered ReqCode.enterService Status.ok [] t ∧ t.mgt.mode = .service) ∧
  (∀ s : State, s.mgt.mode = .service →
    exec .enterService s = .next (answer ReqCode.enterService ⟨clearSense (controlAccepted s), Status.ok, []⟩)) ∧
  (∀ (s : State) (number table index : Nat), s.mgt.mode ≠ .service →
    failedCheck s = some (number, table, index) →
    exec .enterService s =
      .next (answer ReqCode.enterService
        ⟨clearSense (controlAccepted s), Status.checkFailed, [number, table, index].flatMap codeByte⟩)) ∧
  (∀ s : State, (s.mgt.mode = .service → runEngaged s = false ∧ s.ilk.permits = []) →
    ∃ t, exec .enterMaintenance s = .next t ∧ Answered ReqCode.enterMaintenance Status.ok [] t ∧
      t.mgt.mode = .maintenance) ∧
  (∀ s : State, s.mgt.mode = .service → (runEngaged s = true ∨ s.ilk.permits ≠ []) →
    exec .enterMaintenance s =
      .next (answer ReqCode.enterMaintenance
        ⟨clearSense (controlAccepted s), if runEngaged s then Status.runActive else Status.permitsActive, []⟩)) ∧
  (∀ s : State, ∃ t, exec .restart s = .next t ∧ Answered ReqCode.restart Status.ok [] t ∧
    t.mgt.mode = .standby ∧ t.ilk.permits = [] ∧ t.run = {} ∧ t.sch.sense = {} ∧ t.qtc.holder = none ∧
    t.qtc.idle = [] ∧ t.dsm.taskPm = {} ∧ t.dsm.taskCgm = {} ∧ (∀ p, answerAt t p = none) ∧
    ∀ p, p < 24 → p < s.fpl.length → (pollEntry s p).cls.isMachine = true → haltWaits t p = true) ∧
  ∀ s : State, ∃ t, exec .fieldRestart s = .next t ∧ Answered ReqCode.fieldRestart Status.ok [] t ∧
    t.fpi.line = .idle ∧ t.fpl.exchange = none ∧ (∀ p, answerAt t p = none) ∧
    (∀ p, (station t p).state = .absent) ∧ (HolderLaw s → t.ilk.permits = []) ∧
    (∀ p, haltWaits s p = true → haltWaits t p = true) ∧ t.mgt.mode = s.mgt.mode

/-- R50 to R54, R66 to R68: an accepted RUN begins its run at the start position and takes its oven up: skipped where
OUT_OF_SERVICE, EMPTY or CHARGING, and the next one with it, or the run completed; stopped with OVEN_HELD where
PUSH_INTERRUPTED; and else in WAIT, where PUSHING passes no entry test; it is else answered NOT_IN_SERVICE, RUN_ACTIVE or
BAD_RANGE; HOLD holds a run, at once in WAIT and POSITION and else at the end of the oven; RESUME lets a HELD run go on
and withdraws a hold that is pending, and is answered NOT_HELD for a RUNNING run with none; ABORT stops a run with
ABORTED. A run resumed in WAIT takes its oven up again: it asks for a car from the lead instant on, passes to POSITION,
skips or stops as the oven's phase says, and stops past the greatest lateness; one resumed in POSITION forms its MOVEs
anew with a new deadline, passes on where every machine is in place, and stops past the greatest lateness. The interlock
then looks at the record of a car so taken or given back (R38; log 24). That the ABORT and a completion leave the step
deadline, the push grant and the moves set as they stood is the model's choice (log 55). -/
def Obligations.RunCommandsMoveTheRun : Prop :=
  (∀ (start count : Byte) (s : State), s.mgt.mode = .service → runEngaged s = false →
    badStretch s start.toNat count.toNat = false →
    workable (ovenRec s (seriesEntry s start.toNat).oven).phase = true →
    ∃ w, exec (.run start count) s =
        .next (answer ReqCode.run ⟨ilkSettle (clearSense (controlAccepted s)) w, Status.ok, []⟩) ∧
      w.run.state = .running ∧
      w.run.start = start.toNat ∧ w.run.requested = stretch s start.toNat count.toNat ∧ w.run.cursor = start.toNat ∧
      w.run.pushed = 0 ∧ w.run.skipped = 0 ∧ w.run.residual = w.run.requested) ∧
  (∀ (start count : Byte) (s : State), s.mgt.mode = .service → runEngaged s = false →
    badStretch s start.toNat count.toNat = false →
    let length := stretch s start.toNat count.toNat
    ∃ v y w, Touches [.receiver, .watch, .sense, .run, .stretch, .runLaw, .outbound, .tasks] s v ∧ v.sch.sense = {} ∧
      v.run =
        { state := .running, start := start.toNat, requested := length, residual := length, cursor := start.toNat
          planned := s.now } ∧
      TakenUp v y ∧ Touches [.outbound, .tasks] y w ∧
      exec (.run start count) s =
        .next (answer ReqCode.run ⟨ilkSettle (clearSense (controlAccepted s)) w, Status.ok, []⟩)) ∧
  (∀ (start count : Byte) (s : State),
    let refused (why : Nat) : State := answer ReqCode.run ⟨clearSense (controlAccepted s), why, []⟩
    (s.mgt.mode ≠ .service → exec (.run start count) s = .next (refused Status.notInService)) ∧
    (s.mgt.mode = .service → runEngaged s = true → exec (.run start count) s = .next (refused Status.runActive)) ∧
    (s.mgt.mode = .service → runEngaged s = false → badStretch s start.toNat count.toNat = true →
      exec (.run start count) s = .next (refused Status.badRange))) ∧
  (∀ s : State, runEngaged s = true → ∃ t, exec .hold s = .next t ∧ Answered ReqCode.hold Status.ok [] t ∧
    (s.run.state = .held → t.run = s.run) ∧
    (s.run.state = .running → s.run.step = .wait ∨ s.run.step = .position → t.run = { s.run with state := .held }) ∧
    (s.run.state = .running → s.run.step ≠ .wait → s.run.step ≠ .position →
      t.run = { s.run with holdPending := true })) ∧
  (∀ s : State, s.run.state = .running →
    (s.run.holdPending = true → ∃ t, exec .resume s = .next t ∧
      Answered ReqCode.resume Status.ok [] t ∧ t.run = { s.run with holdPending := false }) ∧
    (s.run.holdPending = false →
      exec .resume s = .next (answer ReqCode.resume ⟨clearSense (controlAccepted s), Status.notHeld, []⟩))) ∧
  (∀ s : State, s.run.state = .held → s.run.step = .wait → workable (currentPhase s) = true →
    s.now < s.run.planned - s.sch.timing.lead → s.now < s.run.planned + s.sch.timing.maxLateness →
    ∃ t, exec .resume s = .next t ∧ Answered ReqCode.resume Status.ok [] t ∧
      t.run = { s.run with state := .running }) ∧
  (∀ s : State, s.run.state = .held → ∃ w,
    let late := s.run.planned + s.sch.timing.maxLateness ≤ s.now
    let ready := readyInstant s (currentOven s)
    let stays := skippedPhase (currentPhase s) = false ∧ currentPhase s ≠ .pushInterrupted
    exec .resume s =
      .next (answer ReqCode.resume ⟨ilkSettle (clearSense (controlAccepted s)) w, Status.ok, []⟩) ∧
    (s.run.step = .wait →
      (skippedPhase (currentPhase s) = true → s.run.skipped < w.run.skipped) ∧
      (currentPhase s = .pushInterrupted → w.run.state = .stopped ∧
        w.sch.sense = ⟨.ovenHeld, currentOven s, s.run.cursor, .wait, (currentPhase s).code⟩) ∧
      (stays → s.run.planned - s.sch.timing.lead ≤ s.now → s.run.car = none → s.qtc.idle = [] →
        (¬ late → w.run = { s.run with state := .running } ∧ w.qtc.carRequest = true) ∧
        (late → w.run.state = .stopped ∧ w.sch.sense = ⟨.noCar, currentOven s, s.run.cursor, .wait, 0⟩)) ∧
      (∀ c rest, stays → s.run.planned - s.sch.timing.lead ≤ s.now → ¬ late → s.run.car = none →
        s.qtc.idle = c :: rest → w.run.state = .running ∧ w.run.car = some c ∧ w.qtc.idle = rest) ∧
      ∀ c, s.run.car = some c →
        (workable (currentPhase s) = true → s.run.planned - s.sch.timing.lead ≤ s.now →
          ready ≤ s.now + s.sch.timing.lead → ¬ late ∨ ready ≤ s.now →
          w.run.state = .running ∧ w.run.step ≠ .wait ∧ w.run.car = some c) ∧
        (workable (currentPhase s) = true → late → s.now < ready → ready ≤ s.now + s.sch.timing.lead →
          w.run.state = .stopped ∧ w.sch.sense.code = .ovenNotReady ∨ w.run.step = .push) ∧
        (stays → late → s.now + s.sch.timing.lead < ready →
          w.run.state = .stopped ∧ w.sch.sense = ⟨.ovenNotReady, currentOven s, s.run.cursor, .wait, 0⟩)) ∧
    (s.run.step = .position →
      (allInPlace s = false → ¬ late ∨ ready ≤ s.now →
        w.run.state = .running ∧ w.run.step = .position ∧ w.run.car = s.run.car ∧
        w.run.deadline = some (s.now + s.sch.timing.position) ∧
        w.run.moves.map RunMove.machine = (runMachines s).filter fun m => !inPlace s m) ∧
      (allInPlace s = true → ¬ late ∨ ready ≤ s.now →
        w.run.state = .running ∧
        w.run.step = if bothDoorsOff s (currentOven s) && guideLockedAt s (currentOven s) then .push else .opening) ∧
      (allInPlace s = false → late → s.now < ready →
        w.run.state = .stopped ∧ w.sch.sense = ⟨.ovenNotReady, currentOven s, s.run.cursor, .position, 0⟩))) ∧
  (∀ s : State, runEngaged s = true → ∃ t, exec .abort s = .next t ∧ Answered ReqCode.abort Status.ok [] t ∧
    t.run = { s.run with state := .stopped, holdPending := false } ∧ Counted .runStopped s t ∧
    t.sch.sense = ⟨.aborted, currentOven s, s.run.cursor, s.run.step, 0⟩) ∧
  ∀ s : State, runEngaged s = false →
    exec .hold s = .next (answer ReqCode.hold ⟨clearSense (controlAccepted s), Status.noRun, []⟩) ∧
    exec .resume s = .next (answer ReqCode.resume ⟨clearSense (controlAccepted s), Status.noRun, []⟩) ∧
    exec .abort s = .next (answer ReqCode.abort ⟨clearSense (controlAccepted s), Status.noRun, []⟩)

/-! ## Loads -/

/-- R178 and the rules of the guarded tables: in SERVICE every load of a guarded table is answered GUARDED and changes
nothing of its own; outside SERVICE a load whose range and entries are accepted writes its entries. A count of 0 shortens the
segment table to the positions before the first (R73) and changes nothing of the poll list (R160). A configuration entry also
acts on the oven's record: it starts it, takes it out of service or back, and finds its ready instant afresh (R2). -/
def Obligations.GuardedLoadsWriteTheirTables : Prop :=
  (∀ (c : Instr) (r : Request) (s : State), guardedLoad c = true → requestOf c = some r → r.size ≤ 48 →
    s.mgt.mode = .service →
    exec c s = .next (answer ReqCode.load ⟨clearSense (controlAccepted s), Status.guarded, []⟩)) ∧
  ∀ (f n : Byte) (es : List Byte) (s : State), es.length ≤ 44 → s.mgt.mode ≠ .service →
    (∀ l, es.length = n.toNat * 8 → f.toNat + n.toNat ≤ 256 →
      parseAll parseDispatch (rows 8 n.toNat es) = some l → ∃ t, exec (.loadDispatchTable f n es) s = .next t ∧
        Answered ReqCode.load Status.ok [] t ∧ t.cls.dispatch = writeFrom s.cls.dispatch f.toNat l) ∧
    (∀ l, es.length = n.toNat * 3 → f.toNat ≤ 1 → f.toNat + n.toNat ≤ 2 →
      parseAll parseSelector (rows 3 n.toNat es) = some l → ∃ t, exec (.loadSelectorParameters f n es) s = .next t ∧
        Answered ReqCode.load Status.ok [] t ∧ t.cls = writePorts f.toNat l s.cls) ∧
    (∀ l, es.length = 6 → f = 1#8 → n = 1#8 → parseLine es = some l →
      ∃ t, exec (.loadFieldLineSettings f n es) s = .next t ∧ Answered ReqCode.load Status.ok [] t ∧
        t.fpl.settings = l) ∧
    (∀ l, es.length = n.toNat * 3 → f ≠ 0#8 → f.toNat ≤ s.fpl.length + 1 → f.toNat + n.toNat ≤ 25 → n ≠ 0#8 →
      parseAll parsePoll (rows 3 n.toNat es) = some l →
      distinctStations ((writeFrom s.fpl.list (f.toNat - 1) l).toList.take
        (max s.fpl.length (f.toNat + n.toNat - 1))) = true →
      ∃ t, exec (.loadPollList f n es) s = .next t ∧ Answered ReqCode.load Status.ok [] t ∧
        t.fpl.list = writeFrom s.fpl.list (f.toNat - 1) l ∧
        t.fpl.length = max s.fpl.length (f.toNat + n.toNat - 1) ∧ t.mgt.validity.pollList = true) ∧
    (es = [] → f ≠ 0#8 → f.toNat ≤ s.fpl.length + 1 → f.toNat ≤ 25 → n = 0#8 →
      distinctStations (s.fpl.list.toList.take s.fpl.length) = true →
      ∃ t, exec (.loadPollList f n es) s = .next t ∧ Answered ReqCode.load Status.ok [] t ∧
        t.fpl.list = s.fpl.list ∧ t.fpl.length = s.fpl.length ∧ t.fpl.stations = s.fpl.stations) ∧
    (∀ l, es.length = n.toNat * 8 → f ≠ 0#8 → f.toNat + n.toNat ≤ 129 →
      parseAll parseOven (rows 8 n.toNat es) = some l → ∃ t, exec (.loadOvenConfiguration f n es) s = .next t ∧
        Answered ReqCode.load Status.ok [] t ∧ ∀ (k : Nat) (c : OvenConfig), l[k]? = some c →
          let m := f.toNat + k
          let r := ovenRec s m
          ovenConfig t m = some c ∧
          (ovenConfig s m = none → ovenRec t m = { r with
            phase := if c.inService then .coking else .outOfService, stamp := s.now, hardPushes := 0, ramPeak := 0 }) ∧
          ∀ o, ovenConfig s m = some o →
            let r' : OvenRecord :=
              if o.inService = true ∧ c.inService = false then { r with phase := .outOfService }
              else if o.inService = false ∧ c.inService = true ∧ r.phase = .outOfService then
                { r with phase := .coking, stamp := s.now }
              else r
            ovenRec t m =
              if o.target ≠ c.target ∧ (r'.phase = .coking ∨ r'.phase = .ready) then
                { r' with phase := if readyInstant t m ≤ s.now then .ready else .coking }
              else r') ∧
    (∀ l, es.length = n.toNat * 3 → (∀ k, k < n.toNat → configured s (f.toNat + k) = true ∧
        (ovenRec s (f.toNat + k)).phase ≠ .pushing ∧ (ovenRec s (f.toNat + k)).phase ≠ .charging) →
      parseAll parseOvenState (rows 3 n.toNat es) = some l → ∃ t, exec (.loadOvenstate f n es) s = .next t ∧
        Answered ReqCode.load Status.ok [] t ∧ ∀ (k : Nat) (e : Phase × Nat), l[k]? = some e →
          ovenRec t (f.toNat + k) = { ovenRec s (f.toNat + k) with
            phase := if e.1 = .coking ∨ e.1 = .ready then returnedPhase s (f.toNat + k) (s.now - e.2 * 60) else e.1
            stamp := s.now - e.2 * 60 }) ∧
    (es.length = n.toNat * 4 → f ≠ 0#8 → f.toNat + n.toNat ≤ 9 →
      let l := ((rows 4 n.toNat es).zipIdx).map fun r => parsePermit (addableFrom f.toNat r.2) r.1
      l.all Option.isSome = true → ∃ t, exec (.loadPermitTable f n es) s = .next t ∧
        Answered ReqCode.load Status.ok [] t ∧ t.ilk.table = writeFrom s.ilk.table (f.toNat - 1) l) ∧
    (∀ l, es.length = n.toNat * 10 → f ≠ 0#8 → f.toNat ≤ s.qtc.count + 1 → f.toNat + n.toNat ≤ 33 → n ≠ 0#8 →
      parseAll parseSegment (rows 10 n.toNat es) = some l → ∃ t, exec (.loadSegmentTable f n es) s = .next t ∧
        Answered ReqCode.load Status.ok [] t ∧ t.qtc.segments = writeFrom s.qtc.segments (f.toNat - 1) l ∧
        t.qtc.count = max s.qtc.count (f.toNat + n.toNat - 1) ∧
        ∀ c, (c = 1 ∨ c = 2) → (carRec t c).reserved = [] ∧ (carRec t c).move = none) ∧
    (es = [] → f ≠ 0#8 → f.toNat ≤ s.qtc.count + 1 → f.toNat ≤ 33 → n = 0#8 →
      ∃ t, exec (.loadSegmentTable f n es) s = .next t ∧ Answered ReqCode.load Status.ok [] t ∧
        t.qtc.segments = s.qtc.segments ∧ t.qtc.count = f.toNat - 1 ∧
        t.mgt.validity.segments = decide (1 ≤ f.toNat - 1) ∧
        ∀ c, (c = 1 ∨ c = 2) → (carRec t c).reserved = [] ∧ (carRec t c).move = none) ∧
    (∀ l, es.length = n.toNat * 4 → f ≠ 0#8 → f.toNat + n.toNat ≤ 3 →
      parseAll parseCar (rows 4 n.toNat es) = some l → ∃ t, exec (.loadCarConfiguration f n es) s = .next t ∧
        Answered ReqCode.load Status.ok [] t ∧ ∀ (k : Nat) (c : CarConfig), l[k]? = some c →
          carConfig t (f.toNat + k) = some c)

/-- R178 and the rules of the live tables: in any mode a load whose range and entries are accepted writes its table; a load
of a table of one entry that names another first entry or another count is answered BAD_RANGE and changes nothing of its own. -/
def Obligations.LiveLoadsWriteTheirTables : Prop :=
  ∀ (f n : Byte) (es : List Byte) (s : State), es.length ≤ 44 →
    (∀ v, es.length = 11 → f = 1#8 → n = 1#8 → parseTiming es = some v →
      (s.mgt.mode = .service → ∀ x ∈ tolerances v, fitsPitch s x.2 = true) →
      ∃ t, exec (.loadTimingTable f n es) s = .next t ∧ Answered ReqCode.load Status.ok [] t ∧ t.ovt.timing = v) ∧
    (∀ l, es.length = n.toNat * 3 → runEngaged s = false → f ≠ 0#8 → f.toNat ≤ s.sch.length + 1 →
      f.toNat + n.toNat ≤ 129 → parseAll parseSeries (rows 3 n.toNat es) = some l →
      (s.mgt.mode = .service → ∀ e ∈ l, configured s e.oven = true) →
      let k := if n = 0#8 then f.toNat - 1 else max s.sch.length (f.toNat + n.toNat - 1)
      noRepeat (((writeFrom s.sch.series (f.toNat - 1) l).toList.take k).map SeriesEntry.oven) = true →
      ∃ t, exec (.loadSeriesTable f n es) s = .next t ∧ Answered ReqCode.load Status.ok [] t ∧
        t.sch.series = writeFrom s.sch.series (f.toNat - 1) l ∧ t.sch.length = k) ∧
    (∀ v, es.length = 17 → f = 1#8 → n = 1#8 → parseStep es = some v →
      ∃ t, exec (.loadStepTimingTable f n es) s = .next t ∧ Answered ReqCode.load Status.ok [] t ∧
        t.sch.timing = v) ∧
    (∀ v, es.length = 6 → f = 1#8 → n = 1#8 → parseTrack es = some v →
      ∃ t, exec (.loadTrackTimingTable f n es) s = .next t ∧ Answered ReqCode.load Status.ok [] t ∧
        t.qtc.timing = v) ∧
    (∀ v, es.length = 8 → f = 1#8 → n = 1#8 → parseSeal es = some v →
      ∃ t, exec (.loadSealConfiguration f n es) s = .next t ∧ Answered ReqCode.load Status.ok [] t ∧
        t.dsm.config = v) ∧
    (∀ l, es.length = n.toNat * 7 → f.toNat + n.toNat ≤ 5 → parseAll parseMode (rows 7 n.toNat es) = some l →
      ∃ t, exec (.loadPressureModeTable f n es) s = .next t ∧ Answered ReqCode.load Status.ok [] t ∧
        t.opr.modes = writeFrom s.opr.modes f.toNat l ∧
        ∀ m, 1 ≤ m → m ≤ 128 → (regRec t m).valve = clampValve (modeEntry t (regRec s m).mode) (regRec s m).valve) ∧
    (∀ v, es.length = 17 → f = 1#8 → n = 1#8 → parseReg es = some v → (weights v).any (· ≠ 0) = true →
      ∃ t, exec (.loadRegulatorConfiguration f n es) s = .next t ∧ Answered ReqCode.load Status.ok [] t ∧
        t.opr.config = v) ∧
    (es.length = 3 → f = 1#8 → n = 1#8 →
      ∃ t, exec (.loadEventEnableMask f n es) s = .next t ∧ Answered ReqCode.load Status.ok [] t ∧
        t.mgt.enabled = parseMask es) ∧
    ∀ (c : Instr), c ∈ [Instr.loadTimingTable f n es, .loadStepTimingTable f n es, .loadTrackTimingTable f n es,
        .loadSealConfiguration f n es, .loadRegulatorConfiguration f n es, .loadEventEnableMask f n es] →
      (f ≠ 1#8 ∨ n ≠ 1#8) →
      exec c s = .next (answer ReqCode.load ⟨clearSense (controlAccepted s), Status.badRange, []⟩)
end

