-- ==== Sys2Proof/Laws/State.lean ====
section
/-!
SUPPORT. One lemma a field for each block modifier of the state, and how the tables answer a read after a write, so
that no proof unfolds a record update.
-/

set_option Elab.async false
namespace Sys2Proof.Machine

open Sys2Proof

/-! ## OvenTable -/

@[simp] theorem State.onOvt_ovt (f : OvenTable → OvenTable) (s : State) : (s.onOvt f).ovt = f s.ovt := rfl
@[simp] theorem State.onOvt_ilk (f : OvenTable → OvenTable) (s : State) : (s.onOvt f).ilk = s.ilk := rfl
@[simp] theorem State.onOvt_sch (f : OvenTable → OvenTable) (s : State) : (s.onOvt f).sch = s.sch := rfl
@[simp] theorem State.onOvt_qtc (f : OvenTable → OvenTable) (s : State) : (s.onOvt f).qtc = s.qtc := rfl
@[simp] theorem State.onOvt_dsm (f : OvenTable → OvenTable) (s : State) : (s.onOvt f).dsm = s.dsm := rfl
@[simp] theorem State.onOvt_opr (f : OvenTable → OvenTable) (s : State) : (s.onOvt f).opr = s.opr := rfl
@[simp] theorem State.onOvt_cpi (f : OvenTable → OvenTable) (s : State) : (s.onOvt f).cpi = s.cpi := rfl
@[simp] theorem State.onOvt_fpi (f : OvenTable → OvenTable) (s : State) : (s.onOvt f).fpi = s.fpi := rfl
@[simp] theorem State.onOvt_cls (f : OvenTable → OvenTable) (s : State) : (s.onOvt f).cls = s.cls := rfl
@[simp] theorem State.onOvt_fpl (f : OvenTable → OvenTable) (s : State) : (s.onOvt f).fpl = s.fpl := rfl
@[simp] theorem State.onOvt_mgt (f : OvenTable → OvenTable) (s : State) : (s.onOvt f).mgt = s.mgt := rfl
@[simp] theorem State.onOvt_pending (f : OvenTable → OvenTable) (s : State) : (s.onOvt f).pending = s.pending := rfl
@[simp] theorem State.onOvt_drawn (f : OvenTable → OvenTable) (s : State) : (s.onOvt f).drawn = s.drawn := rfl

/-! ## Interlock -/

@[simp] theorem State.onIlk_ovt (f : Interlock → Interlock) (s : State) : (s.onIlk f).ovt = s.ovt := rfl
@[simp] theorem State.onIlk_ilk (f : Interlock → Interlock) (s : State) : (s.onIlk f).ilk = f s.ilk := rfl
@[simp] theorem State.onIlk_sch (f : Interlock → Interlock) (s : State) : (s.onIlk f).sch = s.sch := rfl
@[simp] theorem State.onIlk_qtc (f : Interlock → Interlock) (s : State) : (s.onIlk f).qtc = s.qtc := rfl
@[simp] theorem State.onIlk_dsm (f : Interlock → Interlock) (s : State) : (s.onIlk f).dsm = s.dsm := rfl
@[simp] theorem State.onIlk_opr (f : Interlock → Interlock) (s : State) : (s.onIlk f).opr = s.opr := rfl
@[simp] theorem State.onIlk_cpi (f : Interlock → Interlock) (s : State) : (s.onIlk f).cpi = s.cpi := rfl
@[simp] theorem State.onIlk_fpi (f : Interlock → Interlock) (s : State) : (s.onIlk f).fpi = s.fpi := rfl
@[simp] theorem State.onIlk_cls (f : Interlock → Interlock) (s : State) : (s.onIlk f).cls = s.cls := rfl
@[simp] theorem State.onIlk_fpl (f : Interlock → Interlock) (s : State) : (s.onIlk f).fpl = s.fpl := rfl
@[simp] theorem State.onIlk_mgt (f : Interlock → Interlock) (s : State) : (s.onIlk f).mgt = s.mgt := rfl
@[simp] theorem State.onIlk_pending (f : Interlock → Interlock) (s : State) : (s.onIlk f).pending = s.pending := rfl
@[simp] theorem State.onIlk_drawn (f : Interlock → Interlock) (s : State) : (s.onIlk f).drawn = s.drawn := rfl

/-! ## Runner -/

@[simp] theorem State.onSch_ovt (f : Runner → Runner) (s : State) : (s.onSch f).ovt = s.ovt := rfl
@[simp] theorem State.onSch_ilk (f : Runner → Runner) (s : State) : (s.onSch f).ilk = s.ilk := rfl
@[simp] theorem State.onSch_sch (f : Runner → Runner) (s : State) : (s.onSch f).sch = f s.sch := rfl
@[simp] theorem State.onSch_qtc (f : Runner → Runner) (s : State) : (s.onSch f).qtc = s.qtc := rfl
@[simp] theorem State.onSch_dsm (f : Runner → Runner) (s : State) : (s.onSch f).dsm = s.dsm := rfl
@[simp] theorem State.onSch_opr (f : Runner → Runner) (s : State) : (s.onSch f).opr = s.opr := rfl
@[simp] theorem State.onSch_cpi (f : Runner → Runner) (s : State) : (s.onSch f).cpi = s.cpi := rfl
@[simp] theorem State.onSch_fpi (f : Runner → Runner) (s : State) : (s.onSch f).fpi = s.fpi := rfl
@[simp] theorem State.onSch_cls (f : Runner → Runner) (s : State) : (s.onSch f).cls = s.cls := rfl
@[simp] theorem State.onSch_fpl (f : Runner → Runner) (s : State) : (s.onSch f).fpl = s.fpl := rfl
@[simp] theorem State.onSch_mgt (f : Runner → Runner) (s : State) : (s.onSch f).mgt = s.mgt := rfl
@[simp] theorem State.onSch_pending (f : Runner → Runner) (s : State) : (s.onSch f).pending = s.pending := rfl
@[simp] theorem State.onSch_drawn (f : Runner → Runner) (s : State) : (s.onSch f).drawn = s.drawn := rfl

/-! ## Track -/

@[simp] theorem State.onQtc_ovt (f : Track → Track) (s : State) : (s.onQtc f).ovt = s.ovt := rfl
@[simp] theorem State.onQtc_ilk (f : Track → Track) (s : State) : (s.onQtc f).ilk = s.ilk := rfl
@[simp] theorem State.onQtc_sch (f : Track → Track) (s : State) : (s.onQtc f).sch = s.sch := rfl
@[simp] theorem State.onQtc_qtc (f : Track → Track) (s : State) : (s.onQtc f).qtc = f s.qtc := rfl
@[simp] theorem State.onQtc_dsm (f : Track → Track) (s : State) : (s.onQtc f).dsm = s.dsm := rfl
@[simp] theorem State.onQtc_opr (f : Track → Track) (s : State) : (s.onQtc f).opr = s.opr := rfl
@[simp] theorem State.onQtc_cpi (f : Track → Track) (s : State) : (s.onQtc f).cpi = s.cpi := rfl
@[simp] theorem State.onQtc_fpi (f : Track → Track) (s : State) : (s.onQtc f).fpi = s.fpi := rfl
@[simp] theorem State.onQtc_cls (f : Track → Track) (s : State) : (s.onQtc f).cls = s.cls := rfl
@[simp] theorem State.onQtc_fpl (f : Track → Track) (s : State) : (s.onQtc f).fpl = s.fpl := rfl
@[simp] theorem State.onQtc_mgt (f : Track → Track) (s : State) : (s.onQtc f).mgt = s.mgt := rfl
@[simp] theorem State.onQtc_pending (f : Track → Track) (s : State) : (s.onQtc f).pending = s.pending := rfl
@[simp] theorem State.onQtc_drawn (f : Track → Track) (s : State) : (s.onQtc f).drawn = s.drawn := rfl

/-! ## Doors -/

@[simp] theorem State.onDsm_ovt (f : Doors → Doors) (s : State) : (s.onDsm f).ovt = s.ovt := rfl
@[simp] theorem State.onDsm_ilk (f : Doors → Doors) (s : State) : (s.onDsm f).ilk = s.ilk := rfl
@[simp] theorem State.onDsm_sch (f : Doors → Doors) (s : State) : (s.onDsm f).sch = s.sch := rfl
@[simp] theorem State.onDsm_qtc (f : Doors → Doors) (s : State) : (s.onDsm f).qtc = s.qtc := rfl
@[simp] theorem State.onDsm_dsm (f : Doors → Doors) (s : State) : (s.onDsm f).dsm = f s.dsm := rfl
@[simp] theorem State.onDsm_opr (f : Doors → Doors) (s : State) : (s.onDsm f).opr = s.opr := rfl
@[simp] theorem State.onDsm_cpi (f : Doors → Doors) (s : State) : (s.onDsm f).cpi = s.cpi := rfl
@[simp] theorem State.onDsm_fpi (f : Doors → Doors) (s : State) : (s.onDsm f).fpi = s.fpi := rfl
@[simp] theorem State.onDsm_cls (f : Doors → Doors) (s : State) : (s.onDsm f).cls = s.cls := rfl
@[simp] theorem State.onDsm_fpl (f : Doors → Doors) (s : State) : (s.onDsm f).fpl = s.fpl := rfl
@[simp] theorem State.onDsm_mgt (f : Doors → Doors) (s : State) : (s.onDsm f).mgt = s.mgt := rfl
@[simp] theorem State.onDsm_pending (f : Doors → Doors) (s : State) : (s.onDsm f).pending = s.pending := rfl
@[simp] theorem State.onDsm_drawn (f : Doors → Doors) (s : State) : (s.onDsm f).drawn = s.drawn := rfl

/-! ## Regulator -/

@[simp] theorem State.onOpr_ovt (f : Regulator → Regulator) (s : State) : (s.onOpr f).ovt = s.ovt := rfl
@[simp] theorem State.onOpr_ilk (f : Regulator → Regulator) (s : State) : (s.onOpr f).ilk = s.ilk := rfl
@[simp] theorem State.onOpr_sch (f : Regulator → Regulator) (s : State) : (s.onOpr f).sch = s.sch := rfl
@[simp] theorem State.onOpr_qtc (f : Regulator → Regulator) (s : State) : (s.onOpr f).qtc = s.qtc := rfl
@[simp] theorem State.onOpr_dsm (f : Regulator → Regulator) (s : State) : (s.onOpr f).dsm = s.dsm := rfl
@[simp] theorem State.onOpr_opr (f : Regulator → Regulator) (s : State) : (s.onOpr f).opr = f s.opr := rfl
@[simp] theorem State.onOpr_cpi (f : Regulator → Regulator) (s : State) : (s.onOpr f).cpi = s.cpi := rfl
@[simp] theorem State.onOpr_fpi (f : Regulator → Regulator) (s : State) : (s.onOpr f).fpi = s.fpi := rfl
@[simp] theorem State.onOpr_cls (f : Regulator → Regulator) (s : State) : (s.onOpr f).cls = s.cls := rfl
@[simp] theorem State.onOpr_fpl (f : Regulator → Regulator) (s : State) : (s.onOpr f).fpl = s.fpl := rfl
@[simp] theorem State.onOpr_mgt (f : Regulator → Regulator) (s : State) : (s.onOpr f).mgt = s.mgt := rfl
@[simp] theorem State.onOpr_pending (f : Regulator → Regulator) (s : State) : (s.onOpr f).pending = s.pending := rfl
@[simp] theorem State.onOpr_drawn (f : Regulator → Regulator) (s : State) : (s.onOpr f).drawn = s.drawn := rfl

/-! ## ControlPort -/

@[simp] theorem State.onCpi_ovt (f : ControlPort → ControlPort) (s : State) : (s.onCpi f).ovt = s.ovt := rfl
@[simp] theorem State.onCpi_ilk (f : ControlPort → ControlPort) (s : State) : (s.onCpi f).ilk = s.ilk := rfl
@[simp] theorem State.onCpi_sch (f : ControlPort → ControlPort) (s : State) : (s.onCpi f).sch = s.sch := rfl
@[simp] theorem State.onCpi_qtc (f : ControlPort → ControlPort) (s : State) : (s.onCpi f).qtc = s.qtc := rfl
@[simp] theorem State.onCpi_dsm (f : ControlPort → ControlPort) (s : State) : (s.onCpi f).dsm = s.dsm := rfl
@[simp] theorem State.onCpi_opr (f : ControlPort → ControlPort) (s : State) : (s.onCpi f).opr = s.opr := rfl
@[simp] theorem State.onCpi_cpi (f : ControlPort → ControlPort) (s : State) : (s.onCpi f).cpi = f s.cpi := rfl
@[simp] theorem State.onCpi_fpi (f : ControlPort → ControlPort) (s : State) : (s.onCpi f).fpi = s.fpi := rfl
@[simp] theorem State.onCpi_cls (f : ControlPort → ControlPort) (s : State) : (s.onCpi f).cls = s.cls := rfl
@[simp] theorem State.onCpi_fpl (f : ControlPort → ControlPort) (s : State) : (s.onCpi f).fpl = s.fpl := rfl
@[simp] theorem State.onCpi_mgt (f : ControlPort → ControlPort) (s : State) : (s.onCpi f).mgt = s.mgt := rfl
@[simp] theorem State.onCpi_pending (f : ControlPort → ControlPort) (s : State) : (s.onCpi f).pending = s.pending := rfl
@[simp] theorem State.onCpi_drawn (f : ControlPort → ControlPort) (s : State) : (s.onCpi f).drawn = s.drawn := rfl

/-! ## FieldPort -/

@[simp] theorem State.onFpi_ovt (f : FieldPort → FieldPort) (s : State) : (s.onFpi f).ovt = s.ovt := rfl
@[simp] theorem State.onFpi_ilk (f : FieldPort → FieldPort) (s : State) : (s.onFpi f).ilk = s.ilk := rfl
@[simp] theorem State.onFpi_sch (f : FieldPort → FieldPort) (s : State) : (s.onFpi f).sch = s.sch := rfl
@[simp] theorem State.onFpi_qtc (f : FieldPort → FieldPort) (s : State) : (s.onFpi f).qtc = s.qtc := rfl
@[simp] theorem State.onFpi_dsm (f : FieldPort → FieldPort) (s : State) : (s.onFpi f).dsm = s.dsm := rfl
@[simp] theorem State.onFpi_opr (f : FieldPort → FieldPort) (s : State) : (s.onFpi f).opr = s.opr := rfl
@[simp] theorem State.onFpi_cpi (f : FieldPort → FieldPort) (s : State) : (s.onFpi f).cpi = s.cpi := rfl
@[simp] theorem State.onFpi_fpi (f : FieldPort → FieldPort) (s : State) : (s.onFpi f).fpi = f s.fpi := rfl
@[simp] theorem State.onFpi_cls (f : FieldPort → FieldPort) (s : State) : (s.onFpi f).cls = s.cls := rfl
@[simp] theorem State.onFpi_fpl (f : FieldPort → FieldPort) (s : State) : (s.onFpi f).fpl = s.fpl := rfl
@[simp] theorem State.onFpi_mgt (f : FieldPort → FieldPort) (s : State) : (s.onFpi f).mgt = s.mgt := rfl
@[simp] theorem State.onFpi_pending (f : FieldPort → FieldPort) (s : State) : (s.onFpi f).pending = s.pending := rfl
@[simp] theorem State.onFpi_drawn (f : FieldPort → FieldPort) (s : State) : (s.onFpi f).drawn = s.drawn := rfl

/-! ## Classifier -/

@[simp] theorem State.onCls_ovt (f : Classifier → Classifier) (s : State) : (s.onCls f).ovt = s.ovt := rfl
@[simp] theorem State.onCls_ilk (f : Classifier → Classifier) (s : State) : (s.onCls f).ilk = s.ilk := rfl
@[simp] theorem State.onCls_sch (f : Classifier → Classifier) (s : State) : (s.onCls f).sch = s.sch := rfl
@[simp] theorem State.onCls_qtc (f : Classifier → Classifier) (s : State) : (s.onCls f).qtc = s.qtc := rfl
@[simp] theorem State.onCls_dsm (f : Classifier → Classifier) (s : State) : (s.onCls f).dsm = s.dsm := rfl
@[simp] theorem State.onCls_opr (f : Classifier → Classifier) (s : State) : (s.onCls f).opr = s.opr := rfl
@[simp] theorem State.onCls_cpi (f : Classifier → Classifier) (s : State) : (s.onCls f).cpi = s.cpi := rfl
@[simp] theorem State.onCls_fpi (f : Classifier → Classifier) (s : State) : (s.onCls f).fpi = s.fpi := rfl
@[simp] theorem State.onCls_cls (f : Classifier → Classifier) (s : State) : (s.onCls f).cls = f s.cls := rfl
@[simp] theorem State.onCls_fpl (f : Classifier → Classifier) (s : State) : (s.onCls f).fpl = s.fpl := rfl
@[simp] theorem State.onCls_mgt (f : Classifier → Classifier) (s : State) : (s.onCls f).mgt = s.mgt := rfl
@[simp] theorem State.onCls_pending (f : Classifier → Classifier) (s : State) : (s.onCls f).pending = s.pending := rfl
@[simp] theorem State.onCls_drawn (f : Classifier → Classifier) (s : State) : (s.onCls f).drawn = s.drawn := rfl

/-! ## Poller -/

@[simp] theorem State.onFpl_ovt (f : Poller → Poller) (s : State) : (s.onFpl f).ovt = s.ovt := rfl
@[simp] theorem State.onFpl_ilk (f : Poller → Poller) (s : State) : (s.onFpl f).ilk = s.ilk := rfl
@[simp] theorem State.onFpl_sch (f : Poller → Poller) (s : State) : (s.onFpl f).sch = s.sch := rfl
@[simp] theorem State.onFpl_qtc (f : Poller → Poller) (s : State) : (s.onFpl f).qtc = s.qtc := rfl
@[simp] theorem State.onFpl_dsm (f : Poller → Poller) (s : State) : (s.onFpl f).dsm = s.dsm := rfl
@[simp] theorem State.onFpl_opr (f : Poller → Poller) (s : State) : (s.onFpl f).opr = s.opr := rfl
@[simp] theorem State.onFpl_cpi (f : Poller → Poller) (s : State) : (s.onFpl f).cpi = s.cpi := rfl
@[simp] theorem State.onFpl_fpi (f : Poller → Poller) (s : State) : (s.onFpl f).fpi = s.fpi := rfl
@[simp] theorem State.onFpl_cls (f : Poller → Poller) (s : State) : (s.onFpl f).cls = s.cls := rfl
@[simp] theorem State.onFpl_fpl (f : Poller → Poller) (s : State) : (s.onFpl f).fpl = f s.fpl := rfl
@[simp] theorem State.onFpl_mgt (f : Poller → Poller) (s : State) : (s.onFpl f).mgt = s.mgt := rfl
@[simp] theorem State.onFpl_pending (f : Poller → Poller) (s : State) : (s.onFpl f).pending = s.pending := rfl
@[simp] theorem State.onFpl_drawn (f : Poller → Poller) (s : State) : (s.onFpl f).drawn = s.drawn := rfl

/-! ## Management -/

@[simp] theorem State.onMgt_ovt (f : Management → Management) (s : State) : (s.onMgt f).ovt = s.ovt := rfl
@[simp] theorem State.onMgt_ilk (f : Management → Management) (s : State) : (s.onMgt f).ilk = s.ilk := rfl
@[simp] theorem State.onMgt_sch (f : Management → Management) (s : State) : (s.onMgt f).sch = s.sch := rfl
@[simp] theorem State.onMgt_qtc (f : Management → Management) (s : State) : (s.onMgt f).qtc = s.qtc := rfl
@[simp] theorem State.onMgt_dsm (f : Management → Management) (s : State) : (s.onMgt f).dsm = s.dsm := rfl
@[simp] theorem State.onMgt_opr (f : Management → Management) (s : State) : (s.onMgt f).opr = s.opr := rfl
@[simp] theorem State.onMgt_cpi (f : Management → Management) (s : State) : (s.onMgt f).cpi = s.cpi := rfl
@[simp] theorem State.onMgt_fpi (f : Management → Management) (s : State) : (s.onMgt f).fpi = s.fpi := rfl
@[simp] theorem State.onMgt_cls (f : Management → Management) (s : State) : (s.onMgt f).cls = s.cls := rfl
@[simp] theorem State.onMgt_fpl (f : Management → Management) (s : State) : (s.onMgt f).fpl = s.fpl := rfl
@[simp] theorem State.onMgt_mgt (f : Management → Management) (s : State) : (s.onMgt f).mgt = f s.mgt := rfl
@[simp] theorem State.onMgt_pending (f : Management → Management) (s : State) : (s.onMgt f).pending = s.pending := rfl
@[simp] theorem State.onMgt_drawn (f : Management → Management) (s : State) : (s.onMgt f).drawn = s.drawn := rfl

/-! ## Reading and writing tables -/

theorem readAt_writeAt {α : Type} {n : Nat} (t : Vector α n) (i j : Nat) (a d : α) :
    readAt (writeAt t i a) j d = if i = j ∧ j < n then a else readAt t j d := by
  unfold readAt writeAt
  rw [Vector.getElem?_setIfInBounds]
  by_cases h : i = j
  · subst h
    by_cases hn : i < n
    · simp [hn]
    · simp [hn]
  · simp [h]

@[simp] theorem readAt_writeAt_self {α : Type} {n : Nat} (t : Vector α n) (i : Nat) (a d : α) (h : i < n) :
    readAt (writeAt t i a) i d = a := by
  simp [readAt_writeAt, h]

theorem readAt_writeAt_ne {α : Type} {n : Nat} (t : Vector α n) {i j : Nat} (a d : α) (h : i ≠ j) :
    readAt (writeAt t i a) j d = readAt t j d := by
  simp [readAt_writeAt, h]

/-- Writing back what a read gave, whatever its default, changes nothing. -/
theorem writeAt_readAt {α : Type} {n : Nat} (t : Vector α n) (i : Nat) (d : α) : writeAt t i (readAt t i d) = t := by
  unfold readAt writeAt
  ext j hj
  rw [Vector.getElem_setIfInBounds]
  split
  · next h => subst h; simp [Vector.getElem?_eq_getElem hj]
  · rfl

theorem readNum_writeNum {α : Type} {n : Nat} (t : Vector α n) (i j : Nat) (a d : α) :
    readNum (writeNum t i a) j d = if i = j ∧ 1 ≤ j ∧ j ≤ n then a else readNum t j d := by
  unfold readNum writeNum
  by_cases hj : j = 0
  · simp [hj]
  · by_cases hi : i = 0
    · have : ¬ 0 = j := fun h => hj h.symm
      simp [hi, hj, this]
    · simp only [hj, hi, if_false, readAt_writeAt]
      have hiff : (i - 1 = j - 1 ∧ j - 1 < n) ↔ (i = j ∧ 1 ≤ j ∧ j ≤ n) := by omega
      simp only [hiff]

@[simp] theorem readNum_writeNum_self {α : Type} {n : Nat} (t : Vector α n) (i : Nat) (a d : α) (h : 1 ≤ i)
    (h' : i ≤ n) : readNum (writeNum t i a) i d = a := by
  simp [readNum_writeNum, h, h']

theorem readNum_writeNum_ne {α : Type} {n : Nat} (t : Vector α n) {i j : Nat} (a d : α) (h : i ≠ j) :
    readNum (writeNum t i a) j d = readNum t j d := by
  simp [readNum_writeNum, h]

theorem readNum_mem_range {α : Type} {n : Nat} (t : Vector (Option α) n) (k : Nat)
    (h : (readNum t k none).isSome) : 1 ≤ k ∧ k ≤ n := by
  unfold readNum readAt at h
  by_cases hk : k = 0
  · simp [hk] at h
  · simp only [hk, if_false] at h
    by_cases hn : k - 1 < n
    · omega
    · simp [Vector.getElem?_eq_none (Nat.le_of_not_lt hn)] at h

theorem readAt_replicate {α : Type} {n : Nat} (i : Nat) (d : α) : readAt (Vector.replicate n d) i d = d := by
  unfold readAt
  by_cases h : i < n
  · simp [h]
  · simp [h]

theorem readNum_replicate {α : Type} {n : Nat} (k : Nat) (d : α) : readNum (Vector.replicate n d) k d = d := by
  unfold readNum readAt
  by_cases hk : k = 0
  · simp [hk]
  · by_cases hn : k - 1 < n
    · simp [hk, hn]
    · simp [hk, hn]

theorem readNum_map {α β : Type} {n : Nat} (t : Vector α n) (f : α → β) (k : Nat) (d : α) (hk : 1 ≤ k) (hn : k ≤ n) :
    readNum (t.map f) k (f d) = f (readNum t k d) := by
  unfold readNum readAt
  have h0 : ¬ k = 0 := by omega
  have h1 : k - 1 < n := by omega
  simp [h0, h1]

end Sys2Proof.Machine
end

