-- ==== Sys2Proof/Laws/Touches.lean ====
section
/-!
SUPPORT. `Touches l s t`: how the lemmas about the shared operations say what an operation may change. It is
reflexive and transitive, so the lemma of an operation is put together from those of its parts.
-/

set_option Elab.async false
namespace Sys2Proof.Machine

open Sys2Proof

theorem Aspect.same_refl (a : Aspect) (s : State) : a.same s s := by
  cases a <;> first
    | rfl
    | exact ⟨rfl, rfl⟩
    | exact ⟨rfl, rfl, rfl⟩
    | exact ⟨rfl, rfl, rfl, rfl⟩
    | exact id
    | exact List.Sublist.refl _
    | exact fun _ h => h
    | exact fun _ => ⟨rfl, rfl⟩
    | exact fun _ => rfl
    | exact fun _ h => ⟨Nat.le_refl _, h⟩

theorem Aspect.same_trans {a : Aspect} {s t u : State} (h : a.same s t) (h' : a.same t u) : a.same s u := by
  cases a <;> first
    | exact Eq.trans h' h
    | exact ⟨h'.1.trans h.1, h'.2.trans h.2⟩
    | exact ⟨h'.1.trans h.1, h'.2.1.trans h.2.1, h'.2.2.trans h.2.2⟩
    | exact ⟨h'.1.trans h.1, h'.2.1.trans h.2.1, h'.2.2.1.trans h.2.2.1, h'.2.2.2.trans h.2.2.2⟩
    | exact fun x => h' (h x)
    | exact List.Sublist.trans h' h
    | exact fun p x => h' p (h p x)
    | exact fun c => ⟨(h' c).1.trans (h c).1, (h' c).2.trans (h c).2⟩
    | exact fun p => (h' p).trans (h p)
    | exact fun i x => ⟨Nat.le_trans (h i x).1 (h' i (h i x).2).1, (h' i (h i x).2).2⟩

theorem Touches.refl (l : List Aspect) (s : State) : Touches l s s := fun a _ => a.same_refl s

theorem Touches.trans {l m : List Aspect} {s t u : State} (h : Touches l s t) (h' : Touches m t u) :
    Touches (l ++ m) s u := fun a ha =>
  Aspect.same_trans (a := a) (h a fun x => ha (List.mem_append_left _ x)) (h' a fun x => ha (List.mem_append_right _ x))

/-- One after the other, both within the same list. -/
theorem Touches.seq {l : List Aspect} {s t u : State} (h : Touches l s t) (h' : Touches l t u) : Touches l s u :=
  fun a ha => Aspect.same_trans (a := a) (h a ha) (h' a ha)

/-- The same, the later part first: its form shows the state between the two. -/
theorem Touches.after {l : List Aspect} {s t u : State} (h' : Touches l t u) (h : Touches l s t) : Touches l s u :=
  h.seq h'

/-- The aspects of the first list all stand in the second. -/
def withinAspects (l m : List Aspect) : Bool := l.all fun a => m.contains a

theorem Touches.mono {l m : List Aspect} {s t : State} (h : Touches l s t)
    (hs : withinAspects l m = true := by decide) : Touches m s t := by
  intro a ha
  apply h a
  intro hl
  apply ha
  have := List.all_eq_true.mp hs a hl
  simpa using this

/-- An aspect of the list that is not touched after all leaves it. -/
theorem Touches.keep {a : Aspect} {l : List Aspect} {s t : State} (h : Touches (a :: l) s t) (ha : a.same s t) :
    Touches l s t := by
  intro b hb
  by_cases hab : b = a
  · subst hab; exact ha
  · exact h b (by simp [hab, hb])

theorem Touches.foldl {α : Type} {l : List Aspect} {f : State → α → State} (xs : List α)
    (h : ∀ s x, Touches l s (f s x)) (s : State) : Touches l s (xs.foldl f s) := by
  induction xs generalizing s with
  | nil => exact .refl _ _
  | cons x xs ih => exact fun a ha => Aspect.same_trans (a := a) (h s x a ha) (ih _ a ha)

theorem Touches.right {l m : List Aspect} {s t : State} (h : Touches m s t) : Touches (l ++ m) s t :=
  fun a ha => h a fun hx => ha (List.mem_append_right _ hx)

theorem Touches.left {l m : List Aspect} {s t : State} (h : Touches l s t) : Touches (l ++ m) s t :=
  fun a ha => h a fun hx => ha (List.mem_append_left _ hx)

/-- Another second half of the list, in which the first stands. -/
theorem Touches.tail {l m n : List Aspect} {s t : State} (h : Touches (l ++ m) s t) (hm : ∀ a, a ∈ m → a ∈ n) :
    Touches (l ++ n) s t :=
  fun a ha => h a fun hx => ha ((List.mem_append.mp hx).elim (List.mem_append_left _) fun x => List.mem_append_right _ (hm a x))

/-- One half of a choice. -/
theorem Touches.ite {l : List Aspect} {c : Prop} [Decidable c] {s t u : State} (ht : c → Touches l s t)
    (hu : ¬ c → Touches l s u) : Touches l s (if c then t else u) := by
  split
  · exact ht ‹_›
  · exact hu ‹_›

end Sys2Proof.Machine
end

