-- ==== Sys2Proof/Laws/Ops.lean ====
section
/-!
SUPPORT. What the shared operations of Machine/Ops.lean, Flags.lean and the record writers may touch.
-/

set_option Elab.async false
namespace Sys2Proof.Machine

open Sys2Proof

/-! ## Reading records after a write -/

/-- A table of records changed alike throughout. -/
theorem readAt_map {α : Type} {n : Nat} (f : α → α) (t : Vector α n) (i : Nat) (d : α) (hi : i < n) :
    readAt (t.map f) i d = f (readAt t i d) := by
  unfold readAt
  simp [hi]

theorem readAt_ge {α : Type} {n : Nat} (t : Vector α n) (i : Nat) (d : α) (hi : ¬ i < n) : readAt t i d = d := by
  unfold readAt
  simp [hi]

theorem ovenRec_setOvenRec (n m : Nat) (r : OvenRecord) (s : State) :
    ovenRec (setOvenRec n r s) m = if n = m ∧ 1 ≤ m ∧ m ≤ 128 then r else ovenRec s m :=
  readNum_writeNum _ _ _ _ _

theorem station_setStation (p q : Nat) (r : StationRecord) (s : State) :
    station (setStation p r s) q = if p = q ∧ q < 24 then r else station s q :=
  readAt_writeAt _ _ _ _ _

theorem outbound_setOutbound (p q : Nat) (o : Outbound) (s : State) :
    outbound (setOutbound p o s) q = if p = q ∧ q < 24 then o else outbound s q :=
  readAt_writeAt _ _ _ _ _

theorem alignment_setAlignment (p q : Nat) (a : Alignment) (s : State) :
    alignment (setAlignment p a s) q = if p = q ∧ q < 24 then a else alignment s q :=
  readAt_writeAt _ _ _ _ _

theorem regRec_setRegRec (n m : Nat) (r : RegRecord) (s : State) :
    regRec (setRegRec n r s) m = if n = m ∧ 1 ≤ m ∧ m ≤ 128 then r else regRec s m :=
  readNum_writeNum _ _ _ _ _

theorem setRegRec_setRegRec (n : Nat) (a b : RegRecord) (s : State) :
    setRegRec n a (setRegRec n b s) = setRegRec n a s := by
  have twice : ∀ v : Vector RegRecord 128, writeNum (writeNum v n b) n a = writeNum v n a := by
    intro v; unfold writeNum writeAt
    split
    · rfl
    · apply Vector.ext; intro i hi; simp only [Vector.getElem_setIfInBounds]; split <;> rfl
  unfold setRegRec State.onOpr
  simp only [twice]

theorem carRec_setCarRec (c d : Nat) (r : CarRecord) (s : State) :
    carRec (setCarRec c r s) d = if c = d ∧ 1 ≤ d ∧ d ≤ 2 then r else carRec s d :=
  readNum_writeNum _ _ _ _ _

theorem taskOf_setTask (a b : DoorSide) (r : TaskRecord) (s : State) :
    taskOf (setTask a r s) b = if a = b then r else taskOf s b := by
  cases a <;> cases b <;> rfl

theorem doorPair_setDoorRec (d : Door) (m : Nat) (r : DoorRecord) (s : State) :
    doorPair (setDoorRec d r s) m =
      if d.oven = m ∧ 1 ≤ m ∧ m ≤ 128 then
        (match d.side with
         | .ps => { doorPair s m with ps := r }
         | .cs => { doorPair s m with cs := r })
      else doorPair s m := by
  unfold doorPair setDoorRec
  simp only [State.onDsm_dsm, readNum_writeNum]
  split
  · next h => rw [h.1] <;> cases d.side <;> rfl
  · rfl

theorem doorRec_setDoorRec (d e : Door) (r : DoorRecord) (s : State) :
    doorRec (setDoorRec d r s) e = if d = e ∧ 1 ≤ e.oven ∧ e.oven ≤ 128 then r else doorRec s e := by
  obtain ⟨n, x⟩ := d
  obtain ⟨m, y⟩ := e
  unfold doorRec
  simp only [doorPair_setDoorRec, Door.mk.injEq]
  by_cases h : n = m ∧ 1 ≤ m ∧ m ≤ 128
  · obtain ⟨h1, h2, h3⟩ := h
    cases x <;> cases y <;> simp [h1, h2, h3]
  · have h' : ¬ ((n = m ∧ x = y) ∧ 1 ≤ m ∧ m ≤ 128) := fun k => h ⟨k.1.1, k.2⟩
    cases y <;> simp only [if_neg h, if_neg h']

/-! ## Writers of one record -/

theorem setOvenRec_touches (n : Nat) (r : OvenRecord) (s : State) :
    Touches [.ovens, .stampLaw] s (setOvenRec n r s) := by
  intro a ha
  cases a <;> first
    | exact (ha (by decide)).elim
    | rfl
    | exact id
    | exact ⟨rfl, rfl⟩
    | exact ⟨rfl, rfl, rfl⟩
    | exact ⟨rfl, rfl, rfl, rfl⟩
    | exact List.Sublist.refl _
    | exact fun _ => ⟨rfl, rfl⟩
    | exact fun _ => rfl
    | exact fun _ h => ⟨Nat.le_refl _, h⟩
    | exact fun _ h => h

/-- A stamp that is kept, or lies in the past, keeps R7. -/
theorem setOvenRec_stamp {n : Nat} {r : OvenRecord} {s : State}
    (h : r.stamp = (ovenRec s n).stamp ∨ r.stamp ≤ s.now) : StampLaw s → StampLaw (setOvenRec n r s) := by
  intro hs m h1 h2
  rw [ovenRec_setOvenRec]
  split
  · next hm =>
    rcases h with h | h
    · rw [h, hm.1]; exact hs m h1 h2
    · exact h
  · exact hs m h1 h2

/-- An oven record written with its stamp kept. -/
theorem setOvenRec_kept {n : Nat} {r : OvenRecord} {s : State}
    (h : r.stamp = (ovenRec s n).stamp ∨ r.stamp ≤ s.now) : Touches [.ovens] s (setOvenRec n r s) :=
  Touches.keep (a := .stampLaw) (l := [.ovens]) (setOvenRec_touches n r s).mono (setOvenRec_stamp h)

theorem setStation_touches (p : Nat) (r : StationRecord) (s : State) :
    Touches [.stations, .holderLaw] s (setStation p r s) := by
  intro a ha
  cases a <;> first
    | exact (ha (by decide)).elim
    | rfl
    | exact id
    | exact ⟨rfl, rfl⟩
    | exact ⟨rfl, rfl, rfl⟩
    | exact ⟨rfl, rfl, rfl, rfl⟩
    | exact List.Sublist.refl _
    | exact fun _ => ⟨rfl, rfl⟩
    | exact fun _ => rfl
    | exact fun _ h => ⟨Nat.le_refl _, h⟩
    | exact fun _ h => h

/-- A station record that leaves no ACTIVE station in another state. -/
theorem setStation_kept {p : Nat} {r : StationRecord} {s : State}
    (h : (station s p).state = .active → r.state = .active) : Touches [.stations] s (setStation p r s) := by
  refine Touches.keep (a := .holderLaw) (l := [.stations]) (setStation_touches p r s).mono fun hl => ?_
  refine ⟨hl.1, hl.2.1, hl.2.2.1, hl.2.2.2.1, fun e he => ?_⟩
  have h1 : activeAt s (posOfAddress s e.station) = true := hl.2.2.2.2 e he
  show activeAt (setStation p r s) (posOfAddress s e.station) = true
  cases hq : posOfAddress s e.station with
  | none => rw [hq] at h1; exact absurd h1 (by simp [activeAt])
  | some q =>
    rw [hq] at h1
    have h2 : (station s q).state = .active := by simpa [activeAt] using h1
    have h3 : (station (setStation p r s) q).state = .active := by
      rw [station_setStation]
      split
      · next hp => exact h (by rw [hp.1]; exact h2)
      · exact h2
    simpa [activeAt] using h3

theorem setAlignment_touches (p : Nat) (x : Alignment) (s : State) : Touches [.align] s (setAlignment p x s) := by
  intro a ha
  cases a <;> first
    | exact (ha (by decide)).elim
    | rfl
    | exact id
    | exact ⟨rfl, rfl⟩
    | exact ⟨rfl, rfl, rfl⟩
    | exact ⟨rfl, rfl, rfl, rfl⟩
    | exact List.Sublist.refl _
    | exact fun _ => ⟨rfl, rfl⟩
    | exact fun _ => rfl
    | exact fun _ h => ⟨Nat.le_refl _, h⟩
    | exact fun _ h => h

theorem setRegRec_touches (n : Nat) (r : RegRecord) (s : State) :
    Touches [.regs, .valveLaw] s (setRegRec n r s) := by
  intro a ha
  cases a <;> first
    | exact (ha (by decide)).elim
    | rfl
    | exact id
    | exact ⟨rfl, rfl⟩
    | exact ⟨rfl, rfl, rfl⟩
    | exact ⟨rfl, rfl, rfl, rfl⟩
    | exact List.Sublist.refl _
    | exact fun _ => ⟨rfl, rfl⟩
    | exact fun _ => rfl
    | exact fun _ h => ⟨Nat.le_refl _, h⟩
    | exact fun _ h => h

/-- A record that fits its mode where the old one did keeps R120. -/
theorem setRegRec_valve {n : Nat} {r : RegRecord} {s : State}
    (h : (∀ m, (modeEntry s m).vmin ≤ (modeEntry s m).vmax) → ValveFits s (regRec s n) → ValveFits s r) :
    ValveLaw s → ValveLaw (setRegRec n r s) := by
  intro hs
  refine ⟨hs.1, fun m h1 h2 => ?_⟩
  rw [regRec_setRegRec]
  split
  · next hm =>
    have := h hs.1 (by rw [hm.1]; exact hs.2 m h1 h2)
    exact this
  · exact hs.2 m h1 h2

/-- A regulator record that fits its mode where the old one did. -/
theorem setRegRec_fits {n : Nat} {r : RegRecord} {s : State}
    (h : (∀ m, (modeEntry s m).vmin ≤ (modeEntry s m).vmax) → ValveFits s (regRec s n) → ValveFits s r) :
    Touches [.regs] s (setRegRec n r s) :=
  Touches.keep (a := .valveLaw) (l := [.regs]) (setRegRec_touches n r s).mono (setRegRec_valve h)

/-- A regulator record that keeps the oven's mode and valve. -/
theorem setRegRec_kept {n : Nat} {r : RegRecord} {s : State}
    (hm : r.mode = (regRec s n).mode) (hv : r.valve = (regRec s n).valve) : Touches [.regs] s (setRegRec n r s) :=
  setRegRec_fits fun _ k => by unfold ValveFits at *; rw [hm, hv]; exact k

theorem setTask_touches (side : DoorSide) (r : TaskRecord) (s : State) : Touches [.tasks] s (setTask side r s) := by
  cases side <;>
    (intro a ha
     cases a <;> first
    | exact (ha (by decide)).elim
    | rfl
    | exact id
    | exact ⟨rfl, rfl⟩
    | exact ⟨rfl, rfl, rfl⟩
    | exact ⟨rfl, rfl, rfl, rfl⟩
    | exact List.Sublist.refl _
    | exact fun _ => ⟨rfl, rfl⟩
    | exact fun _ => rfl
    | exact fun _ h => ⟨Nat.le_refl _, h⟩
    | exact fun _ h => h)

theorem setDoorRec_touches (d : Door) (r : DoorRecord) (s : State) :
    Touches [.doors, .leakLaw] s (setDoorRec d r s) := by
  intro a ha
  cases a <;> first
    | exact (ha (by decide)).elim
    | rfl
    | exact id
    | exact ⟨rfl, rfl⟩
    | exact ⟨rfl, rfl, rfl⟩
    | exact ⟨rfl, rfl, rfl, rfl⟩
    | exact List.Sublist.refl _
    | exact fun _ => ⟨rfl, rfl⟩
    | exact fun _ => rfl
    | exact fun _ h => ⟨Nat.le_refl _, h⟩
    | exact fun _ h => h

/-- What R106 reads of a door record is kept. -/
def KeepsLeak (r r' : DoorRecord) : Prop := r'.state = r.state ∧ r'.severity = r.severity ∧ r'.listed = r.listed

/-- R106 reads of the door records no more than state, severity and listed flag. -/
theorem LeakLaw.of_kept {s t : State} (hl : t.dsm.leaks = s.dsm.leaks) (h : ∀ d, KeepsLeak (doorRec s d) (doorRec t d)) :
    LeakLaw s → LeakLaw t := by
  intro hs
  unfold LeakLaw at *
  have hm : ∀ d, isMajor t d = isMajor s d := fun d => by unfold isMajor severityOf; rw [(h d).2.1]
  simp only [hl, hm, (h _).1, (h _).2.1, (h _).2.2]
  exact hs

/-- A door record written with its state, severity and listed flag kept. -/
theorem setDoorRec_kept {d : Door} {r : DoorRecord} {s : State} (h : KeepsLeak (doorRec s d) r) :
    Touches [.doors] s (setDoorRec d r s) := by
  refine Touches.keep (a := .leakLaw) (l := [.doors]) (setDoorRec_touches d r s).mono (LeakLaw.of_kept rfl fun e => ?_)
  rw [doorRec_setDoorRec]
  split
  · next he => rw [← he.1]; exact h
  · exact ⟨rfl, rfl, rfl⟩

theorem setCarRec_touches (c : Nat) (r : CarRecord) (s : State) :
    Touches [.cars, .places, .trackLaw, .listLaw] s (setCarRec c r s) := by
  intro a ha
  cases a <;> first
    | exact (ha (by decide)).elim
    | rfl
    | exact id
    | exact ⟨rfl, rfl⟩
    | exact ⟨rfl, rfl, rfl⟩
    | exact ⟨rfl, rfl, rfl, rfl⟩
    | exact List.Sublist.refl _
    | exact fun _ => ⟨rfl, rfl⟩
    | exact fun _ => rfl
    | exact fun _ h => ⟨Nat.le_refl _, h⟩
    | exact fun _ h => h

theorem onRun_touches (f : RunRecord → RunRecord) (s : State) :
    Touches [.run, .stretch, .runLaw] s (onRun f s) := by
  intro a ha
  cases a <;> first
    | exact (ha (by decide)).elim
    | rfl
    | exact id
    | exact ⟨rfl, rfl⟩
    | exact ⟨rfl, rfl, rfl⟩
    | exact ⟨rfl, rfl, rfl, rfl⟩
    | exact List.Sublist.refl _
    | exact fun _ => ⟨rfl, rfl⟩
    | exact fun _ => rfl
    | exact fun _ h => ⟨Nat.le_refl _, h⟩
    | exact fun _ h => h

/-- A change of the run record within one run. -/
theorem onRun_within {f : RunRecord → RunRecord} {s : State}
    (h : (f s.run).start = s.run.start ∧ (f s.run).requested = s.run.requested) :
    Touches [.run, .runLaw] s (onRun f s) :=
  Touches.keep (a := .stretch) (l := [.run, .runLaw]) (onRun_touches f s).mono h

/-- What R49 counts and what a RUN sets are kept. -/
def KeepsCounts (f : RunRecord → RunRecord) (r : RunRecord) : Prop :=
  (f r).pushed = r.pushed ∧ (f r).skipped = r.skipped ∧ (f r).residual = r.residual ∧ (f r).requested = r.requested ∧
    (f r).start = r.start

/-- A change of the run record that keeps its counts and starts no run. -/
theorem onRun_kept {f : RunRecord → RunRecord} {s : State} (hc : KeepsCounts f s.run)
    (he : (f s.run).engaged = true → s.run.engaged = true) : Touches [.run] s (onRun f s) := by
  refine Touches.keep (a := .runLaw) (l := [.run]) (onRun_within ⟨hc.2.2.2.2, hc.2.2.2.1⟩).mono fun h => ?_
  unfold RunLaw at *
  have hr : (onRun f s).run = f s.run := rfl
  rw [hr, hc.1, hc.2.1, hc.2.2.1, hc.2.2.2.1]
  exact ⟨h.1, fun x => h.2 (he x)⟩

/-! ## The control transmit queue -/

/-- The pairwise part of R142. -/
abbrev copiesApart (a b : QueueItem) : Bool :=
  !(isPositionCopy a.telegram.source a && isPositionCopy a.telegram.source b)

theorem isPositionCopy_source {x y : Byte} {a : QueueItem} (h : isPositionCopy x a = true) (h' : x = y) :
    isPositionCopy y a = true := h' ▸ h

theorem isPositionCopy_own {x : Byte} {a : QueueItem} (h : isPositionCopy x a = true) : a.telegram.source = x := by
  unfold isPositionCopy at h
  simp only [Bool.and_eq_true, decide_eq_true_eq] at h
  exact h.2

theorem pairwise_append_one {q : List QueueItem} {i : QueueItem} (hq : q.Pairwise (copiesApart · ·))
    (hi : ∀ a ∈ q, copiesApart a i = true) : (q ++ [i]).Pairwise (copiesApart · ·) := by
  rw [List.pairwise_append]
  exact ⟨hq, List.pairwise_singleton _ _, fun a ha b hb => by
    rw [List.mem_singleton] at hb; subst hb; exact hi a ha⟩

/-- An item is apart from a queue that holds no POSITION copy of its source, and any item but a POSITION copy is. -/
theorem apart_of_none {q : List QueueItem} {i : QueueItem}
    (h : isPositionCopy i.telegram.source i = true → q.any (isPositionCopy i.telegram.source) = false) :
    ∀ a ∈ q, copiesApart a i = true := by
  intro a ha
  by_cases hi : isPositionCopy i.telegram.source i = true
  · have hn := List.any_eq_false.mp (h hi) a ha
    cases hc : copiesApart a i with
    | true => rfl
    | false =>
      simp only [copiesApart, Bool.not_eq_false', Bool.and_eq_true] at hc
      have hs := isPositionCopy_own hc.2
      rw [← hs] at hc
      exact (hn hc.1).elim
  · cases hc : copiesApart a i with
    | true => rfl
    | false =>
      simp only [copiesApart, Bool.not_eq_false', Bool.and_eq_true] at hc
      have hs := isPositionCopy_own hc.2
      rw [← hs] at hc
      exact (hi hc.2).elim

/-- Taking the one POSITION copy of a source out leaves none. -/
theorem eraseP_none {q : List QueueItem} {x : Byte} (hq : q.Pairwise (copiesApart · ·)) :
    (q.eraseP (isPositionCopy x)).any (isPositionCopy x) = false := by
  induction q with
  | nil => rfl
  | cons b q ih =>
    rw [List.pairwise_cons] at hq
    by_cases hb : isPositionCopy x b = true
    · rw [List.eraseP_cons_of_pos hb]
      rw [List.any_eq_false]
      intro a ha hx
      have hs := isPositionCopy_own hb
      have := hq.1 a ha
      simp only [copiesApart, hs, hb, hx, Bool.and_self, Bool.not_true] at this
      exact absurd this (by decide)
    · rw [List.eraseP_cons_of_neg hb, List.any_cons, ih hq.2]
      simpa using hb

theorem eraseP_length_lt {q : List QueueItem} {f : QueueItem → Bool} (h : q.any f = true) :
    (q.eraseP f).length + 1 = q.length := by
  obtain ⟨a, ha, hf⟩ := List.any_eq_true.mp h
  have := List.length_eraseP_of_mem ha hf
  have : 0 < q.length := List.length_pos_of_mem ha
  omega

theorem queueAfter_law {q : List QueueItem} (i : QueueItem) (hl : q.length ≤ 32)
    (hq : q.Pairwise (copiesApart · ·)) :
    (queueAfter q i).length ≤ 32 ∧ (queueAfter q i).Pairwise (copiesApart · ·) := by
  unfold queueAfter
  split
  · next h =>
    rw [Bool.and_eq_true] at h
    have hn := eraseP_none (x := i.telegram.source) hq
    have := eraseP_length_lt h.2
    refine ⟨by rw [List.length_append]; simp only [List.length_singleton]; omega, ?_⟩
    exact pairwise_append_one (hq.sublist List.eraseP_sublist) (apart_of_none fun _ => hn)
  · next h =>
    have hnone : isPositionCopy i.telegram.source i = true → q.any (isPositionCopy i.telegram.source) = false := by
      intro hi
      simpa [hi] using h
    have hsub {l : List QueueItem} (hs : l.Sublist q) : ∀ a ∈ l, copiesApart a i = true :=
      fun a ha => apart_of_none hnone a (hs.subset ha)
    split
    · exact ⟨by rw [List.length_append]; simp only [List.length_singleton]; omega,
        pairwise_append_one hq (apart_of_none hnone)⟩
    · split
      · next hc =>
        have := eraseP_length_lt hc
        exact ⟨by rw [List.length_append]; simp only [List.length_singleton]; omega,
          pairwise_append_one (hq.sublist List.eraseP_sublist) (hsub List.eraseP_sublist)⟩
      · split
        · next hc =>
          rw [Bool.and_eq_true] at hc
          have := eraseP_length_lt hc.2
          exact ⟨by rw [List.length_append]; simp only [List.length_singleton]; omega,
            pairwise_append_one (hq.sublist List.eraseP_sublist) (hsub List.eraseP_sublist)⟩
        · exact ⟨hl, hq⟩

theorem startTransmitter_sublist (c : ControlPort) : (startTransmitter c).queue.Sublist c.queue := by
  obtain ⟨x, q, g, d⟩ := c
  cases g <;> cases q <;> first
    | exact List.Sublist.refl _
    | exact fun _ => ⟨rfl, rfl⟩
    | exact fun _ => rfl
    | exact fun _ h => ⟨Nat.le_refl _, h⟩
    | exact List.sublist_cons_self _ _

theorem startTransmitter_rest (c : ControlPort) :
    (startTransmitter c).assembling = c.assembling ∧ (startTransmitter c).discards = c.discards := by
  obtain ⟨x, q, g, d⟩ := c
  cases g <;> cases q <;> exact ⟨rfl, rfl⟩

theorem startTransmitter_law {c : ControlPort} (hl : c.queue.length ≤ 32) (hq : c.queue.Pairwise (copiesApart · ·)) :
    (startTransmitter c).queue.length ≤ 32 ∧ (startTransmitter c).queue.Pairwise (copiesApart · ·) :=
  ⟨Nat.le_trans (startTransmitter_sublist c).length_le hl, hq.sublist (startTransmitter_sublist c)⟩

theorem enqueue_touches (i : QueueItem) (s : State) : Touches [.transmit] s (enqueue i s) := by
  intro a ha
  cases a <;> first
    | exact (ha (by decide)).elim
    | rfl
    | exact id
    | exact ⟨rfl, rfl⟩
    | exact ⟨rfl, rfl, rfl⟩
    | exact ⟨rfl, rfl, rfl, rfl⟩
    | exact List.Sublist.refl _
    | exact fun _ => ⟨rfl, rfl⟩
    | exact fun _ => rfl
    | exact fun _ h => ⟨Nat.le_refl _, h⟩
    | exact fun _ h => h
    | exact (startTransmitter_rest _).1
    | exact (startTransmitter_rest _).2
    | (intro h
       have hq := queueAfter_law i h.1 h.2
       exact startTransmitter_law (c := { s.cpi with queue := queueAfter s.cpi.queue i }) hq.1 hq.2)

theorem onCounts_touches (f : Vector Nat 24 → Vector Nat 24) (s : State) :
    Touches [.counts, .tally, .countLaw] s (s.onMgt fun m => { m with counts := f m.counts }) := by
  intro a ha
  cases a <;> first
    | exact (ha (by decide)).elim
    | rfl
    | exact id
    | exact ⟨rfl, rfl⟩
    | exact ⟨rfl, rfl, rfl⟩
    | exact ⟨rfl, rfl, rfl, rfl⟩
    | exact List.Sublist.refl _
    | exact fun _ => ⟨rfl, rfl⟩
    | exact fun _ => rfl
    | exact fun _ h => ⟨Nat.le_refl _, h⟩
    | exact fun _ h => h

/-- A count raised by one, saturating, neither falls nor passes 255. -/
theorem countUp_touches (i : Nat) (s : State) :
    Touches [.counts] s (s.onMgt fun m => { m with counts := writeAt m.counts i (min 255 (readAt m.counts i 0 + 1)) }) := by
  have h := onCounts_touches (fun c => writeAt c i (min 255 (readAt c i 0 + 1))) s
  suffices k : Aspect.tally.same s (s.onMgt fun m => { m with counts := writeAt m.counts i (min 255 (readAt m.counts i 0 + 1)) }) from
    Touches.keep (a := .tally) (l := [.counts]) (Touches.keep (a := .countLaw) (l := [.tally, .counts]) h.mono
      fun hc j => (k j (hc j)).2) k
  intro j hj
  unfold countAt at *
  simp only [State.onMgt_mgt, readAt_writeAt]
  split
  · next h => rw [h.1]; omega
  · omega

theorem raise_touches (k : EventKind) (oven st : Nat) (detail : Int) (s : State) :
    Touches [.counts, .transmit] s (raise k oven st detail s) := by
  have h := countUp_touches (k.code - 1) s
  unfold raise
  dsimp only
  split
  · exact (h.trans (enqueue_touches _ _)).mono
  · exact h.mono

theorem refuseControl_touches (kind oven reason : Nat) (s : State) :
    Touches [.transmit] s (refuseControl kind oven reason s) := enqueue_touches _ _

theorem queueCopy_touches (t : Telegram) (s : State) : Touches [.transmit] s (queueCopy t s) := enqueue_touches _ _

/-! ## Outbound records -/

theorem setOutbound_touches (p : Nat) (o : Outbound) (s : State) :
    Touches [.outbound, .halts, .answers] s (setOutbound p o s) := by
  intro a ha
  cases a <;> first
    | exact (ha (by decide)).elim
    | rfl
    | exact id
    | exact ⟨rfl, rfl⟩
    | exact ⟨rfl, rfl, rfl⟩
    | exact ⟨rfl, rfl, rfl, rfl⟩
    | exact List.Sublist.refl _
    | exact fun _ => ⟨rfl, rfl⟩
    | exact fun _ => rfl
    | exact fun _ h => ⟨Nat.le_refl _, h⟩
    | exact fun _ h => h

/-- What a waiting HALT is. -/
theorem haltWaits_iff (s : State) (p : Nat) :
    haltWaits s p = true ↔ ∃ w, (outbound s p).order = some w ∧ isHalt w = true := by
  unfold haltWaits
  cases (outbound s p).order with
  | none => simp
  | some w => simp

/-- An outbound record written with a HALT where one waited. -/
theorem setOutbound_kept {p : Nat} {o : Outbound} {s : State}
    (h : haltWaits s p = true → ∃ w, o.order = some w ∧ isHalt w = true) :
    Touches [.outbound, .answers] s (setOutbound p o s) := by
  refine Touches.keep (a := .halts) (l := [.outbound, .answers]) (setOutbound_touches p o s).mono ?_
  intro q hq
  rw [haltWaits_iff, outbound_setOutbound]
  by_cases hp : p = q ∧ q < 24
  · rw [if_pos hp]; exact h (by rw [hp.1]; exact hq)
  · rw [if_neg hp]; exact (haltWaits_iff s q).mp hq

/-- An outbound record written with the answer that waited. -/
theorem setOutbound_answers {p : Nat} {o : Outbound} {s : State}
    (h : o.answer.map Answer.body = answerAt s p) : Touches [.outbound, .halts] s (setOutbound p o s) := by
  refine Touches.keep (a := .answers) (l := [.outbound, .halts]) (setOutbound_touches p o s).mono ?_
  intro q
  unfold answerAt
  rw [outbound_setOutbound]
  by_cases hp : p = q ∧ q < 24
  · rw [if_pos hp, h, hp.1]; rfl
  · rw [if_neg hp]

/-- An outbound record written with the answer that waited, and a HALT where one waited. -/
theorem setOutbound_both {p : Nat} {o : Outbound} {s : State}
    (h : haltWaits s p = true → ∃ w, o.order = some w ∧ isHalt w = true)
    (ha : o.answer.map Answer.body = answerAt s p) : Touches [.outbound] s (setOutbound p o s) :=
  Touches.keep (a := .answers) (l := [.outbound]) (setOutbound_kept h).mono
    (setOutbound_answers ha .answers (by decide))

theorem placeAnswer_touches (p : Nat) (x : AnswerBody) (s : State) : Touches [.outbound, .answers] s (placeAnswer p x s) :=
  setOutbound_kept fun h => (haltWaits_iff s p).mp h

theorem orderLeftUndelivered_touches (p : Nat) (o : Order) (s : State) :
    Touches [.tasks] s (orderLeftUndelivered p o s) := by
  unfold orderLeftUndelivered
  split
  · split
    · exact setTask_touches _ _ _
    · exact .refl _ _
  · exact .refl _ _

/-- An order put where no other order than a HALT may stand over a HALT. -/
theorem putOrder_touches {p : Nat} {o : Order} {s : State} (h : haltWaits s p = true → isHalt o = true) :
    Touches [.outbound, .tasks] s (putOrder p o s) := by
  unfold putOrder
  split
  · next hn =>
    refine Touches.mono (l := [.outbound]) (setOutbound_both (fun hw => ?_) rfl)
    obtain ⟨w, h1, _⟩ := (haltWaits_iff s p).mp hw
    rw [hn] at h1; exact absurd h1 (by simp)
  · next w hw =>
    split
    · next hh =>
      refine Touches.mono (l := [.outbound]) (setOutbound_both (fun k => ⟨_, rfl, ?_⟩) rfl)
      have := h k
      unfold isHalt at *
      exact this
    · next hh =>
      have hk : Touches [.outbound] s (setOutbound p { outbound s p with order := some o } s) :=
        setOutbound_both (fun hw' => by
          obtain ⟨w', h1, h2⟩ := (haltWaits_iff s p).mp hw'
          rw [hw] at h1
          injection h1 with h1
          subst h1
          exact absurd h2 hh) rfl
      exact (hk.trans (orderLeftUndelivered_touches _ _ _)).mono

/-- After an order is put, it stands in the slot, for all but whether a poll carries it. -/
theorem putOrder_order {p : Nat} (hp : p < 24) (o : Order) (s : State) :
    ∃ b, (outbound (putOrder p o s) p).order = some { o with carried := b } ∨
      (outbound (putOrder p o s) p).order = some o := by
  have key : ∀ (w : Order) (u : State), outbound (orderLeftUndelivered p w u) p = outbound u p := by
    intro w u
    have := orderLeftUndelivered_touches p w u .outbound (by decide)
    unfold outbound
    rw [show (orderLeftUndelivered p w u).fpl.outbound = u.fpl.outbound from this]
  unfold putOrder
  split
  · exact ⟨false, Or.inr (by rw [outbound_setOutbound]; simp [hp])⟩
  · next w hw =>
    split
    · exact ⟨w.carried, Or.inl (by rw [outbound_setOutbound]; simp [hp])⟩
    · exact ⟨false, Or.inr (by rw [key, outbound_setOutbound]; simp [hp])⟩

theorem offerOrder_touches {p : Nat} {o : Order} {s t : State} (h : offerOrder p o s = some t) :
    Touches [.outbound, .tasks] s t := by
  unfold offerOrder at h
  split at h
  · next w hw =>
    split at h
    · exact absurd h (by simp)
    · next hc =>
      injection h with h
      subst h
      refine putOrder_touches fun hh => ?_
      obtain ⟨w', h1, h2⟩ := (haltWaits_iff s p).mp hh
      rw [hw] at h1
      injection h1 with h1
      subst h1
      simpa [h2] using hc
  · next hw =>
    injection h with h
    subst h
    refine putOrder_touches fun hh => ?_
    obtain ⟨w', h1, _⟩ := (haltWaits_iff s p).mp hh
    rw [hw] at h1
    exact absurd h1 (by simp)

theorem isHalt_haltOrder (s : State) (origin : Origin) (p reason : Nat) : isHalt (haltOrder s origin p reason) = true := by
  have : kindOf (haltOrder s origin p reason).telegram = Kind.halt := by
    show (BitVec.ofNat 8 (Kind.halt + if true = true then 128 else 0)).toNat % 128 = Kind.halt
    decide
  unfold isHalt
  simp [this]

theorem placeHalt_touches (origin : Origin) (reason : Nat) (p : Option Nat) (s : State) :
    Touches [.outbound, .tasks] s (placeHalt origin reason p s) := by
  unfold placeHalt
  split
  · exact putOrder_touches fun _ => isHalt_haltOrder _ _ _ _
  · exact .refl _ _

end Sys2Proof.Machine
end

