-- ==== Sys2Proof/Laws/Regulator.lean ====
section
/-!
SUPPORT. What the operations of the offtake pressure regulator may touch, and that they keep R120.
-/

set_option Elab.async false
namespace Sys2Proof.Machine

open Sys2Proof

theorem markDirty_touches (i : Nat) (s : State) : Touches [.dirty] s (markDirty i s) := by
  intro a ha
  cases a <;> first
    | exact (ha (by decide)).elim
    | rfl
    | exact id
    | exact ⟨rfl, rfl⟩
    | exact ⟨rfl, rfl, rfl⟩
    | exact ⟨rfl, rfl, rfl, rfl⟩
    | exact List.Sublist.refl _
    | exact fun _ => ⟨rfl, rfl⟩
    | exact fun _ => rfl
    | exact fun _ h => ⟨Nat.le_refl _, h⟩
    | exact fun _ h => h

theorem modeEntry_markDirty (i : Nat) (s : State) (m : PressureMode) :
    modeEntry (markDirty i s) m = modeEntry s m := rfl

/-- A valve position clamped to limits that do not cross lies between them. -/
theorem clampValve_fits {e : ModeEntry} (h : e.vmin ≤ e.vmax) (v : Nat) :
    e.vmin ≤ clampValve e v ∧ clampValve e v ≤ e.vmax := by
  unfold clampValve
  omega

theorem putReg_fits {n : Nat} {r : RegRecord} {s : State}
    (h : (∀ m, (modeEntry s m).vmin ≤ (modeEntry s m).vmax) → ValveFits s (regRec s n) → ValveFits s r) :
    Touches [.regs, .dirty] s (putReg n r s) := by
  unfold putReg
  split
  · exact (setRegRec_fits h).mono
  · exact (setRegRec_fits h).mono.seq (markDirty_touches _ _).mono

theorem inMode_mode (m : PressureMode) (e : ModeEntry) (r : RegRecord) : (inMode m e r).mode = m := by
  unfold inMode
  dsimp only
  split <;> rfl

theorem inMode_valve (m : PressureMode) (e : ModeEntry) (r : RegRecord) :
    (inMode m e r).valve = clampValve e r.valve := by
  unfold inMode
  dsimp only
  split <;> rfl

theorem oprDerive_touches (n : Nat) (s : State) : Touches [.regs, .dirty] s (oprDerive n s) := by
  unfold oprDerive
  dsimp only
  split
  · exact .refl _ _
  · refine putReg_fits fun h _ => ?_
    unfold ValveFits
    rw [inMode_mode, inMode_valve]
    exact clampValve_fits (h _) _

theorem oprDeriveAll_touches (l : List Nat) (s : State) : Touches [.regs, .dirty] s (oprDeriveAll l s) :=
  Touches.foldl l (fun s n => oprDerive_touches n s) s

/-- One oven of R118's clamping. -/
theorem clampOne_touches (n : Nat) (s : State) :
    Touches [.regs, .dirty] s
      (putReg n { regRec s n with valve := clampValve (modeEntry s (regRec s n).mode) (regRec s n).valve } s) :=
  putReg_fits fun h _ => clampValve_fits (h _) _

theorem oprClampAll_touches (s : State) : Touches [.regs, .dirty] s (oprClampAll s) :=
  Touches.foldl allOvens (fun s n => clampOne_touches n s) s

theorem regRec_putReg (n m : Nat) (r : RegRecord) (s : State) :
    regRec (putReg n r s) m = if n = m ∧ 1 ≤ m ∧ m ≤ 128 then r else regRec s m := by
  unfold putReg
  split
  · exact regRec_setRegRec _ _ _ _
  · exact regRec_setRegRec _ _ _ _

theorem modeEntry_putReg (n : Nat) (r : RegRecord) (s : State) (m : PressureMode) :
    modeEntry (putReg n r s) m = modeEntry s m := by
  unfold putReg
  split <;> rfl

/-- After the clamping of some ovens those ovens fit their modes, whatever the limits were before (R118). -/
theorem clampFold_fits (l : List Nat) (s : State) (h : ∀ m, (modeEntry s m).vmin ≤ (modeEntry s m).vmax) (n : Nat)
    (hn : 1 ≤ n ∧ n ≤ 128) (hf : n ∈ l ∨ ValveFits s (regRec s n)) :
    let t := l.foldl
      (fun s n => putReg n
        { regRec s n with valve := clampValve (modeEntry s (regRec s n).mode) (regRec s n).valve } s) s
    ValveFits t (regRec t n) ∧ ∀ m, (modeEntry t m).vmin ≤ (modeEntry t m).vmax := by
  induction l generalizing s with
  | nil =>
    rcases hf with hf | hf
    · exact absurd hf (List.not_mem_nil)
    · exact ⟨hf, h⟩
  | cons k l ih =>
    refine ih _ (fun m => by rw [modeEntry_putReg]; exact h m) ?_
    by_cases hk : k = n
    · right
      unfold ValveFits
      rw [regRec_putReg, if_pos ⟨hk, hn⟩, modeEntry_putReg]
      exact hk ▸ clampValve_fits (h _) _
    · have hr : ∀ r, regRec (putReg k r s) n = regRec s n := fun r => by
        rw [regRec_putReg, if_neg fun x => hk x.1]
      rcases hf with hf | hf
      · rcases List.mem_cons.mp hf with hx | hx
        · exact absurd hx.symm hk
        · exact Or.inl hx
      · right
        unfold ValveFits at *
        rw [hr, modeEntry_putReg]
        exact hf

theorem mem_allOvens {n : Nat} (h : 1 ≤ n ∧ n ≤ 128) : n ∈ allOvens := by
  unfold allOvens
  rw [List.mem_map]
  exact ⟨n - 1, List.mem_range.mpr (by omega), by omega⟩

/-- The clamping of R118 makes R120 hold wherever no limits cross. -/
theorem oprClampAll_law {s : State} (h : ∀ m, (modeEntry s m).vmin ≤ (modeEntry s m).vmax) :
    ValveLaw (oprClampAll s) :=
  ⟨(clampFold_fits allOvens s h 1 (by omega) (Or.inl (mem_allOvens (by omega)))).2,
    fun n h1 h2 => (clampFold_fits allOvens s h n ⟨h1, h2⟩ (Or.inl (mem_allOvens ⟨h1, h2⟩))).1⟩

theorem countLimit_touches (n : Nat) (e avg : Int) (s : State) :
    Touches [.regs, .counts, .transmit] s (countLimit n e avg s) := by
  unfold countLimit
  extract_lets r dir same count said due s1
  have h : Touches [.regs, .counts, .transmit] s s1 := Touches.mono (l := [.regs]) (setRegRec_kept rfl rfl)
  refine .ite (fun _ => ?_) (fun _ => h)
  exact h.seq (raise_touches _ _ _ _ _).mono

theorem oprStep_touches (n : Nat) (e avg : Int) (s : State) :
    Touches [.regs, .dirty, .counts, .transmit] s (oprStep n e avg s) := by
  unfold oprStep
  extract_lets r v
  refine .ite (fun _ => (countLimit_touches _ _ _ _).mono) (fun _ => ?_)
  exact (putReg_fits fun h _ => by unfold ValveFits; exact clampValve_fits (h _) _).mono

theorem oprUpdate_touches (n : Nat) (s : State) :
    Touches [.regs, .dirty, .counts, .transmit] s (oprUpdate n s) := by
  unfold oprUpdate
  extract_lets r
  have hc : ∀ b, Touches [.regs] s (setRegRec n { r with correcting := b } s) := fun b => setRegRec_kept rfl rfl
  split
  · exact .refl _ _
  · refine .ite (fun _ => .refl _ _) (fun _ => ?_)
    extract_lets e
    refine .ite (fun _ => ?_) (fun _ => ?_)
    · refine .ite (fun _ => ?_) (fun _ => oprStep_touches _ _ _ _)
      exact Touches.mono (l := [.regs]) (setRegRec_kept rfl rfl)
    · refine .ite (fun _ => ?_) (fun _ => .refl _ _)
      exact (hc true).mono.seq (oprStep_touches _ _ _ _)

theorem oprPressure_touches (n : Nat) (p : Int) (s : State) :
    Touches [.regs, .dirty, .counts, .transmit] s (oprPressure n p s) := by
  unfold oprPressure
  extract_lets r window count s1 s2
  refine .ite (fun _ => Touches.mono (l := [.regs]) (setRegRec_kept rfl rfl)) (fun _ => ?_)
  refine .ite (fun _ => .refl _ _) (fun _ => ?_)
  have h : Touches [.regs] s s1 := setRegRec_kept rfl rfl
  refine .ite (fun _ => ?_) (fun _ => h.mono)
  have h2 : Touches [.regs, .dirty, .counts, .transmit] s s2 := h.mono.seq (oprUpdate_touches n s1)
  exact h2.seq (setRegRec_kept (n := n) (r := { regRec s2 n with updates := 0 }) rfl rfl).mono

theorem oprFeedback_touches (n fb : Nat) (s : State) : Touches [.regs] s (oprFeedback n fb s) :=
  setRegRec_kept rfl rfl

theorem oprMismatch_touches (n fb : Nat) (s : State) :
    Touches [.regs, .counts, .transmit] s (oprMismatch n fb s) := by
  unfold oprMismatch
  extract_lets r count due s1
  refine .ite (fun _ => .refl _ _) (fun _ => ?_)
  refine .ite (fun _ => Touches.mono (l := [.regs]) (setRegRec_kept rfl rfl)) (fun _ => ?_)
  refine .ite (fun _ => ?_) (fun _ => Touches.mono (l := [.regs]) (setRegRec_kept rfl rfl))
  have h : Touches [.regs] s s1 := setRegRec_kept rfl rfl
  exact .ite (fun _ => h.mono.seq (raise_touches _ _ _ _ _).mono) (fun _ => h.mono)

theorem markMoved_touches (b s : State) : Touches [.dirty] s (markMoved b s) :=
  Touches.foldl _ (fun s i => markDirty_touches i s) s

theorem oprStationLeft_touches (inst : Nat) (s : State) : Touches [.regs, .dirty] s (oprStationLeft inst s) :=
  (Touches.foldl (l := [.regs, .dirty]) (ovensOf s inst)
    (fun s n => (setRegRec_kept (n := n) (r := heldRecord (regRec s n)) rfl rfl).mono) s).seq
    (markDirty_touches _ _).mono

/-- A record of a table changed alike throughout. -/
theorem readNum_map' {α : Type} {n : Nat} (f : α → α) (t : Vector α n) (k : Nat) (hk : 1 ≤ k) (hn : k ≤ n) (d : α) :
    readNum (t.map f) k d = f (readNum t k d) := by
  unfold readNum readAt
  have h0 : ¬ k = 0 := by omega
  have h1 : k - 1 < n := by omega
  simp [h0, h1]

/-- Every record changed alike, mode and valve kept. -/
theorem mapRecords_touches {f : RegRecord → RegRecord} (s : State)
    (hf : ∀ r, (f r).mode = r.mode ∧ (f r).valve = r.valve) :
    Touches [.regs] s (s.onOpr fun o => { o with records := o.records.map f }) := by
  intro a ha
  cases a <;> first
    | exact (ha (by decide)).elim
    | rfl
    | exact id
    | exact ⟨rfl, rfl⟩
    | exact ⟨rfl, rfl, rfl⟩
    | exact ⟨rfl, rfl, rfl, rfl⟩
    | exact List.Sublist.refl _
    | exact fun _ => ⟨rfl, rfl⟩
    | exact fun _ => rfl
    | exact fun _ h => ⟨Nat.le_refl _, h⟩
    | exact fun _ h => h
    | skip
  intro h
  refine ⟨h.1, fun n h1 h2 => ?_⟩
  have hr : regRec (s.onOpr fun o => { o with records := o.records.map f }) n = f (regRec s n) := by
    unfold regRec
    exact readNum_map' f _ _ h1 h2 _
  unfold ValveFits at *
  rw [hr, (hf _).1, (hf _).2]
  exact h.2 n h1 h2

theorem oprReweigh_touches (s : State) : Touches [.regs] s (oprReweigh s) :=
  mapRecords_touches s fun _ => ⟨rfl, rfl⟩

/-- Every oven record changed alike, its stamp kept. -/
theorem mapOvens_touches {f : OvenRecord → OvenRecord} (s : State) (hf : ∀ r, (f r).stamp = r.stamp) :
    Touches [.ovens] s (s.onOvt fun o => { o with ovens := o.ovens.map f }) := by
  intro a ha
  cases a <;> first
    | exact (ha (by decide)).elim
    | rfl
    | exact id
    | exact ⟨rfl, rfl⟩
    | exact ⟨rfl, rfl, rfl⟩
    | exact ⟨rfl, rfl, rfl, rfl⟩
    | exact List.Sublist.refl _
    | exact fun _ => ⟨rfl, rfl⟩
    | exact fun _ => rfl
    | exact fun _ h => ⟨Nat.le_refl _, h⟩
    | exact fun _ h => h
    | skip
  intro h n h1 h2
  have hr : ovenRec (s.onOvt fun o => { o with ovens := o.ovens.map f }) n = f (ovenRec s n) := by
    unfold ovenRec
    exact readNum_map' f _ _ h1 h2 _
  rw [hr, hf]
  exact h n h1 h2

theorem oprWarm_touches (s : State) : Touches [.ovens, .regs] s (oprWarm s) :=
  Touches.seq
    (Touches.mono (l := [.regs]) (mapRecords_touches
      (f := fun r => { clearWindow r with mismatches := 0, mismatchReported := false }) s fun _ => ⟨rfl, rfl⟩))
    (Touches.mono (l := [.ovens]) (mapOvens_touches (f := fun r => { r with freeze := false }) _ fun _ => rfl))

end Sys2Proof.Machine
end

