-- ==== Sys2Proof/Laws/Leaks.lean ====
section
/-!
SUPPORT. R106 over the records of the doors and the leak list: what joining, leaving and changing class keep.
-/

set_option Elab.async false
namespace Sys2Proof.Machine

open Sys2Proof

/-! ## The law as a matter of records and a list -/

/-- The records of all doors. -/
abbrev DoorTable := Door → DoorRecord

/-- A table with one door's record replaced. -/
def DoorTable.put (f : DoorTable) (d : Door) (r : DoorRecord) : DoorTable :=
  fun e => if d = e ∧ 1 ≤ e.oven ∧ e.oven ≤ 128 then r else f e

/-- A door is MAJOR in a table. -/
def DoorTable.major (f : DoorTable) (d : Door) : Bool := (f d).severity = some .major

/-- `joinClass` over a table. -/
def DoorTable.join (f : DoorTable) (d : Door) (l : List Door) : List Door :=
  if f.major d then l.takeWhile f.major ++ d :: l.dropWhile f.major else l ++ [d]

/-- R106 without the refilling of the list. -/
structure LeakCore (f : DoorTable) (l : List Door) : Prop where
  short : l.length ≤ 32
  nodup : l.Nodup
  sorted : l.Pairwise fun a b => f.major b → f.major a
  leaking : ∀ d ∈ l, isDoor d ∧ (f d).state = .leaking
  listed : ∀ d, isDoor d → ((f d).listed ↔ d ∈ l)
  severe : ∀ d, isDoor d → ((f d).severity.isSome ↔ (f d).state = .leaking)

/-- A LEAKING door is unlisted only while the list is full. -/
def LeakFull (f : DoorTable) (l : List Door) : Prop :=
  l.length < 32 → ∀ d, isDoor d → (f d).state = .leaking → (f d).listed

theorem leakLaw_iff (s : State) : LeakLaw s ↔ LeakCore (doorRec s) s.dsm.leaks ∧ LeakFull (doorRec s) s.dsm.leaks :=
  ⟨fun h => ⟨⟨h.1, h.2.1, h.2.2.1, h.2.2.2.1, h.2.2.2.2.1, h.2.2.2.2.2.1⟩, h.2.2.2.2.2.2⟩,
    fun h => ⟨h.1.1, h.1.2, h.1.3, h.1.4, h.1.5, h.1.6, h.2⟩⟩

theorem doorRec_put (d : Door) (r : DoorRecord) (s : State) : doorRec (setDoorRec d r s) = (DoorTable.put (doorRec s) d r) :=
  funext fun e => doorRec_setDoorRec d e r s

variable {f : DoorTable} {l : List Door} {d e : Door} {r r' : DoorRecord}

theorem DoorTable.put_self (hd : isDoor d) : f.put d r d = r := if_pos ⟨rfl, hd⟩

theorem DoorTable.put_ne (h : d ≠ e) : f.put d r e = f e :=
  if_neg fun k : d = e ∧ 1 ≤ e.oven ∧ e.oven ≤ 128 => h k.1

theorem DoorTable.put_out (h : ¬ isDoor d) : f.put d r = f :=
  funext fun e => if_neg fun k : d = e ∧ 1 ≤ e.oven ∧ e.oven ≤ 128 => h (k.1 ▸ k.2)

theorem DoorTable.put_put : (f.put d r).put d r' = f.put d r' := by
  funext e
  unfold DoorTable.put
  split <;> rfl

theorem DoorTable.major_ne (h : d ≠ e) : (f.put d r).major e = f.major e := by
  unfold DoorTable.major
  rw [put_ne h]

theorem ne_of_mem {l : List Door} (hd : d ∉ l) (he : e ∈ l) : d ≠ e := fun h => hd (h ▸ he)

/-! ## Joining a class -/

theorem DoorTable.join_perm (f : DoorTable) (d : Door) (l : List Door) : (f.join d l).Perm (d :: l) := by
  unfold DoorTable.join
  split
  · have h := List.perm_middle (a := d) (l₁ := l.takeWhile f.major) (l₂ := l.dropWhile f.major)
    rwa [List.takeWhile_append_dropWhile] at h
  · exact List.perm_append_singleton _ _

theorem DoorTable.join_sorted (h : l.Pairwise fun a b => f.major b → f.major a) :
    (f.join d l).Pairwise fun a b => f.major b → f.major a := by
  unfold DoorTable.join
  split
  · next hd =>
    have hs : (l.takeWhile f.major ++ l.dropWhile f.major).Pairwise fun a b => f.major b → f.major a := by
      rwa [List.takeWhile_append_dropWhile]
    rw [List.pairwise_append] at hs ⊢
    refine ⟨hs.1, List.pairwise_cons.mpr ⟨fun _ _ _ => hd, hs.2.1⟩, fun a ha b _ _ => ?_⟩
    exact List.all_takeWhile (p := f.major) |> fun hw => (List.all_eq_true.mp hw) a ha
  · next hd =>
    rw [List.pairwise_append]
    refine ⟨h, List.pairwise_singleton _ _, fun a _ b hb hm => ?_⟩
    rw [List.mem_singleton] at hb
    subst hb
    exact absurd hm hd

theorem joinClass_eq (s : State) (d : Door) (l : List Door) : joinClass s d l = (DoorTable.join (doorRec s) d l) := rfl

/-- A record that R106 allows outside the list, written for a door outside it. -/
theorem LeakCore.put_off (h : LeakCore f l) (hd : d ∉ l) (hl : r.listed = false)
    (hs : r.severity.isSome ↔ r.state = .leaking) : LeakCore (f.put d r) l := by
  refine ⟨h.short, h.nodup, ?_, fun e he => ?_, fun e he => ?_, fun e he => ?_⟩
  · refine h.sorted.imp_of_mem fun {a b} ha hb hab => ?_
    rw [DoorTable.major_ne (ne_of_mem hd hb), DoorTable.major_ne (ne_of_mem hd ha)]
    exact hab
  · rw [DoorTable.put_ne (ne_of_mem hd he)]
    exact h.leaking e he
  · by_cases hde : d = e
    · subst hde
      rw [DoorTable.put_self he, hl]
      exact ⟨fun k => absurd k (by decide), fun k => absurd k hd⟩
    · rw [DoorTable.put_ne hde]
      exact h.listed e he
  · by_cases hde : d = e
    · subst hde
      rw [DoorTable.put_self he]
      exact hs
    · rw [DoorTable.put_ne hde]
      exact h.severe e he

/-- A door taken out of the list, with a record that R106 allows outside it. -/
theorem LeakCore.drop (h : LeakCore f l) (hl : r.listed = false)
    (hs : r.severity.isSome ↔ r.state = .leaking) : LeakCore (f.put d r) (l.erase d) := by
  have hn : d ∉ l.erase d := fun k => (List.Nodup.mem_erase_iff h.nodup).mp k |>.1 rfl
  have hm : ∀ {e}, e ∈ l.erase d → e ∈ l := fun k => List.mem_of_mem_erase k
  refine ⟨Nat.le_trans (List.length_erase_le ..) h.short, h.nodup.erase _, ?_, fun e he => ?_, fun e he => ?_,
    fun e he => ?_⟩
  · refine (h.sorted.sublist List.erase_sublist).imp_of_mem fun {a b} ha hb hab => ?_
    rw [DoorTable.major_ne (ne_of_mem hn hb), DoorTable.major_ne (ne_of_mem hn ha)]
    exact hab
  · rw [DoorTable.put_ne (ne_of_mem hn he)]
    exact h.leaking e (hm he)
  · by_cases hde : d = e
    · subst hde
      rw [DoorTable.put_self he, hl]
      exact ⟨fun k => absurd k (by decide), fun k => absurd k hn⟩
    · rw [DoorTable.put_ne hde, List.Nodup.mem_erase_iff h.nodup]
      exact (h.listed e he).trans ⟨fun k => ⟨fun x => hde x.symm, k⟩, And.right⟩
  · by_cases hde : d = e
    · subst hde
      rw [DoorTable.put_self he]
      exact hs
    · rw [DoorTable.put_ne hde]
      exact h.severe e he

/-- A LEAKING door outside the list joins it at the tail of its class. -/
theorem LeakCore.join (h : LeakCore f l) (hn : l.length < 32) (hd : isDoor d) (hk : d ∉ l)
    (hs : r.state = .leaking ∧ r.severity.isSome) (hl : r.listed) :
    LeakCore (f.put d r) ((f.put d r).join d l) := by
  have hp := (f.put d r).join_perm d l
  have hm : ∀ {e}, e ∈ (f.put d r).join d l ↔ e = d ∨ e ∈ l := fun {e} => by rw [hp.mem_iff, List.mem_cons]
  refine ⟨?_, ?_, ?_, fun e he => ?_, fun e he => ?_, fun e he => ?_⟩
  · rw [hp.length_eq, List.length_cons]; omega
  · rw [hp.nodup_iff, List.nodup_cons]; exact ⟨hk, h.nodup⟩
  · apply DoorTable.join_sorted
    refine h.sorted.imp_of_mem fun {a b} ha hb hab => ?_
    rw [DoorTable.major_ne (ne_of_mem hk hb), DoorTable.major_ne (ne_of_mem hk ha)]
    exact hab
  · rcases hm.mp he with rfl | he
    · rw [DoorTable.put_self hd]
      exact ⟨hd, hs.1⟩
    · rw [DoorTable.put_ne (ne_of_mem hk he)]
      exact h.leaking e he
  · by_cases hde : d = e
    · subst hde
      rw [DoorTable.put_self he]
      exact ⟨fun _ => hm.mpr (Or.inl rfl), fun _ => hl⟩
    · rw [DoorTable.put_ne hde, hm]
      exact (h.listed e he).trans ⟨Or.inr, fun k => k.resolve_left fun x => hde x.symm⟩
  · by_cases hde : d = e
    · subst hde
      rw [DoorTable.put_self he]
      exact ⟨fun _ => hs.1, fun _ => hs.2⟩
    · rw [DoorTable.put_ne hde]
      exact h.severe e he

/-- A listed door in its other class. -/
theorem LeakCore.move (h : LeakCore f l) (hk : d ∈ l) (hs : r.state = .leaking ∧ r.severity.isSome) (hl : r.listed) :
    LeakCore (f.put d r) ((f.put d r).join d (l.erase d)) := by
  have h1 : LeakCore (f.put d { r with listed := false }) (l.erase d) :=
    h.drop rfl ⟨fun _ => hs.1, fun _ => hs.2⟩
  have hn : (l.erase d).length < 32 := by
    have := List.length_erase_of_mem hk
    have := h.short
    have : 0 < l.length := List.length_pos_of_mem hk
    omega
  have h2 := h1.join hn (h.leaking d hk).1 (fun k => (List.Nodup.mem_erase_iff h.nodup).mp k |>.1 rfl) hs hl
  rwa [DoorTable.put_put] at h2

/-! ## The operations of the monitor -/

theorem doorRec_setLeaks (l : List Door) (s : State) : doorRec (setLeaks l s) = doorRec s := rfl

theorem leaks_setDoorRec (d : Door) (r : DoorRecord) (s : State) : (setDoorRec d r s).dsm.leaks = s.dsm.leaks := rfl

/-- What `listDoor` leaves. -/
theorem listDoor_tables (d : Door) (s : State) :
    doorRec (listDoor d s) = DoorTable.put (doorRec s) d { doorRec s d with listed := true } ∧
      (listDoor d s).dsm.leaks = DoorTable.join (doorRec s) d s.dsm.leaks := by
  refine ⟨?_, rfl⟩
  unfold listDoor setListed
  rw [doorRec_put, doorRec_setLeaks]

theorem join_put_listed (b : Bool) (d : Door) (l : List Door) :
    DoorTable.join (f.put d { f d with listed := b }) d l = f.join d l := by
  have h : DoorTable.major (f.put d { f d with listed := b }) = f.major := by
    funext e
    unfold DoorTable.major DoorTable.put
    split
    · next k => rw [k.1]
    · rfl
  unfold DoorTable.join
  rw [h]

theorem listDoor_leakCore {s : State} (h : LeakCore (doorRec s) s.dsm.leaks) (hn : s.dsm.leaks.length < 32)
    (hd : isDoor d) (hk : d ∉ s.dsm.leaks) (hs : (doorRec s d).state = .leaking) :
    LeakCore (doorRec (listDoor d s)) (listDoor d s).dsm.leaks := by
  obtain ⟨e1, e2⟩ := listDoor_tables d s
  rw [e1, e2, ← join_put_listed true]
  exact h.join hn hd hk ⟨hs, (h.severe d hd).mpr hs⟩ rfl

theorem mem_allDoors (h : isDoor d) : d ∈ allDoors := by
  unfold allDoors
  obtain ⟨n, x⟩ := d
  obtain ⟨h1, h2⟩ : 1 ≤ n ∧ n ≤ 128 := h
  refine List.mem_flatMap.mpr ⟨n - 1, List.mem_range.mpr (by omega), ?_⟩
  have : n - 1 + 1 = n := by omega
  rw [this]
  cases x <;> simp

theorem isDoor_of_mem (h : d ∈ allDoors) : isDoor d := by
  unfold allDoors at h
  obtain ⟨i, hi, hd⟩ := List.mem_flatMap.mp h
  have hi := List.mem_range.mp hi
  simp only [List.mem_cons, List.not_mem_nil, or_false] at hd
  rcases hd with rfl | rfl
  · exact ⟨Nat.le_add_left 1 i, hi⟩
  · exact ⟨Nat.le_add_left 1 i, hi⟩

theorem leastBy_mem {key : Door → Int} {l : List Door} (h : leastBy key l = some d) : d ∈ l := by
  induction l generalizing d with
  | nil => exact absurd h (by simp [leastBy])
  | cons a l ih =>
    unfold leastBy at h
    split at h
    · next e he =>
      split at h
      · injection h with h
        subst h
        exact List.mem_cons_of_mem _ (ih he)
      · injection h with h
        subst h
        exact List.mem_cons_self
    · injection h with h
      subst h
      exact List.mem_cons_self

theorem leastBy_none {key : Door → Int} {l : List Door} (h : leastBy key l = none) : l = [] := by
  cases l with
  | nil => rfl
  | cons a l =>
    unfold leastBy at h
    split at h
    · split at h <;> exact absurd h (by simp)
    · exact absurd h (by simp)

/-- The door that a freed place goes to is an unlisted LEAKING one. -/
theorem relistChoice_some {s : State} (h : relistChoice s = some d) :
    isDoor d ∧ (doorRec s d).state = .leaking ∧ (doorRec s d).listed = false := by
  unfold relistChoice at h
  extract_lets key at h
  have hm : ∃ v, d ∈ unlisted s v := by
    split at h
    · next e he =>
      injection h with h
      subst h
      exact ⟨_, leastBy_mem he⟩
    · exact ⟨_, leastBy_mem h⟩
  obtain ⟨v, hv⟩ := hm
  unfold unlisted at hv
  rw [List.mem_filter] at hv
  obtain ⟨h1, h2⟩ := hv
  simp only [Bool.and_eq_true, decide_eq_true_eq, Bool.not_eq_true'] at h2
  exact ⟨isDoor_of_mem h1, h2.1.1, h2.1.2⟩

/-- No door is chosen only where every LEAKING door is listed. -/
theorem relistChoice_none {s : State} (h : relistChoice s = none)
    (hs : ∀ d, isDoor d → ((doorRec s d).severity.isSome ↔ (doorRec s d).state = .leaking)) (hd : isDoor d)
    (hk : (doorRec s d).state = .leaking) : (doorRec s d).listed = true := by
  unfold relistChoice at h
  extract_lets key at h
  split at h
  · exact absurd h (by simp)
  · next h1 =>
    have e1 := leastBy_none h1
    have e2 := leastBy_none h
    cases hl : (doorRec s d).listed with
    | true => rfl
    | false =>
      obtain ⟨v, hv⟩ := Option.isSome_iff_exists.mp ((hs d hd).mpr hk)
      have hm : d ∈ unlisted s v := by
        unfold unlisted
        rw [List.mem_filter]
        exact ⟨mem_allDoors hd, by simp [hk, hl, severityOf, hv]⟩
      cases v with
      | major => rw [e1] at hm; exact absurd hm (by simp)
      | minor => rw [e2] at hm; exact absurd hm (by simp)

/-- A door whose new record is not LEAKING leaves the list, and the place is refilled (R109). -/
theorem leaveList_law {s t : State} (h : LeakLaw s)
    (ht : doorRec t = DoorTable.put (doorRec s) d r ∧ t.dsm.leaks = s.dsm.leaks)
    (hr : r.listed = (doorRec s d).listed) (hs : r.state ≠ .leaking ∧ r.severity = none) : LeakLaw (leaveList d t) := by
  obtain ⟨e1, e2⟩ := ht
  obtain ⟨hc, hf⟩ := (leakLaw_iff s).mp h
  have hoff : ∀ b, (({ r with listed := b } : DoorRecord).severity.isSome ↔
      ({ r with listed := b } : DoorRecord).state = .leaking) := fun b => by
    show r.severity.isSome = true ↔ r.state = .leaking
    rw [hs.2]
    exact ⟨fun k => absurd k (by decide), fun k => absurd k hs.1⟩
  unfold leaveList
  split
  · next hm =>
    have hm : d ∈ s.dsm.leaks := by
      have : (s.dsm.leaks.contains d) = true := e2 ▸ hm
      simpa using this
    have hd : isDoor d := (hc.leaking d hm).1
    extract_lets u
    have eu : doorRec u = DoorTable.put (doorRec s) d { r with listed := false } := by
      show doorRec (setListed d false (setLeaks _ t)) = _
      unfold setListed
      rw [doorRec_put, doorRec_setLeaks, e1, DoorTable.put_put, DoorTable.put_self hd]
    have el : u.dsm.leaks = s.dsm.leaks.erase d := by rw [← e2]; rfl
    have hu : LeakCore (doorRec u) u.dsm.leaks := by
      rw [eu, el]
      exact hc.drop rfl (hoff false)
    have hlen : u.dsm.leaks.length + 1 = s.dsm.leaks.length := by
      have := List.length_erase_of_mem hm
      have : 0 < s.dsm.leaks.length := List.length_pos_of_mem hm
      rw [el]
      omega
    have hshort := hc.short
    split
    · next e he =>
      obtain ⟨he1, he2, he3⟩ := relistChoice_some he
      have hne : d ≠ e := fun k => by
        subst k
        rw [eu, DoorTable.put_self hd] at he2
        exact hs.1 he2
      have hk : e ∉ u.dsm.leaks := fun k => by
        rw [(hu.listed e he1).mpr k] at he3
        exact absurd he3 (by decide)
      refine (leakLaw_iff _).mpr ⟨listDoor_leakCore hu (by omega) he1 hk he2, fun hn => ?_⟩
      have hle : (listDoor e u).dsm.leaks.length = s.dsm.leaks.length := by
        rw [(listDoor_tables e u).2, (DoorTable.join_perm _ _ _).length_eq, List.length_cons]
        exact hlen
      rw [hle] at hn
      rw [eu, DoorTable.put_ne hne] at he2 he3
      rw [hf hn e he1 he2] at he3
      exact absurd he3 (by decide)
    · next he => exact (leakLaw_iff _).mpr ⟨hu, fun _ x hx hk => relistChoice_none he hu.severe hx hk⟩
  · next hm =>
    have hm : d ∉ s.dsm.leaks := by
      have : ¬ (s.dsm.leaks.contains d) = true := e2 ▸ hm
      simpa using this
    refine (leakLaw_iff _).mpr ?_
    rw [e1, e2]
    by_cases hd : isDoor d
    · have hl : r.listed = false := by
        rw [hr]
        cases k : (doorRec s d).listed with
        | false => rfl
        | true => exact absurd ((hc.listed d hd).mp k) hm
      refine ⟨hc.put_off hm hl (hoff r.listed), fun hn e he => ?_⟩
      by_cases hde : d = e
      · subst hde
        rw [DoorTable.put_self he]
        exact fun k => absurd k hs.1
      · rw [DoorTable.put_ne hde]
        exact hf hn e he
    · rw [DoorTable.put_out hd]
      exact ⟨hc, hf⟩

/-- A LEAKING door outside the list is offered to it (R107). -/
theorem offerDoor_law {s : State} {a : Nat} (h : LeakCore (doorRec s) s.dsm.leaks)
    (hf : s.dsm.leaks.length < 32 → ∀ e, e ≠ d → isDoor e → (doorRec s e).state = .leaking → (doorRec s e).listed)
    (hd : isDoor d) (hk : d ∉ s.dsm.leaks) (hs : (doorRec s d).state = .leaking) : LeakLaw (offerDoor d a s) := by
  have join_full : ∀ {u : State}, u.dsm.leaks.length + 1 = 32 → LeakFull (doorRec (listDoor d u)) (listDoor d u).dsm.leaks :=
    fun {u} hn hlt => by
      rw [(listDoor_tables d u).2, (DoorTable.join_perm _ _ _).length_eq, List.length_cons] at hlt
      omega
  unfold offerDoor
  split
  · next hn =>
    refine (leakLaw_iff _).mpr ⟨listDoor_leakCore h hn hd hk hs, fun hlt e he hle => ?_⟩
    rw [(listDoor_tables d s).1] at hle ⊢
    by_cases hde : d = e
    · subst hde
      rw [DoorTable.put_self he]
    · rw [DoorTable.put_ne hde] at hle ⊢
      exact hf hn e (fun k => hde k.symm) he hle
  · next hn =>
    have hlen : s.dsm.leaks.length = 32 := by have := h.short; omega
    split
    · next last hlast =>
      split
      · next hmaj =>
        let u := setListed last false (setLeaks s.dsm.leaks.dropLast s)
        have hml : last ∈ s.dsm.leaks := List.mem_of_getLast? hlast
        have hdl : isDoor last := (h.leaking last hml).1
        have hne : last ≠ d := fun k => hk (k ▸ hml)
        have hcat : s.dsm.leaks = s.dsm.leaks.dropLast ++ [last] := by
          obtain ⟨ys, hys⟩ := List.getLast?_eq_some_iff.mp hlast
          rw [hys, List.dropLast_concat]
        have her : s.dsm.leaks.dropLast = s.dsm.leaks.erase last := by
          have hnd := h.nodup
          rw [hcat, List.nodup_append] at hnd
          have hnot : last ∉ s.dsm.leaks.dropLast := fun k => hnd.2.2 last k last (List.mem_singleton.mpr rfl) rfl
          conv => rhs; rw [hcat]
          rw [List.erase_append_right _ hnot]
          simp
        have eu : doorRec u = DoorTable.put (doorRec s) last { doorRec s last with listed := false } := by
          show doorRec (setListed last false (setLeaks _ s)) = _
          unfold setListed
          rw [doorRec_put, doorRec_setLeaks]
        have el : u.dsm.leaks = s.dsm.leaks.erase last := her
        have hu : LeakCore (doorRec u) u.dsm.leaks := by
          rw [eu, el]
          exact h.drop rfl (h.severe last hdl)
        have hul : u.dsm.leaks.length + 1 = 32 := by
          have := List.length_erase_of_mem hml
          rw [el]
          omega
        have hud : (doorRec u d).state = .leaking := by
          rw [eu, DoorTable.put_ne hne]
          exact hs
        have huk : d ∉ u.dsm.leaks := by
          rw [el]
          exact fun k => hk (List.mem_of_mem_erase k)
        exact (leakLaw_iff (listDoor d u)).mpr ⟨listDoor_leakCore hu (by omega) hd huk hud, join_full hul⟩
      · exact raise_touches _ _ _ _ _ .leakLaw (by decide) ((leakLaw_iff s).mpr ⟨h, fun hlt => absurd hlt (by omega)⟩)
    · next hnone =>
      rw [List.getLast?_eq_none_iff] at hnone
      rw [hnone] at hlen
      exact absurd hlen (by decide)

/-! ## A seal test -/

/-- What R103 makes of a record: its listed flag is kept, and it has a severity exactly while LEAKING if it had. -/
theorem sealResult_leak (c : SealConfig) (now : Int) (i : Nat)
    (h : r.severity.isSome ↔ r.state = .leaking) :
    (sealResult c now i r).1.listed = r.listed ∧
      ((sealResult c now i r).1.severity.isSome ↔ (sealResult c now i r).1.state = .leaking) ∧
      ((sealResult c now i r).1.state ≠ .leaking → r.state = .leaking → (sealResult c now i r).1.severity = none) ∧
      (r.state = .leaking → (sealResult c now i r).1.severity = r.severity →
        KeepsLeak r (sealResult c now i r).1) := by
  unfold sealResult
  extract_lets r1 leaks
  have hl : ∀ v, (leaks v).listed = r.listed ∧ ((leaks v).severity.isSome ↔ (leaks v).state = .leaking) ∧
      (leaks v).state = .leaking := fun v => by
    dsimp only [leaks, r1]
    split
    · next k => exact ⟨rfl, h, k.1⟩
    · exact ⟨rfl, ⟨fun _ => rfl, fun _ => rfl⟩, rfl⟩
  have hk : ∀ v, r.state = .leaking → (leaks v).severity = r.severity → KeepsLeak r (leaks v) := fun v k1 k2 =>
    ⟨(hl v).2.2.trans k1.symm, k2, (hl v).1⟩
  split
  · refine ⟨rfl, ⟨nofun, nofun⟩, fun _ _ => rfl, fun k1 k2 => ?_⟩
    have : r.severity.isSome = true := h.mpr k1
    rw [← k2] at this
    exact nomatch this
  · split
    · exact ⟨(hl _).1, (hl _).2.1, fun k => absurd (hl _).2.2 k, hk _⟩
    · split
      · next k =>
        refine ⟨rfl, h, fun _ k2 => ?_, fun _ _ => ⟨rfl, rfl, rfl⟩⟩
        have k1 : r.state = .unsealed := k.1
        rw [k1] at k2
        exact absurd k2 (by decide)
      · exact ⟨(hl _).1, (hl _).2.1, fun k => absurd (hl _).2.2 k, hk _⟩

/-- The record and the list after an evaluated SEAL (R103, R107 to R109). -/
theorem sealList_law {s t : State} {a i : Nat} {c : SealConfig} {now : Int} (h : LeakLaw s) (hd : isDoor d)
    (ht : doorRec t = DoorTable.put (doorRec s) d (sealResult c now i (doorRec s d)).1 ∧ t.dsm.leaks = s.dsm.leaks) :
    LeakLaw (sealList d (doorRec s d) a t) := by
  obtain ⟨hc, hf⟩ := (leakLaw_iff s).mp h
  obtain ⟨e1, e2⟩ := ht
  generalize hr : (sealResult c now i (doorRec s d)).1 = r at e1
  obtain ⟨k1, k2, k3, k4⟩ := sealResult_leak (r := doorRec s d) c now i (hc.severe d hd)
  rw [hr] at k1 k2 k3 k4
  have ed : doorRec t d = r := by rw [e1, DoorTable.put_self hd]
  have off : d ∉ s.dsm.leaks → r.listed = false := fun hm => by
    rw [k1]
    cases k : (doorRec s d).listed with
    | false => rfl
    | true => exact absurd ((hc.listed d hd).mp k) hm
  have core : d ∉ s.dsm.leaks → LeakCore (doorRec t) t.dsm.leaks := fun hm => by
    rw [e1, e2]
    exact hc.put_off hm (off hm) k2
  have rest : ∀ e, e ≠ d → doorRec t e = doorRec s e := fun e he => by
    rw [e1, DoorTable.put_ne fun k => he k.symm]
  have offer : d ∉ s.dsm.leaks → r.state = .leaking → LeakLaw (offerDoor d a t) := fun hm hk =>
    offerDoor_law (core hm) (fun hn e he hde => by
      rw [e2] at hn
      rw [rest e he]
      exact hf hn e hde) hd (by rw [e2]; exact hm) (by rw [ed]; exact hk)
  have notIn : (doorRec s d).state ≠ .leaking → d ∉ s.dsm.leaks := fun k hm => k (hc.leaking d hm).2
  unfold sealList
  extract_lets r1
  have er : r1 = r := ed
  rw [er]
  split
  · next hk =>
    split
    · next ho => exact offer (notIn ho) hk
    · next ho =>
      have ho : (doorRec s d).state = .leaking := Decidable.not_not.mp ho
      split
      · next hv =>
        refine LeakLaw.of_kept e2 (fun e => ?_) h
        by_cases he : e = d
        · subst he
          rw [ed]
          exact k4 ho hv.symm
        · rw [rest e he]
          exact ⟨rfl, rfl, rfl⟩
      · next hv =>
        split
        · next hl =>
          have hm : d ∈ s.dsm.leaks := (hc.listed d hd).mp (by rw [← k1]; exact hl)
          refine (leakLaw_iff _).mpr ?_
          have e3 : (setLeaks (joinClass t d (t.dsm.leaks.erase d)) t).dsm.leaks =
              DoorTable.join (doorRec t) d (s.dsm.leaks.erase d) := by
            rw [← e2]; rfl
          rw [doorRec_setLeaks, e3, e1]
          refine ⟨hc.move hm ⟨hk, k2.mpr hk⟩ hl, fun hn e he hle => ?_⟩
          have hlen := List.length_erase_of_mem hm
          have hpos : 0 < s.dsm.leaks.length := List.length_pos_of_mem hm
          rw [(DoorTable.join_perm _ _ _).length_eq, List.length_cons] at hn
          by_cases hde : d = e
          · subst hde
            rw [DoorTable.put_self he]
            exact hl
          · rw [DoorTable.put_ne hde] at hle ⊢
            exact hf (by omega) e he hle
        · next hl =>
          refine offer (fun hm => hl ?_) hk
          rw [k1]
          exact (hc.listed d hd).mpr hm
  · next hk =>
    split
    · next ho => exact leaveList_law h ⟨e1, e2⟩ k1 ⟨hk, k3 hk ho⟩
    · next ho =>
      refine (leakLaw_iff t).mpr ⟨core (notIn ho), fun hn e he => ?_⟩
      rw [e2] at hn
      by_cases hde : e = d
      · subst hde
        rw [ed]
        exact fun k => absurd k hk
      · rw [rest e hde]
        exact hf hn e he

end Sys2Proof.Machine
end

