-- ==== Sys2Proof/Laws/Doors.lean ====
section
/-!
SUPPORT. What the operations of the door seal monitor may touch. A task is placed in an empty slot only, so that no
waiting HALT is lost by it.
-/

set_option Elab.async false
namespace Sys2Proof.Machine

open Sys2Proof

theorem setLeaks_touches (l : List Door) (s : State) : Touches [.leaks, .leakLaw] s (setLeaks l s) := by
  intro a ha
  cases a <;> first
    | exact (ha (by decide)).elim
    | rfl
    | exact id
    | exact ⟨rfl, rfl⟩
    | exact ⟨rfl, rfl, rfl⟩
    | exact ⟨rfl, rfl, rfl, rfl⟩
    | exact List.Sublist.refl _
    | exact fun _ => ⟨rfl, rfl⟩
    | exact fun _ => rfl
    | exact fun _ h => ⟨Nat.le_refl _, h⟩
    | exact fun _ h => h

theorem setListed_touches (d : Door) (b : Bool) (s : State) : Touches [.doors, .leakLaw] s (setListed d b s) :=
  setDoorRec_touches _ _ _

theorem listDoor_touches (d : Door) (s : State) : Touches [.doors, .leaks, .leakLaw] s (listDoor d s) :=
  (setLeaks_touches _ _).mono.seq (setListed_touches _ _ _).mono

theorem offerDoor_touches (d : Door) (a : Nat) (s : State) :
    Touches [.doors, .leaks, .leakLaw, .counts, .transmit] s (offerDoor d a s) := by
  unfold offerDoor
  split
  · exact (listDoor_touches _ _).mono
  · split
    · split
      · exact ((setLeaks_touches _ _).mono.seq (setListed_touches _ _ _).mono).seq (listDoor_touches _ _).mono
      · exact (raise_touches _ _ _ _ _).mono
    · exact (listDoor_touches _ _).mono

theorem leaveList_touches (d : Door) (s : State) : Touches [.doors, .leaks, .leakLaw] s (leaveList d s) := by
  unfold leaveList
  split
  · extract_lets s1
    have h : Touches [.doors, .leaks, .leakLaw] s s1 := (setLeaks_touches _ _).mono.seq (setListed_touches _ _ _).mono
    split
    · exact h.seq (listDoor_touches _ _)
    · exact h
  · exact .refl _ _

theorem doorRemoved_touches (d : Door) (s : State) : Touches [.doors, .leaks] s (doorRemoved d s) :=
  Touches.keep (a := .leakLaw) ((setDoorRec_touches d _ s).mono.seq (leaveList_touches _ _).mono)
    fun h => leaveList_law h ⟨doorRec_put _ _ _, rfl⟩ rfl ⟨nofun, rfl⟩

theorem doorReplaced_touches (d : Door) (s : State) : Touches [.doors, .leaks] s (doorReplaced d s) :=
  Touches.keep (a := .leakLaw) ((setDoorRec_touches d _ s).mono.seq (leaveList_touches _ _).mono)
    fun h => leaveList_law h ⟨doorRec_put _ _ _, rfl⟩ rfl ⟨nofun, rfl⟩

/-- An order placed in an empty slot. -/
theorem putOrder_empty {p : Nat} {o : Order} {s : State} (h : (outbound s p).order.isNone = true) :
    Touches [.outbound] s (putOrder p o s) := by
  unfold putOrder
  split
  · next hn =>
    refine setOutbound_both (fun hw => ?_) rfl
    obtain ⟨w, h1, _⟩ := (haltWaits_iff s p).mp hw
    rw [hn] at h1; exact absurd h1 (by simp)
  · next w hw => rw [hw] at h; exact absurd h (by simp)

/-- A machine that is free for a task is ACTIVE in SERVICE, its order slot empty (R110). -/
theorem freeMachine_empty {s : State} {side : DoorSide} {p : Nat} (h : freeMachine s side = some p) :
    (outbound s p).order.isNone = true := by
  unfold freeMachine at h
  split at h
  · split at h
    · next hc =>
      injection h with h
      subst h
      simp only [Bool.and_eq_true] at hc
      exact hc.1.1.2
    · exact absurd h (by simp)
  · exact absurd h (by simp)

theorem dsmFree_touches (side : DoorSide) (s : State) : Touches [.outbound, .tasks] s (dsmFree side s) := by
  unfold dsmFree
  split
  · next hf _ => exact (putOrder_empty (freeMachine_empty hf)).mono.seq (setTask_touches _ _ _).mono
  · exact .refl _ _
  · exact .refl _ _

theorem dsmFreeBoth_touches (s : State) : Touches [.outbound, .tasks] s (dsmFreeBoth s) :=
  (dsmFree_touches _ _).seq (dsmFree_touches _ _)

theorem dsmFreeAt_touches (p : Nat) (s : State) : Touches [.outbound, .tasks] s (dsmFreeAt p s) := by
  unfold dsmFreeAt
  split
  · exact dsmFree_touches _ _
  · exact .refl _ _

theorem taskDelivered_touches (side : DoorSide) (s : State) : Touches [.tasks] s (taskDelivered side s) :=
  .ite (fun _ => setTask_touches _ _ _) (fun _ => .refl _ _)

theorem taskWorks_touches (d : Door) (s : State) : Touches [.tasks] s (taskWorks d s) :=
  .ite (fun _ => setTask_touches _ _ _) (fun _ => .refl _ _)

theorem taskPermitEnds_touches (d : Door) (ok : Bool) (s : State) : Touches [.tasks] s (taskPermitEnds d ok s) :=
  .ite (fun _ => .ite (fun _ => setTask_touches _ _ _) (fun _ => setTask_touches _ _ _)) (fun _ => .refl _ _)

theorem taskSealed_touches (d : Door) (s : State) : Touches [.tasks] s (taskSealed d s) :=
  .ite (fun _ => setTask_touches _ _ _) (fun _ => .refl _ _)

theorem taskLapses_touches (side : DoorSide) (s : State) : Touches [.outbound, .tasks] s (taskLapses side s) :=
  .ite (fun _ => (setTask_touches _ _ _).mono.seq (dsmFree_touches _ _)) (fun _ => .refl _ _)

theorem dsmStationLeft_touches (side : DoorSide) (s : State) : Touches [.outbound, .tasks] s (dsmStationLeft side s) :=
  (setTask_touches _ _ _).mono.seq (dsmFree_touches _ _)

end Sys2Proof.Machine
end

