-- ==== Sys2Proof/Laws/Bytes.lean ====
section
/-!
SUPPORT. Quantities in bytes and back, and the fields of a MOVE.
-/

set_option Elab.async false
namespace Sys2Proof.Machine

open Sys2Proof

theorem ofBytes_append_one (bs : List Byte) (b : Byte) : ofBytes (bs ++ [b]) = ofBytes bs * 256 + b.toNat := by
  unfold ofBytes
  rw [List.foldl_append]
  rfl

theorem foldlBytes (bs : List Byte) (a : Nat) :
    bs.foldl (fun acc b => acc * 256 + b.toNat) a = a * 256 ^ bs.length + ofBytes bs := by
  induction bs generalizing a with
  | nil => simp [ofBytes]
  | cons b bs ih =>
    unfold ofBytes
    simp only [List.foldl_cons, List.length_cons]
    rw [ih, ih (0 * 256 + b.toNat), Nat.pow_succ]
    simp only [Nat.zero_mul, Nat.zero_add, Nat.add_mul]
    rw [Nat.mul_comm (256 ^ bs.length) 256, ← Nat.mul_assoc, Nat.add_assoc]

theorem ofBytes_cons (b : Byte) (bs : List Byte) : ofBytes (b :: bs) = b.toNat * 256 ^ bs.length + ofBytes bs := by
  have h := foldlBytes bs b.toNat
  unfold ofBytes at *
  simp only [List.foldl_cons, Nat.zero_mul, Nat.zero_add]
  exact h

theorem ofBytes_lt (bs : List Byte) : ofBytes bs < 256 ^ bs.length := by
  induction bs with
  | nil => decide
  | cons b bs ih =>
    rw [ofBytes_cons, List.length_cons, Nat.pow_succ]
    have hb : b.toNat < 256 := b.isLt
    have : (b.toNat + 1) * 256 ^ bs.length ≤ 256 * 256 ^ bs.length := Nat.mul_le_mul_right _ hb
    rw [Nat.add_mul, Nat.one_mul] at this
    rw [Nat.mul_comm (256 ^ bs.length) 256]
    omega

theorem toBytes_length (w v : Nat) : (toBytes w v).length = w := by
  induction w with
  | zero => rfl
  | succ w ih => simp [toBytes, ih]

/-- A quantity comes back from its bytes, reduced to their number. -/
theorem ofBytes_toBytes (w v : Nat) : ofBytes (toBytes w v) = v % 256 ^ w := by
  induction w with
  | zero => simp [toBytes, ofBytes, Nat.mod_one]
  | succ w ih =>
    have h2 : (BitVec.ofNat 8 (v / 256 ^ w)).toNat = v / 256 ^ w % 256 := BitVec.toNat_ofNat ..
    rw [toBytes, ofBytes_cons, toBytes_length, ih, h2, Nat.pow_succ, Nat.mod_mul, Nat.mul_comm (256 ^ w), Nat.add_comm]

theorem ofBytes_take_lt (bs : List Byte) : ofBytes (bs.take 3) < 16777216 := by
  have h := ofBytes_lt (bs.take 3)
  have hl : (bs.take 3).length ≤ 3 := List.length_take_le 3 bs
  have : (256 : Nat) ^ (bs.take 3).length ≤ 256 ^ 3 := Nat.pow_le_pow_right (by omega) hl
  have h3 : (256 : Nat) ^ 3 = 16777216 := by decide
  omega

theorem moveTarget_lt (t : Telegram) : moveTarget t < 16777216 := ofBytes_take_lt t.body

/-- The target of a MOVE body of 24 bits comes back. -/
theorem moveTarget_body (t : Telegram) (target speed oven : Nat) (h : target < 16777216) :
    moveTarget { t with body := moveBody target speed oven } = target := by
  unfold moveTarget moveBody
  have : (toBytes 3 target ++ codeByte speed ++ codeByte oven).take 3 = toBytes 3 target := by
    rw [List.append_assoc, List.take_append_of_le_length (Nat.le_of_eq (toBytes_length 3 target).symm)]
    rw [List.take_of_length_le (Nat.le_of_eq (toBytes_length 3 target))]
  rw [this, ofBytes_toBytes]
  have h3 : (256 : Nat) ^ 3 = 16777216 := by decide
  rw [h3, Nat.mod_eq_of_lt h]

end Sys2Proof.Machine
end

