-- ==== Sys2Proof/Laws/Track.lean ====
section
/-!
SUPPORT. What the operations of the quench track controller may touch, and that they keep R80, R84 and R87.
-/

set_option Elab.async false
namespace Sys2Proof.Machine

open Sys2Proof

/-! ## Car records -/

/-- A car record that reserves nothing new and holds a position of 24 bits keeps R80. -/
theorem setCarRec_law {c : Nat} {r : CarRecord} {s : State} (hr : ∀ k ∈ r.reserved, k ∈ (carRec s c).reserved)
    (hp : r.position = (carRec s c).position ∨ ∀ p, r.position = some p → p < 16777216) :
    TrackLaw s → TrackLaw (setCarRec c r s) := by
  intro h
  have key : ∀ d k, k ∈ (carRec (setCarRec c r s) d).reserved → k ∈ (carRec s d).reserved := by
    intro d k hk
    rw [carRec_setCarRec] at hk
    split at hk
    · next hd => exact hd.1 ▸ hr k hk
    · exact hk
  refine ⟨fun d p hd => ?_, fun k h1 h2 => h.2.1 k (key _ _ h1) (key _ _ h2), fun d k hk ht => h.2.2 d k (key _ _ hk) ht⟩
  rw [carRec_setCarRec] at hd
  split at hd
  · next hc =>
    rcases hp with hp | hp
    · rw [hp, hc.1] at hd; exact h.1 d p hd
    · exact hp p hd
  · exact h.1 d p hd

/-- A car record in the same state, as to IDLE, keeps the lists of R84 and R87. -/
theorem setCarRec_lists {c : Nat} {r : CarRecord} {s : State} (hs : r.state = .idle ↔ (carRec s c).state = .idle) :
    ListLaw s → ListLaw (setCarRec c r s) := by
  intro h
  refine ⟨h.1, h.2.1, h.2.2.1, fun d hd => (h.2.2.2 d hd).trans ?_⟩
  rw [carRec_setCarRec]
  split
  · next hc => rw [← hc.1]; exact hs.symm
  · exact Iff.rfl

/-- A car record that is moved, its reservations no more than before, and in the same state as to IDLE. -/
theorem setCarRec_moved {c : Nat} {r : CarRecord} {s : State} (hr : ∀ k ∈ r.reserved, k ∈ (carRec s c).reserved)
    (hp : r.position = (carRec s c).position ∨ ∀ p, r.position = some p → p < 16777216)
    (hs : r.state = .idle ↔ (carRec s c).state = .idle) :
    Touches [.cars, .places] s (setCarRec c r s) :=
  Touches.keep (a := .trackLaw) (l := [.cars, .places])
    (Touches.keep (a := .listLaw) (l := [.trackLaw, .cars, .places]) (setCarRec_touches c r s).mono (setCarRec_lists hs))
    (setCarRec_law hr hp)

/-- A car record that keeps its place. -/
theorem setCarRec_places {c : Nat} {r : CarRecord} {s : State} (hp : r.position = (carRec s c).position)
    (ho : r.occupied = (carRec s c).occupied) : Aspect.places.same s (setCarRec c r s) := by
  intro d
  rw [carRec_setCarRec]
  split
  · next hd => exact ⟨hd.1 ▸ hp, hd.1 ▸ ho⟩
  · exact ⟨rfl, rfl⟩

theorem setCarRec_kept {c : Nat} {r : CarRecord} {s : State} (hr : ∀ k ∈ r.reserved, k ∈ (carRec s c).reserved)
    (hp : r.position = (carRec s c).position) (ho : r.occupied = (carRec s c).occupied)
    (hs : r.state = .idle ↔ (carRec s c).state = .idle) :
    Touches [.cars] s (setCarRec c r s) :=
  Touches.keep (a := .places) (l := [.cars]) (setCarRec_moved hr (Or.inl hp) hs).mono (setCarRec_places hp ho)

/-- A car record that keeps its reservations and its place. -/
theorem setCarRec_rest {c : Nat} {r : CarRecord} {s : State} (hr : r.reserved = (carRec s c).reserved)
    (hp : r.position = (carRec s c).position) (ho : r.occupied = (carRec s c).occupied)
    (hs : r.state = .idle ↔ (carRec s c).state = .idle) :
    Touches [.cars] s (setCarRec c r s) :=
  setCarRec_kept (fun _ hk => hr ▸ hk) hp ho hs

theorem not_idle {a b : CarState} (h : a = b) (hb : b ≠ .idle) : a ≠ .idle := h ▸ hb

/-- Neither of two states of a car is IDLE. -/
theorem neither_idle {a b : CarState} (ha : a ≠ .idle) (hb : b ≠ .idle) : a = .idle ↔ b = .idle :=
  ⟨fun h => (ha h).elim, fun h => (hb h).elim⟩

/-! ## The lists -/

theorem onQtc_idle_touches (l : List Nat) (s : State) :
    Touches [.idle, .listLaw] s (s.onQtc fun q => { q with idle := l }) := by
  intro a ha
  cases a <;> first
    | exact (ha (by decide)).elim
    | rfl
    | exact id
    | exact ⟨rfl, rfl⟩
    | exact ⟨rfl, rfl, rfl⟩
    | exact ⟨rfl, rfl, rfl, rfl⟩
    | exact List.Sublist.refl _
    | exact fun _ => ⟨rfl, rfl⟩
    | exact fun _ => rfl
    | exact fun _ h => ⟨Nat.le_refl _, h⟩
    | exact fun _ h => h

/-- A car that stops being IDLE leaves the idle list (R84). -/
theorem leavesIdle_touches {c : Nat} {r : CarRecord} {s : State} (hr : r.reserved = (carRec s c).reserved)
    (hp : r.position = (carRec s c).position) (ho : r.occupied = (carRec s c).occupied) (hs : r.state ≠ .idle) :
    Touches [.cars, .idle] s (idleRemove c (setCarRec c r s)) := by
  have k1 : Touches [.trackLaw, .places, .cars, .listLaw] s (setCarRec c r s) := (setCarRec_touches c r s).mono
  have k2 : Touches [.cars, .listLaw] s (setCarRec c r s) :=
    Touches.keep (a := .places) (l := [.cars, .listLaw])
      (Touches.keep (a := .trackLaw) (l := [.places, .cars, .listLaw]) k1 (setCarRec_law (fun _ hk => hr ▸ hk) (.inl hp)))
      (setCarRec_places hp ho)
  refine Touches.keep (a := .listLaw) (l := [.cars, .idle]) (k2.mono.seq (onQtc_idle_touches _ _).mono) ?_
  intro h
  refine ⟨h.1.erase c, h.2.1, h.2.2.1, fun d hd => ?_⟩
  show d ∈ s.qtc.idle.erase c ↔ (carRec (setCarRec c r s) d).state = .idle
  rw [carRec_setCarRec]
  by_cases hc : c = d
  · subst hc
    rw [if_pos ⟨rfl, by omega⟩]
    exact ⟨fun hm => ((List.Nodup.mem_erase_iff h.1).mp hm).1.elim rfl, fun hx => (hs hx).elim⟩
  · rw [if_neg (fun hx => hc hx.1), List.mem_erase_of_ne (fun hx => hc hx.symm)]
    exact h.2.2.2 d hd

theorem nodup_append_one {l : List Nat} {c : Nat} (h : l.Nodup) (hc : c ∉ l) : (l ++ [c]).Nodup := by
  rw [List.nodup_append]
  refine ⟨h, by simp, fun a ha b hb => ?_⟩
  rw [List.mem_singleton] at hb
  subst hb
  exact fun hx => hc (hx ▸ ha)

/-- A car that becomes IDLE joins the idle list (R84). -/
theorem becomesIdle_touches {c : Nat} {r : CarRecord} {s : State} (hr : ∀ k ∈ r.reserved, k ∈ (carRec s c).reserved)
    (hp : r.position = (carRec s c).position) (ho : r.occupied = (carRec s c).occupied) (hs : r.state = .idle) :
    Touches [.cars, .idle] s (idleAppend c (setCarRec c r s)) := by
  have k1 : Touches [.trackLaw, .places, .cars, .listLaw] s (setCarRec c r s) := (setCarRec_touches c r s).mono
  have k2 : Touches [.cars, .listLaw] s (setCarRec c r s) :=
    Touches.keep (a := .places) (l := [.cars, .listLaw])
      (Touches.keep (a := .trackLaw) (l := [.places, .cars, .listLaw]) k1 (setCarRec_law hr (.inl hp)))
      (setCarRec_places hp ho)
  refine Touches.keep (a := .listLaw) (l := [.cars, .idle]) (k2.mono.seq (onQtc_idle_touches _ _).mono) ?_
  intro h
  let l := if s.qtc.idle.contains c then s.qtc.idle else s.qtc.idle ++ [c]
  have hl : l.Nodup ∧ c ∈ l ∧ ∀ d, d ≠ c → (d ∈ l ↔ d ∈ s.qtc.idle) := by
    dsimp only [l]
    split
    · next hc => exact ⟨h.1, by simpa using hc, fun _ _ => Iff.rfl⟩
    · next hc => exact ⟨nodup_append_one h.1 (by simpa using hc), by simp, fun d hd => by simp [hd]⟩
  refine ⟨hl.1, h.2.1, h.2.2.1, fun d hd => ?_⟩
  show d ∈ l ↔ (carRec (setCarRec c r s) d).state = .idle
  rw [carRec_setCarRec]
  by_cases hc : c = d
  · subst hc
    rw [if_pos ⟨rfl, by omega⟩]
    exact ⟨fun _ => hs, fun _ => hl.2.1⟩
  · rw [if_neg (fun hx => hc hx.1), hl.2.2 d (fun hx => hc hx.symm)]
    exact h.2.2.2 d hd

/-- A change of the tower's record and queue. -/
theorem onQtc_tower_touches {ho : Option Nat} {en : Bool} {q' : List Nat} {s : State}
    (ht : TrackLaw s → ∀ c, ∀ k ∈ (carRec s c).reserved, isTower s k → ho = some c)
    (hl : ListLaw s → q'.Nodup ∧ ∀ c, ho = some c → c ∉ q') :
    Touches [.tower] s (s.onQtc fun q => { q with holder := ho, entered := en, queue := q' }) := by
  intro a ha
  cases a <;> first
    | exact (ha (by decide)).elim
    | rfl
    | exact id
    | exact ⟨rfl, rfl⟩
    | exact ⟨rfl, rfl, rfl⟩
    | exact ⟨rfl, rfl, rfl, rfl⟩
    | exact List.Sublist.refl _
    | exact fun _ => ⟨rfl, rfl⟩
    | exact fun _ => rfl
    | exact fun _ h => ⟨Nat.le_refl _, h⟩
    | exact fun _ h => h
    | exact fun h => ⟨h.1, h.2.1, ht h⟩
    | exact fun h => ⟨h.1, (hl h).1, (hl h).2, h.2.2.2⟩

theorem towerGrant_touches (s : State) : Touches [.tower] s (towerGrant s) := by
  unfold towerGrant
  split
  · next c rest hh hq =>
    refine onQtc_tower_touches (s := s) (ho := some c) (en := occupiesTower s c) (q' := rest) (fun h d k hk ht => ?_)
      (fun h => ?_)
    · have := h.2.2 d k hk ht
      rw [hh] at this
      exact absurd this (by simp)
    · have h2 := h.2.1
      rw [hq, List.nodup_cons] at h2
      exact ⟨h2.2, fun d hd => by injection hd with hd; exact hd ▸ h2.1⟩
  · exact .refl _ _
  · exact .refl _ _

theorem towerJoin_touches (c : Nat) (s : State) : Touches [.tower] s (towerJoin c s) := by
  unfold towerJoin
  split
  · exact .refl _ _
  · next hc =>
    simp only [Bool.or_eq_true, decide_eq_true_eq, not_or, List.contains_iff_mem] at hc
    refine Touches.seq ?_ (towerGrant_touches _)
    refine onQtc_tower_touches (s := s) (ho := s.qtc.holder) (en := s.qtc.entered) (q' := s.qtc.queue ++ [c])
      (fun h => h.2.2) (fun h => ⟨nodup_append_one h.2.1 hc.2, fun d hd hm => ?_⟩)
    rcases List.mem_append.mp hm with hm | hm
    · exact h.2.2.1 d hd hm
    · rw [List.mem_singleton] at hm
      subst hm
      exact hc.1 hd

theorem queueErase_touches (c : Nat) (s : State) :
    Touches [.tower] s (s.onQtc fun q => { q with queue := q.queue.erase c }) :=
  onQtc_tower_touches (s := s) (ho := s.qtc.holder) (en := s.qtc.entered) (q' := s.qtc.queue.erase c)
    (fun h => h.2.2) (fun h => ⟨h.2.1.erase c, fun d hd hm => h.2.2.1 d hd (List.mem_of_mem_erase hm)⟩)

/-- Only cars 1 and 2 have records to act on. -/
theorem carRec_none {c : Nat} (s : State) (h : ¬ (1 ≤ c ∧ c ≤ 2)) : carRec s c = {} := by
  unfold carRec readNum readAt
  by_cases hc : c = 0
  · simp [hc]
  · have : ¬ c - 1 < 2 := by omega
    simp [hc, this]

/-- The release of the grant of its holder (R88, R95). -/
theorem towerRelease_touches {c : Nat} {s : State} (hc : s.qtc.holder = some c) :
    Touches [.cars, .tower] s (towerRelease c s) := by
  unfold towerRelease
  extract_lets r s1 s2
  have h1 : Touches [.cars] s s1 := setCarRec_kept (fun k hk => (List.mem_filter.mp hk).1) rfl rfl Iff.rfl
  have h2 : Touches [.cars, .tower] s s2 := by
    refine Touches.seq h1.mono (Touches.seq ?_ (towerGrant_touches _).mono)
    refine Touches.mono (l := [.tower]) (onQtc_tower_touches (s := s1) (ho := none) (en := false) (q' := s1.qtc.queue)
      (fun h d k hk ht => ?_) (fun h => ⟨h.2.1, fun d hd => absurd hd (by simp)⟩))
    have hh := h.2.2 d k hk ht
    have hd : d = c := by
      have : s1.qtc.holder = some c := hc
      rw [this] at hh
      injection hh with hh
      exact hh.symm
    subst hd
    by_cases hn : 1 ≤ d ∧ d ≤ 2
    · have hr : carRec s1 d = { r with reserved := r.reserved.filter fun k => !isTower s k } := by
        show carRec (setCarRec d _ s) d = _
        rw [carRec_setCarRec, if_pos ⟨rfl, hn⟩]
      rw [hr] at hk
      have := (List.mem_filter.mp hk).2
      have ht' : isTower s k = true := ht
      rw [ht'] at this
      exact absurd this (by decide)
    · rw [carRec_none s1 hn] at hk
      exact absurd hk List.not_mem_nil
  exact .ite (fun _ => h2.seq (towerJoin_touches _ _).mono) (fun _ => h2)

theorem carConfig_range {s : State} {c : Nat} {k : CarConfig} (h : carConfig s c = some k) : 1 ≤ c ∧ c ≤ 2 :=
  readNum_mem_range s.qtc.config c (by unfold carConfig at h; rw [h]; rfl)

theorem entered_touches (b : Bool) (s : State) : Touches [.tower] s (s.onQtc fun q => { q with entered := b }) :=
  onQtc_tower_touches (s := s) (ho := s.qtc.holder) (en := b) (q' := s.qtc.queue) (fun h => h.2.2)
    (fun h => ⟨h.2.1, h.2.2.1⟩)

theorem towerReport_touches (c : Nat) (s : State) : Touches [.cars, .tower] s (towerReport c s) := by
  unfold towerReport
  refine .ite (fun hh => ?_) (fun _ => .refl _ _)
  refine .ite (fun _ => (entered_touches _ _).mono) (fun _ => ?_)
  exact .ite (fun _ => towerRelease_touches hh) (fun _ => .refl _ _)

theorem carReseated_touches (c : Nat) (s : State) : Touches [.cars, .places] s (carReseated c s) :=
  setCarRec_moved (fun k hk => absurd hk (by simp)) (Or.inl rfl) Iff.rfl

/-! ## Moves -/

theorem mem_segmentsIn {s : State} {a b : Int} {k : Nat} :
    k ∈ segmentsIn s a b ↔ k ∈ segmentsInUse s ∧ overlaps a b (segment s k) = true := by
  unfold segmentsIn
  exact List.mem_filter

/-- A reservation that conflicts with nothing keeps R80. -/
theorem reserve_law {c : Nat} {r : CarRecord} {s : State} (hn : 1 ≤ c ∧ c ≤ 2)
    (hr : ∀ k ∈ r.reserved, k ∉ (carRec s (otherCar c)).reserved ∧ (isTower s k → s.qtc.holder = some c))
    (hp : r.position = (carRec s c).position) : TrackLaw s → TrackLaw (setCarRec c r s) := by
  intro h
  have own : carRec (setCarRec c r s) c = r := by rw [carRec_setCarRec, if_pos ⟨rfl, hn⟩]
  have oth : ∀ d, d ≠ c → carRec (setCarRec c r s) d = carRec s d := fun d hd => by
    rw [carRec_setCarRec, if_neg fun x => hd x.1.symm]
  refine ⟨fun d p hd => ?_, fun k h1 h2 => ?_, fun d k hk ht => ?_⟩
  · by_cases hc : d = c
    · subst hc; rw [own, hp] at hd; exact h.1 d p hd
    · rw [oth d hc] at hd; exact h.1 d p hd
  · by_cases hc : c = 1
    · subst hc
      rw [own] at h1
      rw [oth 2 (by omega)] at h2
      exact (hr k h1).1 h2
    · have hc2 : c = 2 := by omega
      subst hc2
      rw [own] at h2
      rw [oth 1 (by omega)] at h1
      exact (hr k h2).1 h1
  · by_cases hc : d = c
    · subst hc; rw [own] at hk; exact (hr k hk).2 ht
    · rw [oth d hc] at hk; exact h.2.2 d k hk ht

/-- Segments that do not conflict for a car are neither held by the other car nor, when TOWER segments, kept from it
(R79). -/
theorem not_conflicting {s : State} {c k : Nat} {route : List Nat} (hk : k ∈ route) (hc : k ∉ conflicts s c route) :
    k ∉ (carRec s (otherCar c)).reserved ∧ (isTower s k → s.qtc.holder = some c) := by
  have hx : ¬ ((holds s (otherCar c) k || (isTower s k && s.qtc.holder != some c)) = true) := fun hx =>
    hc (List.mem_filter.mpr ⟨hk, hx⟩)
  simp only [holds, Bool.or_eq_true, Bool.and_eq_true, not_or, not_and, bne_iff_ne, ne_eq, Decidable.not_not,
    List.contains_iff_mem] at hx
  exact ⟨hx.1.2, hx.2⟩

theorem foldl_min_le (f : Nat → Nat) (l : List Nat) (a : Nat) :
    l.foldl (fun acc j => min acc (f j)) a ≤ a ∧ ∀ j ∈ l, l.foldl (fun acc j => min acc (f j)) a ≤ f j := by
  induction l generalizing a with
  | nil => exact ⟨Nat.le_refl _, fun j hj => absurd hj (List.not_mem_nil)⟩
  | cons x l ih =>
    have h := ih (min a (f x))
    refine ⟨by have := h.1; simp only [List.foldl_cons]; omega, fun j hj => ?_⟩
    rcases List.mem_cons.mp hj with hx | hx
    · subst hx; have := h.1; simp only [List.foldl_cons]; omega
    · exact h.2 j hx

theorem foldl_max_le (f : Nat → Nat) (l : List Nat) (a : Nat) :
    a ≤ l.foldl (fun acc j => max acc (f j)) a ∧ ∀ j ∈ l, f j ≤ l.foldl (fun acc j => max acc (f j)) a := by
  induction l generalizing a with
  | nil => exact ⟨Nat.le_refl _, fun j hj => absurd hj (List.not_mem_nil)⟩
  | cons x l ih =>
    have h := ih (max a (f x))
    refine ⟨by have := h.1; simp only [List.foldl_cons]; omega, fun j hj => ?_⟩
    rcases List.mem_cons.mp hj with hx | hx
    · subst hx; have := h.1; simp only [List.foldl_cons]; omega
    · exact h.2 j hx

/-- The route of a clamped move lies within the route ordered and holds no conflicting segment (R81). -/
theorem clampedTarget_route {s : State} {c p t target : Nat} {k : CarConfig}
    (h : clampedTarget s k p (directionTo p t) (conflicts s c (routeSegments s (halfLength k) p t)) = some target)
    (hne : conflicts s c (routeSegments s (halfLength k) p t) ≠ []) (hp : p < 16777216) (ht : t < 16777216) :
    target < 16777216 ∧
      ∀ j ∈ routeSegments s (halfLength k) p target,
        j ∈ routeSegments s (halfLength k) p t ∧ j ∉ conflicts s c (routeSegments s (halfLength k) p t) := by
  generalize hcf : conflicts s c (routeSegments s (halfLength k) p t) = conf at *
  have hsub : ∀ j ∈ conf, j ∈ routeSegments s (halfLength k) p t := fun j hj => by
    rw [← hcf] at hj
    exact (List.mem_filter.mp hj).1
  obtain ⟨j0, hj0⟩ := List.exists_mem_of_ne_nil conf hne
  have ho0 := (mem_segmentsIn.mp (hsub j0 hj0)).2
  simp only [overlaps, Bool.and_eq_true, decide_eq_true_eq] at ho0
  unfold directionTo at h
  by_cases hu : p < t
  · rw [if_pos hu] at h
    simp only [clampedTarget] at h
    have hm := foldl_min_le (fun j => (segment s j).start) conf 16777216
    generalize hfirst : conf.foldl (fun acc j => min acc (segment s j).start) 16777216 = first at *
    split at h
    · next hlt =>
      injection h with h
      have h0 := hm.2 j0 hj0
      refine ⟨by omega, fun j hj => ?_⟩
      have ho := mem_segmentsIn.mp hj
      have hov := ho.2
      simp only [overlaps, Bool.and_eq_true, decide_eq_true_eq] at hov
      refine ⟨mem_segmentsIn.mpr ⟨ho.1, ?_⟩, fun hx => ?_⟩
      · simp only [overlaps, Bool.and_eq_true, decide_eq_true_eq]
        omega
      · have := hm.2 j hx
        omega
    · exact absurd h (by simp)
  · rw [if_neg hu] at h
    by_cases hd : t < p
    · rw [if_pos hd] at h
      simp only [clampedTarget] at h
      have hm := foldl_max_le (fun j => (segment s j).stop) conf 0
      generalize hfirst : conf.foldl (fun acc j => max acc (segment s j).stop) 0 = first at *
      split at h
      · next hlt =>
        injection h with h
        have h0 := hm.2 j0 hj0
        refine ⟨by omega, fun j hj => ?_⟩
        have ho := mem_segmentsIn.mp hj
        have hov := ho.2
        simp only [overlaps, Bool.and_eq_true, decide_eq_true_eq] at hov
        refine ⟨mem_segmentsIn.mpr ⟨ho.1, ?_⟩, fun hx => ?_⟩
        · simp only [overlaps, Bool.and_eq_true, decide_eq_true_eq]
          omega
        · have := hm.2 j hx
          omega
      · exact absurd h (by simp)
    · rw [if_neg hd] at h
      exact absurd h (by simp [clampedTarget])

/-- A MOVE that goes out to a car, clamped or not, has a route without conflict (R79, R81). -/
theorem carMoveForm_route {s : State} {c p : Nat} {t t' : Telegram} {k : CarConfig} (h : carMoveForm s c t = .ok t')
    (hk : carConfig s c = some k) (hpos : (carRec s c).position = some p) (hp : p < 16777216) :
    ∀ j ∈ routeSegments s (halfLength k) p (moveTarget t'),
      j ∉ conflicts s c (routeSegments s (halfLength k) p (moveTarget t')) ∧
        j ∉ conflicts s c (routeSegments s (halfLength k) p (moveTarget t)) := by
  unfold carMoveForm at h
  rw [hk, hpos] at h
  have sub : ∀ {r r' : List Nat} {j : Nat}, j ∈ r' → j ∉ conflicts s c r' → j ∉ conflicts s c r := by
    intro r r' j hj hc hx
    exact hc (List.mem_filter.mpr ⟨hj, (List.mem_filter.mp hx).2⟩)
  have sub' : ∀ {r r' : List Nat} {j : Nat}, j ∉ conflicts s c r → j ∈ r → j ∉ conflicts s c r' := by
    intro r r' j hc hj hx
    exact hc (List.mem_filter.mpr ⟨hj, (List.mem_filter.mp hx).2⟩)
  split at h
  · exact absurd h (by simp)
  · next g q _ hg hq =>
    injection hg with hg
    injection hq with hq
    subst hg hq
    extract_lets conf at h
    split at h
    · next he =>
      injection h with h
      subst h
      have hn : conflicts s c (routeSegments s (halfLength k) p (moveTarget t)) = [] := List.isEmpty_iff.mp he
      intro j _
      rw [hn]
      exact ⟨List.not_mem_nil, List.not_mem_nil⟩
    · next he =>
      split at h
      · next target htg =>
        injection h with h
        subst h
        have hne : conflicts s c (routeSegments s (halfLength k) p (moveTarget t)) ≠ [] := fun hx =>
          he (List.isEmpty_iff.mpr hx)
        have hr := clampedTarget_route htg hne hp (moveTarget_lt t)
        have hm : moveTarget (creepTo t target) = target := moveTarget_body t target 0 _ hr.1
        rw [hm]
        intro j hj
        have := hr.2 j hj
        exact ⟨sub' this.2 this.1, this.2⟩
      · exact absurd h (by simp)
  · next hno => exact (hno k p rfl rfl).elim

theorem carReserves_touches {c : Nat} {t : Telegram} {s : State}
    (h : ∀ k p, carConfig s c = some k → (carRec s c).position = some p →
      TrackLaw s → ∀ j ∈ routeSegments s (halfLength k) p (moveTarget t),
        j ∉ (carRec s (otherCar c)).reserved ∧ (isTower s j → s.qtc.holder = some c)) :
    Touches [.cars] s (carReserves c t s) := by
  unfold carReserves
  extract_lets r
  split
  · next k p hk hp =>
    refine Touches.keep (a := .trackLaw) (l := [.cars]) (Touches.keep (a := .places) (l := [.trackLaw, .cars])
      (Touches.keep (a := .listLaw) (l := [.places, .trackLaw, .cars]) (setCarRec_touches c _ s).mono
        (setCarRec_lists Iff.rfl)) (setCarRec_places rfl rfl)) ?_
    intro hs
    exact reserve_law (carConfig_range hk) (h k p hk hp hs) rfl hs
  · exact .refl _ _
  · exact .refl _ _

theorem track_eq {q r : Track} (h1 : q.cars = r.cars)
    (h2 : q.holder = r.holder ∧ q.entered = r.entered ∧ q.queue = r.queue)
    (h3 : q.idle = r.idle ∧ q.carRequest = r.carRequest)
    (h4 : q.segments = r.segments ∧ q.count = r.count ∧ q.config = r.config ∧ q.timing = r.timing) : q = r := by
  cases q
  cases r
  simp only at h1 h2 h3 h4
  obtain ⟨h21, h22, h23⟩ := h2
  obtain ⟨h31, h32⟩ := h3
  obtain ⟨h41, h42, h43, h44⟩ := h4
  subst h1 h21 h22 h23 h31 h32 h41 h42 h43 h44
  rfl

theorem carMove_touches {c pos : Nat} {o : Order} {s u : State} {t : Telegram} (h : carMove c pos o s = .ok (u, t)) :
    Touches [.outbound, .tasks, .cars] s u := by
  unfold carMove at h
  split at h
  · exact absurd h (by simp)
  · next t' hf =>
    split at h
    · exact absurd h (by simp)
    · next s' ho =>
      injection h with h
      injection h with h1 h2
      subst h1
      have hs := offerOrder_touches ho
      refine hs.mono.seq (Touches.mono (l := [.cars]) (carReserves_touches fun k p hk hp hl j hj => ?_))
      have hq : s'.qtc = s.qtc :=
        track_eq (hs .cars (by decide)) (hs .tower (by decide)) (hs .idle (by decide)) (hs .trackTables (by decide))
      have e1 : carConfig s' c = carConfig s c := by unfold carConfig; rw [hq]
      have e2 : ∀ d, carRec s' d = carRec s d := fun d => by unfold carRec; rw [hq]
      have e3 : ∀ j, segment s' j = segment s j := fun j => by unfold segment; rw [hq]
      have e4 : ∀ j, isTower s' j = isTower s j := fun j => by unfold isTower; rw [e3]
      have e5 : routeSegments s' (halfLength k) p (moveTarget t') = routeSegments s (halfLength k) p (moveTarget t') := by
        unfold routeSegments segmentsIn segmentsInUse
        simp only [e3]
        rw [hq]
      rw [e1] at hk
      rw [e2] at hp
      rw [e5] at hj
      have hb : p < 16777216 := by
        have := hl.1 c p (by rw [e2]; exact hp)
        exact this
      have := not_conflicting hj ((carMoveForm_route hf hk hp hb j hj).1)
      rw [e2, e4, hq]
      exact this

/-! ## The car cycle -/

theorem onRunCar_touches (v : Option Nat) (s : State) : Touches [.run] s (onRun (fun r => { r with car := v }) s) :=
  onRun_kept ⟨rfl, rfl, rfl, rfl, rfl⟩ id

theorem dropRunCar_touches (c : Nat) (s : State) : Touches [.run] s (dropRunCar c s) :=
  .ite (fun _ => onRunCar_touches _ _) (fun _ => .refl _ _)

theorem carReturned_touches (c : Nat) (s : State) : Touches [.cars, .idle] s (carReturned c s) := by
  unfold carReturned
  extract_lets r
  exact .ite (fun _ => becomesIdle_touches (fun _ hk => hk) rfl rfl rfl) (fun _ => .refl _ _)

theorem carReceives_touches (c n : Nat) (s : State) : Touches [.cars, .idle, .run] s (carReceives c n s) := by
  unfold carReceives
  extract_lets r s1
  have h : Touches [.cars, .idle, .run] s s1 := Touches.mono (l := [.cars, .idle])
    (leavesIdle_touches (r := { r with state := .receiving, assignedOven := n, loadOven := n }) rfl rfl rfl nofun)
  exact .ite (fun _ => h) (fun _ => h.seq (dropRunCar_touches _ _).mono)

theorem carLoads_touches (c : Nat) (b : Bool) (s : State) : Touches [.cars, .tower] s (carLoads c b s) := by
  unfold carLoads
  extract_lets r
  exact .ite (fun h => Touches.after (towerJoin_touches _ _).mono (Touches.mono (l := [.cars])
    (setCarRec_rest rfl rfl rfl (neither_idle nofun (not_idle h (by decide)))))) (fun _ => .refl _ _)

theorem carQuenches_touches (c : Nat) (s : State) : Touches [.cars] s (carQuenches c s) := by
  unfold carQuenches
  extract_lets r
  refine .ite (fun h => setCarRec_rest rfl rfl rfl (neither_idle nofun fun hx => ?_)) (fun _ => .refl _ _)
  have hx : r.state = .idle := hx
  rw [hx] at h
  exact nomatch h

theorem carQuenchEnds_touches (c : Nat) (ok : Bool) (s : State) : Touches [.cars] s (carQuenchEnds c ok s) := by
  unfold carQuenchEnds
  extract_lets r
  refine .ite (fun h => ?_) (fun _ => .refl _ _)
  have hn : (carRec s c).state ≠ .idle := not_idle h (by decide)
  refine .ite (fun _ => ?_) (fun _ => setCarRec_rest rfl rfl rfl (neither_idle nofun hn))
  exact .ite (fun _ => setCarRec_rest rfl rfl rfl (neither_idle nofun hn))
    (fun _ => setCarRec_rest rfl rfl rfl (neither_idle nofun hn))

theorem carDumps_touches (c : Nat) (s : State) : Touches [.cars] s (carDumps c s) := by
  unfold carDumps
  extract_lets r
  exact .ite (fun h => setCarRec_rest rfl rfl rfl (neither_idle nofun (not_idle h (by decide))))
    (fun _ => .refl _ _)

theorem carDumpEnds_touches (c : Nat) (ok : Bool) (s : State) : Touches [.cars, .idle] s (carDumpEnds c ok s) := by
  unfold carDumpEnds
  extract_lets r
  refine .ite (fun h => ?_) (fun _ => .refl _ _)
  refine .ite (fun _ => ?_) (fun _ => Touches.mono (l := [.cars])
    (setCarRec_rest rfl rfl rfl (neither_idle nofun (not_idle h (by decide)))))
  exact becomesIdle_touches (fun _ hk => hk) rfl rfl rfl

theorem keepOccupied_reserved (r : CarRecord) : ∀ k ∈ (keepOccupied r).reserved, k ∈ r.reserved :=
  fun _ hk => (List.mem_filter.mp hk).1

theorem carReleases_touches (c : Nat) (s : State) : Touches [.cars] s (carReleases c s) := by
  unfold carReleases
  extract_lets r r1 k1 r2 r3 k2 r4
  have h1 : ∀ k ∈ r1.reserved, k ∈ r.reserved := fun k hk => (List.mem_filter.mp hk).1
  have h2 : (∀ k ∈ r2.reserved, k ∈ r.reserved) ∧ r2.position = r.position ∧ r2.occupied = r.occupied ∧
      r2.state = r.state := by
    dsimp only [r2]
    split
    · exact ⟨fun k hk => h1 k (keepOccupied_reserved _ k hk), rfl, rfl, rfl⟩
    · exact ⟨h1, rfl, rfl, rfl⟩
  have h3 : (∀ k ∈ r3.reserved, k ∈ r.reserved) ∧ r3.position = r.position ∧ r3.occupied = r.occupied ∧
      r3.state = r.state := by
    dsimp only [r3]
    split
    · exact ⟨fun k hk => h2.1 k (keepOccupied_reserved _ k hk), h2.2⟩
    · exact h2
  have h4 : (∀ k ∈ r4.reserved, k ∈ r.reserved) ∧ r4.position = r.position ∧ r4.occupied = r.occupied ∧
      r4.state = r.state := by
    dsimp only [r4]
    split
    · exact ⟨fun k hk => h3.1 k (keepOccupied_reserved _ k hk), h3.2⟩
    · exact h3
  exact setCarRec_kept h4.1 h4.2.1 h4.2.2.1 (by rw [h4.2.2.2])

theorem trackConflict_touches (c k : Nat) (s : State) :
    Touches [.counts, .transmit, .outbound, .tasks] s (trackConflict c k s) :=
  (raise_touches _ _ _ _ _).mono.seq ((placeHalt_touches _ _ _ _).mono.seq (placeHalt_touches _ _ _ _).mono)

theorem carConflictOrRelease_touches (c : Nat) (b : List Nat) (s : State) :
    Touches [.counts, .transmit, .outbound, .tasks, .cars, .tower] s (carConflictOrRelease c b s) := by
  unfold carConflictOrRelease
  split
  · exact (trackConflict_touches _ _ _).mono
  · exact (carReleases_touches _ _).mono.seq (towerReport_touches _ _).mono

theorem carPlaced_touches {c : Nat} (b : Bool) {s : State} (hu : (carRec s c).state = .unknown) :
    Touches [.cars, .idle, .tower] s (carPlaced c b s) := by
  have hn : (carRec s c).state ≠ .idle := by rw [hu]; exact nofun
  unfold carPlaced
  extract_lets r k1 r1
  have h1 : (∀ k ∈ r1.reserved, k ∈ r.reserved) ∧ r1.position = r.position ∧ r1.occupied = r.occupied := by
    dsimp only [r1, k1]
    split
    · exact ⟨fun k hk => hk, rfl, rfl⟩
    · exact ⟨keepOccupied_reserved r, rfl, rfl⟩
  split
  · exact Touches.mono (l := [.cars, .idle])
      (becomesIdle_touches (r := { r1 with state := .idle, load := .empty }) h1.1 h1.2.1 h1.2.2 rfl)
  · exact Touches.after (towerJoin_touches _ _).mono
      (Touches.mono (l := [.cars]) (setCarRec_kept h1.1 h1.2.1 h1.2.2 (neither_idle nofun hn)))
  · exact Touches.mono (l := [.cars]) (setCarRec_kept h1.1 h1.2.1 h1.2.2 (neither_idle nofun hn))

theorem carLoadTest_touches (c : Nat) (s : State) : Touches [.cars, .counts, .transmit] s (carLoadTest c s) := by
  unfold carLoadTest
  extract_lets r
  exact .ite (fun _ => Touches.after (raise_touches _ _ _ _ _).mono (Touches.mono (l := [.cars])
    (setCarRec_rest rfl rfl rfl Iff.rfl))) (fun _ => .refl _ _)

/-- A report of a position of 24 bits. -/
theorem carReport_touches {c p : Nat} (m : Bool) (st : Nat) {s : State} (hp : p < 16777216) :
    Touches [.counts, .transmit, .outbound, .tasks, .cars, .places, .tower, .idle] s (carReport c p m st s) := by
  unfold carReport
  extract_lets r s1 conflict s2
  have h1 : Touches [.cars, .places] s s1 :=
    setCarRec_moved (fun _ hk => hk) (Or.inr fun q hq => by injection hq with hq; exact hq ▸ hp) Iff.rfl
  have h2 : Touches [.counts, .transmit, .outbound, .tasks, .cars, .places, .tower, .idle] s s2 :=
    h1.mono.seq (carConflictOrRelease_touches _ _ _).mono
  exact .ite (fun hu => h2.seq (carPlaced_touches _ hu).mono) (fun _ => h2.seq (carLoadTest_touches _ _).mono)

theorem carHot_touches (c : Nat) (s : State) : Touches [.cars, .counts, .transmit] s (carHot c s) := by
  unfold carHot
  extract_lets r
  exact .ite (fun _ => Touches.after (raise_touches _ _ _ _ _).mono (Touches.mono (l := [.cars])
    (setCarRec_rest rfl rfl rfl Iff.rfl))) (fun _ => .refl _ _)

theorem carLost_touches (c : Nat) (s : State) : Touches [.cars, .tower, .idle, .run] s (carLost c s) := by
  unfold carLost
  extract_lets r s1
  have h1 : Touches [.cars, .idle] s (idleRemove c s1) := leavesIdle_touches rfl rfl rfl nofun
  exact h1.mono.seq ((queueErase_touches c (idleRemove c s1)).mono.seq (dropRunCar_touches _ _).mono)

theorem carCleared_touches (c : Nat) (s : State) : Touches [.cars, .places, .tower] s (carCleared c s) := by
  unfold carCleared
  extract_lets r s1
  have h1 : Touches [.cars, .places] s s1 :=
    setCarRec_moved (fun _ hk => absurd hk (by simp)) (Or.inr fun _ hq => absurd hq (by simp)) Iff.rfl
  exact .ite (fun hh => h1.mono.seq (towerRelease_touches hh).mono) (fun _ => h1.mono)

theorem qtcWarm_records (s : State) (c : Nat) : (carRec (qtcWarm s) c).reserved = [] ∧
    (carRec (qtcWarm s) c).position = (carRec s c).position ∧
    (carRec (qtcWarm s) c).occupied = (carRec s c).occupied := by
  unfold carRec qtcWarm
  simp only [State.onQtc_qtc]
  unfold readNum readAt
  by_cases hc : c = 0
  · simp [hc]
  · by_cases h2 : c - 1 < 2
    · simp [hc, h2, warmCar]
    · simp [hc, h2]

theorem qtcWarm_state (s : State) (c : Nat) : (carRec (qtcWarm s) c).state = .unknown := by
  unfold carRec qtcWarm
  simp only [State.onQtc_qtc]
  unfold readNum readAt
  by_cases hc : c = 0
  · simp [hc]
  · by_cases h2 : c - 1 < 2
    · simp [hc, h2, warmCar]
    · simp [hc, h2]

theorem qtcWarm_touches (s : State) : Touches [.cars, .tower, .idle] s (qtcWarm s) := by
  intro a ha
  cases a
  case places => exact fun c => (qtcWarm_records s c).2
  case listLaw =>
    refine fun _ => ⟨List.nodup_nil, List.nodup_nil, fun _ _ => List.not_mem_nil, fun c _ => ⟨nofun, fun h => ?_⟩⟩
    rw [qtcWarm_state] at h
    exact nomatch h
  case trackLaw =>
    intro h
    refine ⟨fun c p hp => h.1 c p ((qtcWarm_records s c).2.1 ▸ hp), fun k hk => ?_, fun c k hk => ?_⟩
    · rw [(qtcWarm_records s 1).1] at hk; exact absurd hk List.not_mem_nil
    · rw [(qtcWarm_records s c).1] at hk; exact absurd hk List.not_mem_nil
  all_goals first
    | exact (ha (by decide)).elim
    | rfl
    | exact id
    | exact ⟨rfl, rfl⟩
    | exact ⟨rfl, rfl, rfl⟩
    | exact ⟨rfl, rfl, rfl, rfl⟩
    | exact List.Sublist.refl _
    | exact fun _ => rfl
    | exact fun _ h => ⟨Nat.le_refl _, h⟩
    | exact fun _ h => h

theorem carHaltDelivered_touches (c : Nat) (s : State) : Touches [.cars] s (carHaltDelivered c s) :=
  setCarRec_rest rfl rfl rfl Iff.rfl

end Sys2Proof.Machine
end

