-- ==== Sys2Proof/Laws/Runner.lean ====
section
/-!
SUPPORT. What the operations of the schedule runner may touch, and that they keep R49.
-/

set_option Elab.async false
namespace Sys2Proof.Machine

open Sys2Proof

theorem Touches.run_eq {l : List Aspect} {s t : State} (h : Touches l s t) (hl : Aspect.run ∉ l := by decide) :
    t.run = s.run := h .run hl

theorem afterRun_touches (b s : State) : Touches [.outbound, .tasks] s (afterRun b s) :=
  .ite (fun _ => .refl _ _) (fun _ => dsmFreeBoth_touches _)

theorem withdrawCar_touches (s : State) : Touches [.idle] s (withdrawCar s) := by
  intro a ha
  cases a <;> first
    | exact (ha (by decide)).elim
    | rfl
    | exact id
    | exact ⟨rfl, rfl⟩
    | exact ⟨rfl, rfl, rfl⟩
    | exact ⟨rfl, rfl, rfl, rfl⟩
    | exact List.Sublist.refl _
    | exact fun _ => ⟨rfl, rfl⟩
    | exact fun _ => rfl
    | exact fun _ h => ⟨Nat.le_refl _, h⟩
    | exact fun _ h => h

theorem carRequest_touches (b : Bool) (s : State) : Touches [.idle] s (s.onQtc fun q => { q with carRequest := b }) := by
  intro a ha
  cases a <;> first
    | exact (ha (by decide)).elim
    | rfl
    | exact id
    | exact ⟨rfl, rfl⟩
    | exact ⟨rfl, rfl, rfl⟩
    | exact ⟨rfl, rfl, rfl, rfl⟩
    | exact List.Sublist.refl _
    | exact fun _ => ⟨rfl, rfl⟩
    | exact fun _ => rfl
    | exact fun _ h => ⟨Nat.le_refl _, h⟩
    | exact fun _ h => h

theorem onSense_touches (f : RunRecord → Sense) (s : State) :
    Touches [.sense] s (s.onSch fun r => { r with sense := f r.run }) := by
  intro a ha
  cases a <;> first
    | exact (ha (by decide)).elim
    | rfl
    | exact id
    | exact ⟨rfl, rfl⟩
    | exact ⟨rfl, rfl, rfl⟩
    | exact ⟨rfl, rfl, rfl, rfl⟩
    | exact List.Sublist.refl _
    | exact fun _ => ⟨rfl, rfl⟩
    | exact fun _ => rfl
    | exact fun _ h => ⟨Nat.le_refl _, h⟩
    | exact fun _ h => h

theorem onWatch_touches (f : State → Int) (b : Bool) (s : State) :
    Touches [.watch] s (s.onSch fun r => { r with silenceStart := f s, silenceRaised := b }) := by
  intro a ha
  cases a <;> first
    | exact (ha (by decide)).elim
    | rfl
    | exact id
    | exact ⟨rfl, rfl⟩
    | exact ⟨rfl, rfl, rfl⟩
    | exact ⟨rfl, rfl, rfl, rfl⟩
    | exact List.Sublist.refl _
    | exact fun _ => ⟨rfl, rfl⟩
    | exact fun _ => rfl
    | exact fun _ h => ⟨Nat.le_refl _, h⟩
    | exact fun _ h => h

theorem onRaised_touches (b : Bool) (s : State) :
    Touches [.watch] s (s.onSch fun r => { r with silenceRaised := b }) := by
  intro a ha
  cases a <;> first
    | exact (ha (by decide)).elim
    | rfl
    | exact id
    | exact ⟨rfl, rfl⟩
    | exact ⟨rfl, rfl, rfl⟩
    | exact ⟨rfl, rfl, rfl, rfl⟩
    | exact List.Sublist.refl _
    | exact fun _ => ⟨rfl, rfl⟩
    | exact fun _ => rfl
    | exact fun _ h => ⟨Nat.le_refl _, h⟩
    | exact fun _ h => h

/-! ## Stops and completion -/

theorem hardPushOfRun_touches (s : State) : Touches [.counts, .transmit] s (hardPushOfRun s) := by
  unfold hardPushOfRun
  extract_lets peak
  exact .ite (fun _ => raise_touches _ _ _ _ _) (fun _ => .refl _ _)

theorem haltMoves_touches (s : State) : Touches [.outbound, .tasks] s (haltMoves s) :=
  Touches.foldl s.run.moves
    (fun s m => placeHalt_touches .sch HaltReason.runStopped (runMachinePos s m.machine) s) s

theorem returnRunCar_touches (s : State) : Touches [.cars, .idle] s (returnRunCar s) := by
  unfold returnRunCar
  split
  · exact carReturned_touches _ _
  · exact .refl _ _
  · exact .refl _ _

/-- A change of the run record that leaves no run engaged. -/
theorem onRun_ended {f : RunRecord → RunRecord} {s : State}
    (hc : KeepsCounts f s.run) (he : (f s.run).engaged = false) : Touches [.run] s (onRun f s) :=
  onRun_kept hc fun h => by rw [he] at h; exact absurd h (by decide)

theorem stopRun_touches (code : StopCode) (a d : Nat) (s : State) : Touches runAspects s (stopRun code a d s) := by
  unfold stopRun
  extract_lets st s1 s2 s3 s4 s5
  have h1 : Touches runAspects s s1 :=
    Touches.after (withdrawCar_touches _).mono (Touches.mono (l := [.run]) (onRun_ended ⟨rfl, rfl, rfl, rfl, rfl⟩ rfl))
  have h2 : Touches runAspects s s2 :=
    Touches.after (onSense_touches (fun r => ⟨code, currentOven s1, r.cursor, st, d⟩) _).mono h1
  have h3 : Touches runAspects s s3 := .ite (fun _ => h2.seq (hardPushOfRun_touches _).mono) (fun _ => h2)
  have h4 : Touches runAspects s s4 := .ite (fun _ => h3.seq (haltMoves_touches _).mono) (fun _ => h3)
  have h5 : Touches runAspects s s5 := h4.seq (returnRunCar_touches _).mono
  exact h5.seq (raise_touches _ _ _ _ _).mono

/-- The sum of R49. -/
def RunSum (s : State) : Prop := s.run.pushed + s.run.skipped + s.run.residual = s.run.requested

theorem completeRun_base (s : State) : Touches [.run, .runLaw, .idle, .counts, .transmit] s (completeRun s) := by
  unfold completeRun
  extract_lets s1
  have h1 : Touches [.run, .runLaw, .idle, .counts, .transmit] s s1 :=
    Touches.after (withdrawCar_touches _).mono (Touches.mono (l := [.run, .runLaw]) (onRun_within ⟨rfl, rfl⟩))
  exact h1.seq (raise_touches _ _ _ _ _).mono

theorem completeRun_law {s : State} (h : RunSum s) : RunLaw (completeRun s) := by
  unfold completeRun
  extract_lets s1
  have h1 : s1.run = { s.run with state := .idle, holdPending := false } := rfl
  have hr : (raise .runDone (currentOven s1) 0 (s1.run.progress * 256 + s1.run.pushed : Nat) s1).run = s1.run :=
    (raise_touches _ _ _ _ _).run_eq
  unfold RunLaw
  rw [hr, h1]
  exact ⟨h, fun he => (Bool.false_ne_true he).elim⟩

theorem arriveNext_touches (s : State) : Touches [.run] s (arriveNext s) := onRun_kept ⟨rfl, rfl, rfl, rfl, rfl⟩ id

/-! ## Moves and steps -/

theorem offerRunMove_touches {m : RunMove} {s t : State} (h : offerRunMove m s = some t) :
    Touches [.outbound, .tasks, .cars] s t := by
  unfold offerRunMove at h
  split at h
  · split at h
    · next hc =>
      injection h with h
      subst h
      exact carMove_touches hc
    · exact absurd h (by simp)
  · exact (offerOrder_touches h).mono
  · exact (offerOrder_touches h).mono
  · exact absurd h (by simp)

theorem markPlaced_touches (m : RunMove) (s : State) : Touches [.run] s (markPlaced m s) :=
  onRun_kept ⟨rfl, rfl, rfl, rfl, rfl⟩ id

theorem offerMoves_touches (s : State) : Touches [.run, .cars, .outbound, .tasks] s (offerMoves s) := by
  refine Touches.foldl (l := [.run, .cars, .outbound, .tasks]) (s.run.moves.filter fun m => !m.placed)
    (f := fun s m => match offerRunMove m s with | some s => markPlaced m s | none => s) (fun u m => ?_) s
  split
  · next h => exact (offerRunMove_touches h).mono.seq (markPlaced_touches _ _).mono
  · exact .refl _ _

theorem formMoves_touches (s : State) : Touches [.run, .cars, .outbound, .tasks] s (formMoves s) := by
  unfold formMoves
  extract_lets moves
  exact Touches.after (offerMoves_touches _) (Touches.mono (l := [.run]) (onRun_kept ⟨rfl, rfl, rfl, rfl, rfl⟩ id))

theorem enterStep_touches (st : RunStep) (n : Nat) (s : State) : Touches [.run] s (enterStep st n s) :=
  onRun_kept ⟨rfl, rfl, rfl, rfl, rfl⟩ id

theorem openTest_touches (s : State) : Touches [.run] s (openTest s) := by
  unfold openTest
  extract_lets n
  exact .ite (fun _ => enterStep_touches _ _ _) (fun _ => .refl _ _)

theorem arrivalTest_touches (s : State) : Touches [.run] s (arrivalTest s) := by
  unfold arrivalTest
  refine .ite (fun _ => ?_) (fun _ => .refl _ _)
  have h : Touches [.run] (enterStep .opening s.sch.timing.opening s)
      (onRun (fun r => { r with moves := [] }) (enterStep .opening s.sch.timing.opening s)) :=
    onRun_kept ⟨rfl, rfl, rfl, rfl, rfl⟩ id
  exact Touches.after (openTest_touches _) ((enterStep_touches _ _ _).seq h)

theorem entryTest_touches (s : State) : Touches entryAspects s (entryTest s) := by
  unfold entryTest
  refine .ite (fun _ => ?_) (fun _ => .refl _ _)
  exact Touches.after (arrivalTest_touches _).mono (Touches.after (formMoves_touches _).mono
    (Touches.after (withdrawCar_touches _).mono (enterStep_touches _ _ _).mono))

theorem handCar_touches (c : Nat) (s : State) : Touches entryAspects s (handCar c s) := by
  unfold handCar
  extract_lets k s1
  have h1 : Touches entryAspects s s1 := Touches.mono (l := [.cars, .idle])
    (leavesIdle_touches (r := { carRec s c with state := .assigned, assignedOven := currentOven s }) rfl rfl rfl nofun)
  exact Touches.after (entryTest_touches _) (Touches.after (onRunCar_touches _ _).mono
    (Touches.after (withdrawCar_touches _).mono h1))

theorem carRequestTest_touches (s : State) : Touches entryAspects s (carRequestTest s) := by
  unfold carRequestTest
  refine .ite (fun _ => ?_) (fun _ => .refl _ _)
  split
  · exact handCar_touches _ _
  · exact (carRequest_touches _ _).mono

theorem satisfyRequest_touches (s : State) : Touches entryAspects s (satisfyRequest s) := by
  unfold satisfyRequest
  split
  · exact (handCar_touches _ _).seq (afterRun_touches _ _).mono
  · exact .refl _ _
  · exact .refl _ _

theorem waitTests_touches (s : State) : Touches entryAspects s (waitTests s) :=
  (carRequestTest_touches s).seq (entryTest_touches _)

/-! ## Taking up an oven -/

theorem freeRunCar_touches (s : State) : Touches [.run, .cars, .idle] s (freeRunCar s) := by
  unfold freeRunCar
  split
  · exact (carReturned_touches _ _).mono.seq (onRunCar_touches _ _).mono
  · exact .refl _ _

/-- What R49 counts, and the state. -/
def SameCounts (r t : RunRecord) : Prop :=
  t.pushed = r.pushed ∧ t.skipped = r.skipped ∧ t.residual = r.residual ∧ t.requested = r.requested ∧ t.state = r.state

theorem freeRunCar_counts (s : State) : SameCounts s.run (freeRunCar s).run := by
  unfold freeRunCar
  split
  · next c _ =>
    have h : (carReturned c s).run = s.run := (carReturned_touches c s).run_eq
    have h2 : (onRun (fun r => { r with car := none }) (carReturned c s)).run =
        { (carReturned c s).run with car := none } := rfl
    rw [h2, h]
    exact ⟨rfl, rfl, rfl, rfl, rfl⟩
  · exact ⟨rfl, rfl, rfl, rfl, rfl⟩

theorem skipOven_base (s : State) : Touches [.run, .runLaw, .cars, .idle, .counts, .transmit] s (skipOven s) := by
  unfold skipOven
  extract_lets s1
  have h1 : Touches [.run, .runLaw, .cars, .idle, .counts, .transmit] s s1 :=
    Touches.after (freeRunCar_touches _).mono (Touches.mono (l := [.run, .runLaw]) (onRun_within ⟨rfl, rfl⟩))
  exact h1.seq (raise_touches _ _ _ _ _).mono

theorem skipOven_counts (s : State) :
    SameCounts { s.run with skipped := s.run.skipped + 1, residual := s.run.residual - 1 } (skipOven s).run := by
  unfold skipOven
  extract_lets k s1
  have hr : (raise .ovenSkipped (currentOven s1) 0 (currentPhase s1).code s1).run = s1.run :=
    (raise_touches _ _ _ _ _).run_eq
  rw [hr]
  exact freeRunCar_counts _

theorem skipOven_sum {s : State} (h : RunSum s) (hp : 0 < s.run.residual) : RunSum (skipOven s) := by
  obtain ⟨h1, h2, h3, h4, _⟩ := skipOven_counts s
  unfold RunSum at *
  rw [h1, h2, h3, h4]
  dsimp only
  omega

theorem RunLaw.of_pos {s : State} (h : RunSum s) (hp : 0 < s.run.residual) : RunLaw s := ⟨h, fun _ => hp⟩

theorem phaseCases_base (f : Nat) (s : State) : Touches (.runLaw :: runAspects) s (phaseCases f s) := by
  induction f generalizing s with
  | zero => exact .refl _ _
  | succ f ih =>
    unfold phaseCases
    extract_lets s1
    have h1 : Touches (.runLaw :: runAspects) s s1 := (skipOven_base s).mono
    refine .ite (fun _ => ?_) (fun _ => ?_)
    · exact .ite (fun _ => h1.seq (completeRun_base _).mono) (fun _ => h1.seq ((arriveNext_touches _).mono.seq (ih _)))
    · exact .ite (fun _ => (stopRun_touches _ _ _ _).mono) (fun _ => (waitTests_touches _).mono)

theorem phaseCases_law (f : Nat) {s : State} (h : RunSum s) (hp : 0 < s.run.residual) : RunLaw (phaseCases f s) := by
  induction f generalizing s with
  | zero => exact .of_pos h hp
  | succ f ih =>
    unfold phaseCases
    extract_lets s1
    have hs1 : RunSum s1 := skipOven_sum h hp
    split
    · split
      · exact completeRun_law hs1
      · next hr =>
        exact ih (s := arriveNext s1) hs1 (Nat.pos_of_ne_zero hr)
    · split
      · exact stopRun_touches _ _ _ _ .runLaw (by decide) (.of_pos h hp)
      · exact waitTests_touches _ .runLaw (by decide) (.of_pos h hp)

/-- R52, at a run that has a position left. -/
theorem takeUp_touches {s : State} (hp : RunLaw s → 0 < s.run.residual) : Touches runAspects s (takeUp s) :=
  Touches.keep (a := .runLaw) (phaseCases_base _ _) fun h => phaseCases_law _ h.1 (hp h)

theorem running_pos {s : State} (h : s.run.state = .running) (hl : RunLaw s) : 0 < s.run.residual :=
  hl.2 (by unfold RunRecord.engaged; rw [h]; rfl)

/-! ## What the other blocks report -/

theorem schPhaseChange_touches (n : Nat) (s : State) : Touches runAspects s (schPhaseChange n s) := by
  unfold schPhaseChange
  refine .ite (fun hc => ?_) (fun _ => .refl _ _)
  simp only [Bool.and_eq_true, decide_eq_true_eq] at hc
  refine Touches.after (afterRun_touches _ _).mono ?_
  split
  · exact takeUp_touches fun h => running_pos hc.1 h
  · refine .ite (fun _ => ?_) (fun _ => .refl _ _)
    extract_lets s1
    have hm : Touches [.run] s (onRun (fun r => { r with moves := [] }) s) := onRun_kept ⟨rfl, rfl, rfl, rfl, rfl⟩ id
    refine Touches.keep (a := .runLaw) ?_ ?_
    · have h1 : Touches (.runLaw :: runAspects) s s1 := hm.mono.seq (skipOven_base _).mono
      exact .ite (fun _ => h1.seq (completeRun_base _).mono)
        (fun _ => h1.seq ((arriveNext_touches _).mono.seq (phaseCases_base _ _)))
    · intro hl
      have hs : RunSum s1 := skipOven_sum (s := onRun (fun r => { r with moves := [] }) s) hl.1 (running_pos hc.1 hl)
      split
      · exact completeRun_law hs
      · next hr => exact phaseCases_law (s := arriveNext s1) _ hs (Nat.pos_of_ne_zero hr)
  · exact .ite (fun _ => stopRun_touches _ _ _ _) (fun _ => .refl _ _)
  · exact .ite (fun _ => stopRun_touches _ _ _ _) (fun _ => .refl _ _)
  · exact .ite (fun _ => stopRun_touches _ _ _ _) (fun _ => .refl _ _)

theorem schAlignChange_touches (s : State) : Touches [.run, .outbound, .tasks] s (schAlignChange s) :=
  (arrivalTest_touches s).mono.seq ((openTest_touches _).mono.seq (afterRun_touches _ _).mono)

theorem schPushGranted_touches (n : Nat) (s : State) : Touches [.run] s (schPushGranted n s) :=
  .ite (fun _ => onRun_kept ⟨rfl, rfl, rfl, rfl, rfl⟩ id) (fun _ => .refl _ _)

theorem schPushDone_touches (n : Nat) (s : State) : Touches [.run, .outbound, .tasks] s (schPushDone n s) :=
  .ite (fun _ => (enterStep_touches _ _ _).mono.seq ((onRunCar_touches _ _).mono.seq (afterRun_touches _ _).mono))
    (fun _ => .refl _ _)

theorem schPushBroken_touches (n d : Nat) (s : State) : Touches runAspects s (schPushBroken n d s) :=
  .ite (fun _ => (stopRun_touches _ _ _ _).seq (afterRun_touches _ _).mono) (fun _ => .refl _ _)

theorem closeAccount_base (s : State) : Touches [.run, .runLaw, .counts, .transmit] s (closeAccount s) := by
  unfold closeAccount
  extract_lets b s1 s2
  have h1 : Touches [.run, .runLaw, .counts, .transmit] s s1 := (Touches.mono (l := [.run, .runLaw]) (onRun_within ⟨rfl, rfl⟩))
  have h2 : Touches [.run, .runLaw, .counts, .transmit] s s2 :=
    .ite (fun _ => h1.seq ((raise_touches _ _ _ _ _).mono.seq (Touches.mono (l := [.run, .runLaw]) (onRun_within ⟨rfl, rfl⟩)))) (fun _ => h1)
  exact h2.seq (hardPushOfRun_touches _).mono

theorem closeAccount_counts (s : State) :
    SameCounts { s.run with pushed := s.run.pushed + 1, residual := s.run.residual - 1 } (closeAccount s).run := by
  unfold closeAccount
  extract_lets k b s1 s2
  have h2 : SameCounts s1.run s2.run := by
    dsimp only [s2]
    split
    · have hr : (raise .runBlock (currentOven s1) 0 (s1.run.pushed * 256 + s1.run.skipped : Nat) s1).run = s1.run :=
        (raise_touches _ _ _ _ _).run_eq
      have h3 : ∀ u, (onRun (fun r => { r with progress := 0 }) u).run = { u.run with progress := 0 } := fun _ => rfl
      rw [h3, hr]
      exact ⟨rfl, rfl, rfl, rfl, rfl⟩
    · exact ⟨rfl, rfl, rfl, rfl, rfl⟩
  rw [(hardPushOfRun_touches s2).run_eq]
  exact h2

theorem closeContinue_base (s : State) : Touches (.runLaw :: runAspects) s (closeContinue s) := by
  unfold closeContinue
  extract_lets peak s1
  refine .ite (fun _ => (completeRun_base _).mono) (fun _ => .ite (fun _ => (stopRun_touches _ _ _ _).mono) (fun _ => ?_))
  refine (arriveNext_touches s).mono.seq ?_
  exact .ite (fun _ => (Touches.mono (l := [.run, .runLaw]) (onRun_within ⟨rfl, rfl⟩))) (fun _ => phaseCases_base _ _)

theorem closeContinue_law {s : State} (h : RunSum s) : RunLaw (closeContinue s) := by
  unfold closeContinue
  extract_lets peak s1
  split
  · exact completeRun_law h
  · next hr =>
    have hp := Nat.pos_of_ne_zero hr
    split
    · exact stopRun_touches _ _ _ _ .runLaw (by decide) (.of_pos h hp)
    · split
      · exact .of_pos h hp
      · exact phaseCases_law (s := s1) _ h hp

theorem closeTest_touches (s : State) : Touches runAspects s (closeTest s) := by
  unfold closeTest
  refine .ite (fun hc => ?_) (fun _ => .refl _ _)
  simp only [Bool.and_eq_true, decide_eq_true_eq] at hc
  refine Touches.keep (a := .runLaw) ((closeAccount_base s).mono.seq (closeContinue_base _)) fun hl => ?_
  apply closeContinue_law
  obtain ⟨h1, h2, h3, h4, _⟩ := closeAccount_counts s
  have hp := running_pos hc.1.1 hl
  have := hl.1
  unfold RunSum
  rw [h1, h2, h3, h4]
  dsimp only
  omega

theorem schDoorChange_touches (n : Nat) (s : State) : Touches runAspects s (schDoorChange n s) := by
  unfold schDoorChange
  refine .ite (fun _ => ?_) (fun _ => .refl _ _)
  refine Touches.after (afterRun_touches _ _).mono ?_
  split
  · exact (openTest_touches _).mono
  · exact closeTest_touches _
  · exact .refl _ _
  · exact .refl _ _
  · exact .refl _ _

theorem schStationLeft_touches (p : Nat) (s : State) : Touches runAspects s (schStationLeft p s) := by
  unfold schStationLeft
  extract_lets a
  exact .ite (fun _ => (stopRun_touches _ _ _ _).seq (afterRun_touches _ _).mono) (fun _ => .refl _ _)

/-! ## Tests at the clock -/

theorem latenessTest_touches (s : State) : Touches runAspects s (latenessTest s) :=
  .ite (fun _ => .ite (fun _ => (stopRun_touches _ _ _ _).seq (afterRun_touches _ _).mono)
    (fun _ => .ite (fun _ => .refl _ _) (fun _ => (stopRun_touches _ _ _ _).seq (afterRun_touches _ _).mono)))
    (fun _ => .refl _ _)

theorem stepTimeout_touches (s : State) : Touches runAspects s (stepTimeout s) :=
  .ite (fun _ => (stopRun_touches _ _ _ _).seq (afterRun_touches _ _).mono) (fun _ => .refl _ _)

theorem leadInstant_touches (s : State) : Touches entryAspects s (leadInstant s) :=
  .ite (fun _ => (waitTests_touches _).seq (afterRun_touches _ _).mono) (fun _ => .refl _ _)

theorem holdRun_touches (s : State) : Touches [.run, .idle, .outbound, .tasks] s (holdRun s) := by
  unfold holdRun
  refine .ite (fun hc => ?_) (fun _ => .refl _ _)
  refine .ite (fun _ => ?_) (fun _ => Touches.mono (l := [.run]) (onRun_kept ⟨rfl, rfl, rfl, rfl, rfl⟩ id))
  refine Touches.after (afterRun_touches _ _).mono (Touches.after (withdrawCar_touches _).mono ?_)
  exact Touches.mono (l := [.run]) (onRun_kept ⟨rfl, rfl, rfl, rfl, rfl⟩ fun _ => by
    unfold RunRecord.engaged; rw [hc]; rfl)

theorem silenceActs_touches (s : State) :
    Touches [.watch, .counts, .transmit, .run, .idle, .outbound, .tasks] s (silenceActs s) :=
  .ite (fun _ => (onRaised_touches true s).mono.seq ((raise_touches _ _ _ _ _).mono.seq (holdRun_touches _).mono))
    (fun _ => .refl _ _)

theorem silenceRestart_touches (s : State) : Touches [.watch] s (silenceRestart s) :=
  onWatch_touches State.now false s

theorem schAdvance_touches (s : State) : Touches entryAspects s (schAdvance s) := by
  unfold schAdvance
  refine .ite (fun _ => ?_) (fun _ => .refl _ _)
  split
  · exact (offerMoves_touches _).mono
  · exact (entryTest_touches _).seq (afterRun_touches _ _).mono
  · exact .refl _ _
  · exact .refl _ _
  · exact .refl _ _

theorem schWarm_touches (s : State) : Touches [.run, .stretch, .sense, .latenessMark] s (schWarm s) := by
  intro a ha
  cases a <;> first
    | exact (ha (by decide)).elim
    | rfl
    | exact id
    | exact ⟨rfl, rfl⟩
    | exact ⟨rfl, rfl, rfl⟩
    | exact ⟨rfl, rfl, rfl, rfl⟩
    | exact List.Sublist.refl _
    | exact fun _ => ⟨rfl, rfl⟩
    | exact fun _ => rfl
    | exact fun _ h => ⟨Nat.le_refl _, h⟩
    | exact fun _ h => h
    | exact fun _ => ⟨rfl, fun h => (Bool.false_ne_true h).elim⟩

theorem latenessMark_touches (b : Bool) (s : State) :
    Touches [.latenessMark] s (s.onSch fun r => { r with latenessDue := b }) := by
  intro a ha
  cases a <;> first
    | exact (ha (by decide)).elim
    | rfl
    | exact id
    | exact ⟨rfl, rfl⟩
    | exact ⟨rfl, rfl, rfl⟩
    | exact ⟨rfl, rfl, rfl, rfl⟩
    | exact List.Sublist.refl _
    | exact fun _ => ⟨rfl, rfl⟩
    | exact fun _ => rfl
    | exact fun _ h => ⟨Nat.le_refl _, h⟩
    | exact fun _ h => h

end Sys2Proof.Machine
end

