-- ==== Sys2Proof/Laws/Ovens.lean ====
section
/-!
SUPPORT. What the operations of the oven table may touch, and that no charge stamp runs ahead of the clock.
-/

set_option Elab.async false
namespace Sys2Proof.Machine

open Sys2Proof

theorem setPhase_touches {n : Nat} (ph : Phase) {stamp : Int} {s : State}
    (h : stamp = (ovenRec s n).stamp ∨ stamp ≤ s.now) : Touches phaseAspects s (setPhase n ph stamp s) := by
  unfold setPhase
  extract_lets r
  refine .ite (fun _ => .refl _ _) (fun _ => ?_)
  exact Touches.after (schPhaseChange_touches _ _).mono
    (Touches.after (oprDerive_touches _ _).mono (Touches.mono (l := [.ovens]) (setOvenRec_kept h)))

theorem setPhaseOnly_touches (n : Nat) (ph : Phase) (s : State) : Touches phaseAspects s (setPhaseOnly n ph s) :=
  setPhase_touches ph (Or.inl rfl)

theorem recomputeReady_touches (n : Nat) (s : State) : Touches phaseAspects s (recomputeReady n s) := by
  unfold recomputeReady
  extract_lets r
  exact .ite (fun _ => setPhaseOnly_touches _ _ _) (fun _ => .refl _ _)

theorem readyActs_touches (n : Nat) (s : State) : Touches phaseAspects s (readyActs n s) :=
  .ite (fun _ => setPhaseOnly_touches _ _ _) (fun _ => .refl _ _)

theorem holdEndActs_touches (n : Nat) (s : State) : Touches [.regs, .dirty] s (holdEndActs n s) := by
  unfold holdEndActs
  extract_lets ph
  exact .ite (fun _ => oprDerive_touches _ _) (fun _ => .refl _ _)

theorem lateActs_touches (n : Nat) (s : State) : Touches [.regs, .dirty] s (lateActs n s) := by
  unfold lateActs
  extract_lets ph
  exact .ite (fun _ => oprDerive_touches _ _) (fun _ => .refl _ _)

theorem chargeIncomplete_touches (n a c : Nat) (s : State) : Touches phaseAspects s (chargeIncomplete n a c s) :=
  (setPhase_touches _ (Or.inr (Int.le_refl _))).seq (raise_touches _ _ _ _ _).mono

theorem ovtDoorOff_touches (n : Nat) (s : State) : Touches phaseAspects s (ovtDoorOff n s) := by
  unfold ovtDoorOff
  extract_lets ph
  exact .ite (fun _ => setPhaseOnly_touches _ _ _) (fun _ => .refl _ _)

theorem ovtDoorOn_touches (n : Nat) (s : State) : Touches phaseAspects s (ovtDoorOn n s) := by
  unfold ovtDoorOn
  extract_lets r
  exact .ite (fun _ => setPhaseOnly_touches _ _ _) (fun _ => .refl _ _)

theorem ovtPushDone_touches (n a m : Nat) (ok : Bool) (s : State) : Touches phaseAspects s (ovtPushDone n a m ok s) := by
  unfold ovtPushDone
  extract_lets r hard s1 ofRun s2
  have h1 : Touches [.ovens] s s1 := setOvenRec_kept (Or.inl rfl)
  have h2 : Touches phaseAspects s s2 := .ite (fun _ => h1.mono.seq (raise_touches _ _ _ _ _).mono) (fun _ => h1.mono)
  exact .ite (fun _ => h2.seq (setPhaseOnly_touches _ _ _)) (fun _ => h2)

theorem ovtPushBroken_touches (n : Nat) (s : State) : Touches phaseAspects s (ovtPushBroken n s) :=
  .ite (fun _ => setPhaseOnly_touches _ _ _) (fun _ => .refl _ _)

theorem ovtChargeCut_touches (n a c : Nat) (s : State) : Touches phaseAspects s (ovtChargeCut n a c s) :=
  .ite (fun _ => chargeIncomplete_touches _ _ _ _) (fun _ => .refl _ _)

theorem ovtChargeDone_touches (n : Nat) (s : State) : Touches phaseAspects s (ovtChargeDone n s) :=
  .ite (fun _ => setPhase_touches _ (Or.inr (Int.le_refl _))) (fun _ => .refl _ _)

theorem evaluate_touches (i : Nat) (s : State) : Touches [.align] s (evaluate i s) := setAlignment_touches _ _ _

theorem clearAlignment_touches (i : Nat) (s : State) : Touches [.align] s (clearAlignment i s) :=
  setAlignment_touches _ _ _

theorem evaluateAll_touches (s : State) : Touches [.align] s (evaluateAll s) :=
  Touches.foldl (positions s)
    (fun s i => Touches.ite (c := (alignment s i).live = true) (fun _ => evaluate_touches i s) (fun _ => .refl _ _)) s

end Sys2Proof.Machine
end

