-- ==== Sys2Proof/Laws/Interlock.lean ====
section
/-!
SUPPORT. What the operations of the interlock may touch, and that they keep R31.
-/

set_option Elab.async false
namespace Sys2Proof.Machine

open Sys2Proof

/-! ## The permit set -/

/-- Entries taken out of the set. -/
theorem onPermits_touches {l : List Permit} {s : State} (h : l.Sublist s.ilk.permits) :
    Touches [.permits] s (s.onIlk fun k => { k with permits := l }) := by
  intro a ha
  cases a <;> first
    | exact (ha (by decide)).elim
    | rfl
    | exact id
    | exact ⟨rfl, rfl⟩
    | exact ⟨rfl, rfl, rfl⟩
    | exact ⟨rfl, rfl, rfl, rfl⟩
    | exact h
    | exact fun _ => ⟨rfl, rfl⟩
    | exact fun _ => rfl
    | exact fun _ h => ⟨Nat.le_refl _, h⟩
    | exact fun _ h => h
    | exact fun hs => ⟨fun hm => by
        have hn := hs.1 hm
        rw [hn] at h
        exact List.sublist_nil.mp h, Nat.le_trans h.length_le hs.2.1, hs.2.2.sublist h⟩
    | exact fun hs => ⟨fun hm => by
        have hn := hs.1 hm
        rw [hn] at h
        exact List.sublist_nil.mp h, hs.2.1, hs.2.2.1, hs.2.2.2.1, fun e he => hs.2.2.2.2 e (h.subset he)⟩

theorem dropEntryOf_touches (e : Permit) (s : State) : Touches [.permits] s (dropEntryOf e s) :=
  onPermits_touches (List.erase_sublist)

theorem emptyPermits_touches (s : State) : Touches [.permits] s (s.onIlk fun k => { k with permits := [] }) :=
  onPermits_touches (List.nil_sublist _)

theorem departFree_touches (e : Permit) (s : State) : Touches [.outbound, .tasks] s (departFree e s) := by
  unfold departFree
  split
  · exact dsmFreeAt_touches _ _
  · exact .refl _ _

theorem withCar_touches {l : List Aspect} {f : Nat → State → State} {s : State} (c : Option Nat)
    (h : ∀ c, Touches l s (f c s)) : Touches l s (withCar c f s) := by
  cases c with
  | none => exact .refl _ _
  | some c => exact h c

theorem withDoor_touches {l : List Aspect} {f : Door → State → State} {s : State} (d : Option Door)
    (h : ∀ d, Touches l s (f d s)) : Touches l s (withDoor d f s) := by
  cases d with
  | none => exact .refl _ _
  | some d => exact h d

theorem cutEffects_touches (e : Permit) (d c : Nat) (s : State) : Touches cutAspects s (cutEffects e d c s) := by
  unfold cutEffects
  split
  · exact (ovtPushBroken_touches _ _).mono.seq ((withCar_touches _ fun c => carLoads_touches c true _).mono.seq
      (schPushBroken_touches _ _ _).mono)
  · exact (ovtChargeCut_touches _ _ _ _).mono
  · exact (oprDerive_touches _ _).mono
  · exact .refl _ _
  · exact (withDoor_touches _ fun d => taskPermitEnds_touches d false _).mono
  · exact (withCar_touches _ fun c => carQuenchEnds_touches c false _).mono
  · exact (withCar_touches _ fun c => carDumpEnds_touches c false _).mono
  · exact .refl _ _

/-- What a cut does once its entry has left the set. -/
theorem cutPermit_rest (e : Permit) (ev : EventKind) (a b c d : Nat) (s : State) :
    Touches cutAspects (dropEntryOf e s) (cutPermit e ev a b c d s) := by
  unfold cutPermit
  extract_lets s1 s2
  have h1 : Touches cutAspects (dropEntryOf e s) s1 := (raise_touches _ _ _ _ _).mono
  have h2 : Touches cutAspects (dropEntryOf e s) s2 := h1.seq (placeHalt_touches _ _ _ _).mono
  exact h2.seq ((cutEffects_touches _ _ _ _).seq (departFree_touches _ _).mono)

theorem cutPermit_touches (e : Permit) (ev : EventKind) (a b c d : Nat) (s : State) :
    Touches cutAspects s (cutPermit e ev a b c d s) :=
  (dropEntryOf_touches _ _).mono.seq (cutPermit_rest _ _ _ _ _ _ _)

theorem breakPermit_touches (e : Permit) (t : Nat) (s : State) : Touches cutAspects s (breakPermit e t s) :=
  cutPermit_touches _ _ _ _ _ _ _

theorem expirePermit_touches (e : Permit) (s : State) : Touches cutAspects s (expirePermit e s) :=
  cutPermit_touches _ _ _ _ _ _ _

theorem settleLoop_touches (b : State) (f : Nat) (s : State) : Touches cutAspects s (settleLoop b f s) := by
  induction f generalizing s with
  | zero => exact .refl _ _
  | succ f ih =>
    unfold settleLoop
    split
    · exact (breakPermit_touches _ _ _).seq (ih _)
    · exact .refl _ _

/-- The re-evaluation of the hold terms breaks permits, and grants none (R38). -/
theorem ilkSettle_touches (b s : State) : Touches cutAspects s (ilkSettle b s) := settleLoop_touches _ _ _

theorem settled_touches {f : State → State} {s : State} (h : Touches cutAspects s (f s)) :
    Touches cutAspects s (settled f s) := h.seq (ilkSettle_touches _ _)

/-- Where no input of an entry has changed, nothing breaks. -/
theorem ilkSettle_unchanged {b s : State} (h : ∀ e ∈ s.ilk.permits, inputChanged b s e = false) : ilkSettle b s = s := by
  unfold ilkSettle
  cases s.ilk.permits.length with
  | zero => rfl
  | succ n =>
    unfold settleLoop
    have : firstBroken b s = none := List.findSome?_eq_none_iff.mpr fun e he => by rw [h e he]; rfl
    rw [this]

/-- After the rounds of the loop no entry is left to break. -/
theorem settleLoop_done (b : State) (f : Nat) (s : State) (h : s.ilk.permits.length ≤ f) :
    firstBroken b (settleLoop b f s) = none := by
  induction f generalizing s with
  | zero =>
    unfold settleLoop firstBroken
    rw [List.eq_nil_of_length_eq_zero (Nat.le_zero.mp h)]
    rfl
  | succ f ih =>
    unfold settleLoop
    split
    · next e t he =>
      apply ih
      have hm : e ∈ s.ilk.permits := by
        obtain ⟨x, hx, hk⟩ := List.exists_of_findSome?_eq_some he
        split at hk
        · cases hf : failedHold s x with
          | none => rw [hf] at hk; exact nomatch hk
          | some u =>
            rw [hf] at hk
            injection hk with hk
            injection hk with hk
            exact hk ▸ hx
        · exact nomatch hk
      have h1 : (breakPermit e t s).ilk.permits.Sublist (s.ilk.permits.erase e) :=
        cutPermit_rest e _ _ _ _ _ s .grants (by decide)
      have h2 := List.length_erase_of_mem hm
      have h3 := h1.length_le
      omega
    · next hn => exact hn

theorem ilkSettle_done (b s : State) : firstBroken b (ilkSettle b s) = none := settleLoop_done _ _ _ (Nat.le_refl _)

/-! ## The holders of permits (R38) -/

/-- What the law of R38 rests on. -/
structure HolderBase (s : State) : Prop where
  outside : s.mgt.mode ≠ .service → s.ilk.permits = []
  length : s.fpl.length ≤ 24
  apart : ∀ p q, p < s.fpl.length → q < s.fpl.length → (pollEntry s p).address = (pollEntry s q).address → p = q
  used : ∀ x, s.fpl.exchange = some x → x.position < s.fpl.length

theorem holderLaw_iff (s : State) :
    HolderLaw s ↔ HolderBase s ∧ ∀ e ∈ s.ilk.permits, activeAt s (posOfAddress s e.station) :=
  ⟨fun h => ⟨⟨h.1, h.2.1, h.2.2.1, h.2.2.2.1⟩, h.2.2.2.2⟩, fun h => ⟨h.1.1, h.1.2, h.1.3, h.1.4, h.2⟩⟩

theorem posOfAddress_eq {s t : State} (h : Aspect.pollTables.same s t) (a : Nat) :
    posOfAddress t a = posOfAddress s a := by
  unfold posOfAddress positions pollEntry
  rw [h.1, h.2.1]

theorem activeAt_some {s : State} {p : Nat} : activeAt s (some p) = true ↔ (station s p).state = .active := by
  unfold activeAt
  simp

/-- A position in use is found by its own address. -/
theorem posOfAddress_own {s : State} (h : HolderBase s) {p : Nat} (hp : p < s.fpl.length) :
    posOfAddress s (pollEntry s p).address = some p := by
  unfold posOfAddress positions
  cases hf : (List.range s.fpl.length).find? fun q => (pollEntry s q).address = (pollEntry s p).address with
  | none =>
    have := List.find?_eq_none.mp hf p (List.mem_range.mpr hp)
    simp at this
  | some q =>
    have h1 := List.mem_of_find?_eq_some hf
    have h2 := List.find?_some hf
    simp only [decide_eq_true_eq] at h2
    rw [h.apart q p (List.mem_range.mp h1) hp h2]

theorem term1_core (s : State) (k : PermitKind) : 1 ∈ effectiveTerms s k := by
  unfold effectiveTerms
  rw [List.mem_filter]
  refine ⟨by decide, ?_⟩
  have : (coreTerms k).contains 1 = true := by cases k <;> decide
  rw [this]
  rfl

/-- The re-evaluation after a change leaves no permit with a station that the change took out of ACTIVE (R38, R42). -/
theorem ilkSettle_leaves {b s : State} {e : Permit} {q : Nat} (he : e ∈ (ilkSettle b s).ilk.permits)
    (hq : posOfAddress (ilkSettle b s) e.station = some q) (hact : (station b q).state = .active) :
    (station (ilkSettle b s) q).state = .active := by
  have hd := ilkSettle_done b s
  generalize ilkSettle b s = t at he hq hd ⊢
  apply Decidable.byContradiction
  intro hn
  have hmem : some q ∈ namedStations t (inputOf t e) := by
    unfold namedStations
    rw [show (inputOf t e).pos = some q from hq]
    exact List.mem_cons_self
  have hchanged : inputChanged b t e = true := by
    unfold inputChanged
    extract_lets i own terms
    simp only [Bool.or_eq_true]
    iterate 7 left
    exact List.any_eq_true.mpr ⟨some q, hmem, by simpa [hact] using fun k => hn k.symm⟩
  have hnone := List.findSome?_eq_none_iff.mp hd e he
  rw [if_pos hchanged, Option.map_eq_none_iff] at hnone
  have h5 := List.find?_eq_none.mp hnone 1 (term1_core t e.kind)
  have h6 : termHolds t (inputOf t e) 1 = true := by simpa [isHoldTerm] using h5
  exact hn (activeAt_some.mp (List.all_eq_true.mp h6 _ hmem))

/-- The re-evaluation after a change restores the law of R38. -/
theorem ilkSettle_holder {b s : State} (hb : HolderLaw b) (hs : HolderBase s) (ht : Aspect.pollTables.same b s)
    (hp : s.ilk.permits.Sublist b.ilk.permits) : HolderLaw (ilkSettle b s) := by
  have hc := ilkSettle_touches b s
  have hl := @ilkSettle_leaves b s
  generalize ilkSettle b s = t at hc hl
  have h1 : t.fpl.list = s.fpl.list ∧ t.fpl.length = s.fpl.length ∧ _ := hc .pollTables (by decide)
  have h2 : t.ilk.permits.Sublist s.ilk.permits := hc .grants (by decide)
  have h3 : t.fpl.exchange = s.fpl.exchange := hc .exchange (by decide)
  have h4 : t.mgt.mode = s.mgt.mode := hc .mode (by decide)
  have ha : ∀ p, pollEntry t p = pollEntry s p := fun p => by unfold pollEntry; rw [h1.1]
  refine (holderLaw_iff t).mpr ⟨⟨fun hm => ?_, ?_, fun p q hp hq => ?_, fun x hx => ?_⟩, fun e he => ?_⟩
  · rw [h4] at hm
    rw [hs.outside hm] at h2
    exact List.sublist_nil.mp h2
  · rw [h1.2.1]; exact hs.length
  · rw [h1.2.1] at hp hq
    rw [ha, ha]
    exact hs.apart p q hp hq
  · rw [h3] at hx
    rw [h1.2.1]
    exact hs.used x hx
  · have hpos : posOfAddress t e.station = posOfAddress b e.station :=
      (posOfAddress_eq h1 _).trans (posOfAddress_eq ht _)
    have hact : activeAt b (posOfAddress b e.station) = true := hb.2.2.2.2 e (hp.subset (h2.subset he))
    rw [hpos]
    cases hq : posOfAddress b e.station with
    | none => rw [hq] at hact; exact nomatch hact
    | some q =>
      rw [hq] at hact hpos
      rw [activeAt_some] at hact ⊢
      exact hl he hpos hact

/-! ## Grants -/

/-- What a grant may touch. -/
abbrev grantAspects : List Aspect := .grants :: .answers :: cutAspects

theorem grantEffects_touches (e : Permit) (p : Nat) (s : State) : Touches phaseAspects s (grantEffects e p s) := by
  unfold grantEffects
  split
  · exact (setPhaseOnly_touches _ _ _).mono.seq ((withCar_touches _ fun c => carReceives_touches c e.oven _).mono.seq
      (schPushGranted_touches _ _).mono)
  · exact (setPhaseOnly_touches _ _ _).mono
  · exact (oprDerive_touches _ _).mono
  · exact (withCar_touches _ fun c => carQuenches_touches c _).mono
  · exact (withCar_touches _ fun c => carDumps_touches c _).mono
  · exact (withDoor_touches _ fun d => taskWorks_touches d _).mono
  · exact .refl _ _
  · exact .refl _ _

/-- The set with an entry appended at its end. -/
theorem addPermit_touches (e : Permit) (s : State) :
    Touches [.permits, .grants, .permitLaw, .holderLaw] s (s.onIlk fun k => { k with permits := k.permits ++ [e] }) := by
  intro a ha
  cases a <;> first
    | exact (ha (by decide)).elim
    | rfl
    | exact id
    | exact ⟨rfl, rfl⟩
    | exact ⟨rfl, rfl, rfl⟩
    | exact ⟨rfl, rfl, rfl, rfl⟩
    | exact fun _ => ⟨rfl, rfl⟩
    | exact fun _ => rfl
    | exact fun _ h => ⟨Nat.le_refl _, h⟩
    | exact fun _ h => h

theorem grant_touches {p : Nat} {e : Permit} {s : State}
    (h : PermitLaw s → PermitLaw (s.onIlk fun k => { k with permits := k.permits ++ [e] })) :
    Touches (.holderLaw :: grantAspects) s (grant p e s) := by
  unfold grant
  extract_lets b s1 s2
  have h1 : Touches (.holderLaw :: grantAspects) s s1 :=
    Touches.keep (a := .permitLaw) (addPermit_touches e s).mono h
  exact h1.seq ((placeAnswer_touches _ _ _).mono.seq ((grantEffects_touches _ _ _).mono.seq
    (ilkSettle_touches _ _).mono))

/-- A grant to an ACTIVE station at a position in use keeps the law of R38. -/
theorem grant_holder {p : Nat} {e : Permit} {s : State} (hs : HolderLaw s) (hp : p < s.fpl.length)
    (hm : s.mgt.mode = .service) (he : e.station = (pollEntry s p).address) (ha : (station s p).state = .active) :
    HolderLaw (grant p e s) := by
  obtain ⟨h1, h2⟩ := (holderLaw_iff s).mp hs
  unfold grant
  extract_lets b s1 s2
  have hk : HolderLaw s1 := (holderLaw_iff s1).mpr
    ⟨⟨fun k => absurd hm k, h1.length, h1.apart, h1.used⟩, fun x hx => by
      have hx : x ∈ s.ilk.permits ++ [e] := hx
      show activeAt s (posOfAddress s x.station) = true
      rcases List.mem_append.mp hx with hx | hx
      · exact h2 x hx
      · rw [List.mem_singleton] at hx
        rw [hx, he, posOfAddress_own h1 hp, activeAt_some]
        exact ha⟩
  exact ilkSettle_touches _ _ .holderLaw (by decide) (grantEffects_touches _ _ _ .holderLaw (by decide)
    (placeAnswer_touches _ _ _ .holderLaw (by decide) hk))

/-- A request with no failing term has every term of its effective set hold. -/
theorem termHolds_of {s : State} {i : TermInput} (h : firstFailure s i = none) {t : Nat}
    (ht : t ∈ effectiveTerms s i.kind) : termHolds s i t = true := by
  have := List.find?_eq_none.mp h t ht
  simpa using this

theorem mem_effectiveTerms {s : State} {k : PermitKind} {t : Nat} (ht : 1 ≤ t ∧ t ≤ 16) (hc : t ∈ coreTerms k) :
    t ∈ effectiveTerms s k := by
  unfold effectiveTerms
  rw [List.mem_filter]
  refine ⟨List.mem_map.mpr ⟨t - 1, List.mem_range.mpr (by omega), by omega⟩, ?_⟩
  simp [hc]

/-- An entry that R34 does not exclude, that is not active and, where it is a PUSH, finds no PUSH active, may stand
with every active entry. -/
theorem compatible_new {s : State} {k : PermitKind} {oven : Nat} {side : Side} {e a : Permit}
    (hn : activeEntry s e.station k oven side = none) (hx : excluded s k oven = false)
    (hp : k = .push → ∀ a ∈ s.ilk.permits, a.kind ≠ .push) (he : e.kind = k ∧ e.oven = oven ∧ e.side = side)
    (ha : a ∈ s.ilk.permits) : compatible a e = true := by
  obtain ⟨h1, h2, h3⟩ := he
  have e1 := List.find?_eq_none.mp hn a ha
  have e2 := List.any_eq_false.mp hx a ha
  have e3 : k = .push → a.kind ≠ .push := fun h => hp h a ha
  unfold compatible
  rw [h1, h2, h3]
  simp only [Bool.and_eq_true, decide_eq_true_eq, Bool.or_eq_true, Bool.not_eq_true', Bool.and_eq_false_iff,
    decide_eq_false_iff_not, ne_eq] at e1 e2 ⊢
  have e4 : ¬ a.station = e.station ∨ ¬ a.kind = k ∨ ¬ a.oven = oven ∨ ¬ a.side = side := by
    by_cases x : a.station = e.station
    · by_cases y : a.side = side
      · by_cases z : a.kind = k
        · by_cases w : a.oven = oven
          · exact absurd ⟨⟨⟨x, z⟩, w⟩, y⟩ e1
          · exact Or.inr (Or.inr (Or.inl w))
        · exact Or.inr (Or.inl z)
      · exact Or.inr (Or.inr (Or.inr y))
    · exact Or.inl x
  clear e1 hn hp hx
  generalize a.station = e.station at e4 ⊢
  generalize a.side = side at e4 ⊢
  generalize a.oven = oven at e2 e4 ⊢
  generalize a.kind = ak at e2 e3 e4 ⊢
  cases k <;> cases ak <;> simp_all [isCarKind, or_assoc]

/-- The checks of R32, in SERVICE. -/
theorem requestChecked_touches {p : Nat} {k : PermitKind} {oven : Nat} {side : Side} {s : State}
    (hm : s.mgt.mode = .service) : Touches (.holderLaw :: grantAspects) s (requestChecked p k oven side s) := by
  unfold requestChecked
  split
  · exact (placeAnswer_touches _ _ _).mono
  · next hn =>
    split
    · exact (placeAnswer_touches _ _ _).mono
    · next hl =>
      split
      · exact (placeAnswer_touches _ _ _).mono
      · next hx =>
        split
        · exact (placeAnswer_touches _ _ _).mono
        · next hf =>
          refine grant_touches fun h => ⟨fun hs => absurd hm hs, ?_, ?_⟩
          · show (s.ilk.permits ++ [_]).length ≤ 8
            rw [List.length_append, List.length_singleton]
            omega
          · show (s.ilk.permits ++ [_]).Pairwise _
            rw [List.pairwise_append]
            refine ⟨h.2.2, List.pairwise_singleton _ _, fun a ha b hb => ?_⟩
            rw [List.mem_singleton] at hb
            subst hb
            refine compatible_new (k := k) (oven := oven) (side := side) hn (by simpa using hx) (fun hk a ha => ?_)
              ⟨rfl, rfl, rfl⟩ ha
            have ht := termHolds_of hf (t := 6) (mem_effectiveTerms (by omega) (by rw [show (requestInput s p k oven).kind = k from rfl, hk]; decide))
            have ht' : (!s.ilk.permits.any fun e => e.kind = .push) = true := ht
            rw [Bool.not_eq_true'] at ht'
            have := List.any_eq_false.mp ht' a ha
            simpa using this

theorem refuseRequest_touches (p k o r : Nat) (s : State) : Touches [.outbound, .answers] s (refuseRequest p k o r s) :=
  placeAnswer_touches _ _ _

theorem requestChecked_holder {p : Nat} {k : PermitKind} {oven : Nat} {side : Side} {s : State}
    (hm : s.mgt.mode = .service) (hp : p < s.fpl.length) (hs : HolderLaw s) :
    HolderLaw (requestChecked p k oven side s) := by
  have hr : ∀ x, HolderLaw (placeAnswer p x s) := fun x => placeAnswer_touches p x s .holderLaw (by decide) hs
  unfold requestChecked
  split
  · exact hr _
  · split
    · exact hr _
    · split
      · exact hr _
      · split
        · exact hr _
        · next hf =>
          have h1 : termHolds s (requestInput s p k oven) 1 = true := termHolds_of hf (term1_core _ _)
          have h2 : activeAt s (some p) = true := List.all_eq_true.mp h1 _ List.mem_cons_self
          exact grant_holder hs hp hm rfl (activeAt_some.mp h2)

theorem ilkRequest_holder {p kind oven side : Nat} {s : State} (hp : p < s.fpl.length) (hs : HolderLaw s) :
    HolderLaw (ilkRequest p kind oven side s) := by
  have hr : ∀ k o r, HolderLaw (refuseRequest p k o r s) := fun k o r =>
    refuseRequest_touches p k o r s .holderLaw (by decide) hs
  unfold ilkRequest
  extract_lets a
  split
  · exact hr _ _ _
  · next hm =>
    split
    · exact hr _ _ _
    · split
      · exact requestChecked_holder (Decidable.not_not.mp hm) hp hs
      · exact hr _ _ _
      · exact hr _ _ _

/-- What a REQUEST may touch; the law of R38 is `ilkRequest_holder`'s. -/
theorem ilkRequest_touches (p kind oven side : Nat) (s : State) :
    Touches (.holderLaw :: grantAspects) s (ilkRequest p kind oven side s) := by
  unfold ilkRequest
  extract_lets a
  refine .ite (fun _ => (refuseRequest_touches _ _ _ _ _).mono) (fun hm => ?_)
  refine .ite (fun _ => (refuseRequest_touches _ _ _ _ _).mono) (fun _ => ?_)
  split
  · exact requestChecked_touches (Decidable.not_not.mp hm)
  · exact (refuseRequest_touches _ _ _ _ _).mono
  · exact (refuseRequest_touches _ _ _ _ _).mono

/-! ## Completion and expiry -/

/-- What a completion may touch. -/
abbrev doneAspects : List Aspect := .doors :: .leaks :: cutAspects

/-- What the handing on of a door's change may touch (R100). -/
theorem doorHandedOn_touches (b : State) (d : Door) (s : State) : Touches cutAspects s (doorHandedOn b d s) :=
  (ilkSettle_touches _ _).mono.seq
    ((settled_touches (schDoorChange_touches _ _).mono).mono.seq (oprDerive_touches _ _).mono)

theorem doorCompleted_touches (b : State) (d : Door) (off : Bool) (s : State) :
    Touches doneAspects s (doorCompleted b d off s) := by
  unfold doorCompleted
  extract_lets s1 s2 s3
  have h1 : Touches doneAspects s s1 := .ite (fun _ => (doorRemoved_touches _ _).mono) (fun _ => (doorReplaced_touches _ _).mono)
  have h2 : Touches doneAspects s s2 :=
    .ite (fun _ => h1.seq (ovtDoorOff_touches _ _).mono) (fun _ => h1.seq (ovtDoorOn_touches _ _).mono)
  have h3 : Touches doneAspects s s3 := h2.seq (doorHandedOn_touches _ _ _).mono
  exact .ite (fun _ => h3) (fun _ => h3.seq (dsmFreeBoth_touches _).mono)

theorem doneEffects_touches (b : State) (e : Permit) (ok : Bool) (m : Nat) (s : State) :
    Touches doneAspects s (doneEffects b e ok m s) := by
  unfold doneEffects
  split
  · exact .ite (fun _ => withDoor_touches _ fun d => doorCompleted_touches _ _ _ _)
      (fun _ => (oprDerive_touches _ _).mono)
  · exact .ite (fun _ => withDoor_touches _ fun d => doorCompleted_touches _ _ _ _) (fun _ => .refl _ _)
  · exact (withDoor_touches _ fun d => taskPermitEnds_touches d ok _).mono
  · extract_lets s1
    have h1 : Touches doneAspects s s1 :=
      (ovtPushDone_touches _ _ _ _ _).mono.seq (withCar_touches _ fun c => carLoads_touches c _ _).mono
    exact .ite (fun _ => h1.seq (schPushDone_touches _ _).mono) (fun _ => h1.seq (schPushBroken_touches _ _ _).mono)
  · exact .ite (fun _ => (ovtChargeDone_touches _ _).mono) (fun _ => (ovtChargeCut_touches _ _ _ _).mono)
  · exact .refl _ _
  · exact (withCar_touches _ fun c => carQuenchEnds_touches c ok _).mono
  · exact .ite
      (fun _ => (withCar_touches _ fun c =>
        (Touches.seq (l := entryAspects) (carDumpEnds_touches c true s).mono (satisfyRequest_touches _))).mono)
      (fun _ => (withCar_touches _ fun c => carDumpEnds_touches c false _).mono)

theorem ilkDone_touches (p kind oven side result m : Nat) (s : State) :
    Touches doneAspects s (ilkDone p kind oven side result m s) := by
  unfold ilkDone
  extract_lets a address entry
  generalize entry = x
  cases x with
  | some e =>
    exact (dropEntryOf_touches _ _).mono.seq ((doneEffects_touches _ _ _ _ _).seq
      ((ilkSettle_touches _ _).mono.seq (departFree_touches _ _).mono))
  | none => exact (raise_touches _ _ _ _ _).mono

theorem expireFirst_touches (s : State) : Touches cutAspects s (expireFirst s) := by
  unfold expireFirst
  split
  · exact (expirePermit_touches _ _).seq (ilkSettle_touches _ _)
  · exact .refl _ _

theorem expireAll_touches (f : Nat) (s : State) : Touches cutAspects s (expireAll f s) := by
  induction f generalizing s with
  | zero => exact .refl _ _
  | succ f ih =>
    unfold expireAll
    split
    · exact (expireFirst_touches _).seq (ih _)
    · exact .refl _ _

end Sys2Proof.Machine
end

