-- ==== Sys2Proof/Laws/FieldReports.lean ====
section
/-!
SUPPORT. What the field reports may touch.
-/

set_option Elab.async false
namespace Sys2Proof.Machine

open Sys2Proof

theorem sealList_touches (d : Door) (old : DoorRecord) (a : Nat) (s : State) :
    Touches [.doors, .leaks, .leakLaw, .counts, .transmit] s (sealList d old a s) := by
  unfold sealList
  extract_lets r
  refine .ite (fun _ => ?_) (fun _ => .ite (fun _ => (leaveList_touches _ _).mono) (fun _ => .refl _ _))
  refine .ite (fun _ => offerDoor_touches _ _ _) (fun _ => .ite (fun _ => .refl _ _) (fun _ => ?_))
  exact .ite (fun _ => (setLeaks_touches _ _).mono) (fun _ => offerDoor_touches _ _ _)

/-- A configured oven is one of the 128. -/
theorem configured_range {s : State} {n : Nat} (h : configured s n = true) : 1 ≤ n ∧ n ≤ 128 := by
  unfold configured ovenConfig at h
  exact readNum_mem_range _ _ h

theorem sealDoor_range {s : State} {p o sd : Nat} {d : Door} (h : sealDoor s p o sd = some d) : 1 ≤ d.oven ∧
    d.oven ≤ 128 := by
  unfold sealDoor at h
  split at h
  · next x _ =>
    by_cases hc : (configured s o && !isOff (doorRec s ⟨o, x⟩)) = true
    · rw [if_pos hc] at h
      injection h with h; subst h
      rw [Bool.and_eq_true] at hc
      exact configured_range hc.1
    · rw [if_neg hc] at h; exact absurd h (by simp)
  · exact absurd h (by simp)

theorem sealEvaluated_touches {d : Door} (hd : isDoor d) (a i : Nat) (s : State) :
    Touches doneAspects s (sealEvaluated d a i s) := by
  unfold sealEvaluated
  extract_lets b old
  generalize hx : sealResult s.dsm.config s.now i old = x
  obtain ⟨r, failed⟩ := x
  dsimp -zeta only
  extract_lets s1 s2 s3 s4 listMoved ended owed
  have h1 : Touches (.leakLaw :: doneAspects) s s1 := (setDoorRec_touches _ _ _).mono
  have hr : Touches [.counts, .transmit] s1 s2 := .ite (fun _ => raise_touches _ _ _ _ _) (fun _ => .refl _ _)
  have ht : doorRec s2 = DoorTable.put (doorRec s) d (sealResult s.dsm.config s.now i old).1 ∧
      s2.dsm.leaks = s.dsm.leaks := by
    have hdoors : s2.dsm.doors = s1.dsm.doors := hr .doors (by decide)
    have hleaks : s2.dsm.leaks = s1.dsm.leaks := hr .leaks (by decide)
    refine ⟨?_, hleaks⟩
    rw [hx, ← doorRec_put]
    funext e
    unfold doorRec doorPair
    rw [hdoors]
  have h3 : Touches doneAspects s s3 :=
    Touches.keep (a := .leakLaw) (h1.seq (hr.mono.seq (sealList_touches _ _ _ _).mono)) fun hl => sealList_law hl hd ht
  have h4 : Touches doneAspects s s4 :=
    h3.seq ((doorHandedOn_touches _ _ _).mono.seq (taskSealed_touches _ _).mono)
  exact .ite (fun _ => h4.seq (dsmFreeBoth_touches _).mono)
    (fun _ => .ite (fun _ => h4.seq (dsmFree_touches _ _).mono) (fun _ => h4))

theorem sealOverdue_touches (d : Door) (s : State) : Touches (.doors :: cutAspects) s (sealOverdue d s) := by
  unfold sealOverdue
  split
  · have h : Touches [.doors] s (setDoorRec d { doorRec s d with overdue := true } s) := setDoorRec_kept ⟨rfl, rfl, rfl⟩
    exact h.mono.seq ((raise_touches _ _ _ _ _).mono.seq (doorHandedOn_touches _ _ _).mono)
  · exact .refl _ _

theorem sealAll_touches (s : State) :
    Touches (.doors :: cutAspects) s (allDoors.foldl (fun s d => sealOverdue d s) s) :=
  Touches.foldl (l := .doors :: cutAspects) (f := fun s d => sealOverdue d s) allDoors
    (fun s d => sealOverdue_touches d s) s

theorem dsmSeal_touches (p oven side i : Nat) (s : State) : Touches doneAspects s (dsmSeal p oven side i s) := by
  unfold dsmSeal
  extract_lets a
  refine .ite (fun _ => .refl _ _) (fun _ => ?_)
  split
  · next d hd => exact sealEvaluated_touches (sealDoor_range hd) _ _ _
  · exact (raise_touches _ _ _ _ _).mono

theorem sampleSlot_touches (m fb : Nat) (p : Int) (s : State) : Touches cutAspects s (sampleSlot m fb p s) :=
  (oprFeedback_touches _ _ _).mono.seq ((ilkSettle_touches _ _).seq
    ((oprMismatch_touches _ _ _).mono.seq (oprPressure_touches _ _ _).mono))

theorem oprSample_touches (p : Nat) (body : List Byte) (s : State) : Touches cutAspects s (oprSample p body s) := by
  unfold oprSample
  extract_lets e
  refine .ite (fun _ => .refl _ _) (fun _ => ?_)
  refine Touches.foldl (slotsOf body) (fun u q => ?_) s
  extract_lets m
  exact .ite (fun _ => sampleSlot_touches _ _ _ _) (fun _ => .refl _ _)

theorem recordPosition_touches (p : Nat) (body : List Byte) (s : State) :
    Touches [.stations] s (recordPosition p body s) := setStation_kept id

/-- What the report of a car may touch beside the permits. -/
abbrev reportAspects : List Aspect := [.counts, .transmit, .outbound, .tasks, .cars, .places, .tower, .idle, .run]

theorem qtcPosition_touches (p : Nat) (body : List Byte) (s : State) :
    Touches reportAspects s (qtcPosition p body s) := by
  unfold qtcPosition
  split
  · exact .ite (fun _ => (carReport_touches _ _ (ofBytes_take_lt body)).mono.seq (satisfyRequest_touches _).mono)
      (fun _ => .refl _ _)
  · exact .refl _ _

theorem handlePosition_touches (p : Nat) (body : List Byte) (s : State) :
    Touches (.places :: positionAspects) s (handlePosition p body s) := by
  unfold handlePosition
  extract_lets b s1 s2
  have h1 : Touches (.places :: positionAspects) s s1 := (recordPosition_touches _ _ _).mono.seq
    ((evaluate_touches _ _).mono.seq (qtcPosition_touches _ _ _).mono)
  have h2 : Touches (.places :: positionAspects) s s2 := h1.seq (ilkSettle_touches _ _).mono
  exact .ite (fun _ => h2.seq (schAlignChange_touches _).mono) (fun _ => h2)

end Sys2Proof.Machine
end

