-- ==== Sys2Proof/Laws/Membership.lean ====
section
/-!
SUPPORT. What the operations of the field poller may touch.
-/

set_option Elab.async false
namespace Sys2Proof.Machine

open Sys2Proof

/-! ## Departures, misses and joining -/

/-- What the departure of a station may touch beside the permits. -/
abbrev leftAspects : List Aspect := .tower :: .regs :: .dirty :: runAspects

theorem departureHanded_touches (p : Nat) (s : State) : Touches leftAspects s (departureHanded p s) := by
  unfold departureHanded
  extract_lets e s1 s2 s3
  have h1 : Touches leftAspects s s1 := (schStationLeft_touches _ _).mono
  have h2 : Touches leftAspects s s2 := h1.seq (withCar_touches _ fun c => (carLost_touches c _).mono)
  have h3 : Touches leftAspects s s3 :=
    .ite (fun _ => h2.seq (oprStationLeft_touches _ _).mono) (fun _ => h2)
  split
  · exact h3.seq (dsmStationLeft_touches _ _).mono
  · exact h3

theorem departureTaken_touches (p : Nat) (s : State) : Touches cutAspects s (departureTaken p s) :=
  settled_touches (departureHanded_touches _ _).mono

theorem departure_touches (b : State) (p : Nat) (s : State) : Touches positionAspects s (departure b p s) :=
  (clearAlignment_touches _ _).mono.seq ((ilkSettle_touches _ _).mono.seq (departureTaken_touches _ _).mono)

/-- A change that leaves the tables, the mode, the permits and the exchange alone leaves what R38's law rests on. -/
theorem HolderBase.kept {l : List Aspect} {s t : State} (h : HolderBase s) (ht : Touches l s t)
    (ha : withinAspects l [.stations, .align, .counts, .transmit, .holderLaw] = true := by decide) : HolderBase t := by
  have ht := ht.mono ha
  have h1 : t.fpl.list = s.fpl.list ∧ t.fpl.length = s.fpl.length ∧ _ := ht .pollTables (by decide)
  have h2 : t.ilk.permits = s.ilk.permits := ht .permits (by decide)
  have h3 : t.fpl.exchange = s.fpl.exchange := ht .exchange (by decide)
  have h4 : t.mgt.mode = s.mgt.mode := ht .mode (by decide)
  refine ⟨?_, ?_, ?_, ?_⟩
  · rw [h4, h2]; exact h.outside
  · rw [h1.2.1]; exact h.length
  · unfold pollEntry
    rw [h1.1, h1.2.1]
    exact h.apart
  · rw [h3, h1.2.1]
    exact h.used

/-- Once the interlock has settled the departure of a station, the law of R38 holds again. -/
theorem departure_holder {l : List Aspect} {b s : State} {p : Nat} (hb : HolderLaw b) (ht : Touches l b s)
    (ha : withinAspects l [.stations, .align, .counts, .transmit, .holderLaw] = true := by decide) :
    HolderLaw (departure b p s) := by
  have h1 : Touches [.stations, .align, .counts, .transmit, .holderLaw] b (clearAlignment p s) :=
    (ht.mono ha).seq (clearAlignment_touches p s).mono
  have hp : (clearAlignment p s).ilk.permits = b.ilk.permits := h1 .permits (by decide)
  exact departureTaken_touches _ _ .holderLaw (by decide) (ilkSettle_holder hb
    (((holderLaw_iff b).mp hb).1.kept h1 (by decide)) (h1 .pollTables (by decide))
    (hp ▸ List.Sublist.refl (clearAlignment p s).ilk.permits))

theorem miss_touches (p : Nat) (s : State) : Touches positionAspects s (miss p s) := by
  unfold miss
  extract_lets r count a
  split
  · refine .ite (fun _ => ?_) (fun _ => Touches.mono (setStation_kept (p := p) id))
    have h := (setStation_touches p { r with state := .lost, misses := count } s).trans
      (raise_touches .stationLost 0 a count _)
    exact Touches.keep (a := .holderLaw) (h.mono.seq (departure_touches s p _).mono) fun hl => departure_holder hl h
  · next hr => exact (setStation_kept fun k => absurd (hr.symm.trans k) (by decide)).mono
  · exact .refl _ _
  · exact .refl _ _

/-- A READY makes no station that is not ACTIVE any the less so. -/
theorem readyWaiting_touches {p a b : Nat} {s : State} (h : (station s p).state ≠ .active) :
    Touches [.stations, .counts, .transmit] s (readyWaiting p a b s) :=
  .ite (fun _ => (setStation_kept fun k => absurd k h).mono) (fun _ => (raise_touches _ _ _ _ _).mono)

theorem stationFault_touches (p a b : Nat) (s : State) : Touches [.counts, .transmit] s (stationFault p a b s) :=
  raise_touches _ _ _ _ _

theorem fplReady_touches (p a b : Nat) (s : State) : Touches positionAspects s (fplReady p a b s) := by
  unfold fplReady
  extract_lets r lost
  split
  · next hr => exact (readyWaiting_touches (by rw [show (station s p).state = _ from hr]; decide)).mono
  · next hr => exact (readyWaiting_touches (by rw [show (station s p).state = _ from hr]; decide)).mono
  · next hr =>
    have hn : (station s p).state ≠ .active := by rw [show (station s p).state = _ from hr]; decide
    exact .ite (fun _ => Touches.mono (setStation_kept (p := p) id))
      (fun _ => (setStation_kept fun k => absurd k hn).mono.seq (stationFault_touches _ _ _ _).mono)
  · next hr =>
    have h := (setStation_touches p { r with state := .lost, misses := 0 } s).trans
      (raise_touches .stationLost 0 (pollEntry s p).address 0 _)
    have hd : Touches positionAspects s (departure s p lost) :=
      Touches.keep (a := .holderLaw) (h.mono.seq (departure_touches s p _).mono) fun hl => departure_holder hl h
    have hs : (station (departure s p lost) p).state ≠ .active := by
      have e1 : station (departure s p lost) p = station lost p := by
        have k : Touches (.align :: cutAspects) lost (departure s p lost) :=
          (clearAlignment_touches _ _).mono.seq ((ilkSettle_touches _ _).mono.seq (departureTaken_touches _ _).mono)
        unfold station
        rw [show (departure s p lost).fpl.stations = lost.fpl.stations from k .stations (by decide)]
      have e2 : station lost p = station (setStation p { r with state := .lost, misses := 0 } s) p := by
        unfold station
        rw [show lost.fpl.stations = _ from raise_touches _ _ _ _ _ .stations (by decide)]
      rw [e1, e2, station_setStation]
      split
      · exact fun k => by cases k
      · next hp =>
        have : station s p = {} := readAt_ge _ _ _ fun k => hp ⟨rfl, k⟩
        rw [this]
        decide
    exact hd.seq (readyWaiting_touches hs).mono

theorem joined_touches (p : Nat) (s : State) : Touches positionAspects s (joined p s) := by
  unfold joined
  extract_lets b e k s1 s2 s3
  have h1 : Touches [.stations] s s1 := setStation_kept fun _ => rfl
  have h3 : Touches positionAspects s s3 := h1.mono.seq ((raise_touches _ _ _ _ _).mono.seq
    ((ilkSettle_touches _ _).mono.seq (dsmFreeAt_touches _ _).mono))
  exact .ite (fun _ => h3.seq (markDirty_touches _ _).mono) (fun _ => h3)

theorem joinTest_touches (p : Nat) (t : Telegram) (s : State) : Touches positionAspects s (joinTest p t s) := by
  unfold joinTest
  extract_lets r cls pos
  refine .ite (fun _ => .refl _ _) (fun _ => ?_)
  refine .ite (fun _ => Touches.mono (setStation_kept (p := p) id)) (fun _ => ?_)
  refine .ite (fun _ => Touches.mono (setStation_kept (p := p) id)) (fun _ => ?_)
  exact .ite (fun _ => Touches.mono (setStation_kept (p := p) id)) (fun _ => joined_touches _ _)

/-! ## Rounds -/

theorem onRounds_touches (n : Nat) (r : Option Nat) (o : Bool) (p : Nat) (s : State) :
    Touches [.rounds] s
      (s.onFpl fun f => { f with roundNumber := n, round := r, owed := o, timerPeriod := p }) := by
  intro a ha
  cases a <;> first
    | exact (ha (by decide)).elim
    | rfl
    | exact id
    | exact ⟨rfl, rfl⟩
    | exact ⟨rfl, rfl, rfl⟩
    | exact ⟨rfl, rfl, rfl, rfl⟩
    | exact List.Sublist.refl _
    | exact fun _ => ⟨rfl, rfl⟩
    | exact fun _ => rfl
    | exact fun _ h => ⟨Nat.le_refl _, h⟩
    | exact fun _ h => h

theorem beginRound_touches (s : State) : Touches (.rounds :: cutAspects) s (beginRound s) := by
  unfold beginRound
  extract_lets b s1
  have h0 : Touches [.rounds] s
      (s.onFpl fun f => { f with roundNumber := (f.roundNumber + 1) % 4294967296, owed := false }) :=
    onRounds_touches _ s.fpl.round false s.fpl.timerPeriod s
  have h1 : Touches (.rounds :: cutAspects) s s1 := h0.mono.seq (ilkSettle_touches _ _).mono
  exact h1.seq (onRounds_touches s1.fpl.roundNumber (nextTurn s1 0) s1.fpl.owed s1.fpl.timerPeriod s1).mono

theorem drawn_touches (n : Nat) (s : State) : Touches [.drawn] s { s with drawn := n } := by
  intro a ha
  cases a <;> first
    | exact (ha (by decide)).elim
    | rfl
    | exact id
    | exact ⟨rfl, rfl⟩
    | exact ⟨rfl, rfl, rfl⟩
    | exact ⟨rfl, rfl, rfl, rfl⟩
    | exact List.Sublist.refl _
    | exact fun _ => ⟨rfl, rfl⟩
    | exact fun _ => rfl
    | exact fun _ h => ⟨Nat.le_refl _, h⟩
    | exact fun _ h => h

theorem endRound_touches (s : State) : Touches roundAspects s (endRound s) := by
  unfold endRound
  extract_lets s1 length
  have h1 : Touches roundAspects s s1 :=
    (onRounds_touches s.fpl.roundNumber none s.fpl.owed s.fpl.timerPeriod s).mono
  refine .ite (fun _ => ?_) (fun _ => h1)
  exact h1.seq ((drawn_touches _ _).mono.seq ((beginRound_touches _).mono.seq (raise_touches _ _ _ _ _).mono))

theorem roundOn_touches (s : State) : Touches roundAspects s (roundOn s) := by
  unfold roundOn
  split
  · split
    · exact (onRounds_touches s.fpl.roundNumber _ s.fpl.owed s.fpl.timerPeriod s).mono
    · exact endRound_touches _
  · exact .refl _ _

theorem roundTimer_touches (s : State) : Touches (.rounds :: cutAspects) s (roundTimer s) := by
  unfold roundTimer
  extract_lets s1
  have h1 : Touches [.rounds] s s1 :=
    onRounds_touches s.fpl.roundNumber s.fpl.round s.fpl.owed s.fpl.settings.period s
  split
  · exact h1.mono.seq (onRounds_touches s1.fpl.roundNumber s1.fpl.round true s1.fpl.timerPeriod s1).mono
  · exact h1.mono.seq (beginRound_touches _)

/-! ## Polls -/

theorem onDirty_touches (d : Vector Bool 16) (s : State) : Touches [.dirty] s (s.onOpr fun r => { r with dirty := d }) := by
  intro a ha
  cases a <;> first
    | exact (ha (by decide)).elim
    | rfl
    | exact id
    | exact ⟨rfl, rfl⟩
    | exact ⟨rfl, rfl, rfl⟩
    | exact ⟨rfl, rfl, rfl, rfl⟩
    | exact List.Sublist.refl _
    | exact fun _ => ⟨rfl, rfl⟩
    | exact fun _ => rfl
    | exact fun _ h => ⟨Nat.le_refl _, h⟩
    | exact fun _ h => h

/-- An outbound record whose order is the one waiting, marked or not. -/
theorem setOutbound_marked {p : Nat} {o : Outbound} {b : Bool} {s : State}
    (h : o.order = (outbound s p).order.map fun w => { w with carried := b })
    (ha : o.answer.map Answer.body = answerAt s p) : Touches [.outbound] s (setOutbound p o s) :=
  setOutbound_both (fun hw => by
    obtain ⟨w, h1, h2⟩ := (haltWaits_iff s p).mp hw
    rw [h1] at h
    exact ⟨_, h, h2⟩) ha

/-- Marking an answer, or clearing its mark, keeps what it says. -/
theorem answerAt_marked (b : Bool) (s : State) (p : Nat) :
    ((outbound s p).answer.map fun a => { a with carried := b }).map Answer.body = answerAt s p := by
  unfold answerAt
  cases (outbound s p).answer <;> rfl

/-- An outbound record whose order is the one waiting. -/
theorem setOutbound_order {p : Nat} {o : Outbound} {s : State} (h : o.order = (outbound s p).order) :
    Touches [.outbound, .answers] s (setOutbound p o s) :=
  setOutbound_kept fun hw => by rw [h]; exact (haltWaits_iff s p).mp hw

theorem markCarried_touches (p : Nat) (item : PollItem) (s : State) :
    Touches [.outbound, .dirty] s (markCarried p item s) := by
  unfold markCarried
  extract_lets o
  split
  · exact Touches.mono (l := [.outbound]) (setOutbound_marked (b := true) rfl rfl)
  · exact Touches.mono (l := [.outbound]) (setOutbound_marked (b := true) rfl rfl)
  · exact Touches.mono (l := [.outbound]) (setOutbound_both (fun hw => (haltWaits_iff s p).mp hw) (answerAt_marked true s p))
  · exact (onDirty_touches _ s).mono
  · exact .refl _ _

theorem onExchange_touches (x : Option Exchange) (s : State) :
    Touches [.exchange, .holderLaw] s (s.onFpl fun f => { f with exchange := x }) := by
  intro a ha
  cases a <;> first
    | exact (ha (by decide)).elim
    | rfl
    | exact id
    | exact ⟨rfl, rfl⟩
    | exact ⟨rfl, rfl, rfl⟩
    | exact ⟨rfl, rfl, rfl, rfl⟩
    | exact List.Sublist.refl _
    | exact fun _ => ⟨rfl, rfl⟩
    | exact fun _ => rfl
    | exact fun _ h => ⟨Nat.le_refl _, h⟩
    | exact fun _ h => h

/-- An exchange set to none, or to one with a position in use. -/
theorem onExchange_kept {x : Option Exchange} {s : State} (h : ∀ y, x = some y → HolderBase s → y.position < s.fpl.length) :
    Touches [.exchange] s (s.onFpl fun f => { f with exchange := x }) :=
  Touches.keep (a := .holderLaw) (l := [.exchange]) (onExchange_touches x s).mono fun hl =>
    ⟨hl.1, hl.2.1, hl.2.2.1, fun y hy => h y hy ((holderLaw_iff s).mp hl).1, hl.2.2.2.2⟩

theorem onLine_touches (l : LineState) (b : Bool) (s : State) :
    Touches [.line] s (s.onFpi fun f => { f with line := l, assembling := b }) := by
  intro a ha
  cases a <;> first
    | exact (ha (by decide)).elim
    | rfl
    | exact id
    | exact ⟨rfl, rfl⟩
    | exact ⟨rfl, rfl, rfl⟩
    | exact ⟨rfl, rfl, rfl, rfl⟩
    | exact List.Sublist.refl _
    | exact fun _ => ⟨rfl, rfl⟩
    | exact fun _ => rfl
    | exact fun _ h => ⟨Nat.le_refl _, h⟩
    | exact fun _ h => h

theorem nextTurn_used {s : State} {q p : Nat} (h : nextTurn s q = some p) : p < s.fpl.length :=
  List.mem_range.mp (List.mem_of_find?_eq_some h)

/-- The turn that a round stands at, once it has gone on, is a position in use. -/
theorem roundOn_used {s : State} {p : Nat} (h : (roundOn s).fpl.round = some p) : p < (roundOn s).fpl.length := by
  unfold roundOn at h ⊢
  split at h <;> rename_i hr
  · split at h <;> rename_i hn
    · injection h with h
      exact h ▸ nextTurn_used hn
    · clear hr hn
      unfold endRound at h ⊢
      extract_lets s1 length at h
      split at h <;> rename_i ho
      · rw [if_pos ho]
        have k := raise_touches .roundOverrun 0 0 length (beginRound { s1 with drawn := s1.drawn + 1 })
        have e1 : _ = (beginRound { s1 with drawn := s1.drawn + 1 }).fpl.round := (k .rounds (by decide)).2.1
        have e2 : _ = (beginRound { s1 with drawn := s1.drawn + 1 }).fpl.length := (k .pollTables (by decide)).2.1
        rw [e1] at h
        show p < (raise .roundOverrun 0 0 length (beginRound { s1 with drawn := s1.drawn + 1 })).fpl.length
        rw [e2]
        exact nextTurn_used h
      · exact nomatch h
  · rw [hr] at h
    exact nomatch h

theorem formPoll_touches {p : Nat} {s : State} (hp : p < s.fpl.length) :
    Touches [.outbound, .dirty, .rounds, .exchange, .line] s (formPoll p s) := by
  unfold formPoll
  extract_lets item t s1 s2
  have h1 : Touches [.outbound, .dirty, .rounds, .exchange, .line] s s1 := (markCarried_touches _ _ _).mono
  have h2 : Touches [.rounds, .exchange] s1 s2 :=
    Touches.seq (onRounds_touches s1.fpl.roundNumber (some (p + 1)) s1.fpl.owed s1.fpl.timerPeriod s1).mono
      (onExchange_kept fun y hy _ => by
        injection hy with hy
        subst hy
        have e : s1.fpl.length = s.fpl.length := (markCarried_touches _ _ _ .pollTables (by decide)).2.1
        exact e ▸ hp).mono
  exact h1.seq (h2.mono.seq (onLine_touches .sending s2.fpi.assembling s2).mono)

theorem pollTurn_touches (s : State) : Touches pollAspects s (pollTurn s) := by
  unfold pollTurn
  refine .ite (fun _ => ?_) (fun _ => .refl _ _)
  extract_lets s1
  have h1 : Touches pollAspects s s1 := (roundOn_touches s).mono
  split
  · next hr => exact h1.seq (formPoll_touches (roundOn_used hr)).mono
  · exact h1

/-! ## The ending of an exchange -/

theorem uncarry_touches (p : Nat) (s : State) : Touches [.outbound] s (uncarry p s) :=
  setOutbound_marked (b := false) rfl (answerAt_marked false s p)

theorem lineIdle_touches (s : State) : Touches [.line, .exchange] s (lineIdle s) :=
  (onLine_touches _ _ _).mono.seq (onExchange_kept (x := none) fun _ hy => nomatch hy).mono

theorem deliverOrder_touches (halt : Bool) (p : Nat) (s : State) :
    Touches [.outbound, .halts, .tasks] s (deliverOrder halt p s) := by
  unfold deliverOrder
  split
  · next w _ =>
    refine .ite (fun _ => ?_) (fun _ => .refl _ _)
    extract_lets k s1 s2
    have h1 : Touches [.outbound, .halts, .tasks] s s1 := Touches.mono (l := [.outbound, .halts]) (setOutbound_answers rfl)
    have h2 : Touches [.outbound, .halts, .tasks] s s2 := by
      dsimp only [s2]
      split
      · exact .ite (fun _ => h1.seq (taskDelivered_touches _ _).mono) (fun _ => h1)
      · exact h1
    exact h2.seq (dsmFreeAt_touches _ _).mono
  · exact .refl _ _

theorem deliverAnswer_touches (p : Nat) (s : State) : Touches [.outbound, .answers] s (deliverAnswer p s) := by
  unfold deliverAnswer
  split
  · exact .ite (fun _ => setOutbound_order rfl) (fun _ => .refl _ _)
  · exact .refl _ _

theorem deliver_touches (p : Nat) (item : PollItem) (s : State) :
    Touches [.outbound, .halts, .answers, .tasks, .cars] s (deliver p item s) := by
  unfold deliver
  split
  · exact (deliverOrder_touches _ _ _).mono.seq (withCar_touches _ fun c => (carHaltDelivered_touches c _).mono)
  · exact (deliverOrder_touches _ _ _).mono
  · exact (deliverAnswer_touches _ _).mono
  · exact .refl _ _
  · exact .refl _ _

theorem recordReply_touches (p : Nat) (s : State) : Touches [.stations] s (recordReply p s) := setStation_kept id

theorem replyTaken_touches (p : Nat) (item : PollItem) (t : Telegram) (s : State) :
    Touches (.halts :: .answers :: positionAspects) s (replyTaken p item t s) := by
  unfold replyTaken
  extract_lets s1
  have h1 : Touches (.halts :: .answers :: positionAspects) s s1 := (deliver_touches _ _ _).mono.seq
    ((recordReply_touches _ _).mono.seq (uncarry_touches _ _).mono)
  exact .ite (fun _ => h1.seq (joinTest_touches _ _ _).mono) (fun _ => h1)

theorem exchangeMissed_touches (s : State) : Touches endingAspects s (exchangeMissed s) := by
  unfold exchangeMissed
  split
  · next x _ =>
    extract_lets s1 s2 s3
    have h1 : Touches endingAspects s s1 := (lineIdle_touches s).mono
    refine .ite (fun _ => h1.seq (roundOn_touches _).mono) (fun _ => ?_)
    have h2 : Touches endingAspects s s2 := h1.seq (uncarry_touches _ _).mono
    have h3 : Touches endingAspects s s3 := by
      dsimp only [s3]
      split
      · exact h2.seq (markDirty_touches _ _).mono
      · exact h2
      · exact h2
      · exact h2
      · exact h2
    exact h3.seq ((miss_touches _ _).mono.seq (roundOn_touches _).mono)
  · exact .refl _ _

/-! ## Restarts -/

theorem emptyAnswers_touches (s : State) : Touches [.outbound, .answers] s (emptyAnswers s) := by
  intro a ha
  cases a <;> first
    | exact (ha (by decide)).elim
    | rfl
    | exact id
    | exact ⟨rfl, rfl⟩
    | exact ⟨rfl, rfl, rfl⟩
    | exact ⟨rfl, rfl, rfl, rfl⟩
    | exact List.Sublist.refl _
    | exact fun _ => ⟨rfl, rfl⟩
    | exact fun _ => rfl
    | exact fun _ h => ⟨Nat.le_refl _, h⟩
    | skip
  intro p hp
  obtain ⟨w, h1, h2⟩ := (haltWaits_iff s p).mp hp
  rw [haltWaits_iff]
  refine ⟨w, ?_, h2⟩
  by_cases hi : p < 24
  · have : outbound (emptyAnswers s) p = { outbound s p with answer := none } :=
      readAt_map (fun o : Outbound => ({ o with answer := none } : Outbound)) s.fpl.outbound p {} hi
    rw [this]
    exact h1
  · have : outbound s p = {} := readAt_ge _ _ _ hi
    rw [this] at h1
    exact absurd h1 (by simp)

theorem clearOrder_touches (p : Nat) (s : State) : Touches [.outbound, .tasks] s (clearOrder p s) := by
  unfold clearOrder
  split
  · next w hw =>
    refine .ite (fun _ => .refl _ _) (fun hn => ?_)
    refine Touches.after (orderLeftUndelivered_touches _ _ _).mono (Touches.mono (l := [.outbound]) (setOutbound_both (fun h => ?_) rfl))
    obtain ⟨w', h1, h2⟩ := (haltWaits_iff s p).mp h
    rw [hw] at h1
    injection h1 with h1
    subst h1
    exact absurd h2 hn
  · exact .refl _ _

theorem allAbsent_touches (s : State) : Touches [.stations, .align, .holderLaw] s (allAbsent s) := by
  intro a ha
  cases a <;> first
    | exact (ha (by decide)).elim
    | rfl
    | exact id
    | exact ⟨rfl, rfl⟩
    | exact ⟨rfl, rfl, rfl⟩
    | exact ⟨rfl, rfl, rfl, rfl⟩
    | exact List.Sublist.refl _
    | exact fun _ => ⟨rfl, rfl⟩
    | exact fun _ => rfl
    | exact fun _ h => ⟨Nat.le_refl _, h⟩
    | exact fun _ h => h

theorem fieldRestart_touches (s : State) : Touches (.answers :: endingAspects) s (fieldRestart s) := by
  unfold fieldRestart
  extract_lets s1 s2 b s3 s4
  have h1 : Touches (.answers :: endingAspects) s s1 := (lineIdle_touches s).mono
  have h2 : Touches (.answers :: endingAspects) s s2 := h1.seq ((emptyAnswers_touches _).mono.seq
    (Touches.mono (l := [.outbound, .tasks]) (Touches.foldl _
      (fun s p => (clearOrder_touches p s).seq (uncarry_touches _ _).mono) _)))
  have h3 : Touches (.answers :: endingAspects) s s3 := h2.seq <|
    Touches.keep (a := .holderLaw) ((allAbsent_touches _).mono.seq (ilkSettle_touches _ _).mono) fun hl =>
      have k := allAbsent_touches s2
      ilkSettle_holder hl (((holderLaw_iff s2).mp hl).1.kept k) (k .pollTables (by decide))
        ((show (allAbsent s2).ilk.permits = s2.ilk.permits from k .permits (by decide)) ▸
          List.Sublist.refl (allAbsent s2).ilk.permits)
  have h4 : Touches (.answers :: endingAspects) s s4 := h3.seq
    (Touches.mono (l := cutAspects) (Touches.foldl _ (fun s p => departureTaken_touches p s) _))
  exact h4.seq (roundOn_touches _).mono

end Sys2Proof.Machine
end

