-- ==== Sys2Proof/Laws/Classifier.lean ====
section
/-!
SUPPORT. What the classifier's handling of a telegram may touch.
-/

set_option Elab.async false
namespace Sys2Proof.Machine

open Sys2Proof

theorem coreCopy_touches (e : DispatchEntry) (t : Telegram) (s : State) : Touches [.transmit] s (coreCopy e t s) := by
  unfold coreCopy
  split
  · exact queueCopy_touches _ _
  · exact queueCopy_touches _ _
  · exact .refl _ _
  · exact .refl _ _
  · exact .refl _ _

theorem mismatch_touches (i k a : Nat) (s : State) : Touches [.counts, .transmit] s (mismatch i k a s) :=
  raise_touches _ _ _ _ _

theorem fieldOther_touches (p : Nat) (t : Telegram) (s : State) :
    Touches [.counts, .transmit] s (fieldOther p t s) := by
  unfold fieldOther
  extract_lets e index
  split
  · exact (queueCopy_touches _ _).mono
  · exact (queueCopy_touches _ _).mono
  · exact .ite (fun _ => .refl _ _) (fun _ => mismatch_touches _ _ _ _)
  · split
    · exact (queueCopy_touches _ _).mono
    · exact .refl _ _
    · exact mismatch_touches _ _ _ _
  · exact .refl _ _

/-- A REQUEST from a position, where the poll list has `n` of them, may touch `l` beside what a grant may. -/
def RequestWithin (l : List Aspect) (p n : Nat) : Prop :=
  ∀ a b c s, s.fpl.length = n → Touches (l ++ grantAspects) s (ilkRequest p a b c s)

theorem requestWithin_any (p n : Nat) : RequestWithin [.holderLaw] p n := fun a b c s _ => ilkRequest_touches p a b c s

/-- From a position in use a REQUEST keeps the law of R38. -/
theorem requestWithin_used {p n : Nat} (h : p < n) : RequestWithin [] p n := fun a b c s hn =>
  Touches.keep (a := .holderLaw) (ilkRequest_touches p a b c s) (ilkRequest_holder (hn ▸ h))

theorem holderLaw_report (t : Telegram) : Aspect.holderLaw ∉ reportAspectsOf (kindOf t) := by
  unfold reportAspectsOf
  split
  · decide
  · split
    · decide
    · split <;> decide

theorem classifyField_within {l : List Aspect} {p : Nat} {s : State} (t : Telegram) (hr : RequestWithin l p s.fpl.length) :
    Touches (l ++ (reportAspectsOf (kindOf t) ++ positionAspects)) s (classifyField p t s) := by
  unfold classifyField
  extract_lets e k
  refine .ite (fun h => ?_) (fun _ => ?_)
  · rw [show kindOf t = Kind.position from h]
    exact Touches.right ((handlePosition_touches _ _ _).mono.seq (coreCopy_touches _ _ _).mono)
  refine .ite (fun h => ?_) (fun _ => ?_)
  · rw [show kindOf t = Kind.request from h]
    refine Touches.after (Touches.mono (coreCopy_touches _ _ _)).right ((hr _ _ _ s rfl).tail fun a hx => ?_)
    revert hx
    cases a <;> decide
  refine .ite (fun h => ?_) (fun _ => ?_)
  · rw [show kindOf t = Kind.done from h]
    exact Touches.right ((ilkDone_touches _ _ _ _ _ _ _).mono.seq (coreCopy_touches _ _ _).mono)
  refine .ite (fun h => ?_) (fun _ => ?_)
  · rw [show kindOf t = Kind.seal from h]
    exact Touches.right ((dsmSeal_touches _ _ _ _ _).mono.seq (coreCopy_touches _ _ _).mono)
  have hp {u : State} (h : Touches positionAspects s u) :
      Touches (l ++ (reportAspectsOf (kindOf t) ++ positionAspects)) s u := h.right.right
  refine .ite (fun _ => hp ((oprSample_touches _ _ _).mono.seq (coreCopy_touches _ _ _).mono)) (fun _ => ?_)
  refine .ite (fun _ => hp ((fplReady_touches _ _ _ _).seq (coreCopy_touches _ _ _).mono)) (fun _ => ?_)
  exact hp (fieldOther_touches _ _ _).mono

/-- A telegram from a position in use. -/
theorem classifyField_touches {p : Nat} {s : State} (hp : p < s.fpl.length) (t : Telegram) :
    Touches (reportAspectsOf (kindOf t) ++ positionAspects) s (classifyField p t s) :=
  classifyField_within (l := []) t (requestWithin_used hp)

/-! ## Orders of the control station -/

theorem echo_touches (e : DispatchEntry) (t : Telegram) (s : State) : Touches [.transmit] s (echo e t s) :=
  .ite (fun _ => queueCopy_touches _ _) (fun _ => .refl _ _)

theorem placeControl_touches (e : DispatchEntry) (p o : Nat) (t : Telegram) (s : State) :
    Touches orderAspects s (placeControl e p o t s) := by
  unfold placeControl
  split
  · next h => exact (offerOrder_touches h).mono.seq (echo_touches _ _ _).mono
  · exact (refuseControl_touches _ _ _ _).mono

theorem controlMove_touches (e : DispatchEntry) (p : Nat) (t : Telegram) (s : State) :
    Touches orderAspects s (controlMove e p t s) := by
  unfold controlMove
  split
  · exact (refuseControl_touches _ _ _ _).mono
  · refine .ite (fun _ => (refuseControl_touches _ _ _ _).mono) (fun _ => ?_)
    extract_lets t'
    split
    · split
      · next h => exact (carMove_touches h).mono.seq (echo_touches _ _ _).mono
      · exact (refuseControl_touches _ _ _ _).mono
    · exact placeControl_touches _ _ _ _ _

theorem controlTask_touches (e : DispatchEntry) (p : Nat) (t : Telegram) (s : State) :
    Touches orderAspects s (controlTask e p t s) := by
  unfold controlTask
  extract_lets oven
  split
  · exact (refuseControl_touches _ _ _ _).mono
  · split
    · exact (refuseControl_touches _ _ _ _).mono
    · exact placeControl_touches _ _ _ _ _

theorem controlHalt_touches {e : DispatchEntry} {p : Nat} {t : Telegram} {s : State} (h : kindOf t = Kind.halt) :
    Touches orderAspects s (controlHalt e p t s) := by
  refine Touches.after (echo_touches _ _ _).mono (Touches.mono (l := [.outbound, .tasks]) (putOrder_touches fun _ => ?_))
  unfold isHalt
  exact decide_eq_true h

theorem offerOther_touches (e : DispatchEntry) (p : Nat) (t : Telegram) (s : State) :
    Touches orderAspects s (offerOther e p t s) := placeControl_touches _ _ _ _ _

theorem controlOther_touches (e : DispatchEntry) (i p : Nat) (t : Telegram) (s : State) :
    Touches orderAspects s (controlOther e i p t s) := by
  unfold controlOther
  extract_lets k owned
  split
  · exact .refl _ _
  · exact .ite (fun _ => .refl _ _) (fun _ => (mismatch_touches _ _ _ _).mono)
  · exact .ite (fun _ => (refuseControl_touches _ _ _ _).mono) (fun _ => offerOther_touches _ _ _ _)
  · exact .ite (fun _ => (refuseControl_touches _ _ _ _).mono) (fun _ => offerOther_touches _ _ _ _)
  · refine .ite (fun _ => (refuseControl_touches _ _ _ _).mono) (fun _ => ?_)
    split
    · exact offerOther_touches _ _ _ _
    · exact (refuseControl_touches _ _ _ _).mono
    · exact (mismatch_touches _ _ _ _).mono

theorem broadcastHalt_touches {e : DispatchEntry} {t : Telegram} {s : State} (h : kindOf t = Kind.halt) :
    Touches orderAspects s (broadcastHalt e t s) := by
  unfold broadcastHalt
  extract_lets place
  refine Touches.after (echo_touches _ _ _).mono (Touches.foldl (positions s) (fun u p => ?_) s)
  refine Touches.mono (l := [.outbound, .tasks]) (putOrder_touches fun _ => ?_)
  unfold isHalt
  exact decide_eq_true h

theorem controlToStation_touches (p : Nat) (t : Telegram) (s : State) :
    Touches orderAspects s (controlToStation p t s) := by
  unfold controlToStation
  extract_lets e
  refine .ite (fun _ => controlMove_touches _ _ _ _) (fun _ => ?_)
  refine .ite (fun h => controlHalt_touches h) (fun _ => ?_)
  exact .ite (fun _ => controlTask_touches _ _ _ _) (fun _ => controlOther_touches _ _ _ _ _)

theorem classifyControl_touches (t : Telegram) (s : State) : Touches orderAspects s (classifyControl t s) := by
  unfold classifyControl
  refine .ite (fun _ => (mismatch_touches _ _ _ _).mono) (fun _ => ?_)
  refine .ite (fun _ => .ite (fun h => broadcastHalt_touches h) (fun _ => (refuseControl_touches _ _ _ _).mono))
    (fun _ => ?_)
  split
  · exact controlToStation_touches _ _ _
  · exact (refuseControl_touches _ _ _ _).mono

end Sys2Proof.Machine
end

