-- ==== Sys2Proof/Laws/Requests.lean ====
section
/-!
SUPPORT. What the management requests other than LOAD and READ may touch.
-/

set_option Elab.async false
namespace Sys2Proof.Machine

open Sys2Proof

theorem clearSense_touches (s : State) : Touches [.sense] s (clearSense s) := onSense_touches (fun _ => {}) s

theorem answer_touches (code : Nat) (r : Reply) : Touches [.transmit] r.state (answer code r) := enqueue_touches _ _

@[simp] theorem okay_state (s : State) : (okay s).state = s := rfl

/-- One half of a choice of replies. -/
theorem Touches.replyIte {l : List Aspect} {c : Prop} [Decidable c] {s : State} {a b : Reply}
    (ha : c → Touches l s a.state) (hb : ¬ c → Touches l s b.state) : Touches l s (if c then a else b).state := by
  split
  · exact ha ‹_›
  · exact hb ‹_›

/-! ## Time and ovens -/

theorem setTime_touches (w : Int) (s : State) : Touches [.wall] s (setTime w s).state := by
  intro a ha
  cases a <;> first
    | exact (ha (by decide)).elim
    | rfl
    | exact id
    | exact ⟨rfl, rfl⟩
    | exact ⟨rfl, rfl, rfl⟩
    | exact ⟨rfl, rfl, rfl, rfl⟩
    | exact List.Sublist.refl _
    | exact fun _ => ⟨rfl, rfl⟩
    | exact fun _ => rfl
    | exact fun _ h => ⟨Nat.le_refl _, h⟩
    | exact fun _ h => h

theorem ovenServiceOut_touches (n : Nat) (s : State) : Touches cutAspects s (ovenServiceOut n s).state := by
  unfold ovenServiceOut
  extract_lets ph
  refine .replyIte (fun _ => .refl _ _) (fun _ => .replyIte (fun _ => .refl _ _) (fun _ => ?_))
  exact .replyIte (fun _ => .refl _ _) (fun _ => settled_touches (setPhaseOnly_touches _ _ _).mono)

theorem ovenServiceIn_touches (n e : Nat) (s : State) : Touches cutAspects s (ovenServiceIn n e s).state := by
  unfold ovenServiceIn
  refine .replyIte (fun _ => .refl _ _) (fun _ => .replyIte (fun _ => .refl _ _) (fun _ => ?_))
  extract_lets stamp k s1
  have h1 : Touches [.ovens] s s1 := setOvenRec_kept (Or.inl rfl)
  have hs : stamp ≤ s1.now := by
    show s.now - (e : Int) * 60 ≤ s.now
    omega
  exact h1.mono.seq (settled_touches (setPhase_touches _ (Or.inr hs)).mono)

theorem releaseOven_touches (n : Nat) (s : State) : Touches cutAspects s (releaseOven n s).state := by
  unfold releaseOven
  exact .replyIte (fun _ => .refl _ _) (fun _ => .replyIte (fun _ => .refl _ _)
    (fun _ => settled_touches (setPhaseOnly_touches _ _ _).mono))

theorem putFreeze_touches (b : Bool) (n : Nat) (s : State) : Touches [.ovens] s (putFreeze b n s) :=
  setOvenRec_kept (Or.inl rfl)

theorem freezeOvens_touches (b : Bool) (n : Nat) (s : State) : Touches [.ovens] s (freezeOvens b n s).state := by
  unfold freezeOvens
  refine .replyIte (fun _ => ?_) (fun _ => .replyIte (fun _ => putFreeze_touches _ _ _) (fun _ => .refl _ _))
  exact Touches.foldl (configuredOvens s) (fun s n => putFreeze_touches b n s) s

/-! ## Runs -/

theorem onBlock_touches (b : Nat) (s : State) : Touches [.runnerTables] s (s.onSch fun r => { r with block := b }) := by
  intro a ha
  cases a <;> first
    | exact (ha (by decide)).elim
    | rfl
    | exact id
    | exact ⟨rfl, rfl⟩
    | exact ⟨rfl, rfl, rfl⟩
    | exact ⟨rfl, rfl, rfl, rfl⟩
    | exact List.Sublist.refl _
    | exact fun _ => ⟨rfl, rfl⟩
    | exact fun _ => rfl
    | exact fun _ h => ⟨Nat.le_refl _, h⟩
    | exact fun _ h => h

theorem setBlock_touches (b : Nat) (s : State) : Touches [.runnerTables] s (setBlock b s).state := by
  unfold setBlock
  exact .replyIte (fun _ => onBlock_touches _ _) (fun _ => onBlock_touches _ _)

theorem discardControl_touches (p : Option Nat) (s : State) : Touches [.outbound, .tasks] s (discardControl p s) := by
  unfold discardControl
  split
  · split
    · exact .ite (fun _ => (clearOrder_touches _ _).seq (dsmFreeAt_touches _ _)) (fun _ => .refl _ _)
    · exact .refl _ _
  · exact .refl _ _

/-- A run accepted takes at least one position (R50). -/
theorem stretch_pos {s : State} {start count : Nat} (h : badStretch s start count = false) : 0 < stretch s start count := by
  unfold badStretch at h
  simp only [Bool.or_eq_false_iff, decide_eq_false_iff_not] at h
  unfold stretch
  split <;> omega

theorem startRun_touches {start count : Nat} {s : State} (h : badStretch s start count = false) :
    Touches (.stretch :: runAspects) s (startRun start count s) := by
  unfold startRun
  extract_lets n s1 s2 s3
  have hn : 0 < n := stretch_pos h
  have h2 : Touches runAspects s s2 := (clearSense_touches s).mono.seq
    ((discardControl_touches _ _).mono.seq (discardControl_touches _ _).mono)
  have h3 : Touches (.runLaw :: .stretch :: runAspects) s2 s3 := (onRun_touches _ s2).mono
  have hr : s3.run =
      { state := .running, start := start, requested := n, residual := n, cursor := start, planned := s2.now } := rfl
  refine h2.mono.seq (Touches.after (dsmFreeBoth_touches _).mono ?_)
  refine Touches.keep (a := .runLaw) (h3.seq (phaseCases_base _ _).mono) fun _ => ?_
  refine phaseCases_law _ ?_ ?_
  · unfold RunSum; rw [hr]; dsimp only; omega
  · rw [hr]; exact hn

theorem runRequest_touches (start count : Nat) (s : State) :
    Touches (.stretch :: cutAspects) s (runRequest start count s).state := by
  unfold runRequest
  refine .replyIte (fun _ => .refl _ _) (fun _ => .replyIte (fun _ => .refl _ _) (fun _ => ?_))
  exact .replyIte (fun _ => .refl _ _)
    (fun h => (startRun_touches (by simpa using h)).mono.seq (ilkSettle_touches _ _).mono)

theorem holdRequest_touches (s : State) : Touches [.run, .idle, .outbound, .tasks] s (holdRequest s).state := by
  unfold holdRequest
  exact .replyIte (fun _ => holdRun_touches _) (fun _ => .refl _ _)

theorem resumeRun_touches {s : State} (h : s.run.state = .held) : Touches runAspects s (resumeRun s) := by
  unfold resumeRun
  extract_lets s1
  have h1 : Touches [.run] s s1 := onRun_kept ⟨rfl, rfl, rfl, rfl, rfl⟩ fun _ => by
    unfold RunRecord.engaged; rw [h]; rfl
  have hp : RunLaw s1 → 0 < s1.run.residual := fun hl => running_pos rfl hl
  refine Touches.after (afterRun_touches _ _).mono (h1.mono.seq ?_)
  unfold resumeTests
  split
  · exact (takeUp_touches hp).seq (latenessTest_touches _)
  · exact (formMoves_touches _).mono.seq ((arrivalTest_touches _).mono.seq (latenessTest_touches _))
  · exact (openTest_touches _).mono.seq (latenessTest_touches _)
  · exact .refl _ _
  · exact closeTest_touches _

theorem resumeRequest_touches (s : State) : Touches cutAspects s (resumeRequest s).state := by
  unfold resumeRequest
  split
  · next h => exact settled_touches (resumeRun_touches h).mono
  · exact .replyIte (fun _ => Touches.mono (l := [.run]) (onRun_kept ⟨rfl, rfl, rfl, rfl, rfl⟩ id)) (fun _ => .refl _ _)
  · exact .refl _ _
  · exact .refl _ _

theorem abortRequest_touches (s : State) : Touches cutAspects s (abortRequest s).state := by
  unfold abortRequest
  refine .replyIte (fun _ => ?_) (fun _ => .refl _ _)
  exact settled_touches (Touches.seq (stopRun_touches .aborted 0 0 s).mono (afterRun_touches _ _).mono)

theorem senseRequest_touches (s : State) : Touches [.sense] s (senseRequest s).state := clearSense_touches s

theorem verifyRequest_touches (start count : Nat) (s : State) : Touches [] s (verifyRequest start count s).state := by
  unfold verifyRequest
  exact .replyIte (fun _ => .refl _ _) (fun _ => .refl _ _)

/-! ## Cars, STATUS and modes -/

theorem clearCarRequest_touches (c : Nat) (s : State) :
    Touches (.places :: cutAspects) s (clearCarRequest c s).state := by
  unfold clearCarRequest
  refine .replyIte (fun _ => .refl _ _) (fun _ => .replyIte (fun _ => .refl _ _) (fun _ => ?_))
  exact (carCleared_touches _ _).mono.seq (ilkSettle_touches _ _).mono

theorem statusRequest_touches (s : State) :
    Touches [.counts, .tally, .controlDiscards, .fieldDiscards] s (statusRequest s).state := by
  intro a ha
  cases a <;> first
    | exact (ha (by decide)).elim
    | rfl
    | exact id
    | exact ⟨rfl, rfl⟩
    | exact ⟨rfl, rfl, rfl⟩
    | exact ⟨rfl, rfl, rfl, rfl⟩
    | exact List.Sublist.refl _
    | exact fun _ => ⟨rfl, rfl⟩
    | exact fun _ => rfl
    | exact fun _ h => ⟨Nat.le_refl _, h⟩
    | exact fun _ h => h
    | (intro _ i
       show readAt (Vector.replicate 24 0) i 0 ≤ 255
       rw [readAt_replicate]
       exact Nat.zero_le _)

theorem setMode_touches {m : OpMode} {s : State}
    (h : (s.mgt.mode ≠ .service → s.ilk.permits = []) → m ≠ .service → s.ilk.permits = []) :
    Touches [.mode] s (setMode m s) := by
  intro a ha
  cases a <;> first
    | exact (ha (by decide)).elim
    | rfl
    | exact id
    | exact ⟨rfl, rfl⟩
    | exact ⟨rfl, rfl, rfl⟩
    | exact ⟨rfl, rfl, rfl, rfl⟩
    | exact List.Sublist.refl _
    | exact fun _ => ⟨rfl, rfl⟩
    | exact fun _ => rfl
    | exact fun _ h => ⟨Nat.le_refl _, h⟩
    | exact fun _ h => h
    | exact fun hs => ⟨h hs.1, hs.2⟩

theorem enterService_touches (s : State) : Touches [.mode, .outbound, .tasks] s (enterService s).state := by
  unfold enterService
  refine .replyIte (fun _ => .refl _ _) (fun _ => ?_)
  split
  · exact .refl _ _
  · exact Touches.seq (Touches.mono (l := [.mode]) (setMode_touches fun _ hm => absurd rfl hm))
      (dsmFreeBoth_touches _).mono

theorem enterMaintenance_touches (s : State) : Touches [.mode] s (enterMaintenance s).state := by
  unfold enterMaintenance
  refine .replyIte (fun _ => ?_) (fun hm => ?_)
  · refine .replyIte (fun _ => .refl _ _) (fun _ => .replyIte (fun _ => .refl _ _) (fun he => ?_))
    refine setMode_touches fun _ _ => ?_
    simpa using he
  · exact setMode_touches fun h _ => h hm

/-! ## Restarts -/

theorem warmOven_touches (n : Nat) (s : State) : Touches phaseAspects s (warmOven n s) :=
  (ovtPushBroken_touches _ _).seq (ovtChargeCut_touches _ _ _ _)

theorem endTasks_touches (s : State) : Touches [.tasks] s (endTasks s) :=
  (setTask_touches _ _ _).seq (setTask_touches _ _ _)

theorem haltMachines_touches (s : State) : Touches [.outbound, .tasks] s (haltMachines s) :=
  Touches.foldl _ (fun s p => placeHalt_touches .mgt HaltReason.restart (some p) s) s

theorem closeCut_touches (b s : State) : Touches [.counts, .transmit] s (closeCut b s) := by
  unfold closeCut
  extract_lets peak
  exact .ite (fun _ => raise_touches _ _ _ _ _) (fun _ => .refl _ _)

theorem warmRestart_touches (s : State) : Touches warmAspects s (warmRestart s) := by
  unfold warmRestart
  extract_lets b s1 s2 s3
  have h0 : Touches warmAspects s (emptyPermits s) := (emptyPermits_touches s).mono
  have h1 : Touches warmAspects (emptyPermits s) s1 := (schWarm_touches _).mono.seq
    ((qtcWarm_touches _).mono.seq (oprWarm_touches _).mono)
  have h2 : Touches (.latenessMark :: cutAspects) s1 s2 := Touches.seq
    (Touches.mono (l := phaseAspects) (Touches.foldl allOvens (fun s n => warmOven_touches n s) _))
    (closeCut_touches _ _).mono
  have h3 : Touches [.outbound, .answers, .tasks] s2 (haltMachines (emptyAnswers (endTasks s2))) :=
    (endTasks_touches _).mono.seq ((emptyAnswers_touches _).mono.seq (haltMachines_touches _).mono)
  have hn : (haltMachines (emptyAnswers (endTasks s2))).ilk.permits = [] := by
    have e1 : s1.ilk.permits.Sublist [] := h1 .grants (by decide)
    have e2 : s2.ilk.permits.Sublist s1.ilk.permits := h2 .grants (by decide)
    have e3 : (haltMachines (emptyAnswers (endTasks s2))).ilk.permits.Sublist s2.ilk.permits := h3 .grants (by decide)
    exact List.sublist_nil.mp (e3.trans (e2.trans e1))
  have h4 : Touches [.mode] (haltMachines (emptyAnswers (endTasks s2))) s3 := setMode_touches fun _ _ => hn
  exact h0.seq (h1.seq (h2.mono.seq (h3.mono.seq (h4.mono.seq (oprDeriveAll_touches _ _).mono))))

end Sys2Proof.Machine
end

