-- ==== Sys2Proof/Laws/Loads.lean ====
section
/-!
SUPPORT. What the LOADs may touch, table by table.
-/

set_option Elab.async false
namespace Sys2Proof.Machine

open Sys2Proof

/-- A load that is carried out passes the shared checks: its range fits, and a guarded table is not loaded in SERVICE. -/
theorem loadMany_checked {α : Type} {l : List Aspect} {g fits : Bool} {size : Nat} {a : LoadArgs}
    {parse : List Byte → Option α} {rule : List α → State → Reply} {s : State}
    (h : ∀ es, parseAll parse (rows size a.count a.entries) = some es → fits = true →
      (g = true → s.mgt.mode ≠ .service) → Touches l s (rule es s).state) :
    Touches l s (loadMany g size a fits parse rule s).state := by
  unfold loadMany
  split
  · exact .refl _ _
  · next hc =>
    refine .replyIte (fun _ => .refl _ _) (fun hf => ?_)
    split
    · next es hp =>
      refine h es hp (by simpa using hf) fun hg hm => ?_
      subst hg
      unfold loadCheck at hc
      rw [if_pos (by simp [hm])] at hc
      exact nomatch hc
    · exact .refl _ _

theorem loadMany_touches {α : Type} {l : List Aspect} {g fits : Bool} {size : Nat} {a : LoadArgs}
    {parse : List Byte → Option α} {rule : List α → State → Reply} {s : State}
    (h : ∀ es, parseAll parse (rows size a.count a.entries) = some es → Touches l s (rule es s).state) :
    Touches l s (loadMany g size a fits parse rule s).state := loadMany_checked fun es hp _ _ => h es hp

theorem loadOne_touches {α : Type} {l : List Aspect} {g : Bool} {size : Nat} {a : LoadArgs}
    {parse : List Byte → Option α} {rule : α → State → Reply} {s : State}
    (h : ∀ e, parse a.entries = some e → Touches l s (rule e s).state) :
    Touches l s (loadOne g size a parse rule s).state := by
  unfold loadOne
  split
  · exact .refl _ _
  · refine .replyIte (fun _ => .refl _ _) (fun _ => ?_)
    split
    · next e hp => exact h e hp
    · exact .refl _ _

/-- What every parsed entry is known to be. -/
theorem parseAll_forall {α : Type} {parse : List Byte → Option α} {P : α → Prop} (hp : ∀ b e, parse b = some e → P e)
    {l : List (List Byte)} {es : List α} (h : parseAll parse l = some es) : ∀ e ∈ es, P e := by
  induction l generalizing es with
  | nil =>
    injection h with h
    subst h
    exact fun e he => absurd he List.not_mem_nil
  | cons b l ih =>
    unfold parseAll at h
    split at h
    · next e es' he hes =>
      injection h with h
      subst h
      intro x hx
      rcases List.mem_cons.mp hx with hx | hx
      · subst hx; exact hp b x he
      · exact ih hes x hx
    · exact absurd h (by simp)
    · exact absurd h (by simp)

theorem readAt_writeFrom {α : Type} {n : Nat} {P : α → Prop} {d : α} (es : List α) (i : Nat) (t : Vector α n)
    (ht : ∀ j, P (readAt t j d)) (he : ∀ e ∈ es, P e) (j : Nat) : P (readAt (writeFrom t i es) j d) := by
  unfold writeFrom
  have key : ∀ (l : List (α × Nat)) (t : Vector α n), (∀ j, P (readAt t j d)) → (∀ x ∈ l, P x.1) →
      ∀ j, P (readAt (l.foldl (fun t e => writeAt t (i + e.2) e.1) t) j d) := by
    intro l
    induction l with
    | nil => exact fun t h _ => h
    | cons x l ih =>
      intro t h hl
      refine ih _ (fun j => ?_) (fun y hy => hl y (List.mem_cons_of_mem _ hy))
      rw [readAt_writeAt]
      split
      · exact hl x (List.mem_cons_self ..)
      · exact h j
  refine key es.zipIdx t ht (fun x hx => he x.1 ?_) j
  exact List.fst_mem_of_mem_zipIdx hx

/-! ## Guarded tables -/

theorem onCls_touches (f : Classifier → Classifier) (s : State) : Touches [.classifier] s (s.onCls f) := by
  intro a ha
  cases a <;> first
    | exact (ha (by decide)).elim
    | rfl
    | exact id
    | exact ⟨rfl, rfl⟩
    | exact ⟨rfl, rfl, rfl⟩
    | exact ⟨rfl, rfl, rfl, rfl⟩
    | exact List.Sublist.refl _
    | exact fun _ => ⟨rfl, rfl⟩
    | exact fun _ => rfl
    | exact fun _ h => ⟨Nat.le_refl _, h⟩
    | exact fun _ h => h

theorem onPollTables_touches (l : Vector PollEntry 24) (n : Nat) (g : LineSettings) (s : State) :
    Touches [.pollTables, .holderLaw] s (s.onFpl fun f => { f with list := l, length := n, settings := g }) := by
  intro a ha
  cases a <;> first
    | exact (ha (by decide)).elim
    | rfl
    | exact id
    | exact ⟨rfl, rfl⟩
    | exact ⟨rfl, rfl, rfl⟩
    | exact ⟨rfl, rfl, rfl, rfl⟩
    | exact List.Sublist.refl _
    | exact fun _ => ⟨rfl, rfl⟩
    | exact fun _ => rfl
    | exact fun _ h => ⟨Nat.le_refl _, h⟩
    | exact fun _ h => h

theorem onValidity_touches (f : Validity → Validity) (s : State) : Touches [.validity] s (onValidity f s) := by
  intro a ha
  cases a <;> first
    | exact (ha (by decide)).elim
    | rfl
    | exact id
    | exact ⟨rfl, rfl⟩
    | exact ⟨rfl, rfl, rfl⟩
    | exact ⟨rfl, rfl, rfl, rfl⟩
    | exact List.Sublist.refl _
    | exact fun _ => ⟨rfl, rfl⟩
    | exact fun _ => rfl
    | exact fun _ h => ⟨Nat.le_refl _, h⟩
    | exact fun _ h => h

theorem testCars_touches (s : State) : Touches [.validity] s (testCars s) := onValidity_touches _ _

theorem testOvens_touches (s : State) : Touches [.validity] s (testOvens s) := onValidity_touches _ _

theorem loadDispatch_touches (a : LoadArgs) (s : State) : Touches [.classifier] s (loadDispatch a s).state :=
  loadMany_touches fun _ _ => onCls_touches _ _

theorem loadSelectors_touches (a : LoadArgs) (s : State) : Touches [.classifier] s (loadSelectors a s).state :=
  loadMany_touches fun _ _ => onCls_touches _ _

theorem loadLine_touches (a : LoadArgs) (s : State) : Touches [.pollTables] s (loadLine a s).state :=
  loadOne_touches fun l _ => Touches.keep (a := .holderLaw)
    (onPollTables_touches s.fpl.list s.fpl.length l s).mono (id : HolderLaw s → HolderLaw s)

/-- What a rewritten position of the poll list may touch. -/
abbrev rewriteAspects : List Aspect := .exchange :: .answers :: positionAspects

theorem rewritePosition_touches (p : Nat) (e : PollEntry) (s : State) :
    Touches (.holderLaw :: rewriteAspects) s (rewritePosition p e s) := by
  unfold rewritePosition
  extract_lets b s1 halt s2 s3
  have h1 : Touches (.holderLaw :: rewriteAspects) s s1 := (setStation_touches _ _ _).mono.seq (clearOrder_touches _ _).mono
  have h2 : Touches [.outbound, .answers] s1 s2 := setOutbound_kept fun hw => by
    obtain ⟨w, hw1, hw2⟩ := (haltWaits_iff s1 p).mp hw
    refine ⟨{ w with carried := false, telegram := { w.telegram with dest := BitVec.ofNat 8 e.address } }, ?_, hw2⟩
    show (outbound s1 p).order.map _ = _
    rw [hw1]
    rfl
  have h3 : Touches [.exchange, .holderLaw] s2 s3 := onExchange_touches _ s2
  have h : Touches (.holderLaw :: rewriteAspects) s s3 := h1.seq (h2.mono.seq h3.mono)
  exact .ite (fun _ => h.seq (departure_touches _ _ _).mono) (fun _ => h.seq (clearAlignment_touches _ _).mono)

/-- A rewritten position leaves the exchange with the position it has. -/
theorem rewritePosition_exchange (p : Nat) (e : PollEntry) (s : State) :
    (rewritePosition p e s).fpl.exchange.map Exchange.position = s.fpl.exchange.map Exchange.position := by
  unfold rewritePosition
  extract_lets b s1 halt s2 s3
  have h2 : Touches [.holderLaw, .stations, .outbound, .tasks, .answers, .halts] s s2 :=
    (setStation_touches _ _ _).mono.seq ((clearOrder_touches _ _).mono.seq (setOutbound_touches _ _ _).mono)
  have e2 : s2.fpl.exchange = s.fpl.exchange := h2 .exchange (by decide)
  have e3 : s3.fpl.exchange.map Exchange.position = s2.fpl.exchange.map Exchange.position := by
    show (s2.fpl.exchange.map _).map _ = _
    cases s2.fpl.exchange <;> rfl
  have e4 : (if (station b p).state = .active then departure b p s3 else clearAlignment p s3).fpl.exchange =
      s3.fpl.exchange := by
    split
    · exact departure_touches _ _ _ .exchange (by decide)
    · exact clearAlignment_touches _ _ .exchange (by decide)
  rw [e4, e3, e2]

/-- The addresses of a list without repetition differ (R160). -/
theorem distinctStations_apart {l : List PollEntry} (h : distinctStations l = true) {p q : Nat} (hp : p < l.length)
    (hq : q < l.length) (he : l[p].address = l[q].address) : p = q := by
  induction l generalizing p q with
  | nil => exact absurd hp (Nat.not_lt_zero _)
  | cons x l ih =>
    unfold distinctStations at h
    rw [Bool.and_eq_true, List.all_eq_true] at h
    have hx : ∀ y ∈ l, x.address ≠ y.address := fun y hy => by
      have := h.1 y hy
      rw [Bool.and_eq_true] at this
      simpa using this.1
    match p, q with
    | 0, 0 => rfl
    | p + 1, q + 1 => exact congrArg _ (ih h.2 (Nat.lt_of_succ_lt_succ hp) (Nat.lt_of_succ_lt_succ hq) he)
    | 0, q + 1 => exact absurd he (hx _ (List.getElem_mem _))
    | p + 1, 0 => exact absurd he.symm (hx _ (List.getElem_mem _))

theorem loadPoll_touches (a : LoadArgs) (s : State) : Touches pollLoadAspects s (loadPoll a s).state := by
  unfold loadPoll
  refine loadMany_checked fun es _ hf hg => ?_
  extract_lets list length s1 s2 s3
  refine .replyIte (fun _ => .refl _ _) (fun hd => ?_)
  have h1 : Touches (.holderLaw :: rewriteAspects) s s1 := Touches.foldl _
    (fun u e => by
      extract_lets p
      exact .ite (fun _ => .refl _ _) (fun _ => rewritePosition_touches _ _ _)) s
  have h2 : Touches [.pollTables, .holderLaw] s1 s2 := onPollTables_touches list length s1.fpl.settings s1
  have h3 : Touches [.validity] s2 s3 := (onValidity_touches _ _).seq (testCars_touches _)
  have h : Touches pollLoadAspects s s3 := by
    refine Touches.keep (a := .holderLaw) (h1.mono.seq (h2.mono.seq h3.mono)) fun hl => ?_
    have hm := hg rfl
    have hall : Touches (.holderLaw :: .validity :: .pollTables :: rewriteAspects) s s3 :=
      h1.mono.seq (h2.mono.seq h3.mono)
    have hpermits : s3.ilk.permits = [] := by
      have k : s3.ilk.permits.Sublist s.ilk.permits := hall .grants (by decide)
      rw [hl.1 hm] at k
      exact List.sublist_nil.mp k
    have hexchange : s3.fpl.exchange.map Exchange.position = s.fpl.exchange.map Exchange.position := by
      have k : ∀ (l : List (PollEntry × Nat)) (u : State), (l.foldl (fun s e =>
          let p := a.first - 1 + e.2
          if pollEntry s p = e.1 then s else rewritePosition p e.1 s) u).fpl.exchange.map Exchange.position =
            u.fpl.exchange.map Exchange.position := by
        intro l
        induction l with
        | nil => exact fun _ => rfl
        | cons e l ih =>
          intro u
          rw [List.foldl_cons, ih]
          dsimp only
          split
          · rfl
          · exact rewritePosition_exchange _ _ _
      exact k es.zipIdx s
    simp only [Bool.and_eq_true, decide_eq_true_eq] at hf
    have hn : s.fpl.length ≤ length ∧ length ≤ 24 := by
      have := hl.2.1
      dsimp only [length]
      split <;> omega
    have hlist : ∀ p, pollEntry s3 p = readAt list p {} := fun _ => rfl
    refine ⟨fun _ => hpermits, hn.2, fun p q hp hq he => ?_, fun x hx => ?_, fun e he => ?_⟩
    · have hp : p < length := hp
      have hq : q < length := hq
      have hlen : (list.toList.take length).length = length := by simp; omega
      rw [Bool.not_eq_true', Bool.not_eq_false] at hd
      refine distinctStations_apart hd (by rw [hlen]; exact hp) (by rw [hlen]; exact hq) ?_
      rw [hlist, hlist] at he
      unfold readAt at he
      simpa [show p < 24 by omega, show q < 24 by omega] using he
    · rw [hx] at hexchange
      cases hy : s.fpl.exchange with
      | none => rw [hy] at hexchange; exact nomatch hexchange
      | some y =>
        rw [hy] at hexchange
        injection hexchange with hxy
        have := hl.2.2.2.1 y hy
        show x.position < length
        omega
    · rw [hpermits] at he
      exact absurd he List.not_mem_nil
  exact .ite (c := s3.fpl.exchange.isNone = true) (fun _ => h.seq (roundOn_touches _).mono) (fun _ => h)

theorem onOvenTables_touches (c : Vector (Option OvenConfig) 128) (t : Timing) (s : State) :
    Touches [.ovenTables] s (s.onOvt fun o => { o with config := c, timing := t }) := by
  intro a ha
  cases a <;> first
    | exact (ha (by decide)).elim
    | rfl
    | exact id
    | exact ⟨rfl, rfl⟩
    | exact ⟨rfl, rfl, rfl⟩
    | exact ⟨rfl, rfl, rfl, rfl⟩
    | exact List.Sublist.refl _
    | exact fun _ => ⟨rfl, rfl⟩
    | exact fun _ => rfl
    | exact fun _ h => ⟨Nat.le_refl _, h⟩
    | exact fun _ h => h

theorem reconfigured_touches (n : Nat) (o c : OvenConfig) (s : State) :
    Touches phaseAspects s (reconfigured n o c s) := by
  unfold reconfigured
  extract_lets s1
  have h1 : Touches phaseAspects s s1 := .ite (fun _ => setPhaseOnly_touches _ _ _)
    (fun _ => .ite (fun _ => setPhase_touches _ (Or.inr (Int.le_refl _))) (fun _ => .refl _ _))
  exact .ite (fun _ => h1) (fun _ => h1.seq ((recomputeReady_touches _ _).seq (oprDerive_touches _ _).mono))

theorem writeOven_touches (n : Nat) (c : OvenConfig) (s : State) :
    Touches (.ovenTables :: phaseAspects) s (writeOven n c s) := by
  unfold writeOven
  extract_lets old s1 k r
  have h1 : Touches [.ovenTables] s s1 := onOvenTables_touches (writeNum s.ovt.config n (some c)) s.ovt.timing s
  generalize old = x
  cases x with
  | some old => exact h1.mono.seq (reconfigured_touches _ _ _ _).mono
  | none =>
    have h2 : Touches [.ovens] s1 (setOvenRec n r s1) := setOvenRec_kept (Or.inr (Int.le_refl _))
    exact h1.mono.seq (h2.mono.seq (oprDerive_touches _ _).mono)

/-- What a LOAD of the oven configuration may touch. -/
abbrev ovenLoadAspects : List Aspect := .ovenTables :: .align :: .validity :: phaseAspects

theorem loadOvens_touches (a : LoadArgs) (s : State) : Touches ovenLoadAspects s (loadOvens a s).state := by
  refine loadMany_touches fun es _ => ?_
  extract_lets b s1
  have h1 : Touches (.ovenTables :: phaseAspects) s s1 := Touches.foldl _ (fun u e => writeOven_touches _ _ _) s
  exact h1.mono.seq ((markMoved_touches _ _).mono.seq ((evaluateAll_touches _).mono.seq (testOvens_touches _).mono))

theorem putOvenState_touches (n : Nat) (e : Phase × Nat) (s : State) : Touches phaseAspects s (putOvenState n e s) := by
  unfold putOvenState
  extract_lets stamp ph
  refine setPhase_touches _ (Or.inr ?_)
  show s.now - (e.2 : Int) * 60 ≤ s.now
  omega

theorem loadOvenState_touches (a : LoadArgs) (s : State) : Touches phaseAspects s (loadOvenState a s).state := by
  unfold loadOvenState
  extract_lets named
  split
  · exact .refl _ _
  · refine .replyIte (fun _ => .refl _ _) (fun _ => ?_)
    split
    · exact .refl _ _
    · refine .replyIte (fun _ => .refl _ _) (fun _ => ?_)
      exact Touches.foldl _ (fun u e => putOvenState_touches _ _ _) s

theorem onPermitTable_touches (t : Vector (Option PermitEntry) 8) (s : State) :
    Touches [.permitTable] s (s.onIlk fun k => { k with table := t }) := by
  intro a ha
  cases a <;> first
    | exact (ha (by decide)).elim
    | rfl
    | exact id
    | exact ⟨rfl, rfl⟩
    | exact ⟨rfl, rfl, rfl⟩
    | exact ⟨rfl, rfl, rfl, rfl⟩
    | exact List.Sublist.refl _
    | exact fun _ => ⟨rfl, rfl⟩
    | exact fun _ => rfl
    | exact fun _ h => ⟨Nat.le_refl _, h⟩
    | exact fun _ h => h

theorem loadPermits_touches (a : LoadArgs) (s : State) :
    Touches [.permitTable, .validity] s (loadPermits a s).state := by
  unfold loadPermits
  split
  · exact .refl _ _
  · extract_lets parsed s1
    refine .replyIte (fun _ => .refl _ _) (fun _ => ?_)
    have h1 : Touches [.permitTable] s s1 := onPermitTable_touches _ s
    exact h1.mono.seq (onValidity_touches _ _).mono

theorem onTrackTables_base (g : Vector Segment 32) (n : Nat) (c : Vector (Option CarConfig) 2) (t : TrackTiming)
    (s : State) : Touches [.trackTables, .trackLaw] s
      (s.onQtc fun q => { q with segments := g, count := n, config := c, timing := t }) := by
  intro a ha
  cases a <;> first
    | exact (ha (by decide)).elim
    | rfl
    | exact id
    | exact ⟨rfl, rfl⟩
    | exact ⟨rfl, rfl, rfl⟩
    | exact ⟨rfl, rfl, rfl, rfl⟩
    | exact List.Sublist.refl _
    | exact fun _ => ⟨rfl, rfl⟩
    | exact fun _ => rfl
    | exact fun _ h => ⟨Nat.le_refl _, h⟩
    | exact fun _ h => h

theorem onTrackTables_touches (c : Vector (Option CarConfig) 2) (t : TrackTiming) (s : State) :
    Touches [.trackTables] s (s.onQtc fun q => { q with config := c, timing := t }) :=
  Touches.keep (a := .trackLaw) (l := [.trackTables])
    (Touches.mono (onTrackTables_base s.qtc.segments s.qtc.count c t s)) id

theorem carReseated_reserved (c d : Nat) (s : State) :
    (carRec (carReseated c s) d).reserved = if c = d then [] else (carRec s d).reserved := by
  unfold carReseated
  extract_lets r
  rw [carRec_setCarRec]
  by_cases h : c = d
  · by_cases hd : 1 ≤ d ∧ d ≤ 2
    · rw [if_pos ⟨h, hd⟩, if_pos h]
    · rw [if_neg fun x => hd x.2, if_pos h, carRec_none s hd]
  · rw [if_neg fun x => h x.1, if_neg h]

/-- With both cars seated afresh nothing is reserved. -/
theorem bothReseated_law {s : State} (h : ∀ c p, (carRec s c).position = some p → p < 16777216) :
    TrackLaw (carReseated 2 (carReseated 1 s)) := by
  have hr : ∀ c, (carRec (carReseated 2 (carReseated 1 s)) c).reserved = [] := by
    intro c
    rw [carReseated_reserved, carReseated_reserved]
    by_cases h2 : 2 = c
    · rw [if_pos h2]
    · rw [if_neg h2]
      by_cases h1 : 1 = c
      · rw [if_pos h1]
      · rw [if_neg h1, carRec_none s (by omega)]
  have hp : ∀ (d : Nat) (u : State), (∀ c p, (carRec u c).position = some p → p < 16777216) →
      ∀ c p, (carRec (carReseated d u) c).position = some p → p < 16777216 := by
    intro d u hu c p hc
    unfold carReseated at hc
    extract_lets r at hc
    rw [carRec_setCarRec] at hc
    split at hc
    · exact hu d p hc
    · exact hu c p hc
  refine ⟨hp 2 _ (hp 1 _ h), fun k hk => ?_, fun c k hk => ?_⟩
  · rw [hr] at hk; exact absurd hk List.not_mem_nil
  · rw [hr] at hk; exact absurd hk List.not_mem_nil

theorem testEntered_touches (s : State) : Touches [.tower] s (testEntered s) := entered_touches _ s

/-- What a LOAD of the segment table may touch. -/
abbrev segmentAspects : List Aspect := [.trackTables, .cars, .places, .tower, .validity]

theorem loadSegments_touches (a : LoadArgs) (s : State) : Touches segmentAspects s (loadSegments a s).state := by
  unfold loadSegments
  refine loadMany_touches fun es _ => ?_
  extract_lets count s1 s2
  have h1 : Touches [.trackTables, .trackLaw] s s1 :=
    onTrackTables_base (writeFrom s.qtc.segments (a.first - 1) es) count s.qtc.config s.qtc.timing s
  have hc : Touches [.cars, .places] s1 (carReseated 2 (carReseated 1 s1)) :=
    (carReseated_touches _ _).seq (carReseated_touches _ _)
  have h2 : Touches [.trackTables, .cars, .places, .trackLaw] s (carReseated 2 (carReseated 1 s1)) := h1.mono.seq hc.mono
  have h3 : Touches [.trackTables, .cars, .places] s (carReseated 2 (carReseated 1 s1)) :=
    Touches.keep (a := .trackLaw) h2.mono fun h => bothReseated_law (s := s1) h.1
  exact h3.mono.seq ((testEntered_touches _).mono.seq (onValidity_touches _ _).mono)

theorem loadCars_touches (a : LoadArgs) (s : State) :
    Touches [.trackTables, .cars, .places, .validity] s (loadCars a s).state := by
  refine loadMany_touches fun es _ => ?_
  extract_lets s1
  have h1 : Touches [.trackTables, .cars, .places] s s1 := Touches.foldl _ (fun u e => by
    extract_lets c
    exact (onTrackTables_touches _ u.qtc.timing u).mono.seq (carReseated_touches _ _).mono) s
  exact h1.mono.seq (testCars_touches _).mono

/-! ## Live tables -/

/-- What a LOAD of the timing table may touch. -/
abbrev timingAspects : List Aspect := .ovenTables :: .align :: cutAspects

theorem loadTiming_touches (a : LoadArgs) (s : State) : Touches timingAspects s (loadTiming a s).state := by
  refine loadOne_touches fun t _ => ?_
  extract_lets b ovens s1 s2 s3 s4
  refine .replyIte (fun _ => .refl _ _) (fun _ => ?_)
  have h1 : Touches timingAspects s s1 := (onOvenTables_touches s.ovt.config t s).mono
  have h2 : Touches timingAspects s s2 := .ite (fun _ => h1)
    (fun _ => h1.seq (Touches.mono (l := phaseAspects) (Touches.foldl _ (fun s n => recomputeReady_touches n s) _)))
  have h3 : Touches timingAspects s s3 := .ite (fun _ => h2) (fun _ => h2.seq (oprDeriveAll_touches _ _).mono)
  have h4 : Touches timingAspects s s4 := h3.seq ((evaluateAll_touches _).mono.seq (ilkSettle_touches _ _).mono)
  exact .ite (c := alignChanged b s4 = true) (fun _ => h4.seq (schAlignChange_touches _).mono) (fun _ => h4)

theorem onRunnerTables_touches (e : Vector SeriesEntry 128) (n : Nat) (t : StepTiming) (s : State) :
    Touches [.runnerTables] s (s.onSch fun r => { r with series := e, length := n, timing := t }) := by
  intro a ha
  cases a <;> first
    | exact (ha (by decide)).elim
    | rfl
    | exact id
    | exact ⟨rfl, rfl⟩
    | exact ⟨rfl, rfl, rfl⟩
    | exact ⟨rfl, rfl, rfl, rfl⟩
    | exact List.Sublist.refl _
    | exact fun _ => ⟨rfl, rfl⟩
    | exact fun _ => rfl
    | exact fun _ h => ⟨Nat.le_refl _, h⟩
    | exact fun _ h => h

theorem loadSeries_touches (a : LoadArgs) (s : State) : Touches [.runnerTables] s (loadSeries a s).state := by
  unfold loadSeries
  split
  · exact .refl _ _
  · refine .replyIte (fun _ => .refl _ _) (fun _ => .replyIte (fun _ => .refl _ _) (fun _ => ?_))
    split
    · exact .refl _ _
    · refine .replyIte (fun _ => .refl _ _) (fun _ => ?_)
      extract_lets series length
      exact .replyIte (fun _ => .refl _ _) (fun _ => onRunnerTables_touches series length s.sch.timing s)

theorem loadStepTiming_touches (a : LoadArgs) (s : State) :
    Touches (.runnerTables :: .watch :: cutAspects) s (loadStepTiming a s).state := by
  unfold loadStepTiming
  refine loadOne_touches fun t _ => ?_
  extract_lets changed s1 s2
  have h1 : Touches [.runnerTables] s s1 := onRunnerTables_touches s.sch.series s.sch.length t s
  have h2 : Touches (.runnerTables :: .watch :: cutAspects) s s2 :=
    .ite (fun _ => h1.mono.seq (silenceRestart_touches _).mono) (fun _ => h1.mono)
  have hl : Touches cutAspects s2 (latenessTest (leadInstant s2)) :=
    Touches.seq (leadInstant_touches s2).mono (latenessTest_touches _).mono
  have h3 : Touches cutAspects s2 (settled (fun s => latenessTest (leadInstant s)) s2) := settled_touches hl
  rw [okay_state]
  generalize settled (fun s => latenessTest (leadInstant s)) s2 = s3 at h3 ⊢
  exact h2.seq (h3.mono.seq (dsmFreeBoth_touches s3).mono)

theorem loadTrackTiming_touches (a : LoadArgs) (s : State) :
    Touches [.trackTables, .cars, .counts, .transmit] s (loadTrackTiming a s).state := by
  refine loadOne_touches fun t _ => ?_
  exact (onTrackTables_touches s.qtc.config t s).mono.seq ((carHot_touches _ _).mono.seq (carHot_touches _ _).mono)

theorem onSealConfig_touches (c : SealConfig) (s : State) :
    Touches [.sealTable] s (s.onDsm fun d => { d with config := c }) := by
  intro a ha
  cases a <;> first
    | exact (ha (by decide)).elim
    | rfl
    | exact id
    | exact ⟨rfl, rfl⟩
    | exact ⟨rfl, rfl, rfl⟩
    | exact ⟨rfl, rfl, rfl, rfl⟩
    | exact List.Sublist.refl _
    | exact fun _ => ⟨rfl, rfl⟩
    | exact fun _ => rfl
    | exact fun _ h => ⟨Nat.le_refl _, h⟩
    | exact fun _ h => h

/-- What a LOAD of the seal configuration may touch. -/
abbrev sealLoadAspects : List Aspect := .sealTable :: .doors :: cutAspects

theorem loadSealConfig_touches (a : LoadArgs) (s : State) : Touches sealLoadAspects s (loadSealConfig a s).state := by
  refine loadOne_touches fun c _ => ?_
  extract_lets s1
  have h1 : Touches [.sealTable] s s1 := onSealConfig_touches c s
  have h2 : Touches sealLoadAspects s1 (dsmFreeBoth (allDoors.foldl (fun s d => sealOverdue d s) s1)) :=
    (sealAll_touches s1).mono.seq (dsmFreeBoth_touches _).mono
  rw [okay_state]
  exact h1.mono.seq h2

theorem onRegTables_base (m : Vector ModeEntry 5) (c : RegConfig) (s : State) :
    Touches [.regTables, .valveLaw] s (s.onOpr fun o => { o with modes := m, config := c }) := by
  intro a ha
  cases a <;> first
    | exact (ha (by decide)).elim
    | rfl
    | exact id
    | exact ⟨rfl, rfl⟩
    | exact ⟨rfl, rfl, rfl⟩
    | exact ⟨rfl, rfl, rfl, rfl⟩
    | exact List.Sublist.refl _
    | exact fun _ => ⟨rfl, rfl⟩
    | exact fun _ => rfl
    | exact fun _ h => ⟨Nat.le_refl _, h⟩
    | exact fun _ h => h

/-- The limits of a mode entry that R118 accepts do not cross. -/
theorem parseMode_limits {b : List Byte} {e : ModeEntry} (h : parseMode b = some e) : e.vmin ≤ e.vmax := by
  unfold parseMode at h
  split at h
  · next hc =>
    injection h with h
    subst h
    simp only [Bool.and_eq_true, decide_eq_true_eq] at hc
    exact hc.2
  · exact absurd h (by simp)

/-- R118 at the entries of a load that it accepts: no limits cross, in any mode. -/
theorem loadedModes_limits {s : State} {es : List ModeEntry} (first : Nat) (hl : ValveLaw s)
    (he : ∀ e ∈ es, e.vmin ≤ e.vmax) (m : PressureMode) :
    let t := s.onOpr fun o => { o with modes := writeFrom o.modes first es }
    (modeEntry t m).vmin ≤ (modeEntry t m).vmax :=
  readAt_writeFrom (P := fun e : ModeEntry => e.vmin ≤ e.vmax) (d := ⟨0, 0, 0, false⟩) es first s.opr.modes
    (fun j => by
      by_cases hj : j < 5
      · have : j = 0 ∨ j = 1 ∨ j = 2 ∨ j = 3 ∨ j = 4 := by omega
        rcases this with h | h | h | h | h <;> subst h
        · exact hl.1 .out
        · exact hl.1 .isolated
        · exact hl.1 .charge
        · exact hl.1 .coking
        · exact hl.1 .late
      · rw [readAt_ge _ _ _ hj] <;> exact Nat.le_refl _)
    he m.code

theorem loadModes_touches (a : LoadArgs) (s : State) : Touches [.regTables, .regs, .dirty] s (loadModes a s).state := by
  refine loadMany_touches fun es hes => ?_
  have h1 : Touches [.regTables, .valveLaw] s (s.onOpr fun o => { o with modes := writeFrom o.modes a.first es }) :=
    onRegTables_base (writeFrom s.opr.modes a.first es) s.opr.config s
  have h2 : Touches [.valveLaw, .regTables, .regs, .dirty] s
      (oprClampAll (s.onOpr fun o => { o with modes := writeFrom o.modes a.first es })) :=
    h1.mono.seq (oprClampAll_touches _).mono
  have h3 : ValveLaw s → ValveLaw (oprClampAll (s.onOpr fun o => { o with modes := writeFrom o.modes a.first es })) :=
    fun hl => oprClampAll_law (loadedModes_limits a.first hl (parseAll_forall (fun _ _ => parseMode_limits) hes))
  rw [okay_state]
  exact h2.keep h3

theorem onRegConfig_touches (c : RegConfig) (s : State) :
    Touches [.regTables] s (s.onOpr fun o => { o with config := c }) :=
  Touches.keep (a := .valveLaw) (l := [.regTables]) (Touches.mono (onRegTables_base s.opr.modes c s)) id

theorem loadRegulator_touches (a : LoadArgs) (s : State) :
    Touches (.regTables :: cutAspects) s (loadRegulator a s).state := by
  refine loadOne_touches fun c _ => ?_
  refine .replyIte (fun _ => .refl _ _) (fun _ => ?_)
  exact (onRegConfig_touches c s).mono.seq ((oprReweigh_touches _).mono.seq (ilkSettle_touches _ _).mono)

theorem onMask_touches (v : Vector Bool 24) (s : State) :
    Touches [.mask] s (s.onMgt fun m => { m with enabled := v }) := by
  intro a ha
  cases a <;> first
    | exact (ha (by decide)).elim
    | rfl
    | exact id
    | exact ⟨rfl, rfl⟩
    | exact ⟨rfl, rfl, rfl⟩
    | exact ⟨rfl, rfl, rfl, rfl⟩
    | exact List.Sublist.refl _
    | exact fun _ => ⟨rfl, rfl⟩
    | exact fun _ => rfl
    | exact fun _ h => ⟨Nat.le_refl _, h⟩
    | exact fun _ h => h

theorem loadMask_touches (a : LoadArgs) (s : State) : Touches [.mask] s (loadMask a s).state :=
  loadOne_touches fun v _ => onMask_touches v s

end Sys2Proof.Machine
end

