-- ==== Sys2Proof/Laws/Lines.lean ====
section
/-!
SUPPORT. What the arrivals on the two ports, the management bodies and the clock may touch: the last step before the
footprints of the commands.
-/

set_option Elab.async false
namespace Sys2Proof.Machine

open Sys2Proof

/-! ## Receivers -/

theorem onReceiver_touches (n : Nat) (b : Bool) (s : State) :
    Touches [.receiver, .controlDiscards] s (s.onCpi fun c => { c with discards := n, assembling := b }) := by
  intro a ha
  cases a <;> first
    | exact (ha (by decide)).elim
    | rfl
    | exact id
    | exact ⟨rfl, rfl⟩
    | exact ⟨rfl, rfl, rfl⟩
    | exact ⟨rfl, rfl, rfl, rfl⟩
    | exact List.Sublist.refl _
    | exact fun _ => ⟨rfl, rfl⟩
    | exact fun _ => rfl
    | exact fun _ h => ⟨Nat.le_refl _, h⟩
    | exact fun _ h => h

theorem onAssembling_touches (b : Bool) (s : State) :
    Touches [.receiver] s (s.onCpi fun c => { c with assembling := b }) := by
  intro a ha
  cases a <;> first
    | exact (ha (by decide)).elim
    | rfl
    | exact id
    | exact ⟨rfl, rfl⟩
    | exact ⟨rfl, rfl, rfl⟩
    | exact ⟨rfl, rfl, rfl, rfl⟩
    | exact List.Sublist.refl _
    | exact fun _ => ⟨rfl, rfl⟩
    | exact fun _ => rfl
    | exact fun _ h => ⟨Nat.le_refl _, h⟩
    | exact fun _ h => h

theorem onFieldDiscards_touches (n : Nat) (s : State) :
    Touches [.fieldDiscards] s (s.onFpi fun f => { f with discards := n }) := by
  intro a ha
  cases a <;> first
    | exact (ha (by decide)).elim
    | rfl
    | exact id
    | exact ⟨rfl, rfl⟩
    | exact ⟨rfl, rfl, rfl⟩
    | exact ⟨rfl, rfl, rfl, rfl⟩
    | exact List.Sublist.refl _
    | exact fun _ => ⟨rfl, rfl⟩
    | exact fun _ => rfl
    | exact fun _ h => ⟨Nat.le_refl _, h⟩
    | exact fun _ h => h

theorem controlDiscard_touches (b : Bool) (s : State) :
    Touches [.receiver, .controlDiscards] s (controlDiscard b s) := onReceiver_touches _ b s

theorem controlAccepted_touches (s : State) : Touches [.receiver, .watch] s (controlAccepted s) :=
  (onAssembling_touches false s).mono.seq (silenceRestart_touches _).mono

theorem fieldDiscard_touches (s : State) : Touches (.fieldDiscards :: endingAspects) s (fieldDiscard s) :=
  (onFieldDiscards_touches _ s).mono.seq (exchangeMissed_touches _).mono

/-! ## Management bodies -/

theorem managed_touches {l : List Aspect} (code : Nat) {f : State → Reply} (s : State)
    (h : ∀ s, Touches l s (f s).state) : Touches (l ++ [.sense, .transmit]) s (managed code f s) := by
  unfold managed
  have h1 : Touches [.sense] s (if code = ReqCode.sense then s else clearSense s) :=
    .ite (fun _ => .refl _ _) (fun _ => clearSense_touches s)
  exact (Touches.mono h1).right.seq ((h _).left.seq (Touches.mono (answer_touches code _)).right)

/-- A request whose own row may touch `l`. -/
theorem mgmtArrival_touches {l : List Aspect} (code size : Nat) {f : State → Reply} (s : State)
    (h : ∀ s, Touches l s (f s).state) : Touches (l ++ mgmtAspects) s (mgmtArrival code size f s) := by
  have hw {u v : State} (h : Touches (l ++ [.sense, .transmit]) u v) : Touches (l ++ mgmtAspects) u v := fun a ha =>
    h a fun hx => ha (by
      rcases List.mem_append.mp hx with hx | hx
      · exact List.mem_append_left _ hx
      · refine List.mem_append_right _ ?_
        revert hx
        cases a <;> decide)
  unfold mgmtArrival
  refine .ite (fun _ => (Touches.mono (controlDiscard_touches _ _)).right) (fun _ => ?_)
  exact (Touches.mono (controlAccepted_touches s)).right.seq (hw (managed_touches _ _ h))

theorem withArgs_touches {l : List Aspect} (n : Nat) (args : List Byte) {f : (Nat → Nat) → State → Reply} (s : State)
    (h : ∀ b s, Touches l s (f b s).state) : Touches l s (withArgs n args f s).state := by
  unfold withArgs
  exact .replyIte (fun _ => h _ _) (fun _ => .refl _ _)

theorem loadTable_touches (table : Nat) (a : LoadArgs) (s : State) :
    Touches anyMgmtAspects s (loadTable table a s).state := by
  unfold loadTable
  split
  · exact (loadDispatch_touches _ _).mono
  · exact (loadSelectors_touches _ _).mono
  · exact (loadLine_touches _ _).mono
  · exact (loadPoll_touches _ _).mono
  · exact (loadOvens_touches _ _).mono
  · exact (loadOvenState_touches _ _).mono
  · exact (loadPermits_touches _ _).mono
  · exact (loadSegments_touches _ _).mono
  · exact (loadCars_touches _ _).mono
  · exact (loadTiming_touches _ _).mono
  · exact (loadSeries_touches _ _).mono
  · exact (loadStepTiming_touches _ _).mono
  · exact (loadTrackTiming_touches _ _).mono
  · exact (loadSealConfig_touches _ _).mono
  · exact (loadModes_touches _ _).mono
  · exact (loadRegulator_touches _ _).mono
  · exact (loadMask_touches _ _).mono
  · exact .refl _ _

theorem readRequest_touches (t f c : Nat) (s : State) : Touches [] s (readRequest t f c s).state := by
  unfold readRequest
  split
  · exact .refl _ _
  · exact .refl _ _

theorem restartRequest_touches (s : State) : Touches warmAspects s (restartRequest s).state := by
  unfold restartRequest
  rw [okay_state]
  exact warmRestart_touches s

theorem fieldRestartRequest_touches (s : State) : Touches (.answers :: endingAspects) s (fieldRestartRequest s).state := by
  unfold fieldRestartRequest
  rw [okay_state]
  exact fieldRestart_touches s

theorem ovenService_touches (o d e : Nat) (s : State) : Touches cutAspects s (ovenService o d e s).state := by
  unfold ovenService
  split
  · exact ovenServiceOut_touches _ _
  · exact ovenServiceIn_touches _ _ _
  · exact .refl _ _

theorem perform_touches (code : Nat) (args : List Byte) (s : State) :
    Touches anyMgmtAspects s (perform code args s).state := by
  unfold perform
  refine .replyIte (fun _ => .replyIte (fun _ => .refl _ _) (fun _ => loadTable_touches _ _ _)) (fun _ => ?_)
  refine .replyIte (fun _ => withArgs_touches _ _ _ fun _ _ => (readRequest_touches _ _ _ _).mono) (fun _ => ?_)
  refine .replyIte (fun _ => withArgs_touches _ _ _ fun _ _ => (statusRequest_touches _).mono) (fun _ => ?_)
  refine .replyIte (fun _ => withArgs_touches _ _ _ fun _ _ => (enterService_touches _).mono) (fun _ => ?_)
  refine .replyIte (fun _ => withArgs_touches _ _ _ fun _ _ => (enterMaintenance_touches _).mono) (fun _ => ?_)
  refine .replyIte (fun _ => withArgs_touches _ _ _ fun _ s => (restartRequest_touches s).mono) (fun _ => ?_)
  refine .replyIte (fun _ => withArgs_touches _ _ _ fun _ s => (fieldRestartRequest_touches s).mono) (fun _ => ?_)
  refine .replyIte (fun _ => withArgs_touches _ _ _ fun _ _ => (setTime_touches _ _).mono) (fun _ => ?_)
  refine .replyIte (fun _ => withArgs_touches _ _ _ fun _ _ => (runRequest_touches _ _ _).mono) (fun _ => ?_)
  refine .replyIte (fun _ => withArgs_touches _ _ _ fun _ _ => (holdRequest_touches _).mono) (fun _ => ?_)
  refine .replyIte (fun _ => withArgs_touches _ _ _ fun _ _ => (resumeRequest_touches _).mono) (fun _ => ?_)
  refine .replyIte (fun _ => withArgs_touches _ _ _ fun _ _ => (abortRequest_touches _).mono) (fun _ => ?_)
  refine .replyIte (fun _ => withArgs_touches _ _ _ fun _ _ => (senseRequest_touches _).mono) (fun _ => ?_)
  refine .replyIte (fun _ => withArgs_touches _ _ _ fun _ _ => (verifyRequest_touches _ _ _).mono) (fun _ => ?_)
  refine .replyIte (fun _ => withArgs_touches _ _ _ fun _ _ => (setBlock_touches _ _).mono) (fun _ => ?_)
  refine .replyIte (fun _ => withArgs_touches _ _ _ fun _ _ => (ovenService_touches _ _ _ _).mono) (fun _ => ?_)
  refine .replyIte (fun _ => withArgs_touches _ _ _ fun _ _ => (releaseOven_touches _ _).mono) (fun _ => ?_)
  refine .replyIte (fun _ => withArgs_touches _ _ _ fun _ _ => (freezeOvens_touches _ _ _).mono) (fun _ => ?_)
  refine .replyIte (fun _ => withArgs_touches _ _ _ fun _ _ => (freezeOvens_touches _ _ _).mono) (fun _ => ?_)
  refine .replyIte (fun _ => withArgs_touches _ _ _ fun _ _ => (clearCarRequest_touches _ _).mono) (fun _ => ?_)
  exact .refl _ _

theorem mgmtBody_touches (body : List Byte) (s : State) : Touches anyMgmtAspects s (mgmtBody body s) := by
  unfold mgmtBody
  split
  · exact (controlDiscard_touches _ _).mono
  · exact (mgmtArrival_touches (l := anyMgmtAspects) _ _ s fun _ => perform_touches _ _ _).mono

/-! ## Arrivals -/

theorem controlArrival_touches (t : Telegram) (s : State) :
    Touches (telegramAspects (kindOf t)) s (controlArrival t s) := by
  unfold controlArrival
  have hd {m : List Aspect} (h : withinAspects [.receiver, .controlDiscards] m = true) :
      Touches m s (controlDiscard (restartsHunt t) s) := (controlDiscard_touches _ _).mono h
  have hc : Touches controlAspects s (classifyControl t (controlAccepted s)) :=
    (controlAccepted_touches s).mono.seq (classifyControl_touches _ _).mono
  unfold telegramAspects
  split
  · refine .ite (fun _ => hd (by decide)) (fun _ => ?_)
    exact .ite (fun _ => mgmtBody_touches _ _) (fun _ => hc.mono)
  · next hk =>
    refine .ite (fun _ => hd (by decide)) (fun _ => ?_)
    exact .ite (fun h => absurd h.1 hk) (fun _ => hc)

theorem takeReply_within {l : List Aspect} {p : Nat} {s : State} (item : PollItem) (t : Telegram)
    (hr : RequestWithin l p s.fpl.length) :
    Touches (l ++ (reportAspectsOf (kindOf t) ++ (.halts :: .answers :: endingAspects))) s (takeReply p item t s) := by
  unfold takeReply
  extract_lets s1
  have h1 : Touches (.halts :: .answers :: endingAspects) s s1 := (lineIdle_touches s).mono.seq (replyTaken_touches _ _ _ _).mono
  have hn : s1.fpl.length = s.fpl.length := (h1 .pollTables (by decide)).2.1
  have h2 : Touches (l ++ (reportAspectsOf (kindOf t) ++ (.halts :: .answers :: endingAspects))) s1 (classifyField p t s1) :=
    (classifyField_within t (hn ▸ hr)).tail fun a hx => by
      rcases List.mem_append.mp hx with hx | hx
      · exact List.mem_append_left _ hx
      · refine List.mem_append_right _ ?_
        revert hx
        cases a <;> decide
  refine Touches.after (Touches.mono (roundOn_touches _)).right.right ?_
  exact .ite (fun _ => h1.right.right.seq h2) (fun _ => h1.right.right)

theorem fieldArrival_touches (t : Telegram) (s : State) : Touches (replyAspects (kindOf t)) s (fieldArrival t s) := by
  unfold fieldArrival replyAspects
  refine .ite (fun _ => .refl _ _) (fun _ => ?_)
  refine .ite (fun _ => (Touches.mono (fieldDiscard_touches s)).right) (fun _ => ?_)
  split
  · next x hx =>
    refine .ite (fun _ => ?_) (fun _ => (Touches.mono (exchangeMissed_touches s)).right)
    have h : Touches (reportAspectsOf (kindOf t) ++ (.halts :: .answers :: endingAspects)) s
        (takeReply x.position x.item t s) :=
      Touches.keep (a := .holderLaw) (takeReply_within (l := [.holderLaw]) _ t (requestWithin_any _ _)) fun hl =>
        (takeReply_within (l := []) x.item t (requestWithin_used (hl.2.2.2.1 x hx))) .holderLaw (fun hm => by
          rcases List.mem_append.mp (List.mem_append.mp hm |>.resolve_left List.not_mem_nil) with hm | hm
          · exact holderLaw_report t hm
          · exact absurd hm (by decide)) hl
    exact h.tail fun a hx => by
      revert hx
      cases a <;> decide
  · exact .refl _ _

/-! ## Line events -/

theorem responseExpiry_touches (s : State) : Touches endingAspects s (responseExpiry s) :=
  .ite (fun _ => exchangeMissed_touches s) (fun _ => .refl _ _)

theorem gapExpiry_touches (port : Port) (s : State) :
    Touches (footprint (.gapWindowExpiry port)) s (gapExpiry port s) := by
  cases port with
  | control => exact .ite (fun _ => controlDiscard_touches _ _) (fun _ => .refl _ _)
  | field => exact .ite (fun _ => fieldDiscard_touches s) (fun _ => .refl _ _)

theorem framingDiscard_touches (port : Port) (line : List LineByte) (s : State) :
    Touches (footprint (.framingDiscard port line)) s (framingDiscard port line s) := by
  cases port with
  | control =>
    unfold framingDiscard
    dsimp only
    split
    · exact controlDiscard_touches _ _
    · exact .refl _ _
    · exact .refl _ _
    · exact .refl _ _
  | field =>
    refine .ite (fun _ => ?_) (fun _ => .refl _ _)
    split
    · exact fieldDiscard_touches s
    · exact .refl _ _
    · exact .refl _ _
    · exact .refl _ _

theorem preamble_touches (port : Port) (s : State) :
    Touches (footprint (.preambleStartsAssembly port)) s (preamble port s) := by
  cases port with
  | control => exact onAssembling_touches true s
  | field => exact .ite (fun _ => onLine_touches s.fpi.line true s) (fun _ => .refl _ _)

theorem transmitDone_touches (s : State) : Touches [.transmit] s (transmitDone s) := by
  intro a ha
  cases a <;> first
    | exact (ha (by decide)).elim
    | rfl
    | exact id
    | exact ⟨rfl, rfl⟩
    | exact ⟨rfl, rfl, rfl⟩
    | exact ⟨rfl, rfl, rfl, rfl⟩
    | exact List.Sublist.refl _
    | exact fun _ => ⟨rfl, rfl⟩
    | exact fun _ => rfl
    | exact fun _ h => ⟨Nat.le_refl _, h⟩
    | exact fun _ h => h
    | exact (startTransmitter_rest _).1
    | exact (startTransmitter_rest _).2
    | exact fun h => startTransmitter_law (c := { s.cpi with sending := none }) h.1 h.2

theorem pollSent_touches (s : State) : Touches [.line] s (pollSent s) :=
  .ite (fun _ => onLine_touches .awaiting false s) (fun _ => .refl _ _)

/-! ## The clock -/

theorem latenessOnce_touches (s : State) : Touches (.latenessMark :: cutAspects) s (latenessOnce s) :=
  .ite (fun _ => (latenessMark_touches false s).mono.seq (settled_touches (latenessTest_touches _).mono).mono)
    (fun _ => .refl _ _)

theorem drainActs_touches (c : Nat) (s : State) : Touches cutAspects s (drainActs c s) := by
  unfold drainActs
  refine .ite (fun h => ?_) (fun _ => .refl _ _)
  refine Touches.after (ilkSettle_touches _ _) (Touches.mono (l := [.cars])
    (setCarRec_rest rfl rfl rfl (neither_idle nofun fun hx => ?_)))
  unfold carDrainDue at h
  rw [hx] at h
  split at h
  · exact nomatch h
  · exact nomatch h

theorem overOvens_touches {l : List Aspect} {f : Nat → State → State} (h : ∀ n s, Touches l s (f n s)) (s : State) :
    Touches l s (allOvens.foldl (fun s n => f n s) s) :=
  Touches.foldl (f := fun s n => f n s) allOvens (fun s n => h n s) s

theorem takeDue_touches (s : State) :
    Touches (.latenessMark :: .watch :: .doors :: cutAspects) s (takeDue s) := by
  unfold takeDue
  extract_lets s1 s2 s3 s4 s5 s6 s7 s8
  have h1 : Touches cutAspects s s1 := overOvens_touches (l := cutAspects) (f := fun n => settled (readyActs n))
    (fun n s => settled_touches (readyActs_touches n s).mono) s
  have h2 : Touches cutAspects s1 s2 := (overOvens_touches holdEndActs_touches s1).mono
  have h3 : Touches cutAspects s2 s3 := (overOvens_touches lateActs_touches s2).mono
  have h4 : Touches cutAspects s3 s4 := expireAll_touches _ _
  have h5 : Touches (.latenessMark :: cutAspects) s4 s5 :=
    (settled_touches (stepTimeout_touches s4).mono).mono.seq
      ((settled_touches (leadInstant_touches (settled stepTimeout s4)).mono).mono.seq (latenessOnce_touches _))
  have h6 : Touches cutAspects s5 s6 := (drainActs_touches _ _).seq (drainActs_touches _ _)
  have h7 : Touches cutAspects s6 s7 := (carHot_touches _ _).mono.seq (carHot_touches _ _).mono
  have h8 : Touches (.doors :: cutAspects) s7 s8 := sealAll_touches s7
  have h9 : Touches (.watch :: cutAspects) s8 (silenceActs (taskLapses .cs (taskLapses .ps s8))) :=
    (taskLapses_touches _ _).mono.seq ((taskLapses_touches _ _).mono.seq (silenceActs_touches _).mono)
  exact h1.mono.seq (h2.mono.seq (h3.mono.seq (h4.mono.seq (h5.mono.seq (h6.mono.seq (h7.mono.seq (h8.mono.seq h9.mono)))))))

theorem onClock_touches {c : Int} {s : State} (h : s.ovt.clock ≤ c) :
    Touches [.clock] s (s.onOvt fun o => { o with clock := c }) := by
  intro a ha
  cases a <;> first
    | exact (ha (by decide)).elim
    | rfl
    | exact id
    | exact ⟨rfl, rfl⟩
    | exact ⟨rfl, rfl, rfl⟩
    | exact ⟨rfl, rfl, rfl, rfl⟩
    | exact List.Sublist.refl _
    | exact fun _ => ⟨rfl, rfl⟩
    | exact fun _ => rfl
    | exact fun _ h => ⟨Nat.le_refl _, h⟩
    | exact fun _ h => h
    | exact fun hs n h1 h2 => Int.le_trans (hs n h1 h2) h

theorem tick_touches (s : State) : Touches [.clock, .latenessMark] s (tick s) := by
  unfold tick
  extract_lets s1
  have h1 : Touches [.clock] s s1 :=
    onClock_touches (c := if s.ovt.clock < clockTop then s.ovt.clock + 1 else s.ovt.clock) (by split <;> omega)
  exact h1.mono.seq (latenessMark_touches true s1).mono

theorem advance_touches (s : State) : Touches (footprint .clockAdvance) s (advance s) :=
  (takeDue_touches s).mono.seq ((tick_touches _).mono.seq
    ((schAdvance_touches _).mono.seq (dsmFreeBoth_touches _).mono))

/-! ## Power-on -/

theorem powerOn_records (straps : BitVec 4) (s : State) :
    (∀ n, (ovenRec (powerOn straps s) n).stamp = 0) ∧ (∀ n, regRec (powerOn straps s) n = {}) ∧
      ∀ c, carRec (powerOn straps s) c = {} := by
  refine ⟨fun n => ?_, fun n => ?_, fun c => ?_⟩
  · have h : ovenRec (powerOn straps s) n = {} := by
      show readNum (Vector.replicate 128 ({} : OvenRecord)) n {} = _
      exact readNum_replicate _ _
    rw [h]
  · show readNum (Vector.replicate 128 ({} : RegRecord)) n {} = _
    exact readNum_replicate _ _
  · show readNum (Vector.replicate 2 ({} : CarRecord)) c {} = _
    exact readNum_replicate _ _

theorem powerOn_touches (straps : BitVec 4) (s : State) :
    Touches powerAspects s (powerOn straps s) := by
  obtain ⟨h1, h2, h3⟩ := powerOn_records straps s
  intro a ha
  cases a <;> first
    | exact (ha (by decide)).elim
    | rfl
    | exact List.nil_sublist _
    | skip
  · exact fun _ n _ _ => by rw [h1 n]; exact Int.le_refl _
  · have hm : ∀ m, modeEntry (powerOn straps s) m = modeEntry State.reset m := fun _ => rfl
    exact fun _ => ⟨fun m => by rw [hm]; cases m <;> decide, fun n _ _ => by unfold ValveFits; rw [h2 n, hm]; decide⟩
  · exact fun _ => ⟨fun _ => rfl, Nat.zero_le _, List.Pairwise.nil⟩
  · exact fun _ => ⟨Nat.zero_le _, List.Pairwise.nil⟩
  · exact fun _ => ⟨rfl, fun h => (Bool.false_ne_true h).elim⟩
  · exact fun _ => ⟨fun c p hp => by rw [h3 c] at hp; exact absurd hp (by simp),
      fun k hk => by rw [h3 1] at hk; exact absurd hk List.not_mem_nil,
      fun c k hk => by rw [h3 c] at hk; exact absurd hk List.not_mem_nil⟩
  · exact fun _ => ⟨List.nodup_nil, List.nodup_nil, fun _ _ => List.not_mem_nil,
      fun c _ => ⟨nofun, fun h => by rw [h3 c] at h; exact nomatch h⟩⟩
  · intro _ i
    show readAt (Vector.replicate 24 0) i 0 ≤ 255
    rw [readAt_replicate]
    exact Nat.zero_le _
  · have hd : ∀ d, doorRec (powerOn straps s) d = {} := fun d => by
      unfold doorRec doorPair
      have h : readNum (powerOn straps s).dsm.doors d.oven {} = ({} : DoorPair) :=
        readNum_replicate (n := 128) d.oven ({} : DoorPair)
      rw [h]
      cases d.side <;> rfl
    refine fun _ => ⟨Nat.zero_le _, List.nodup_nil, List.Pairwise.nil, fun d h => absurd h List.not_mem_nil,
      fun d _ => ?_, fun d _ => ?_, fun _ d _ h => ?_⟩
    · rw [hd]; exact ⟨nofun, fun h => absurd h List.not_mem_nil⟩
    · rw [hd]; exact ⟨nofun, nofun⟩
    · rw [hd] at h; exact nomatch h
  · exact fun _ => ⟨fun _ => rfl, Nat.zero_le _, fun p q h => absurd h (Nat.not_lt_zero _),
      fun x h => absurd (show (none : Option Exchange) = some x from h) nofun, fun e h => absurd h List.not_mem_nil⟩

end Sys2Proof.Machine
end

