-- ==== Sys2Proof/Laws/Frames.lean ====
section
/-!
SUPPORT. What an untouched aspect says of the state, one lemma a piece of state.
-/

set_option Elab.async false
namespace Sys2Proof.Machine

open Sys2Proof

variable {l : List Aspect} {s t : State}

theorem Touches.ovens_kept (h : Touches l s t) (ha : Aspect.ovens ∉ l := by decide) :
    t.ovt.ovens = s.ovt.ovens := h .ovens ha

theorem Touches.align_kept (h : Touches l s t) (ha : Aspect.align ∉ l := by decide) :
    t.ovt.align = s.ovt.align := h .align ha

theorem Touches.clock_kept (h : Touches l s t) (ha : Aspect.clock ∉ l := by decide) :
    t.ovt.clock = s.ovt.clock := h .clock ha

theorem Touches.wall_kept (h : Touches l s t) (ha : Aspect.wall ∉ l := by decide) :
    t.ovt.wallOffset = s.ovt.wallOffset := h .wall ha

theorem Touches.ovenTables_kept (h : Touches l s t) (ha : Aspect.ovenTables ∉ l := by decide) :
    t.ovt.config = s.ovt.config ∧ t.ovt.timing = s.ovt.timing := h .ovenTables ha

theorem Touches.permits_kept (h : Touches l s t) (ha : Aspect.permits ∉ l := by decide) :
    t.ilk.permits = s.ilk.permits := h .permits ha

theorem Touches.permitTable_kept (h : Touches l s t) (ha : Aspect.permitTable ∉ l := by decide) :
    t.ilk.table = s.ilk.table := h .permitTable ha

theorem Touches.sense_kept (h : Touches l s t) (ha : Aspect.sense ∉ l := by decide) :
    t.sch.sense = s.sch.sense := h .sense ha

theorem Touches.watch_kept (h : Touches l s t) (ha : Aspect.watch ∉ l := by decide) :
    t.sch.silenceStart = s.sch.silenceStart ∧ t.sch.silenceRaised = s.sch.silenceRaised := h .watch ha

theorem Touches.latenessMark_kept (h : Touches l s t) (ha : Aspect.latenessMark ∉ l := by decide) :
    t.sch.latenessDue = s.sch.latenessDue := h .latenessMark ha

theorem Touches.runnerTables_kept (h : Touches l s t) (ha : Aspect.runnerTables ∉ l := by decide) :
    t.sch.series = s.sch.series ∧ t.sch.length = s.sch.length ∧ t.sch.timing = s.sch.timing ∧ t.sch.block = s.sch.block := h .runnerTables ha

theorem Touches.cars_kept (h : Touches l s t) (ha : Aspect.cars ∉ l := by decide) :
    t.qtc.cars = s.qtc.cars := h .cars ha

theorem Touches.tower_kept (h : Touches l s t) (ha : Aspect.tower ∉ l := by decide) :
    t.qtc.holder = s.qtc.holder ∧ t.qtc.entered = s.qtc.entered ∧ t.qtc.queue = s.qtc.queue := h .tower ha

theorem Touches.idle_kept (h : Touches l s t) (ha : Aspect.idle ∉ l := by decide) :
    t.qtc.idle = s.qtc.idle ∧ t.qtc.carRequest = s.qtc.carRequest := h .idle ha

theorem Touches.trackTables_kept (h : Touches l s t) (ha : Aspect.trackTables ∉ l := by decide) :
    t.qtc.segments = s.qtc.segments ∧ t.qtc.count = s.qtc.count ∧ t.qtc.config = s.qtc.config ∧
      t.qtc.timing = s.qtc.timing := h .trackTables ha

theorem Touches.doors_kept (h : Touches l s t) (ha : Aspect.doors ∉ l := by decide) :
    t.dsm.doors = s.dsm.doors := h .doors ha

theorem Touches.leaks_kept (h : Touches l s t) (ha : Aspect.leaks ∉ l := by decide) :
    t.dsm.leaks = s.dsm.leaks := h .leaks ha

theorem Touches.tasks_kept (h : Touches l s t) (ha : Aspect.tasks ∉ l := by decide) :
    t.dsm.taskPm = s.dsm.taskPm ∧ t.dsm.taskCgm = s.dsm.taskCgm := h .tasks ha

theorem Touches.sealTable_kept (h : Touches l s t) (ha : Aspect.sealTable ∉ l := by decide) :
    t.dsm.config = s.dsm.config := h .sealTable ha

theorem Touches.regs_kept (h : Touches l s t) (ha : Aspect.regs ∉ l := by decide) :
    t.opr.records = s.opr.records := h .regs ha

theorem Touches.dirty_kept (h : Touches l s t) (ha : Aspect.dirty ∉ l := by decide) :
    t.opr.dirty = s.opr.dirty := h .dirty ha

theorem Touches.regTables_kept (h : Touches l s t) (ha : Aspect.regTables ∉ l := by decide) :
    t.opr.modes = s.opr.modes ∧ t.opr.config = s.opr.config := h .regTables ha

theorem Touches.transmit_kept (h : Touches l s t) (ha : Aspect.transmit ∉ l := by decide) :
    t.cpi.queue = s.cpi.queue ∧ t.cpi.sending = s.cpi.sending := h .transmit ha

theorem Touches.receiver_kept (h : Touches l s t) (ha : Aspect.receiver ∉ l := by decide) :
    t.cpi.assembling = s.cpi.assembling := h .receiver ha

theorem Touches.controlDiscards_kept (h : Touches l s t) (ha : Aspect.controlDiscards ∉ l := by decide) :
    t.cpi.discards = s.cpi.discards := h .controlDiscards ha

theorem Touches.line_kept (h : Touches l s t) (ha : Aspect.line ∉ l := by decide) :
    t.fpi.line = s.fpi.line ∧ t.fpi.assembling = s.fpi.assembling := h .line ha

theorem Touches.fieldDiscards_kept (h : Touches l s t) (ha : Aspect.fieldDiscards ∉ l := by decide) :
    t.fpi.discards = s.fpi.discards := h .fieldDiscards ha

theorem Touches.classifier_kept (h : Touches l s t) (ha : Aspect.classifier ∉ l := by decide) :
    t.cls = s.cls := h .classifier ha

theorem Touches.stations_kept (h : Touches l s t) (ha : Aspect.stations ∉ l := by decide) :
    t.fpl.stations = s.fpl.stations := h .stations ha

theorem Touches.outbound_kept (h : Touches l s t) (ha : Aspect.outbound ∉ l := by decide) :
    t.fpl.outbound = s.fpl.outbound := h .outbound ha

theorem Touches.rounds_kept (h : Touches l s t) (ha : Aspect.rounds ∉ l := by decide) :
    t.fpl.roundNumber = s.fpl.roundNumber ∧ t.fpl.round = s.fpl.round ∧ t.fpl.owed = s.fpl.owed ∧
      t.fpl.timerPeriod = s.fpl.timerPeriod := h .rounds ha

theorem Touches.exchange_kept (h : Touches l s t) (ha : Aspect.exchange ∉ l := by decide) :
    t.fpl.exchange = s.fpl.exchange := h .exchange ha

theorem Touches.pollTables_kept (h : Touches l s t) (ha : Aspect.pollTables ∉ l := by decide) :
    t.fpl.list = s.fpl.list ∧ t.fpl.length = s.fpl.length ∧ t.fpl.settings = s.fpl.settings := h .pollTables ha

theorem Touches.mode_kept (h : Touches l s t) (ha : Aspect.mode ∉ l := by decide) :
    t.mgt.mode = s.mgt.mode := h .mode ha

theorem Touches.validity_kept (h : Touches l s t) (ha : Aspect.validity ∉ l := by decide) :
    t.mgt.validity = s.mgt.validity := h .validity ha

theorem Touches.counts_kept (h : Touches l s t) (ha : Aspect.counts ∉ l := by decide) :
    t.mgt.counts = s.mgt.counts := h .counts ha

theorem Touches.mask_kept (h : Touches l s t) (ha : Aspect.mask ∉ l := by decide) :
    t.mgt.enabled = s.mgt.enabled := h .mask ha

theorem Touches.address_kept (h : Touches l s t) (ha : Aspect.address ∉ l := by decide) :
    t.mgt.address = s.mgt.address := h .address ha

theorem Touches.halts_kept (h : Touches l s t) (ha : Aspect.halts ∉ l := by decide) :
    ∀ p, haltWaits s p → haltWaits t p := h .halts ha

theorem Touches.grants_kept (h : Touches l s t) (ha : Aspect.grants ∉ l := by decide) :
    t.ilk.permits.Sublist s.ilk.permits := h .grants ha

theorem Touches.answers_kept (h : Touches l s t) (ha : Aspect.answers ∉ l := by decide) :
    ∀ p, answerAt t p = answerAt s p := h .answers ha

theorem Touches.places_kept (h : Touches l s t) (ha : Aspect.places ∉ l := by decide) :
    ∀ c, (carRec t c).position = (carRec s c).position ∧ (carRec t c).occupied = (carRec s c).occupied := h .places ha

theorem Touches.tally_kept (h : Touches l s t) (ha : Aspect.tally ∉ l := by decide) :
    ∀ i, countAt s i ≤ 255 → countAt s i ≤ countAt t i ∧ countAt t i ≤ 255 := h .tally ha

theorem Touches.ovenRec_kept (h : Touches l s t) (n : Nat) (ha : Aspect.ovens ∉ l := by decide) :
    ovenRec t n = ovenRec s n := by
  unfold ovenRec
  rw [h.ovens_kept ha]

theorem Touches.regRec_kept (h : Touches l s t) (n : Nat) (ha : Aspect.regs ∉ l := by decide) :
    regRec t n = regRec s n := by
  unfold regRec
  rw [h.regs_kept ha]

theorem Touches.carRec_kept (h : Touches l s t) (n : Nat) (ha : Aspect.cars ∉ l := by decide) :
    carRec t n = carRec s n := by
  unfold carRec
  rw [h.cars_kept ha]

theorem Touches.doorRec_kept (h : Touches l s t) (d : Door) (ha : Aspect.doors ∉ l := by decide) :
    doorRec t d = doorRec s d := by
  unfold doorRec doorPair
  rw [h.doors_kept ha]

theorem Touches.station_kept (h : Touches l s t) (p : Nat) (ha : Aspect.stations ∉ l := by decide) :
    station t p = station s p := by
  unfold station
  rw [h.stations_kept ha]

theorem Touches.outbound_record_kept (h : Touches l s t) (p : Nat) (ha : Aspect.outbound ∉ l := by decide) :
    Machine.outbound t p = Machine.outbound s p := by
  unfold Machine.outbound
  rw [h.outbound_kept ha]

theorem Touches.pollEntry_kept (h : Touches l s t) (p : Nat) (ha : Aspect.pollTables ∉ l := by decide) :
    pollEntry t p = pollEntry s p := by
  unfold pollEntry
  rw [(h.pollTables_kept ha).1]

theorem Touches.taskOf_kept (h : Touches l s t) (side : DoorSide) (ha : Aspect.tasks ∉ l := by decide) :
    taskOf t side = taskOf s side := by
  cases side
  · exact (h.tasks_kept ha).1
  · exact (h.tasks_kept ha).2

theorem Touches.now_kept (h : Touches l s t) (ha : Aspect.clock ∉ l := by decide) : t.now = s.now := h .clock ha

theorem Touches.runRecord_kept (h : Touches l s t) (ha : Aspect.run ∉ l := by decide) : t.run = s.run := h .run ha

/-- A summary count that stood at 255 or below has not fallen. -/
theorem Touches.eventCount_le (h : Touches l s t) (k : EventKind) (hc : eventCount s k ≤ 255)
    (ha : Aspect.tally ∉ l := by decide) : eventCount s k ≤ eventCount t k ∧ eventCount t k ≤ 255 :=
  h.tally_kept ha _ hc

/-- An event raised is counted (R180). -/
theorem eventCount_raise (k : EventKind) (o a : Nat) (d : Int) (s : State) :
    eventCount (raise k o a d s) k = min 255 (eventCount s k + 1) := by
  have h : (raise k o a d s).mgt.counts = writeAt s.mgt.counts (k.code - 1) (min 255 (eventCount s k + 1)) := by
    unfold raise
    dsimp only
    split <;> rfl
  unfold eventCount countAt
  rw [h]
  have hk : k.code - 1 < 24 := by cases k <;> decide
  exact readAt_writeAt_self _ _ _ _ hk

/-- An event raised has been counted, whatever follows that lets no count fall. -/
theorem Counted.of_raise {k : EventKind} {o a : Nat} {d : Int} {u : State} (h : Touches l (raise k o a d s) u)
    (ha : Aspect.tally ∉ l := by decide) : Counted k s u := by
  intro hc
  rw [← eventCount_raise k o a d s]
  exact (h.eventCount_le k (by rw [eventCount_raise]; omega) ha).1

/-- What came before and counted nothing does not matter. -/
theorem Counted.after {k : EventKind} {u : State} (hu : Counted k t u) (h : Touches l s t)
    (ha : Aspect.counts ∉ l := by decide) : Counted k s u := by
  unfold Counted eventCount countAt at *
  rw [h.counts_kept ha] at hu
  exact hu

end Sys2Proof.Machine
end

