-- ==== Sys2Proof/Laws/Results.lean ====
section
/-!
SUPPORT. What the shared operations bring about: the values they leave, beside what they may touch.
-/

set_option Elab.async false
namespace Sys2Proof.Machine

open Sys2Proof

/-! ## The regulator -/

/-- The mode of Table 6-2 reads the oven, its configuration and the timing, the clock, its doors and the permits. -/
theorem derivedMode_kept {l : List Aspect} {s t : State} (h : Touches l s t) (n : Nat)
    (h1 : Aspect.ovens ∉ l := by decide) (h2 : Aspect.ovenTables ∉ l := by decide) (h3 : Aspect.clock ∉ l := by decide)
    (h4 : Aspect.doors ∉ l := by decide) (h5 : Aspect.permits ∉ l := by decide) : derivedMode t n = derivedMode s n := by
  have e1 := h.ovens_kept h1
  have e2 := h.ovenTables_kept h2
  have e3 := h.clock_kept h3
  have e4 := h.doors_kept h4
  have e5 := h.permits_kept h5
  unfold derivedMode bothDoorsOn doorPair doorOffActive reached chargeHoldEnd lateInstant targetOf configured ovenConfig ovenRec State.now
  simp only [e1, e2.1, e2.2, e3, e4, e5]

/-- After a derivation an oven's record holds the mode of Table 6-2 (R119). -/
theorem regRec_oprDerive {s : State} {n : Nat} (h1 : 1 ≤ n) (h2 : n ≤ 128) :
    (regRec (oprDerive n s) n).mode = derivedMode s n := by
  unfold oprDerive
  extract_lets m
  split
  · next h => exact h.symm
  · rw [regRec_putReg, if_pos ⟨rfl, h1, h2⟩, inMode_mode]

/-! ## Phases -/

/-- A phase change writes the oven's phase and stamp, and no other oven's record. -/
theorem ovenRec_setPhase (n m : Nat) (ph : Phase) (stamp : Int) (s : State) :
    ovenRec (setPhase n ph stamp s) m =
      if n = m ∧ 1 ≤ m ∧ m ≤ 128 then { ovenRec s m with phase := ph, stamp := stamp } else ovenRec s m := by
  unfold setPhase
  dsimp only
  by_cases h : ((ovenRec s n).phase = ph && (ovenRec s n).stamp = stamp) = true
  · rw [if_pos h]
    rw [Bool.and_eq_true] at h
    split
    · next hn =>
      obtain ⟨rfl, _⟩ := hn
      have h1 : (ovenRec s n).phase = ph := by simpa using h.1
      have h2 : (ovenRec s n).stamp = stamp := by simpa using h.2
      subst h1 h2
      rfl
    · rfl
  · rw [if_neg h, (schPhaseChange_touches n _).ovenRec_kept m, (oprDerive_touches n _).ovenRec_kept m,
      ovenRec_setOvenRec]
    split
    · next hn =>
      obtain ⟨rfl, _⟩ := hn
      rfl
    · rfl

/-- A phase change of an oven derives its pressure mode (R18). -/
theorem regRec_setPhase {n : Nat} {ph : Phase} {stamp : Int} {s : State} (h1 : 1 ≤ n) (h2 : n ≤ 128)
    (hc : ph ≠ (ovenRec s n).phase ∨ stamp ≠ (ovenRec s n).stamp) :
    (regRec (setPhase n ph stamp s) n).mode = derivedMode (setPhase n ph stamp s) n := by
  unfold setPhase
  extract_lets r
  split
  · next h =>
    rw [Bool.and_eq_true] at h
    have e1 : (ovenRec s n).phase = ph := by simpa using h.1
    have e2 : (ovenRec s n).stamp = stamp := by simpa using h.2
    rcases hc with hc | hc
    · exact absurd e1.symm hc
    · exact absurd e2.symm hc
  · have k := schPhaseChange_touches n (oprDerive n (setOvenRec n { r with phase := ph, stamp := stamp } s))
    have kd := oprDerive_touches n (setOvenRec n { r with phase := ph, stamp := stamp } s)
    rw [k.regRec_kept n, regRec_oprDerive h1 h2, derivedMode_kept k n, derivedMode_kept kd n]

/-! ## The run -/

/-- A stop leaves the run STOPPED, its counts, cursor and step kept, and the sense record written (R65). -/
theorem stopRun_run (code : StopCode) (a d : Nat) (s : State) :
    (stopRun code a d s).run = { s.run with state := .stopped, holdPending := false } ∧
      (stopRun code a d s).sch.sense = ⟨code, currentOven s, s.run.cursor, s.run.step, d⟩ := by
  unfold stopRun
  extract_lets step s1 s2 s3 s4 s5
  have h2 : s2.run = { s.run with state := .stopped, holdPending := false } ∧
      s2.sch.sense = ⟨code, currentOven s, s.run.cursor, s.run.step, d⟩ := ⟨rfl, rfl⟩
  have t3 : Touches [.counts, .transmit] s2 s3 :=
    .ite (fun _ => hardPushOfRun_touches _) (fun _ => .refl _ _)
  have t4 : Touches [.outbound, .tasks] s3 s4 := .ite (fun _ => haltMoves_touches _) (fun _ => .refl _ _)
  have t5 : Touches [.cars, .idle] s4 s5 := returnRunCar_touches s4
  have t6 := raise_touches .runStopped (currentOven s5) a (code.code * 256 + s5.run.progress : Nat) s5
  have t : Touches [.counts, .transmit, .outbound, .tasks, .cars, .idle] s2 _ :=
    t3.mono.seq (t4.mono.seq (t5.mono.seq t6.mono))
  exact ⟨(t.runRecord_kept).trans h2.1, (t.sense_kept).trans h2.2⟩

/-- A stop counts RUN_STOPPED (R65). -/
theorem stopRun_counted (code : StopCode) (a d : Nat) (s : State) : Counted .runStopped s (stopRun code a d s) := by
  unfold stopRun
  extract_lets step s1 s2 s3 s4 s5
  have h1 : Touches [.run, .stretch, .runLaw, .idle, .sense] s s2 :=
    (onRun_touches _ _).mono.seq ((withdrawCar_touches _).mono.seq
      (onSense_touches (fun r => ⟨code, currentOven s1, r.cursor, step, d⟩) s1).mono)
  have t3 : Touches [.counts, .transmit] s2 s3 :=
    .ite (fun _ => hardPushOfRun_touches _) (fun _ => .refl _ _)
  have t4 : Touches [.outbound, .tasks] s3 s4 := .ite (fun _ => haltMoves_touches _) (fun _ => .refl _ _)
  have t5 : Touches [.cars, .idle] s4 s5 := returnRunCar_touches s4
  have t : Touches [.counts, .transmit, .outbound, .tasks, .cars, .idle] s2 s5 := t3.mono.seq (t4.mono.seq t5.mono)
  intro hc
  have e2 : eventCount s2 .runStopped = eventCount s .runStopped := by
    unfold eventCount countAt
    rw [h1.counts_kept]
  have k := t.eventCount_le .runStopped (by rw [e2]; exact hc)
  rw [eventCount_raise, ← e2]
  omega

end Sys2Proof.Machine
end

