-- ==== Sys2Proof/Laws/Telegrams.lean ====
section
/-!
SUPPORT. Telegrams as the commands spell them: their kinds, their framing, and the bytes that frame back to them.
-/

set_option Elab.async false
namespace Sys2Proof.Machine

open Sys2Proof

theorem kindOf_arrived (k : Nat) (hk : k < 128) (h : Header) (b : List Byte) : kindOf (arrived h k b) = k := by
  show (kindByteOf k h.marked).toNat % 128 = k
  unfold kindByteOf
  rw [BitVec.toNat_ofNat]
  cases h.marked <;> simp <;> omega

theorem framed_arrived (h : Header) (k : Nat) (b : List Byte) (hk : k < 128) (hb : b.length ≤ 48)
    (hl : lengthFits k b.length = true) : framed (arrived h k b) = true := by
  unfold framed; rw [kindOf_arrived k hk]; show (decide (b.length ≤ 48) && lengthFits k b.length) =
    true; simp [hb, hl]

theorem tailBytes_length (t : Telegram) : (tailBytes t).length = 6 + t.body.length := by
  unfold tailBytes coveredBytes
  simp [toBytes_length]; omega

theorem tailBytes_third (t : Telegram) (hb : t.body.length ≤ 48) : ((tailBytes t).getD 3 0).toNat =
    t.body.length := by
  unfold tailBytes coveredBytes
  simp; omega

theorem wholeTelegram_tailBytes (t : Telegram) (hf : framed t = true) : wholeTelegram (tailBytes t) = .ok t := by
  unfold framed at hf
  rw [Bool.and_eq_true] at hf
  unfold wholeTelegram
  have hl := tailBytes_length t
  extract_lets n u
  have hn : n = (coveredBytes t).length := by
    show (tailBytes t).length - 2 = _
    rw [hl]; unfold coveredBytes; simp; omega
  have htake : (tailBytes t).take n = coveredBytes t := by
    rw [hn]; unfold tailBytes; simp
  have hdrop : (tailBytes t).drop n = toBytes 2 (crc (coveredBytes t)).toNat := by
    rw [hn]; unfold tailBytes; simp
  have hu : u = t := by
    show (⟨_, _, _, ((tailBytes t).take n).drop 4⟩ : Telegram) = t
    rw [htake]
    rfl
  rw [htake, hdrop, hu]
  simp [hf.2]

theorem reportedPosition_bytes (pos : BitVec 24) (m st : Byte) : reportedPosition
    (toBytes 3 pos.toNat ++ [m, st]) = pos.toNat := by
  unfold reportedPosition
  have : (toBytes 3 pos.toNat ++ [m, st]).take 3 = toBytes 3 pos.toNat := by
    rw [List.take_append_of_le_length (by rw [toBytes_length] <;> exact Nat.le_refl _)]
    exact List.take_of_length_le (by rw [toBytes_length] <;> exact Nat.le_refl _)
  rw [this, ofBytes_toBytes]
  have := pos.isLt
  omega

theorem reportedMoving_bytes (pos : BitVec 24) (m st : Byte) : reportedMoving (toBytes 3 pos.toNat ++ [m, st]) =
    (m != 0#8) := by
  unfold reportedMoving
  show decide (m ≠ 0) = _
  by_cases h : m = 0#8 <;> simp [h]

theorem reportedStatus_bytes (pos : BitVec 24) (m st : Byte) : reportedStatus (toBytes 3 pos.toNat ++ [m, st]) =
    st.toNat := rfl

end Sys2Proof.Machine
end

