-- ==== Sys2Proof/Laws/Deadlines.lean ====
section
/-!
SUPPORT. What the instants that fall due bring about: the clock, expiries, and the first steps of a run.
-/

set_option Elab.async false
namespace Sys2Proof.Machine

open Sys2Proof

theorem replyAspects_cases (k : Nat) : ∃ l : List Aspect,
    (l = [.places] ∨ l = [.grants, .answers] ∨ l = [.doors, .leaks] ∨ l = []) ∧ replyAspects k =
      l ++ (.halts :: .answers :: .fieldDiscards :: endingAspects) := by
  refine ⟨reportAspectsOf k, ?_, rfl⟩
  unfold reportAspectsOf
  repeat' split
  all_goals simp

/-- What a reply of some kind may touch. -/
abbrev anyReplyAspects : List Aspect := [.places, .grants, .answers, .doors, .leaks] ++
    (.halts :: .answers :: .fieldDiscards :: endingAspects)

theorem not_mem_replyAspects (a : Aspect) (h : anyReplyAspects.contains a = false) (k : Nat) :
    a ∉ replyAspects k := by
  have h : a ∉ anyReplyAspects := by simpa using h
  obtain ⟨l, hl, e⟩ := replyAspects_cases k
  rw [e]
  intro hk
  apply h
  unfold anyReplyAspects
  rw [List.mem_append] at hk ⊢
  rcases hk with hk | hk
  · left
    rcases hl with hl|hl|hl|hl <;> subst hl <;> simp at hk ⊢ <;> first | (rcases hk with hk | hk <;> simp [hk]) |
      simp [hk]
  · exact .inr hk

theorem not_mem_telegramAspects (a : Aspect) (h : (anyMgmtAspects ++ controlAspects).contains a = false)
    (k : Nat) : a ∉ telegramAspects k := by
  have h : a ∉ (anyMgmtAspects ++ controlAspects : List Aspect) := by simpa using h
  intro hk
  apply h
  unfold telegramAspects at hk
  rw [List.mem_append]
  split at hk
  · exact .inl hk
  · exact .inr hk

theorem tick_clock (u : State) : (tick u).ovt.clock =
    (if u.ovt.clock < clockTop then u.ovt.clock + 1 else u.ovt.clock) := rfl

theorem tick_then_clock {u s : State} (h1 : u.ovt.clock = s.ovt.clock) :
    (dsmFreeBoth (schAdvance (tick u))).ovt.clock =
      (if s.ovt.clock < clockTop then s.ovt.clock + 1 else s.ovt.clock) := by
  have h2 := Touches.clock_kept (schAdvance_touches (tick u)) (by decide)
  have h3 := Touches.clock_kept (dsmFreeBoth_touches (schAdvance (tick u))) (by decide)
  have h4 := tick_clock u
  rw [h1] at h4
  exact h3.trans (h2.trans h4)

theorem advance_clock (s : State) : (advance s).ovt.clock =
    (if s.ovt.clock < clockTop then s.ovt.clock + 1 else s.ovt.clock) := by
  have h1 := Touches.clock_kept (takeDue_touches s) (by decide)
  unfold advance
  exact tick_then_clock h1

theorem reached_of_le {s : State} {i : Int} (h : i ≤ s.now) : reached s i = true := by unfold reached; simpa using h

theorem not_reached_of_lt {s : State} {i : Int} (h : s.now < i) : reached s i = false := by
  unfold reached; simp; omega

theorem derivedMode_coking {s : State} {n : Nat} (hc : configured s n = true)
    (hp : (ovenRec s n).phase = .coking ∨ (ovenRec s n).phase = .ready) :
   derivedMode s n = if doorOffActive s n then .isolated else if s.now < chargeHoldEnd s n then .charge else if
     lateInstant s n ≤ s.now then .late else .coking := by
  have hr : (!reached s (chargeHoldEnd s n)) = decide (s.now < chargeHoldEnd s n) := by
    unfold reached; simp only [← decide_not]; congr 1; simp
  have hl : reached s (lateInstant s n) = decide (lateInstant s n ≤ s.now) := rfl
  unfold derivedMode
  dsimp only
  rw [hr, hl]
  rcases hp with hp | hp <;> simp [hc, hp]

theorem posOfAddress_kept {l : List Aspect} {s t : State} (h : Touches l s t) (a : Nat)
    (ha : Aspect.pollTables ∉ l := by decide) : posOfAddress t a = posOfAddress s a := by
  unfold posOfAddress positions pollEntry
  rw [(h.pollTables_kept ha).1, (h.pollTables_kept ha).2.1]

theorem placeHalt_waits {p : Nat} (hp : p < 24) (o : Origin) (r : Nat) (s : State) : haltWaits
    (placeHalt o r (some p) s) p = true := by
  rw [haltWaits_iff]
  unfold placeHalt
  obtain ⟨b, h⟩ := putOrder_order hp (haltOrder s o p r) s
  rcases h with h | h
  · exact ⟨_, h, isHalt_haltOrder s o p r⟩
  · exact ⟨_, h, isHalt_haltOrder s o p r⟩

theorem cutPermit_sublist (e : Permit) (ev : EventKind) (a b c d : Nat) (s : State) :
    (cutPermit e ev a b c d s).ilk.permits.Sublist (s.ilk.permits.erase e) :=
  cutPermit_rest e ev a b c d s .grants (by decide)

theorem cutPermit_counted (e : Permit) (ev : EventKind) (a b c d : Nat) (s : State) : Counted ev s
    (cutPermit e ev a b c d s) := by
  unfold cutPermit
  extract_lets s1 s2
  have k : Touches cutAspects s1 (departFree e (cutEffects e c d s2)) :=
    (placeHalt_touches _ _ _ _).mono.seq ((cutEffects_touches _ _ _ _).mono.seq (departFree_touches _ _).mono)
  exact Counted.after (Counted.of_raise k) (dropEntryOf_touches e s)

theorem cutPermit_halts (e : Permit) (ev : EventKind) (a b c d : Nat) (s : State) (p : Nat) (hp : p < 24)
    (he : posOfAddress s e.station = some p) :
    haltWaits (cutPermit e ev a b c d s) p = true := by
  unfold cutPermit
  extract_lets s1 s2
  have e1 : posOfAddress s1 e.station = some p := by
    rw [← he]; exact (posOfAddress_kept (raise_touches _ _ _ _ _) _).trans
      (posOfAddress_kept (dropEntryOf_touches e s) _)
  have h2 : haltWaits s2 p = true := by
    show haltWaits (placeHalt .ilk b (posOfAddress s1 e.station) s1) p = true
    rw [e1]; exact placeHalt_waits hp _ _ _
  exact ((cutEffects_touches e c d s2).mono.seq (departFree_touches _ _).mono : Touches cutAspects s2 _).halts_kept
    (by decide) p h2

theorem dueEntry_eq (s : State) : dueEntry s = s.ilk.permits.find? fun e => e.deadline ≤ s.now := rfl

theorem expireFirst_length {s : State} {e : Permit} (he : dueEntry s = some e) :
    (expireFirst s).ilk.permits.length + 1 ≤ s.ilk.permits.length := by
  unfold expireFirst; rw [he]
  have k := ilkSettle_touches s (expirePermit e s)
  have h1 := ((k.grants_kept).trans
    (cutPermit_sublist e .permitExpired e.kind.code HaltReason.permitExpired 0 3 s)).length_le
  have hm : e ∈ s.ilk.permits := List.mem_of_find?_eq_some he
  have := List.length_erase_of_mem hm
  have := List.length_pos_of_mem hm
  simp only at *
  omega

theorem expireAll_dueEntry (f : Nat) : ∀ s : State, s.ilk.permits.length ≤ f → dueEntry (expireAll f s) = none := by
  induction f with
  | zero =>
    intro s h
    have : s.ilk.permits = [] := List.length_eq_zero_iff.mp (by omega)
    unfold expireAll dueEntry; rw [this]; rfl
  | succ f ih =>
    intro s h
    unfold expireAll
    cases hd : dueEntry s with
    | none => exact hd
    | some e => exact ih _ (by have := expireFirst_length hd; omega)

theorem dueEntry_none_kept {l : List Aspect} {s t : State} (h : Touches l s t) (hn : dueEntry s = none)
    (h1 : Aspect.grants ∉ l := by decide) : ∀ e ∈ t.ilk.permits, s.now < e.deadline := by
  intro e he
  have hs := (h.grants_kept h1).subset he
  unfold dueEntry at hn
  rw [List.find?_eq_none] at hn
  have := hn e hs
  unfold reached at this
  simp at this; omega

theorem takeDue_deadlines (s : State) : ∀ e ∈ (takeDue s).ilk.permits, s.now < e.deadline := by
  unfold takeDue
  extract_lets s1 s2 s3 s4 s5 s6 s7 s8
  have k1 : Touches cutAspects s s1 := overOvens_touches (l := cutAspects) (f := fun n => settled (readyActs n))
    (fun n s => settled_touches (readyActs_touches n s).mono) s
  have k2 : Touches [.regs, .dirty] s1 s2 := Touches.foldl allOvens (fun s n => holdEndActs_touches n s) s1
  have k3 : Touches [.regs, .dirty] s2 s3 := Touches.foldl allOvens (fun s n => lateActs_touches n s) s2
  have k4 := expireAll_touches s3.ilk.permits.length s3
  have hn : dueEntry s4 = none := expireAll_dueEntry _ _ (Nat.le_refl _)
  have en : s4.now = s.now := (k4.now_kept).trans ((k3.now_kept).trans ((k2.now_kept).trans k1.now_kept))
  have k5 : Touches (.latenessMark :: cutAspects) s4 s5 :=
    (settled_touches (stepTimeout_touches s4).mono).mono.seq
      ((settled_touches (leadInstant_touches (settled stepTimeout s4)).mono).mono.seq (latenessOnce_touches _))
  have k6 : Touches cutAspects s5 s6 := (drainActs_touches _ _).mono.seq (drainActs_touches _ _).mono
  have k7 : Touches cutAspects s6 s7 := (carHot_touches _ _).mono.seq (carHot_touches _ _).mono
  have k8 : Touches (.doors :: cutAspects) s7 s8 := sealAll_touches s7
  have k9 : Touches (.watch :: cutAspects) s8 _ :=
    (taskLapses_touches .ps s8).mono.seq ((taskLapses_touches .cs _).mono.seq (silenceActs_touches _).mono)
  have k : Touches (.doors :: .latenessMark :: .watch :: cutAspects) s4 _ :=
    k5.mono.seq (k6.mono.seq (k7.mono.seq (k8.mono.seq k9.mono)))
  rw [← en]
  exact dueEntry_none_kept k hn

theorem tick_then_deadlines (s u : State) (h : ∀ e ∈ u.ilk.permits, s.now < e.deadline) :
    (∀ e ∈ (dsmFreeBoth (schAdvance (tick u))).ilk.permits, s.now < e.deadline) ∧
      (dsmFreeBoth (schAdvance (tick u))).sch.latenessDue = true := by
  have h1 := tick_touches u
  have h2 := schAdvance_touches (tick u)
  have h3 := dsmFreeBoth_touches (schAdvance (tick u))
  constructor
  · rw [h3.permits_kept, h2.permits_kept, h1.permits_kept]; exact h
  · rw [h3.latenessMark_kept, h2.latenessMark_kept]; rfl

theorem offerRunMove_run {m : RunMove} {s t : State} (h : offerRunMove m s = some t) : t.run = s.run :=
    (offerRunMove_touches h).runRecord_kept

theorem offerMoves_car (s : State) : (offerMoves s).run.car = s.run.car ∧ (offerMoves s).run.step = s.run.step ∧
    (offerMoves s).run.state = s.run.state := by
  unfold offerMoves
  generalize (s.run.moves.filter fun m => !m.placed) = ms
  induction ms generalizing s with
  | nil => exact ⟨rfl, rfl, rfl⟩
  | cons m ms ih =>
    simp only [List.foldl_cons]
    cases h : offerRunMove m s with
    | none => exact ih s
    | some u =>
      have e := offerRunMove_run h
      obtain ⟨a, b, c⟩ := ih (markPlaced m u)
      have e2 : (markPlaced m u).run.car = u.run.car ∧ (markPlaced m u).run.step = u.run.step ∧
        (markPlaced m u).run.state = u.run.state := ⟨rfl, rfl, rfl⟩
      rw [e] at e2
      exact ⟨a.trans e2.1, b.trans e2.2.1, c.trans e2.2.2⟩

theorem openTest_car (s : State) : (openTest s).run.car = s.run.car ∧
    (s.run.step ≠ .wait → (openTest s).run.step ≠ .wait) := by
  unfold openTest; extract_lets n
  split
  · exact ⟨rfl, fun _ => (by show RunStep.push ≠ .wait; decide)⟩
  · exact ⟨rfl, id⟩

theorem arrivalTest_car (s : State) : (arrivalTest s).run.car = s.run.car ∧
    (s.run.step ≠ .wait → (arrivalTest s).run.step ≠ .wait) := by
  unfold arrivalTest
  split
  · obtain ⟨a, b⟩ := openTest_car
      (onRun (fun r => { r with moves := [] }) (enterStep .opening s.sch.timing.opening s))
    exact ⟨a, fun _ => b (by show RunStep.opening ≠ .wait; decide)⟩
  · exact ⟨rfl, id⟩

theorem formMoves_car (s : State) : (formMoves s).run.car = s.run.car ∧ (formMoves s).run.step = s.run.step := by
  unfold formMoves; extract_lets moves
  obtain ⟨a, b, _⟩ := offerMoves_car (onRun (fun r => { r with moves := moves }) s)
  exact ⟨a, b⟩

theorem entryTest_car (s : State) : (entryTest s).run.car = s.run.car ∧ (entryTest s).qtc.idle = s.qtc.idle ∧
    (entryReady s = true → (entryTest s).run.step ≠ .wait ∧ (entryTest s).qtc.carRequest = false) ∧
      (entryReady s = false → (entryTest s) = s) := by
  unfold entryTest
  split
  · next h =>
    let u := withdrawCar (enterStep .position s.sch.timing.position s)
    obtain ⟨a1, a2⟩ := arrivalTest_car (formMoves u)
    obtain ⟨b1, b2⟩ := formMoves_car u
    have k1 := arrivalTest_touches (formMoves u)
    have k2 := formMoves_touches u
    refine ⟨a1.trans b1, ?_, fun _ => ⟨a2 (by rw [b2]; show RunStep.position ≠ .wait; decide), ?_⟩,
      fun h' => by rw [h] at h'; exact absurd h' (by decide)⟩
    · exact (k1.idle_kept).1.trans ((k2.idle_kept).1)
    · exact (k1.idle_kept).2.trans ((k2.idle_kept).2)
  · next h => exact ⟨rfl, rfl, fun h' => absurd h' h, fun _ => rfl⟩

theorem handCar_car (c : Nat) (s : State) : (handCar c s).run.car = some c ∧ (handCar c s).qtc.idle =
    s.qtc.idle.erase c ∧ (handCar c s).qtc.carRequest = false := by
  unfold handCar; extract_lets r s1
  let u := onRun (fun r => { r with car := some c }) (withdrawCar s1)
  obtain ⟨a, b, d, e⟩ := entryTest_car u
  refine ⟨a, b, ?_⟩
  show (entryTest u).qtc.carRequest = false
  cases h : entryReady u with
  | true => exact (d h).2
  | false => rw [e h]; rfl

end Sys2Proof.Machine
end

