-- ==== Sys2Proof/Laws/Replies.lean ====
section
/-!
SUPPORT. What a reply on the field line brings about, from its taking to the handlers of its kind.
-/

set_option Elab.async false
namespace Sys2Proof.Machine

open Sys2Proof

theorem find_sorted (l : List Nat) (p : Nat) (f : Nat → Bool) (hf : f p = true) (hs : l.Pairwise (· < ·))
    (hm : p ∈ l) :
    l.find? (fun q => p ≤ q && f q) = some p := by
  induction l with
  | nil => exact absurd hm List.not_mem_nil
  | cons a l ih =>
    rw [List.pairwise_cons] at hs
    by_cases ha : a = p
    · subst ha; simp [hf]
    · have hm' : p ∈ l := by
        rcases List.mem_cons.mp hm with h | h
        · exact absurd h.symm ha
        · exact h
      have := hs.1 p hm'
      have hn : (decide (p ≤ a) && f a) = false := by
        rw [Bool.and_eq_false_iff]; left; simp; omega
      rw [List.find?_cons, hn]
      exact ih hs.2 hm'

theorem pairwise_range (n : Nat) : (List.range n).Pairwise (· < ·) := List.pairwise_lt_range

theorem fieldDiscard_discards (s : State) : (fieldDiscard s).fpi.discards = min 65535 (s.fpi.discards + 1) :=
  (exchangeMissed_touches (s.onFpi fun f => { f with discards := countDiscard f.discards })).fieldDiscards_kept

theorem departure_keeps_stations (b : State) (p : Nat) (s : State) : Touches
    (.align :: .regs :: .dirty :: cutAspects) s (departure b p s) := by
  unfold departure
  exact (clearAlignment_touches _ _).mono.seq ((ilkSettle_touches _ _).mono.seq (departureTaken_touches _ _).mono)

theorem roundOn_line (s : State) : (roundOn s).fpi.line = s.fpi.line := (roundOn_touches s).line_kept.1

theorem exec_reply {c : Instr} {u : Telegram} (h : replyTelegram c = some u) (s : State) : exec c s = .next
    (fieldArrival u s) := by
  cases c <;> first
    | (simp only [replyTelegram, Option.some.injEq] at h; subst h; rfl)
    | (exact absurd h (by simp [replyTelegram]))

theorem fieldArrival_taken {u : Telegram} {s : State} {x : Exchange} (hx : Awaits s x)
    (hf : fromPolled s x u = true) (hr : framed u = true) :
    fieldArrival u s = roundOn (if passedOn (afterReply s x u) x.position u then classifyField x.position u
      (afterReply s x u) else afterReply s x u) := by
  unfold fieldArrival
  rw [if_neg (by simp [hx.1]), if_neg (by simp [hr]), hx.2.1]
  simp only
  unfold fromPolled at hf
  rw [if_pos (by simp [hx.2.2.1]; simpa using hf)]
  rfl

/-- What the taking of a reply may touch, its join test apart. -/
abbrev takenAspects : List Aspect := [.line, .exchange, .halts, .answers, .outbound, .tasks, .cars, .stations]

/-- The state once a reply has been taken, its join test apart (R167 items 1 and 2). -/
def taken (s : State) (x : Exchange) : State := uncarry x.position
    (recordReply x.position (deliver x.position x.item (lineIdle s)))

theorem taken_touches (s : State) (x : Exchange) : Touches takenAspects s (taken s x) := by
  unfold taken
  exact (lineIdle_touches _).mono.seq
    ((deliver_touches _ _ _).mono.seq ((recordReply_touches _ _).mono.seq (uncarry_touches _ _).mono))

theorem taken_station {s : State} {x : Exchange} (hx : Awaits s x) : station (taken s x) x.position =
   { station s x.position with
       misses := if (station s x.position).state = .active then 0 else (station s x.position).misses
       lastReply := some s.fpl.roundNumber } := by
  unfold taken
  rw [(uncarry_touches _ _).station_kept]
  unfold recordReply; dsimp only
  rw [station_setStation, if_pos ⟨rfl, hx.2.2.2⟩]
  have k : Touches takenAspects s (deliver x.position x.item (lineIdle s)) :=
    (lineIdle_touches _).mono.seq (deliver_touches _ _ _).mono
  have k2 : Touches [.line, .exchange, .halts, .answers, .outbound, .tasks, .cars] s
    (deliver x.position x.item (lineIdle s)) := (lineIdle_touches _).mono.seq (deliver_touches _ _ _).mono
  rw [k2.station_kept, (k2.rounds_kept).1]

theorem taken_line (s : State) (x : Exchange) : (taken s x).fpi.line = .idle := by
  unfold taken
  have k : Touches [.halts, .answers, .outbound, .tasks, .cars, .stations] (lineIdle s)
    (uncarry x.position (recordReply x.position (deliver x.position x.item (lineIdle s)))) :=
    (deliver_touches _ _ _).mono.seq ((recordReply_touches _ _).mono.seq (uncarry_touches _ _).mono)
  rw [k.line_kept.1]; rfl

theorem afterReply_eq (s : State) (x : Exchange) (u : Telegram) : afterReply s x u = if
    (station (taken s x) x.position).state = .joining then joinTest x.position u (taken s x) else taken s x := rfl

theorem afterReply_not_joining {s : State} {x : Exchange} {u : Telegram} (hx : Awaits s x)
    (h : (station s x.position).state ≠ .joining) : afterReply s x u = taken s x := by
  rw [afterReply_eq, if_neg]; rw [taken_station hx]; exact h

theorem afterReply_line (s : State) (x : Exchange) (u : Telegram) : (afterReply s x u).fpi.line = .idle := by
  rw [afterReply_eq]
  split
  · rw [(joinTest_touches _ _ _).line_kept.1, taken_line]
  · exact taken_line s x

theorem classifyField_line (p : Nat) (u : Telegram) (s : State) : (classifyField p u s).fpi.line = s.fpi.line := by
  have := classifyField_within u (requestWithin_any p s.fpl.length)
  refine (this.line_kept ?_).1
  unfold reportAspectsOf
  repeat' split
  all_goals decide

theorem taken_active {s : State} {x : Exchange} (hx : Awaits s x) (ha : (station s x.position).state = .active) :
    (station (taken s x) x.position).state = .active := by
  rw [taken_station hx]; exact ha

theorem roundOn_coreCopy_touches (e : DispatchEntry) (u : Telegram) (s : State) : Touches roundAspects s
    (roundOn (coreCopy e u s)) :=
  (coreCopy_touches e u s).mono.seq (roundOn_touches _)

theorem pollEntry_kept_by {l : List Aspect} {s t : State} (h : Touches l s t) (p : Nat)
    (ha : Aspect.pollTables ∉ l := by decide) : pollEntry t p = pollEntry s p := h.pollEntry_kept p ha

theorem bodySegments_kept {l : List Aspect} {s t : State} (h : Touches l s t) (c : Nat) (p : Option Nat)
    (ha : Aspect.trackTables ∉ l := by decide) : bodySegments t c p = bodySegments s c p := by
  obtain ⟨h1, h2, h3, h4⟩ := h.trackTables_kept ha
  unfold bodySegments carConfig segmentsIn segmentsInUse segment
  rw [h1, h2, h3]

theorem carReport_places {c : Nat} (hc : c = 1 ∨ c = 2) (p : Nat) (m : Bool) (st : Nat) (s : State) :
    (carRec (carReport c p m st s) c).position = some p ∧ (carRec (carReport c p m st s) c).occupied =
      bodySegments s c (some p) := by
  unfold carReport
  extract_lets r s1 conflict s2
  have h1 : carRec s1 c = { r with
      position := some p
      moving := m
      reportedLoad := st
      occupied := bodySegments s c (some p) } := by
    show carRec (setCarRec c _ s) c = _
    rw [carRec_setCarRec, if_pos ⟨rfl, by omega, by omega⟩]
  have k2 := carConflictOrRelease_touches c r.occupied s1
  have h2 := k2.places_kept (by decide) c
  have h3 : ∀ t, Touches [.cars, .tower, .idle, .counts, .transmit] s2 t → (carRec t c).position = some p ∧
    (carRec t c).occupied = bodySegments s c (some p) := by
    intro t k
    have := k.places_kept (by decide) c
    rw [this.1, this.2, h2.1, h2.2, h1]
    exact ⟨rfl, rfl⟩
  split
  · next hu => exact h3 _ (carPlaced_touches conflict hu).mono
  · exact h3 _ (carLoadTest_touches c s2).mono

theorem handlePosition_records {p : Nat} (hp : p < 24) {body : List Byte} {s : State} :
    station (handlePosition p body s) p =
      { station s p with
          lastPos := some (reportedPosition body)
          moving := reportedMoving body
          status := reportedStatus body } ∧
    ∀ c, (c = 1 ∨ c = 2) → (pollEntry s p).cls = .car → (pollEntry s p).inst = c → (station s p).state = .active →
      (carRec (handlePosition p body s) c).position = some (reportedPosition body) ∧
        (carRec (handlePosition p body s) c).occupied = bodySegments s c (some (reportedPosition body)) := by
  unfold handlePosition
  extract_lets b s1 s2
  let u := evaluate p (recordPosition p body s)
  have ku : Touches [.stations, .align] s u := (recordPosition_touches _ _ _).mono.seq (evaluate_touches _ _).mono
  have hs1 : station u p = { station s p with
      lastPos := some (reportedPosition body)
      moving := reportedMoving body
      status := reportedStatus body } := by
    show station (evaluate p (recordPosition p body s)) p = _
    rw [(evaluate_touches _ _).station_kept]; unfold recordPosition; rw [station_setStation, if_pos ⟨rfl, hp⟩]
  have kq := qtcPosition_touches p body u
  have ki := ilkSettle_touches b s1
  have ka : Touches [.run, .outbound, .tasks] s2 (if alignChanged b s2 = true then schAlignChange s2 else s2) :=
    .ite (fun _ => schAlignChange_touches _) (fun _ => .refl _ _)
  have kall : Touches cutAspects s1 (if alignChanged b s2 = true then schAlignChange s2 else s2) := ki.seq ka.mono
  constructor
  · rw [kall.station_kept, show station s1 p = station u p from kq.station_kept p, hs1]
  · intro c hc h1 h2 ha
    have e : s1 = satisfyRequest (carReport c (reportedPosition body) (reportedMoving body) (reportedStatus body)
      u) := by
      show qtcPosition p body u = _
      unfold qtcPosition
      have : carAt u p = some c := by
        unfold carAt; rw [ku.pollEntry_kept, h1, h2]; rfl
      rw [this]; simp only
      rw [if_pos]
      rw [hs1]; exact ha
    obtain ⟨f1, f2⟩ := carReport_places hc (reportedPosition body) (reportedMoving body) (reportedStatus body) u
    have ks := (satisfyRequest_touches
      (carReport c (reportedPosition body) (reportedMoving body) (reportedStatus body) u)).places_kept (by decide) c
    have kp := kall.places_kept (by decide) c
    rw [kp.1, kp.2, e, ks.1, ks.2, f1, f2]
    exact ⟨rfl, bodySegments_kept ku c _⟩

theorem classifyField_position (p : Nat) (h : Header) (b : List Byte) (s : State) : classifyField p
    (arrived h Kind.position b) s =
      coreCopy (entryFor s .field (arrived h Kind.position b)) (arrived h Kind.position b)
        (handlePosition p b s) := by
  unfold classifyField; simp only [kindOf_arrived Kind.position (by decide)]; rfl

theorem answerAt_placeAnswer {p : Nat} (hp : p < 24) (a : AnswerBody) (s : State) : answerAt
    (placeAnswer p a s) p = some a := by
  unfold answerAt placeAnswer
  rw [outbound_setOutbound, if_pos ⟨rfl, hp⟩]; rfl

theorem answerAt_grant (p : Nat) (e : Permit) (s : State) (hp : p < 24) : answerAt (grant p e s) p = some
    (.permit e.kind.code e.oven e.side.code (e.deadline - e.grant)) := by
  unfold grant
  extract_lets b s1 s2
  have k : Touches cutAspects s2 (ilkSettle b (grantEffects e p s2)) :=
    (grantEffects_touches _ _ _).mono.seq (ilkSettle_touches _ _)
  rw [k.answers_kept (by decide) p]
  exact answerAt_placeAnswer hp _ _

theorem ilkRequest_answer {p : Nat} (hp : p < 24) (k o d : Nat) (s : State) : answerAt (ilkRequest p k o d s) p =
    some (requestAnswer s p k o d) := by
  unfold ilkRequest requestAnswer
  dsimp only
  split
  · exact answerAt_placeAnswer hp _ _
  split
  · exact answerAt_placeAnswer hp _ _
  generalize asked s p k o d = a
  obtain ⟨ak, ao, asd⟩ := a
  cases ak with
  | none => exact answerAt_placeAnswer hp _ _
  | some k' =>
    cases asd with
    | none => exact answerAt_placeAnswer hp _ _
    | some sd =>
      simp only
      unfold requestChecked
      cases activeEntry s (pollEntry s p).address k' ao sd with
      | some e => exact answerAt_placeAnswer hp _ _
      | none =>
        simp only
        split
        · exact answerAt_placeAnswer hp _ _
        split
        · exact answerAt_placeAnswer hp _ _
        cases firstFailure s (requestInput s p k' ao) with
        | some t => exact answerAt_placeAnswer hp _ _
        | none =>
          simp only
          rw [answerAt_grant _ _ _ hp]
          unfold grantEntry
          simp only
          congr 2
          omega

theorem classifyField_request (p : Nat) (h : Header) (a b c : Byte) (s : State) : classifyField p
    (arrived h Kind.request [a, b, c]) s =
      coreCopy (entryFor s .field (arrived h Kind.request [a,b,c])) (arrived h Kind.request [a,b,c])
        (ilkRequest p a.toNat b.toNat c.toNat s) := by
  unfold classifyField; simp only [kindOf_arrived Kind.request (by decide)]; rfl

theorem classifyField_done (p : Nat) (h : Header) (a b c d : Byte) (m : BitVec 16) (s : State) : classifyField p
    (arrived h Kind.done ([a, b, c, d] ++ toBytes 2 m.toNat)) s =
   coreCopy (entryFor s .field (arrived h Kind.done ([a, b, c, d] ++ toBytes 2 m.toNat)))
     (arrived h Kind.done ([a, b, c, d] ++ toBytes 2 m.toNat))
       (ilkDone p a.toNat b.toNat c.toNat d.toNat m.toNat s) := by
  have hm : ofBytes (((([a, b, c, d] ++ toBytes 2 m.toNat) : List Byte).drop 4).take 2) = m.toNat := by
    have e : (([a, b, c, d] ++ toBytes 2 m.toNat) : List Byte).drop 4 = toBytes 2 m.toNat := rfl
    rw [e, List.take_of_length_le (by rw [toBytes_length] <;> exact Nat.le_refl _), ofBytes_toBytes]
    have := m.isLt; omega
  unfold classifyField; simp only [kindOf_arrived Kind.done (by decide)]
  have hb : (arrived h Kind.done ([a, b, c, d] ++ toBytes 2 m.toNat)).body = ([a, b, c, d] ++ toBytes 2 m.toNat) :=
    rfl
  rw [hb, hm]; rfl

theorem asked_kept {l : List Aspect} {s t : State} (h : Touches l s t) (p k o d : Nat)
    (ha : Aspect.pollTables ∉ l := by decide) : asked t p k o d = asked s p k o d := by
  unfold asked; rw [h.pollEntry_kept p ha]

theorem activeEntry_kept {l : List Aspect} {s t : State} (h : Touches l s t) (a : Nat) (k : PermitKind) (o : Nat)
    (sd : Side) (ha : Aspect.permits ∉ l := by decide) : activeEntry t a k o sd = activeEntry s a k o sd := by
  unfold activeEntry; rw [h.permits_kept ha]

theorem roundOn_permits (s : State) (h : s.fpl.owed = false) : (roundOn s).ilk.permits = s.ilk.permits := by
  unfold roundOn
  split
  · split
    · rfl
    · unfold endRound; dsimp only
      rw [if_neg]
      · rfl
      · show ¬ s.fpl.owed = true
        rw [h]; decide
  · rfl

/-- A door record but for its listed flag, which the leak list keeps. -/
def unlistedRec (r : DoorRecord) : DoorRecord := { r with listed := false }

theorem setListed_unlisted (d e : Door) (b : Bool) (s : State) : unlistedRec (doorRec (setListed d b s) e) = unlistedRec
    (doorRec s e) := by
  unfold setListed
  rw [doorRec_setDoorRec]
  split
  · next h => rw [h.1]; rfl
  · rfl

theorem setLeaks_doorRec (l : List Door) (e : Door) (s : State) : doorRec (setLeaks l s) e = doorRec s e := rfl

theorem listDoor_unlisted (d e : Door) (s : State) : unlistedRec (doorRec (listDoor d s) e) = unlistedRec (doorRec s e) := by
  unfold listDoor; rw [setListed_unlisted, setLeaks_doorRec]

theorem offerDoor_unlisted (d e : Door) (a : Nat) (s : State) : unlistedRec (doorRec (offerDoor d a s) e) = unlistedRec
    (doorRec s e) := by
  unfold offerDoor
  split
  · exact listDoor_unlisted d e s
  · split
    · split
      · rw [listDoor_unlisted, setListed_unlisted, setLeaks_doorRec]
      · rw [(raise_touches _ _ _ _ _).doorRec_kept]
    · exact listDoor_unlisted d e s

theorem leaveList_unlisted (d e : Door) (s : State) : unlistedRec (doorRec (leaveList d s) e) = unlistedRec (doorRec s e) := by
  unfold leaveList
  split
  · extract_lets s1
    have h1 : unlistedRec (doorRec s1 e) = unlistedRec (doorRec s e) := by
      show unlistedRec (doorRec (setListed d false (setLeaks _ s)) e) = _
      rw [setListed_unlisted, setLeaks_doorRec]
    split
    · rw [listDoor_unlisted, h1]
    · exact h1
  · rfl

theorem sealList_unlisted (d e : Door) (old : DoorRecord) (a : Nat) (s : State) : unlistedRec
    (doorRec (sealList d old a s) e) = unlistedRec (doorRec s e) := by
  unfold sealList
  extract_lets r
  split
  · split
    · exact offerDoor_unlisted _ _ _ _
    · split
      · rfl
      · split
        · rfl
        · exact offerDoor_unlisted _ _ _ _
  · split
    · exact leaveList_unlisted _ _ _
    · rfl

theorem sealEvaluated_unlisted (d : Door) (h1 : 1 ≤ d.oven) (h2 : d.oven ≤ 128) (a i : Nat) (s : State) : unlistedRec
    (doorRec (sealEvaluated d a i s) d) = unlistedRec (sealResult s.dsm.config s.now i (doorRec s d)).1 := by
  unfold sealEvaluated
  dsimp only
  generalize hrf : sealResult s.dsm.config s.now i (doorRec s d) = rf
  obtain ⟨r, failed⟩ := rf
  dsimp only
  let s1 := setDoorRec d r s
  let s2 := if failed = true then raise .sealFail d.oven a 0 s1 else s1
  let s3 := sealList d (doorRec s d) a s2
  let s4 := taskSealed d (doorHandedOn s d s3)
  have e1 : doorRec s1 d = r := by
    show doorRec (setDoorRec d r s) d = r; rw [doorRec_setDoorRec, if_pos ⟨rfl, h1, h2⟩]
  have k2 : Touches [.counts, .transmit] s1 s2 := .ite (fun _ => raise_touches _ _ _ _ _) (fun _ => .refl _ _)
  have e3 : unlistedRec (doorRec s3 d) = unlistedRec r := by
    show unlistedRec (doorRec (sealList d _ a s2) d) = _
    rw [sealList_unlisted, k2.doorRec_kept, e1]
  have k4 : Touches cutAspects s3 s4 :=
    (doorHandedOn_touches _ _ _).seq (taskSealed_touches _ _).mono
  have k5 : ∀ (c1 c2 : Prop) [Decidable c1] [Decidable c2], Touches cutAspects s3
    (if c1 then dsmFreeBoth s4 else if c2 then dsmFree d.side s4 else s4) := by
    intro c1 c2 _ _
    exact .ite (fun _ => k4.seq (dsmFreeBoth_touches _).mono)
      (fun _ => .ite (fun _ => k4.seq (dsmFree_touches _ _).mono) (fun _ => k4))
  rw [(k5 _ _).doorRec_kept]
  exact e3

/-- An UNSEALED door that fails its last seal test counts SEAL_FAIL (R103). -/
theorem sealEvaluated_counted {d : Door} {a i : Nat} {s : State}
    (hf : (sealResult s.dsm.config s.now i (doorRec s d)).2 = true) : Counted .sealFail s (sealEvaluated d a i s) := by
  unfold sealEvaluated
  dsimp only
  generalize hrf : sealResult s.dsm.config s.now i (doorRec s d) = rf at hf
  obtain ⟨r, failed⟩ := rf
  have hf' : failed = true := hf
  subst hf'
  dsimp only
  rw [if_pos rfl]
  let s2 := raise .sealFail d.oven a 0 (setDoorRec d r s)
  let s4 := taskSealed d (doorHandedOn s d (sealList d (doorRec s d) a s2))
  have k4 : Touches (.leakLaw :: doneAspects) s2 s4 :=
    (sealList_touches d (doorRec s d) a s2).mono.seq
      ((doorHandedOn_touches _ _ _).mono.seq (taskSealed_touches _ _).mono)
  have k5 : ∀ (c1 c2 : Prop) [Decidable c1] [Decidable c2], Touches (.leakLaw :: doneAspects) s2
      (if c1 then dsmFreeBoth s4 else if c2 then dsmFree d.side s4 else s4) := by
    intro c1 c2 _ _
    exact .ite (fun _ => k4.seq (dsmFreeBoth_touches _).mono)
      (fun _ => .ite (fun _ => k4.seq (dsmFree_touches _ _).mono) (fun _ => k4))
  exact Counted.after (Counted.of_raise (k5 _ _)) (setDoorRec_touches d r s)

theorem sealDoor_kept {l : List Aspect} {s t : State} (h : Touches l s t) (p o sd : Nat)
    (h1 : Aspect.pollTables ∉ l := by decide) (h2 : Aspect.doors ∉ l := by decide)
      (h3 : Aspect.ovenTables ∉ l := by decide) : sealDoor t p o sd = sealDoor s p o sd := by
  unfold sealDoor sealSide doorSideAt configured ovenConfig
  rw [h.pollEntry_kept p h1, (h.ovenTables_kept h3).1]
  simp only [h.doorRec_kept _ h2]

theorem classifyField_seal (p : Nat) (h : Header) (a b c : Byte) (s : State) : classifyField p
    (arrived h Kind.seal [a, b, c]) s =
      coreCopy (entryFor s .field (arrived h Kind.seal [a,b,c])) (arrived h Kind.seal [a,b,c])
        (dsmSeal p a.toNat b.toNat c.toNat s) := by
  unfold classifyField; simp only [kindOf_arrived Kind.seal (by decide)]; rfl

theorem entryFor_kept {l : List Aspect} {s t : State} (h : Touches l s t) (u : Telegram) (pt : Port)
    (ha : Aspect.classifier ∉ l := by decide) : entryFor t pt u = entryFor s pt u := by
  have e := h.classifier_kept ha
  unfold entryFor entryIndex
  cases pt <;> (unfold selectorOf; simp only; rw [e])

theorem classifyField_ready (p : Nat) (h : Header) (a b : Byte) (s : State) : classifyField p
    (arrived h Kind.ready [a, b]) s =
      coreCopy (entryFor s .field (arrived h Kind.ready [a,b])) (arrived h Kind.ready [a,b])
        (fplReady p a.toNat b.toNat s) := by
  unfold classifyField; simp only [kindOf_arrived Kind.ready (by decide)]; rfl

theorem joined_active {p : Nat} (hp : p < 24) (s : State) : (station (joined p s) p).state = .active ∧
    Counted .stationJoined s (joined p s) := by
  unfold joined
  extract_lets b e r0 s1 s2 s3
  let r := raise .stationJoined 0 e.address e.cls.code s1
  have k2 : Touches cutAspects r s2 := ilkSettle_touches b r
  have k3 : Touches [.outbound, .tasks] s2 s3 := dsmFreeAt_touches _ _
  have k4 : Touches [.dirty] s3 (if e.cls = .os then markDirty e.inst s3 else s3) :=
    .ite (fun _ => markDirty_touches _ _) (fun _ => .refl _ _)
  have k : Touches cutAspects r (if e.cls = .os then markDirty e.inst s3 else s3) := k2.seq (k3.mono.seq k4.mono)
  constructor
  · rw [k.station_kept]
    show (station (raise .stationJoined 0 e.address e.cls.code s1) p).state = _
    rw [(raise_touches _ _ _ _ _).station_kept]
    show (station (setStation p _ s) p).state = _
    rw [station_setStation, if_pos ⟨rfl, hp⟩]
  · exact Counted.after (Counted.of_raise k) (setStation_touches p _ s)

theorem plausible_kept {l : List Aspect} {s t : State} (h : Touches l s t) (p : Nat) (u : Telegram)
    (h1 : Aspect.pollTables ∉ l := by decide) (h2 : Aspect.ovenTables ∉ l := by decide)
      (h3 : Aspect.trackTables ∉ l := by decide) : plausible t p u = plausible s p u := by
  unfold plausible centreSpan centreOf configuredOvens ovenConfig trackStart trackEnd segment
  rw [h.pollEntry_kept p h1, (h.ovenTables_kept h2).1, (h.trackTables_kept h3).1, (h.trackTables_kept h3).2.1]

theorem ilkSettle_ovenRec (b : State) (m : Nat) (hm : 1 ≤ m ∧ m ≤ 128) (fuel : Nat) : ∀ s : State,
    (ovenRec s m).phase ≠ .pushing → (ovenRec s m).phase ≠ .charging → ovenRec (settleLoop b fuel s) m =
      ovenRec s m := by
  induction fuel with
  | zero => intros; rfl
  | succ f ih =>
    intro s h1 h2
    unfold settleLoop
    split
    · next e t _ =>
      have hb : ovenRec (breakPermit e t s) m = ovenRec s m := by
        unfold breakPermit cutPermit
        dsimp only
        have k1 : Touches (.permits :: runAspects) s
          (placeHalt .ilk HaltReason.permitBroken
            (posOfAddress (raise .permitBroken e.oven e.station t (dropEntryOf e s)) e.station)
              (raise .permitBroken e.oven e.station t (dropEntryOf e s))) :=
          (dropEntryOf_touches e s).mono.seq ((raise_touches _ _ _ _ _).mono.seq (placeHalt_touches _ _ _ _).mono)
        generalize placeHalt .ilk HaltReason.permitBroken
          (posOfAddress (raise .permitBroken e.oven e.station t (dropEntryOf e s)) e.station)
            (raise .permitBroken e.oven e.station t (dropEntryOf e s)) = u at k1 ⊢
        have e1 := k1.ovenRec_kept m
        rw [(departFree_touches e _).ovenRec_kept, ← e1]
        rw [← e1] at h1 h2
        unfold cutEffects
        split
        · rw [(schPushBroken_touches _ _ _).ovenRec_kept,
            (withCar_touches _ fun c => carLoads_touches c true _).ovenRec_kept]
          unfold ovtPushBroken setPhaseOnly
          split
          · next hp =>
            rw [ovenRec_setPhase, if_neg]
            rintro ⟨rfl, _⟩; exact h1 hp
          · rfl
        · unfold ovtChargeCut
          split
          · next hp =>
            unfold chargeIncomplete
            rw [(raise_touches _ _ _ _ _).ovenRec_kept, ovenRec_setPhase, if_neg]
            rintro ⟨rfl, _⟩; exact h2 hp
          · rfl
        · exact (oprDerive_touches _ _).ovenRec_kept m
        · rfl
        · exact (withDoor_touches _ fun d => taskPermitEnds_touches d false _).ovenRec_kept m
        · exact (withCar_touches _ fun c => carQuenchEnds_touches c false _).ovenRec_kept m
        · exact (withCar_touches _ fun c => carDumpEnds_touches c false _).ovenRec_kept m
        · rfl
      rw [ih _ (by rw [hb]; exact h1) (by rw [hb]; exact h2), hb]
    · rfl

theorem beginRound_ovenRec {s : State} {m : Nat} (hm : 1 ≤ m ∧ m ≤ 128) (h1 : (ovenRec s m).phase ≠ .pushing)
    (h2 : (ovenRec s m).phase ≠ .charging) : ovenRec (roundOn s) m = ovenRec s m := by
  unfold roundOn
  split
  · split
    · rfl
    · unfold endRound
      extract_lets s1 len
      split
      · rw [(raise_touches _ _ _ _ _).ovenRec_kept]
        unfold beginRound ilkSettle
        exact ilkSettle_ovenRec _ _ hm _ _ h1 h2
      · rfl
  · rfl

theorem pushDone_ovenRec {n : Nat} (hn : 1 ≤ n ∧ n ≤ 128) (a m : Nat) (ok : Bool) (s : State)
    (hp : (ovenRec s n).phase = .pushing) :
   ovenRec (ovtPushDone n a m ok s) n =
     { ovenRec s n with
         phase := if ok then .empty else .pushInterrupted
         ramPeak := m
         hardPushes := if s.sch.timing.hardWarn < m then min 255 ((ovenRec s n).hardPushes + 1) else (ovenRec s n).hardPushes } := by
  unfold ovtPushDone
  extract_lets r hard s1 ofRun s2
  have e1 : ovenRec s1 n = { ovenRec s n with
      ramPeak := m
      hardPushes := if s.sch.timing.hardWarn < m then min 255 ((ovenRec s n).hardPushes + 1) else (ovenRec s n).hardPushes } := by
    show ovenRec (setOvenRec n _ s) n = _
    rw [ovenRec_setOvenRec, if_pos ⟨rfl, hn⟩]
  have k2 : Touches [.counts, .transmit] s1 s2 := .ite (fun _ => raise_touches _ _ _ _ _) (fun _ => .refl _ _)
  have e2 : ovenRec s2 n = _ := (k2.ovenRec_kept n).trans e1
  rw [if_pos (by rw [e2]; exact hp)]
  unfold setPhaseOnly
  rw [ovenRec_setPhase, if_pos ⟨rfl, hn⟩, e2]

end Sys2Proof.Machine
end

