-- ==== Sys2Proof/Laws/Alignment.lean ====
section
/-!
SUPPORT. What an alignment entry says: its alignment oven, its receiving set, and what a POSITION leaves of the entries.
-/

set_option Elab.async false
namespace Sys2Proof.Machine

open Sys2Proof

theorem mem_configuredOvens {s : State} {m : Nat} (h : configured s m = true) : m ∈ configuredOvens s := by
  obtain ⟨h1, h2⟩ := configured_range h
  unfold configuredOvens
  rw [List.mem_filterMap]
  unfold configured ovenConfig readNum readAt at h
  rw [if_neg (by omega)] at h
  refine ⟨(s.ovt.config[m-1], m-1), ?_, ?_⟩
  · rw [List.mem_zipIdx_iff_getElem?]
    simp
  · have : s.ovt.config[m-1]? = some s.ovt.config[m-1] := by simp
    rw [this] at h
    simp at h
    simp [h]; omega

theorem mem_configuredOvens_iff {s : State} {m : Nat} : m ∈ configuredOvens s ↔ configured s m = true := by
  refine ⟨fun h => ?_, mem_configuredOvens⟩
  unfold configuredOvens at h
  rw [List.mem_filterMap] at h
  obtain ⟨⟨c, i⟩, h1, h2⟩ := h
  rw [List.mem_zipIdx_iff_getElem?] at h1
  simp only at h1 h2
  split at h2
  · next hc =>
    cases h2
    unfold configured ovenConfig readNum readAt
    rw [if_neg (by omega), Nat.add_sub_cancel]
    have : s.ovt.config[i]? = some c := by simpa using h1
    rw [this]; exact hc
  · exact nomatch h2

/-- The configured ovens are listed rising. -/
theorem configuredOvens_rising (s : State) : (configuredOvens s).Pairwise (· < ·) := by
  unfold configuredOvens
  rw [List.pairwise_filterMap]
  have numbered : ∀ (l : List (Option OvenConfig)) k, (l.zipIdx k).Pairwise (fun a b => a.2 < b.2) := by
    intro l
    induction l with
    | nil => intro k; exact .nil
    | cons a l ih =>
      intro k
      rw [List.zipIdx_cons]
      refine .cons (fun b hb => ?_) (ih _)
      have := List.le_snd_of_mem_zipIdx hb
      simp only; omega
  refine (numbered _ 0).imp ?_
  intro a b h x hx y hy
  split at hx <;> split at hy <;> simp_all
  omega

/-- Of a rising list, the first element with a property is the least. -/
theorem find_least {l : List Nat} {f : Nat → Bool} (hl : l.Pairwise (· < ·)) {n : Nat} (hn : n ∈ l) (hf : f n = true)
    (hm : ∀ m ∈ l, m < n → f m = false) : l.find? f = some n := by
  induction l with
  | nil => cases hn
  | cons a l ih =>
    rw [List.find?_cons]
    cases hn with
    | head => rw [hf]
    | tail _ hn =>
      rw [hm a (.head _) (List.rel_of_pairwise_cons hl hn)]
      exact ih hl.of_cons hn (fun m h => hm m (.tail _ h))

/-- A machine of class `c` at `p` stands at oven `n` (R16). -/
def StandsAt (s : State) (c : StationClass) (p n : Nat) : Prop :=
  configured s n = true ∧
    ((p : Int) - workingPosition s.ovt.timing c (centreOf s n)).natAbs ≤ toleranceOf s.ovt.timing c

theorem alignmentOven_least {s : State} {c : StationClass} {p n : Nat} (h : StandsAt s c p n)
    (hm : ∀ m, m < n → ¬ StandsAt s c p m) : alignmentOven s c p = n := by
  unfold alignmentOven
  have := find_least (configuredOvens_rising s) (mem_configuredOvens_iff.2 h.1)
    (f := fun n =>
      decide (((p : Int) - workingPosition s.ovt.timing c (centreOf s n)).natAbs ≤ toleranceOf s.ovt.timing c))
    (decide_eq_true h.2)
    (fun m h1 h2 => decide_eq_false fun h3 => hm m h2 ⟨mem_configuredOvens_iff.1 h1, h3⟩)
  simp only [this, Option.getD_some]

theorem alignmentOven_none {s : State} {c : StationClass} {p : Nat} (hm : ∀ m, ¬ StandsAt s c p m) :
    alignmentOven s c p = 0 := by
  unfold alignmentOven
  have : (configuredOvens s).find? (fun n =>
      decide (((p : Int) - workingPosition s.ovt.timing c (centreOf s n)).natAbs ≤ toleranceOf s.ovt.timing c)) =
        none := by
    rw [List.find?_eq_none]
    intro m h1 h2
    exact hm m ⟨mem_configuredOvens_iff.1 h1, of_decide_eq_true h2⟩
  simp only [this, Option.getD_none]

theorem mem_receivingSet {s : State} {c : StationClass} {p n : Nat} : n ∈ receivingSet s c p ↔
    c = .car ∧ configured s n = true ∧
      ((p : Int) - (centreOf s n + s.ovt.timing.receiveOffset : Nat)).natAbs ≤ s.ovt.timing.receiveSpan := by
  unfold receivingSet
  split
  · next h => rw [List.mem_filter, mem_configuredOvens_iff]; simp [h]
  · next h => simp [h]

/-- A POSITION leaves the entry of its station evaluated, and every other as it was. -/
theorem handlePosition_alignment {p : Nat} {body : List Byte} {s : State} (q : Nat) :
    alignment (handlePosition p body s) q =
      if p = q ∧ q < 24 then evaluated (recordPosition p body s) p else alignment s q := by
  unfold handlePosition
  extract_lets b s1 s2
  have kq := qtcPosition_touches p body (evaluate p (recordPosition p body s))
  have ki := ilkSettle_touches b s1
  have ka : Touches [.run, .outbound, .tasks] s2 (if alignChanged b s2 = true then schAlignChange s2 else s2) :=
    .ite (fun _ => schAlignChange_touches _) (fun _ => .refl _ _)
  have e : (if alignChanged b s2 = true then schAlignChange s2 else s2).ovt.align =
      (evaluate p (recordPosition p body s)).ovt.align := by
    rw [ka.align_kept, ki.align_kept, kq.align_kept]
  have e2 : alignment (if alignChanged b s2 = true then schAlignChange s2 else s2) q =
      alignment (evaluate p (recordPosition p body s)) q := by
    unfold alignment; rw [e]
  rw [e2]
  unfold evaluate
  rw [alignment_setAlignment]
  split
  · rfl
  · unfold alignment; rw [(recordPosition_touches p body s).align_kept]

/-! ## The fields of a POSITION body (R137) -/

theorem reportedPosition_body (pos : BitVec 24) (m st : Byte) :
    reportedPosition (toBytes 3 pos.toNat ++ [m, st]) = pos.toNat := by
  unfold reportedPosition
  have : (toBytes 3 pos.toNat ++ [m, st]).take 3 = toBytes 3 pos.toNat := by
    rw [List.take_append_of_le_length (by simp [toBytes_length])]
    exact List.take_of_length_le (by simp [toBytes_length])
  rw [this, ofBytes_toBytes]
  have := pos.isLt
  omega

theorem reportedMoving_body (pos : BitVec 24) (m st : Byte) :
    reportedMoving (toBytes 3 pos.toNat ++ [m, st]) = (m != 0#8) := by
  unfold reportedMoving
  show decide (m ≠ 0) = _
  by_cases h : m = 0#8 <;> simp [h]

theorem reportedStatus_body (pos : BitVec 24) (m st : Byte) :
    reportedStatus (toBytes 3 pos.toNat ++ [m, st]) = st.toNat := rfl

end Sys2Proof.Machine
end

