-- ==== Sys2Proof/Laws/Orders.lean ====
section
/-!
SUPPORT. What an order of the control station brings about: its refusals, its placing, and the reservations of a car.
-/

set_option Elab.async false
namespace Sys2Proof.Machine

open Sys2Proof

theorem controlArrival_toStation {u : Telegram} {s : State} {p : Nat} (h : ForStation s p u) :
    controlArrival u s = controlToStation p u (controlAccepted s) := by
  obtain ⟨hf, hp, ha, ho, hb⟩ := h
  unfold controlArrival
  rw [if_neg (by simp [hf]), if_neg (fun h => ho h.2)]
  unfold classifyControl
  rw [if_neg (show ¬ u.dest.toNat = (controlAccepted s).mgt.address from ho), if_neg hb]
  have : posOfAddress (controlAccepted s) u.dest.toNat = posOfAddress s u.dest.toNat := rfl
  rw [this, ha]

theorem orderPlaced_kept {l : List Aspect} {s t : State} {p : Nat} {u : Telegram} (k : Touches l s t)
    (h : OrderPlaced s p u) (ha : Aspect.outbound ∉ l := by decide) : OrderPlaced t p u := by
  unfold OrderPlaced at h ⊢
  rw [k.outbound_record_kept p ha]; exact h

theorem putOrder_placed {p : Nat} (hp : p < 24) (u : Telegram) (s : State) : OrderPlaced
    (putOrder p (controlOrder u) s) p u := by
  have o := fun r => orderLeftUndelivered_touches p r
  unfold putOrder OrderPlaced
  split
  · rw [outbound_setOutbound, if_pos ⟨rfl, hp⟩]; exact ⟨_, rfl⟩
  · next w _ =>
    split
    · rw [outbound_setOutbound, if_pos ⟨rfl, hp⟩]; exact ⟨_, rfl⟩
    · rw [(o w _).outbound_record_kept, outbound_setOutbound, if_pos ⟨rfl, hp⟩]; exact ⟨_, rfl⟩

theorem placeControl_placed {e : DispatchEntry} {p o : Nat} {u : Telegram} {s : State} (hp : p < 24)
    (hh : haltWaits s p = false) : OrderPlaced (placeControl e p o u s) p u := by
  have ho : offerOrder p (controlOrder u) s = some (putOrder p (controlOrder u) s) := by
    unfold offerOrder
    unfold haltWaits at hh
    split
    · next w hw => rw [hw] at hh; simp only at hh; rw [hh]; rfl
    · rfl
  unfold placeControl
  rw [ho]
  exact orderPlaced_kept (echo_touches e u _) (putOrder_placed hp u s)

theorem offerOrder_some {s : State} {p : Nat} {u : Telegram} (hh : haltWaits s p = false) : offerOrder p
    (controlOrder u) s = some (putOrder p (controlOrder u) s) := by
  unfold offerOrder
  unfold haltWaits at hh
  split
  · next w hw => rw [hw] at hh; simp only at hh; rw [hh]; rfl
  · rfl

theorem putOrder_carRec (p : Nat) (o : Order) (s : State) (h : haltWaits s p = false) (c : Nat) : carRec
    (putOrder p o s) c = carRec s c ∧ carConfig (putOrder p o s) c = carConfig s c := by
  have k := putOrder_touches (p := p) (o := o) (s := s) (by rw [h]; exact fun h => by cases h)
  refine ⟨k.carRec_kept c, ?_⟩
  unfold carConfig; rw [k.trackTables_kept.2.2.1]

theorem reserves_carRec {s : State} {c q : Nat} {k : CarConfig} (u : Telegram) (hc : c = 1 ∨ c = 2)
    (hk : carConfig s c = some k) (hq : (carRec s c).position = some q) :
    carRec (carReserves c u s) c =
      { carRec s c with
          reserved := routeSegments s (halfLength k) q (moveTarget u)
          move := some ⟨moveTarget u, directionTo q (moveTarget u), moveSpeed u⟩ } := by
  unfold carReserves
  dsimp only
  rw [hk, hq]
  dsimp only
  rw [carRec_setCarRec, if_pos (by rcases hc with h | h <;> subst h <;> simp)]

theorem routeSegments_kept {l : List Aspect} {s t : State} (k : Touches l s t) (h a b : Nat)
    (ha : Aspect.trackTables ∉ l := by decide) : routeSegments t h a b = routeSegments s h a b := by
  have e := k.trackTables_kept ha
  unfold routeSegments segmentsIn segmentsInUse segment
  rw [e.1, e.2.1]

theorem carMove_ok {s : State} {c q p : Nat} {k : CarConfig} {u v : Telegram} (hp : p < 24) (hc : c = 1 ∨ c = 2)
    (hk : carConfig s c = some k) (hq : (carRec s c).position = some q)
   (hf : carMoveForm s c u = .ok v) (hh : haltWaits s p = false) :
   ∃ t, carMove c p (controlOrder u) s = .ok (t, v) ∧ OrderPlaced t p v ∧ carRec t c =
     { carRec s c with
         reserved := routeSegments s (halfLength k) q (moveTarget v)
         move := some ⟨moveTarget v, directionTo q (moveTarget v), moveSpeed v⟩ } := by
  have e : carMove c p (controlOrder u) s = .ok (carReserves c v (putOrder p (controlOrder v) s), v) := by
    unfold carMove
    rw [show (controlOrder u).telegram = u from rfl, hf]
    dsimp only
    rw [show ({ controlOrder u with telegram := v } : Order) = controlOrder v from rfl, offerOrder_some hh]
  obtain ⟨h1, h2⟩ := putOrder_carRec p (controlOrder v) s hh c
  have kp := putOrder_touches (p := p) (o := controlOrder v) (s := s) (by rw [hh]; exact fun h => by cases h)
  refine ⟨_, e, ?_, ?_⟩
  · have hpl := putOrder_placed hp v s
    have : (carReserves c v (putOrder p (controlOrder v) s)).fpl = (putOrder p (controlOrder v) s).fpl := by
      unfold carReserves; dsimp only; repeat' split
      all_goals rfl
    unfold OrderPlaced outbound at hpl ⊢
    rw [this]; exact hpl
  · rw [reserves_carRec v hc (h2.trans hk) (h1 ▸ hq), h1, routeSegments_kept kp]

/-! ## Refusals (R45, R79) -/

theorem isMachine_iff (c : StationClass) : c.isMachine = true ↔ c ≠ .os ∧ c ≠ .aux := by cases c <;> decide

/-- Over a HALT that waits nothing but a HALT is taken (R156). -/
theorem offerOrder_none {s : State} {p : Nat} {o : Order} (hh : haltWaits s p = true) (hk : isHalt o = false) :
    offerOrder p o s = none := by
  unfold offerOrder
  unfold haltWaits at hh
  cases hw : (outbound s p).order with
  | none => rw [hw] at hh; exact nomatch hh
  | some w =>
    rw [hw] at hh
    simp only at hh ⊢
    rw [if_pos (by rw [hh, hk]; rfl)]

theorem placeControl_refused {e : DispatchEntry} {p o : Nat} {u : Telegram} {s : State} (hh : haltWaits s p = true)
    (hk : kindOf u ≠ Kind.halt) : placeControl e p o u s = refuseControl (kindOf u) o Reason.haltPending s := by
  unfold placeControl
  rw [offerOrder_none hh (decide_eq_false hk)]

/-- The telegram a MOVE goes on as, at creep speed outside SERVICE (R45 check 4). -/
theorem creepOutside_move (s : State) (h : Header) (target : BitVec 24) (speed oven : Byte) :
    creepOutside s (arrived h Kind.move (toBytes 3 target.toNat ++ [speed, oven])) =
      arrived h Kind.move (toBytes 3 target.toNat ++ [if s.mgt.mode = .service then speed else 0#8, oven]) := by
  unfold creepOutside
  split
  · rfl
  · unfold creepTo
    have h1 : moveTarget (arrived h Kind.move (toBytes 3 target.toNat ++ [speed, oven])) = target.toNat :=
      reportedPosition_body target speed oven
    have h2 : moveOven (arrived h Kind.move (toBytes 3 target.toNat ++ [speed, oven])) = oven.toNat := rfl
    rw [h1, h2]
    unfold moveBody codeByte
    simp [arrived]

theorem exec_controlMove {h : Header} {target : BitVec 24} {speed oven : Byte} {s : State} {p : Nat}
    (hs : ForStation s p (arrived h Kind.move (toBytes 3 target.toNat ++ [speed, oven]))) :
    let u := arrived h Kind.move (toBytes 3 target.toNat ++ [speed, oven])
    exec (.controlMove h target speed oven) s = .next (controlMove (entryFor s .control u) p u (controlAccepted s)) := by
  show Host.Outcome.next (controlArrival _ s) = _
  rw [controlArrival_toStation hs]
  unfold controlToStation
  dsimp only
  rw [if_pos (kindOf_arrived _ (by decide) _ _)]
  rfl

/-- The TASKs that are not refused WRONG_CLASS: a RESEAT to the PM with PS or the CGM with CS (R45). -/
theorem taskRefusal_eq (s : State) (p : Nat) (task side : Byte) (oven : Nat) :
    taskRefusal s p task.toNat oven side.toNat =
      if task = 1#8 ∧ ((pollEntry s p).cls = .pm ∧ side = 1#8 ∨ (pollEntry s p).cls = .cgm ∧ side = 2#8) then
        (if configured s oven then none else some Reason.unknownOven)
      else some Reason.wrongClass := by
  have h1 : task.toNat = 1 ↔ task = 1#8 := ⟨fun h => BitVec.eq_of_toNat_eq h, fun h => by rw [h]; rfl⟩
  have h2 : 1 = side.toNat ↔ side = 1#8 := ⟨fun h => BitVec.eq_of_toNat_eq h.symm, fun h => by rw [h]; rfl⟩
  have h3 : 2 = side.toNat ↔ side = 2#8 := ⟨fun h => BitVec.eq_of_toNat_eq h.symm, fun h => by rw [h]; rfl⟩
  unfold taskRefusal sealSide doorSideAt
  by_cases hc : configured s oven = true <;> by_cases ht : task = 1#8 <;>
    cases (pollEntry s p).cls <;> simp [StationClass.isMachine, doorCode, h1, h2, h3, hc, ht]
  all_goals (split <;> simp_all)

theorem carMove_formError {s : State} {c p why : Nat} {u : Telegram} (hf : carMoveForm s c u = .error why) :
    carMove c p (controlOrder u) s = .error why := by
  unfold carMove; rw [show (controlOrder u).telegram = u from rfl, hf]

theorem carMove_halted {s : State} {c p : Nat} {u v : Telegram} (hf : carMoveForm s c u = .ok v)
    (hv : kindOf v ≠ Kind.halt) (hh : haltWaits s p = true) :
    carMove c p (controlOrder u) s = .error Reason.haltPending := by
  unfold carMove
  rw [show (controlOrder u).telegram = u from rfl, hf]
  dsimp only
  rw [offerOrder_none hh (show isHalt { controlOrder u with telegram := v } = false from decide_eq_false hv)]

end Sys2Proof.Machine
end

