-- ==== Sys2Proof/Laws/RequestFacts.lean ====
section
/-!
SUPPORT. What the management requests other than LOAD and READ bring about in the records they name.
-/

set_option Elab.async false
namespace Sys2Proof.Machine

open Sys2Proof

theorem mgmtArrival_answers (code size : Nat) (f : State → Reply) (s : State) (hsz : size ≤ 48) :
    mgmtArrival code size f s = answer code (f (requestState code s)) := by
  unfold mgmtArrival managed requestState
  rw [if_neg (by omega)]

theorem answered_answer (code : Nat) (r : Reply) : Answered code r.status r.data (answer code r) := ⟨r.state, rfl⟩

theorem ovenRec_setPhaseOnly {n : Nat} {ph : Phase} {s : State} (h : configured s n = true) : ovenRec
    (setPhaseOnly n ph s) n = { ovenRec s n with phase := ph } := by
  unfold setPhaseOnly
  rw [ovenRec_setPhase, if_pos ⟨rfl, configured_range h⟩]

theorem setPhaseOnly_same {n : Nat} {s : State} : setPhaseOnly n (ovenRec s n).phase s = s := by
  unfold setPhaseOnly setPhase; dsimp only; rw [if_pos (by simp)]

theorem putFreeze_ovenRec (b : Bool) (n m : Nat) (s : State) (hm : 1 ≤ m ∧ m ≤ 128) : ovenRec (putFreeze b n s) m =
    if n = m then { ovenRec s m with freeze := b } else ovenRec s m := by
  unfold putFreeze
  rw [ovenRec_setOvenRec]
  by_cases h : n = m
  · subst h; rw [if_pos ⟨rfl, hm⟩, if_pos rfl]
  · rw [if_neg (fun hh => h hh.1), if_neg h]

theorem foldFreeze_freeze (b : Bool) (m : Nat) (hm : 1 ≤ m ∧ m ≤ 128) (l : List Nat) : ∀ s : State,
    (m ∈ l ∨ (ovenRec s m).freeze = b) →
   ovenRec (l.foldl (fun s n => putFreeze b n s) s) m = { ovenRec s m with freeze := b } := by
  induction l with
  | nil => intro s h; rcases h with h | h; · cases h
           rw [← h]; rfl
  | cons n l ih =>
    intro s h
    rw [List.foldl_cons, ih, putFreeze_ovenRec b n m s hm]
    · split <;> rfl
    · rw [putFreeze_ovenRec b n m s hm]
      by_cases hn : n = m
      · right; rw [if_pos hn]
      · rw [if_neg hn]; rcases h with h | h
        · left; simp at h; exact h.resolve_left (fun h => hn h.symm)
        · exact Or.inr h

theorem freezeOvens_freezes (b : Bool) (n : Byte) (s : State) (h : configured s n.toNat = true ∨ n = 0#8) :
    (freezeOvens b n.toNat s).status = Status.ok ∧ (freezeOvens b n.toNat s).data = [] ∧
    ∀ m, configured s m = true → n = 0#8 ∨ m = n.toNat → ovenRec (freezeOvens b n.toNat s).state m =
      { ovenRec s m with freeze := b } := by
  unfold freezeOvens
  by_cases hn : n.toNat = 0
  · rw [if_pos hn]
    refine ⟨rfl, rfl, fun m hm _ => foldFreeze_freeze b m (configured_range hm) _ s (Or.inl (mem_configuredOvens hm))⟩
  · rw [if_neg hn]
    have hn0 : n ≠ 0#8 := fun h => hn (by rw [h]; rfl)
    have hc := h.resolve_right hn0
    rw [if_pos hc]
    refine ⟨rfl, rfl, fun m hm h => ?_⟩
    have := h.resolve_left hn0
    subst this
    show ovenRec (putFreeze b n.toNat s) n.toNat = _
    rw [putFreeze_ovenRec _ _ _ _ (configured_range hm), if_pos rfl]

theorem towerGrant_cars (s : State) : (towerGrant s).qtc.cars = s.qtc.cars := by unfold towerGrant; split <;> rfl

theorem towerJoin_cars (c : Nat) (s : State) : (towerJoin c s).qtc.cars = s.qtc.cars := by
  unfold towerJoin; split
  · rfl
  · exact towerGrant_cars _

theorem carCleared_carRec {c : Nat} (hc : c = 1 ∨ c = 2) (s : State) : let r := carRec (carCleared c s) c;
    r.position = none ∧ r.occupied = [] ∧ r.reserved = [] ∧ r.move = none ∧ r.haltRelease = false := by
  have hr : c = c ∧ 1 ≤ c ∧ c ≤ 2 := by omega
  unfold carCleared
  extract_lets r s1
  have h1 : carRec s1 c = { r with
      position := none
      occupied := []
      reserved := []
      move := none
      haltRelease := false } := by
    show carRec (setCarRec c _ s) c = _
    rw [carRec_setCarRec, if_pos hr]
  have h2 : ∀ d, carRec s1 c = d → d.reserved = [] → carRec (towerRelease c s1) c = d := by
    intro d hd hr0
    have : (towerRelease c s1).qtc.cars =
      (setCarRec c { carRec s1 c with reserved := (carRec s1 c).reserved.filter fun k => !isTower s1 k }
        s1).qtc.cars := by
      unfold towerRelease
      extract_lets r2 s2 s3
      have : s3.qtc.cars = s2.qtc.cars := towerGrant_cars _
      split
      · rw [towerJoin_cars, this]
      · exact this
    show readNum (towerRelease c s1).qtc.cars c {} = d
    rw [this]
    show carRec (setCarRec c _ s1) c = d
    rw [carRec_setCarRec, if_pos hr, hd, hr0]
    cases d; simp at hr0 ⊢; exact hr0
  have h3 : carRec (if s1.qtc.holder = some c then towerRelease c s1 else s1) c = carRec s1 c := by
    split
    · exact h2 _ rfl (by rw [h1])
    · rfl
  show (carRec (if s1.qtc.holder = some c then towerRelease c s1 else s1) c).position = none ∧
    (carRec (if s1.qtc.holder = some c then towerRelease c s1 else s1) c).occupied = [] ∧
      (carRec (if s1.qtc.holder = some c then towerRelease c s1 else s1) c).reserved = [] ∧
        (carRec (if s1.qtc.holder = some c then towerRelease c s1 else s1) c).move = none ∧
          (carRec (if s1.qtc.holder = some c then towerRelease c s1 else s1) c).haltRelease = false
  rw [h3, h1]
  exact ⟨rfl, rfl, rfl, rfl, rfl⟩

theorem carCleared_settled {c : Nat} (hc : c = 1 ∨ c = 2) (s : State) :
    let r := carRec (ilkSettle s (carCleared c s)) c;
      r.position = none ∧ r.occupied = [] ∧
        (s.ilk.permits = [] → r.reserved = [] ∧ r.move = none ∧ r.haltRelease = false) := by
  obtain ⟨h1, h2, h3⟩ := carCleared_carRec hc s
  obtain ⟨p1, p2⟩ := (ilkSettle_touches s (carCleared c s)).places_kept (by decide) c
  refine ⟨p1.trans h1, p2.trans h2, fun hp => ?_⟩
  have : ilkSettle s (carCleared c s) = carCleared c s := by
    unfold ilkSettle
    rw [(carCleared_touches c s).permits_kept, hp]
    rfl
  rw [this]; exact h3

/-- The blocks that a change of an oven's phase leaves as they are where no run is RUNNING. -/
abbrev Still (s t : State) : Prop := t.sch = s.sch ∧ t.qtc = s.qtc ∧ t.dsm = s.dsm ∧ t.fpl = s.fpl ∧ t.fpi =
    s.fpi ∧ t.ilk = s.ilk

theorem putReg_still (n : Nat) (r : RegRecord) (s : State) : Still s (putReg n r s) := by
  unfold putReg; split <;> exact ⟨rfl, rfl, rfl, rfl, rfl, rfl⟩

theorem oprDerive_still (n : Nat) (s : State) : Still s (oprDerive n s) := by
  unfold oprDerive; extract_lets m
  split
  · exact ⟨rfl, rfl, rfl, rfl, rfl, rfl⟩
  · exact putReg_still _ _ _

theorem setPhase_still {s : State} (h : s.run.state ≠ .running) (n : Nat) (ph : Phase) (st : Int) : Still s
    (setPhase n ph st s) := by
  unfold setPhase; extract_lets r
  split
  · exact ⟨rfl, rfl, rfl, rfl, rfl, rfl⟩
  · let u := oprDerive n (setOvenRec n { r with phase := ph, stamp := st } s)
    have e : Still s u := oprDerive_still n (setOvenRec n { r with phase := ph, stamp := st } s)
    have hr : u.run = s.run := by show u.sch.run = s.sch.run; rw [e.1]
    have : schPhaseChange n u = u := by
      unfold schPhaseChange
      rw [if_neg (by rw [hr]; simp [h])]
    show Still s (schPhaseChange n u)
    rw [this]; exact e

/-- `Still`, but for what an event changes. -/
abbrev Quiet (s t : State) : Prop := t.sch = s.sch ∧ t.qtc = s.qtc ∧ t.dsm = s.dsm ∧ t.fpl = s.fpl ∧ t.ilk = s.ilk

theorem raise_quiet (k : EventKind) (o a : Nat) (d : Int) (s : State) : Quiet s (raise k o a d s) := by
  unfold raise; dsimp only; split <;> exact ⟨rfl, rfl, rfl, rfl, rfl⟩

theorem Quiet.trans' {s t u : State} (h : Quiet s t) (k : Quiet t u) : Quiet s u :=
    ⟨k.1.trans h.1, k.2.1.trans h.2.1, k.2.2.1.trans h.2.2.1, k.2.2.2.1.trans h.2.2.2.1, k.2.2.2.2.trans h.2.2.2.2⟩

theorem Still.quiet {s t : State} (h : Still s t) : Quiet s t := ⟨h.1, h.2.1, h.2.2.1, h.2.2.2.1, h.2.2.2.2.2⟩

theorem warmOven_quiet {s : State} (h : s.run.state ≠ .running) (n : Nat) : Quiet s (warmOven n s) := by
  unfold warmOven ovtPushBroken ovtChargeCut
  have h1 : Quiet s (if (ovenRec s n).phase = .pushing then setPhaseOnly n .pushInterrupted s else s) := by
    split
    · exact Still.quiet (setPhase_still h _ _ _)
    · exact ⟨rfl, rfl, rfl, rfl, rfl⟩
  refine h1.trans' ?_
  generalize (if (ovenRec s n).phase = .pushing then setPhaseOnly n .pushInterrupted s else s) = u at h1 ⊢
  have hu : u.run.state ≠ .running := by show u.sch.run.state ≠ _; rw [h1.1]; exact h
  split
  · unfold chargeIncomplete
    exact (Still.quiet (setPhase_still hu _ _ _)).trans' (raise_quiet _ _ _ _ _)
  · exact ⟨rfl, rfl, rfl, rfl, rfl⟩

theorem warmAll_quiet (l : List Nat) : ∀ s : State, s.run.state ≠ .running → Quiet s
    (l.foldl (fun s n => warmOven n s) s) := by
  induction l with
  | nil => intro s _; exact ⟨rfl, rfl, rfl, rfl, rfl⟩
  | cons n l ih =>
    intro s h
    have h1 := warmOven_quiet h n
    exact h1.trans' (ih _ (by show (warmOven n s).sch.run.state ≠ _; rw [h1.1]; exact h))

theorem putOrder_tasks {s : State} (h : s.dsm.taskPm = {} ∧ s.dsm.taskCgm = {}) (p : Nat) (o : Order) :
    (putOrder p o s).dsm.taskPm = {} ∧ (putOrder p o s).dsm.taskCgm = {} := by
  unfold putOrder
  split
  · exact h
  · split
    · exact h
    · unfold orderLeftUndelivered
      split
      · split
        · next side _ _ => cases side <;> exact ⟨by first | rfl | exact h.1, by first | rfl | exact h.2⟩
        · exact h
      · exact h

theorem haltFold_waits (l : List Nat) : ∀ s : State, s.dsm.taskPm = {} ∧ s.dsm.taskCgm = {} →
    let t := l.foldl (fun s p => placeHalt .mgt HaltReason.restart (some p) s) s
    (t.dsm.taskPm = {} ∧ t.dsm.taskCgm = {}) ∧ ∀ p, p < 24 → (p ∈ l ∨ haltWaits s p = true) → haltWaits t p =
      true := by
  induction l with
  | nil => intro s h; exact ⟨h, fun p _ hp => hp.resolve_left (by simp)⟩
  | cons q l ih =>
    intro s h
    obtain ⟨a, b⟩ := ih (placeHalt .mgt HaltReason.restart (some q) s) (putOrder_tasks h _ _)
    refine ⟨a, fun p hp hh => b p hp ?_⟩
    rcases hh with hh | hh
    · rcases List.mem_cons.mp hh with rfl | hh
      · exact Or.inr (placeHalt_waits hp _ _ _)
      · exact Or.inl hh
    · exact Or.inr ((placeHalt_touches _ _ _ _).halts_kept (by decide) p hh)

theorem emptyAnswers_none (s : State) (p : Nat) : answerAt (emptyAnswers s) p = none := by
  unfold answerAt outbound
  show Option.map Answer.body (readAt (s.fpl.outbound.map fun o : Outbound => { o with answer := none }) p
    ({} : Outbound)).answer = none
  by_cases hp : p < 24
  · rw [readAt_map _ _ _ _ hp]; rfl
  · rw [readAt_ge _ _ _ hp]; rfl

theorem warmRestart_leaves (s : State) : let t := warmRestart s
    t.mgt.mode = .standby ∧ t.ilk.permits = [] ∧ t.run = {} ∧ t.sch.sense = {} ∧ t.qtc.holder = none ∧
    t.qtc.idle = [] ∧ t.dsm.taskPm = {} ∧ t.dsm.taskCgm = {} ∧ (∀ p, answerAt t p = none) ∧
    ∀ p, p < 24 → p < s.fpl.length → (pollEntry s p).cls.isMachine = true → haltWaits t p = true := by
  unfold warmRestart
  extract_lets b s1 s2 s3
  let v2 := allOvens.foldl (fun s n => warmOven n s) s1
  have h1 : s1.run = {} ∧ s1.sch.sense = {} ∧ s1.qtc.holder = none ∧ s1.qtc.idle = [] ∧ s1.ilk.permits = [] ∧
    s1.fpl = s.fpl := ⟨rfl, rfl, rfl, rfl, rfl, rfl⟩
  have q2 : Quiet s1 v2 := warmAll_quiet allOvens s1 (by rw [h1.1]; decide)
  have k2 : Touches [.counts, .transmit] v2 s2 := closeCut_touches b v2
  let w := emptyAnswers (endTasks s2)
  have ht : w.dsm.taskPm = {} ∧ w.dsm.taskCgm = {} := ⟨rfl, rfl⟩
  let l := (positions w).filter fun p => (pollEntry w p).cls.isMachine
  obtain ⟨ta, hw⟩ := haltFold_waits l w ht
  have kh : Touches [.outbound, .tasks] w (haltMachines w) := haltMachines_touches w
  have k3 : Touches [.outbound, .answers, .tasks] s2 (haltMachines w) :=
    (endTasks_touches _).mono.seq ((emptyAnswers_touches _).mono.seq kh.mono)
  have kd := oprDeriveAll_touches allOvens s3
  have e3 : s3 = setMode .standby (haltMachines w) := rfl
  have kall : Touches [.outbound, .answers, .tasks, .counts, .transmit] v2 (haltMachines w) := k2.mono.seq k3.mono
  have r2 : v2.run = {} := by show v2.sch.run = _; rw [q2.1]; exact h1.1
  refine ⟨?_, ?_, ?_, ?_, ?_, ?_, ?_, ?_, ?_, ?_⟩
  · rw [kd.mode_kept]; rfl
  · rw [kd.permits_kept]
    show (haltMachines w).ilk.permits = []
    rw [kall.permits_kept, q2.2.2.2.2]; exact h1.2.2.2.2.1
  · rw [kd.runRecord_kept]
    show (haltMachines w).run = {}
    rw [kall.runRecord_kept, r2]
  · rw [kd.sense_kept]
    show (haltMachines w).sch.sense = {}
    rw [kall.sense_kept, q2.1]; exact h1.2.1
  · rw [kd.tower_kept.1]
    show (haltMachines w).qtc.holder = none
    rw [kall.tower_kept.1, q2.2.1]; rfl
  · rw [kd.idle_kept.1]
    show (haltMachines w).qtc.idle = []
    rw [kall.idle_kept.1, q2.2.1]; rfl
  · rw [kd.tasks_kept.1]; exact ta.1
  · rw [kd.tasks_kept.2]; exact ta.2
  · intro p
    rw [kd.answers_kept (by decide)]
    show answerAt (haltMachines w) p = none
    rw [kh.answers_kept (by decide)]
    exact emptyAnswers_none _ _
  · intro p hp hl hm
    refine kd.halts_kept (by decide) p ?_
    show haltWaits (haltMachines w) p = true
    have kw : Touches [.outbound, .answers, .tasks, .counts, .transmit] v2 w :=
      k2.mono.seq ((endTasks_touches _).mono.seq (emptyAnswers_touches _).mono)
    refine hw p hp (Or.inl ?_)
    refine List.mem_filter.mpr ⟨?_, ?_⟩
    · unfold positions
      rw [kw.pollTables_kept.2.1, q2.2.2.2.1]
      exact List.mem_range.mpr hl
    · rw [kw.pollEntry_kept]
      unfold pollEntry
      rw [q2.2.2.2.1]
      exact hm

theorem fieldRestart_leaves (s : State) : let t := fieldRestart s
    t.fpi.line = .idle ∧ t.fpl.exchange = none ∧ (∀ p, answerAt t p = none) ∧ ∀ p, (station t p).state = .absent := by
  unfold fieldRestart
  extract_lets s1 s2 b s3 s4
  have k1 : Touches [.outbound, .tasks] (emptyAnswers s1) s2 :=
    Touches.foldl _ (fun s p => (clearOrder_touches p s).seq (uncarry_touches _ _).mono) _
  have k2 : Touches cutAspects (allAbsent s2) s3 := ilkSettle_touches _ _
  have k3 : Touches cutAspects s3 s4 := Touches.foldl _ (fun s p => departureTaken_touches p s) _
  have k4 := roundOn_touches s4
  have kk : Touches (.rounds :: .drawn :: cutAspects) (allAbsent s2) (roundOn s4) := k2.mono.seq (k3.mono.seq k4)
  have ka := allAbsent_touches s2
  refine ⟨?_, ?_, ?_, ?_⟩
  · rw [kk.line_kept.1, ka.line_kept.1, k1.line_kept.1]; rfl
  · rw [kk.exchange_kept, ka.exchange_kept, k1.exchange_kept]; rfl
  · intro p
    rw [kk.answers_kept (by decide), ka.answers_kept (by decide), k1.answers_kept (by decide)]
    exact emptyAnswers_none _ _
  · intro p
    rw [kk.station_kept]
    unfold station
    show (readAt (s2.fpl.stations.map fun r :
      StationRecord => { r with state := .absent, misses := 0, joinProgress := 0, joinRef := none }) p
        ({} : StationRecord)).state = .absent
    by_cases hp : p < 24
    · rw [readAt_map _ _ _ _ hp]
    · rw [readAt_ge _ _ _ hp]

theorem runEngaged_iff {s : State} : runEngaged s = true ↔ s.run.state = .running ∨ s.run.state = .held := by
  unfold runEngaged; simp

/-- The run keeps its state, cursor, counts and stretch: only its step, car and moves may differ. -/
abbrev KeepsRun (s t : State) : Prop := t.run.state = s.run.state ∧ t.run.cursor = s.run.cursor ∧ t.run.pushed =
    s.run.pushed ∧ t.run.skipped = s.run.skipped ∧ t.run.residual = s.run.residual ∧ t.run.start = s.run.start ∧
      t.run.requested = s.run.requested

theorem keepsRun_trans {s t u : State} (h : KeepsRun s t) (k : KeepsRun t u) : KeepsRun s u :=
  ⟨k.1.trans h.1, k.2.1.trans h.2.1, k.2.2.1.trans h.2.2.1, k.2.2.2.1.trans h.2.2.2.1, k.2.2.2.2.1.trans
    h.2.2.2.2.1, k.2.2.2.2.2.1.trans h.2.2.2.2.2.1, k.2.2.2.2.2.2.trans h.2.2.2.2.2.2⟩

theorem keepsRun_refl (s : State) : KeepsRun s s := ⟨rfl, rfl, rfl, rfl, rfl, rfl, rfl⟩

theorem keepsRun_of_eq {s t : State} (h : t.run = s.run) : KeepsRun s t := by
  unfold KeepsRun; rw [h]; exact ⟨rfl, rfl, rfl, rfl, rfl, rfl, rfl⟩

theorem offerMoves_keepsRun (s : State) : KeepsRun s (offerMoves s) := by
  unfold offerMoves
  generalize (s.run.moves.filter fun m => !m.placed) = ms
  induction ms generalizing s with
  | nil => exact keepsRun_refl s
  | cons m ms ih =>
    simp only [List.foldl_cons]
    cases h : offerRunMove m s with
    | none => exact ih s
    | some u =>
        exact keepsRun_trans (keepsRun_trans (keepsRun_of_eq (offerRunMove_run h))
          ⟨rfl, rfl, rfl, rfl, rfl, rfl, rfl⟩) (ih (markPlaced m u))

theorem openTest_keepsRun (s : State) : KeepsRun s (openTest s) := by
  unfold openTest; extract_lets n
  split
  · exact ⟨rfl, rfl, rfl, rfl, rfl, rfl, rfl⟩
  · exact keepsRun_refl s

theorem arrivalTest_keepsRun (s : State) : KeepsRun s (arrivalTest s) := by
  unfold arrivalTest
  split
  · exact keepsRun_trans ⟨rfl, rfl, rfl, rfl, rfl, rfl, rfl⟩ (openTest_keepsRun _)
  · exact keepsRun_refl s

theorem formMoves_keepsRun (s : State) : KeepsRun s (formMoves s) := by
  unfold formMoves; extract_lets moves
  exact keepsRun_trans ⟨rfl, rfl, rfl, rfl, rfl, rfl, rfl⟩
    (offerMoves_keepsRun (onRun (fun r => { r with moves := moves }) s))

theorem entryTest_keepsRun (s : State) : KeepsRun s (entryTest s) := by
  unfold entryTest
  split
  · exact keepsRun_trans ⟨rfl, rfl, rfl, rfl, rfl, rfl, rfl⟩
      (keepsRun_trans (formMoves_keepsRun (withdrawCar (enterStep .position s.sch.timing.position s)))
        (arrivalTest_keepsRun _))
  · exact keepsRun_refl s

theorem handCar_keepsRun (c : Nat) (s : State) : KeepsRun s (handCar c s) := by
  unfold handCar; extract_lets r s1
  exact keepsRun_trans ⟨rfl, rfl, rfl, rfl, rfl, rfl, rfl⟩
    (entryTest_keepsRun (onRun (fun r => { r with car := some c }) (withdrawCar s1)))

theorem carRequestTest_keepsRun (s : State) : KeepsRun s (carRequestTest s) := by
  unfold carRequestTest
  split
  · split
    · exact handCar_keepsRun _ _
    · exact keepsRun_of_eq rfl
  · exact keepsRun_refl s

theorem waitTests_keepsRun (s : State) : KeepsRun s (waitTests s) := keepsRun_trans (carRequestTest_keepsRun s)
    (entryTest_keepsRun _)

theorem afterRun_keepsRun (b s : State) : KeepsRun s (afterRun b s) := keepsRun_of_eq
    (afterRun_touches b s).runRecord_kept

theorem workable_not_skipped {ph : Phase} (h : workable ph = true) : skippedPhase ph = false ∧
    ph ≠ .pushInterrupted ∧ ph ≠ .pushing := by
  cases ph <;> simp [workable, skippedPhase] at h ⊢

theorem takeUp_workable {s : State} (h : workable (currentPhase s) = true) : takeUp s = waitTests s := by
  obtain ⟨h1, h2, _⟩ := workable_not_skipped h
  unfold takeUp phaseCases
  rw [if_neg (by rw [h1]; decide), if_neg h2]

theorem holdRun_run (s : State) : ((s.run.state = .held → (holdRun s).run = s.run) ∧
    (s.run.state = .running → s.run.step = .wait ∨ s.run.step = .position → (holdRun s).run =
      { s.run with state := .held }) ∧
    (s.run.state = .running → s.run.step ≠ .wait → s.run.step ≠ .position → (holdRun s).run =
      { s.run with holdPending := true })) := by
  refine ⟨fun hh => ?_, fun hr hs => ?_, fun hr h1 h2 => ?_⟩
  · unfold holdRun; rw [if_neg (by rw [hh]; decide)]
  · unfold holdRun
    rw [if_pos hr, if_pos (by simpa using hs), (afterRun_touches _ _).runRecord_kept]
    rfl
  · unfold holdRun
    rw [if_pos hr, if_neg (by simp [h1, h2])]
    rfl

theorem waitTests_before_lead {s : State} (h : s.now < s.run.planned - s.sch.timing.lead) : waitTests s = s := by
  have hl : leadReached s = false := not_reached_of_lt h
  unfold waitTests carRequestTest
  rw [if_neg (by simp [hl])]
  unfold entryTest entryReady
  rw [if_neg (by simp [hl])]

end Sys2Proof.Machine
end

