-- ==== Sys2Proof/Laws/Breaks.lean ====
section
/-!
SUPPORT. What a break brings about (R38, R39, R42), and what the re-evaluation of the hold terms leaves as it was.
-/

set_option Elab.async false
namespace Sys2Proof.Machine

open Sys2Proof

/-! ## Runs that are not RUNNING -/

theorem Touches.sch_kept {l : List Aspect} {s t : State} (h : Touches l s t) (h1 : Aspect.run ∉ l := by decide)
    (h2 : Aspect.sense ∉ l := by decide) (h3 : Aspect.watch ∉ l := by decide)
    (h4 : Aspect.latenessMark ∉ l := by decide) (h5 : Aspect.runnerTables ∉ l := by decide) : t.sch = s.sch := by
  have e1 : t.sch.run = s.sch.run := h .run h1
  have e2 := h.sense_kept h2
  have e3 := h.watch_kept h3
  have e4 := h.latenessMark_kept h4
  have e5 := h.runnerTables_kept h5
  generalize t.sch = a at *
  generalize s.sch = b at *
  cases a
  cases b
  simp only at *
  simp only [e1, e2, e3.1, e3.2, e4, e5.1, e5.2.1, e5.2.2.1, e5.2.2.2]

/-- The state at which the effects by kind of a break begin: the entry gone, the event counted, the HALT placed. -/
abbrev cutStart (e : Permit) (ev : EventKind) (a b : Nat) (s : State) : State :=
  placeHalt .ilk b (posOfAddress (raise ev e.oven e.station a (dropEntryOf e s)) e.station)
    (raise ev e.oven e.station a (dropEntryOf e s))

theorem cutPermit_eq (e : Permit) (ev : EventKind) (a b c d : Nat) (s : State) :
    cutPermit e ev a b c d s = departFree e (cutEffects e c d (cutStart e ev a b s)) := rfl

theorem cutStart_touches (e : Permit) (ev : EventKind) (a b : Nat) (s : State) :
    Touches [.permits, .counts, .transmit, .outbound, .tasks] s (cutStart e ev a b s) :=
  (dropEntryOf_touches e s).mono.seq ((raise_touches _ _ _ _ _).mono.seq (placeHalt_touches _ _ _ _).mono)

theorem cutStart_permits (e : Permit) (ev : EventKind) (a b : Nat) (s : State) :
    (cutStart e ev a b s).ilk.permits = s.ilk.permits.erase e :=
  ((placeHalt_touches _ _ _ _).permits_kept).trans (raise_touches _ _ _ _ _).permits_kept

/-- The effects by kind leave the set as it is. -/
theorem cutEffects_within (e : Permit) (d c : Nat) (s : State) :
    Touches (.tower :: phaseAspects) s (cutEffects e d c s) := by
  unfold cutEffects
  split
  · exact (ovtPushBroken_touches _ _).mono.seq ((withCar_touches _ fun c => carLoads_touches c true _).mono.seq
      (schPushBroken_touches _ _ _).mono)
  · exact (ovtChargeCut_touches _ _ _ _).mono
  · exact (oprDerive_touches _ _).mono
  · exact .refl _ _
  · exact (withDoor_touches _ fun d => taskPermitEnds_touches d false _).mono
  · exact (withCar_touches _ fun c => carQuenchEnds_touches c false _).mono
  · exact (withCar_touches _ fun c => carDumpEnds_touches c false _).mono
  · exact .refl _ _

/-- A break takes its entry out of the set, and no other (R39). -/
theorem breakPermit_permits (e : Permit) (t : Nat) (s : State) :
    (breakPermit e t s).ilk.permits = s.ilk.permits.erase e :=
  ((departFree_touches e _).permits_kept).trans
    (((cutEffects_within e t 2 _).permits_kept).trans (cutStart_permits e _ _ _ s))

/-- No break changes the schedule runner's records where no run is RUNNING. -/
theorem breakPermit_sch {s : State} (h : s.run.state ≠ .running) (e : Permit) (t : Nat) :
    (breakPermit e t s).sch = s.sch := by
  have e1 : (cutStart e .permitBroken t HaltReason.permitBroken s).sch = s.sch := (cutStart_touches _ _ _ _ s).sch_kept
  unfold State.run at h
  rw [← e1] at h ⊢
  show (departFree e (cutEffects e t 2 (cutStart e .permitBroken t HaltReason.permitBroken s))).sch = _
  rw [(departFree_touches e _).sch_kept]
  generalize cutStart e .permitBroken t HaltReason.permitBroken s = u at h ⊢
  have hp : ∀ n ph st, (setPhase n ph st u).sch = u.sch := fun n ph st => (setPhase_still h n ph st).1
  unfold cutEffects
  split
  · have h1 : (ovtPushBroken e.oven u).sch = u.sch := by
      unfold ovtPushBroken
      split
      · exact hp _ _ _
      · rfl
    have h2 := (withCar_touches e.car fun c => carLoads_touches c true (ovtPushBroken e.oven u)).sch_kept
    unfold schPushBroken
    rw [if_neg, h2, h1]
    intro hc
    simp only [Bool.and_eq_true, decide_eq_true_eq] at hc
    apply h
    have := hc.1
    unfold State.run at this
    rwa [h2, h1] at this
  · unfold ovtChargeCut chargeIncomplete
    split
    · exact ((raise_touches _ _ _ _ _).sch_kept).trans (hp _ _ _)
    · rfl
  · exact (oprDerive_touches _ _).sch_kept
  · rfl
  · exact (withDoor_touches _ fun d => taskPermitEnds_touches d false _).sch_kept
  · exact (withCar_touches _ fun c => carQuenchEnds_touches c false _).sch_kept
  · exact (withCar_touches _ fun c => carDumpEnds_touches c false _).sch_kept
  · rfl

/-- The re-evaluation leaves the schedule runner's records as they are where no run is RUNNING. -/
theorem ilkSettle_sch {s : State} (h : s.run.state ≠ .running) (b : State) : (ilkSettle b s).sch = s.sch := by
  unfold ilkSettle
  generalize s.ilk.permits.length = f
  induction f generalizing s with
  | zero => rfl
  | succ f ih =>
    unfold settleLoop
    split
    · next e t _ =>
      have e1 := breakPermit_sch h e t
      rw [ih (by unfold State.run; rw [e1]; exact h), e1]
    · rfl

/-! ## The loop of breaks -/

/-- Nothing differs between a state and itself. -/
theorem inputChanged_self (s : State) (e : Permit) : inputChanged s s e = false := by
  have h1 : ∀ p, alignMoved s s p = false := fun p => by unfold alignMoved; simp
  unfold inputChanged
  extract_lets i own terms
  simp only [h1, ne_eq, not_true_eq_false, decide_false, Bool.false_and, Bool.or_false, Bool.and_false,
    Bool.or_eq_false_iff]
  refine ⟨⟨⟨⟨?_, ?_⟩, ?_⟩, ?_⟩, ?_⟩
  · exact List.any_eq_false.mpr fun q _ => by cases q <;> simp
  · exact List.any_eq_false.mpr fun q _ => by simp
  · cases carOf s own <;> rfl
  · cases e.car <;> rfl
  · cases chargeOn s e.oven <;> rfl

/-- What the first entry to break is (R38, R41). -/
theorem firstBroken_some {b s : State} {e : Permit} {t : Nat} (h : firstBroken b s = some (e, t)) :
    e ∈ s.ilk.permits ∧ inputChanged b s e = true ∧ failedHold s e = some t := by
  obtain ⟨x, hx, hk⟩ := List.exists_of_findSome?_eq_some h
  split at hk
  · next hc =>
    cases hf : failedHold s x with
    | none => rw [hf] at hk; exact nomatch hk
    | some u =>
      rw [hf] at hk
      injection hk with hk
      injection hk with h1 h2
      subst h1 h2
      exact ⟨hx, hc, hf⟩
  · exact nomatch hk

/-- What a failed hold term is (R38). -/
theorem failedHold_some {s : State} {e : Permit} {t : Nat} (h : failedHold s e = some t) :
    t ∈ effectiveTerms s e.kind ∧ isHoldTerm t = true ∧ termHolds s (inputOf s e) t = false := by
  have h1 := List.mem_of_find?_eq_some h
  have h2 := List.find?_some h
  simp only [Bool.and_eq_true, Bool.not_eq_true'] at h2
  exact ⟨h1, h2.1, h2.2⟩

theorem breakPermit_length {b s : State} {e : Permit} {t : Nat} (h : firstBroken b s = some (e, t)) :
    (breakPermit e t s).ilk.permits.length + 1 = s.ilk.permits.length := by
  have hm := (firstBroken_some h).1
  have h1 := List.length_erase_of_mem hm
  have h2 := List.length_pos_of_mem hm
  rw [breakPermit_permits]
  omega

/-- One break, and the rest of the loop. -/
theorem ilkSettle_step {b s : State} {e : Permit} {t : Nat} (h : firstBroken b s = some (e, t)) :
    ilkSettle b s = ilkSettle b (breakPermit e t s) := by
  have hl := breakPermit_length h
  unfold ilkSettle
  rw [← hl]
  conv => lhs; unfold settleLoop
  rw [h]

/-- Nothing to break, nothing changes. -/
theorem ilkSettle_none {b s : State} (h : firstBroken b s = none) : ilkSettle b s = s := by
  unfold ilkSettle
  cases s.ilk.permits.length with
  | zero => rfl
  | succ n =>
    unfold settleLoop
    rw [h]

/-- An entry whose input has changed is left by the re-evaluation only where its hold terms hold. -/
theorem ilkSettle_held {b s : State} {e : Permit} (he : e ∈ (ilkSettle b s).ilk.permits)
    (hc : inputChanged b (ilkSettle b s) e = true) : failedHold (ilkSettle b s) e = none := by
  have := List.findSome?_eq_none_iff.mp (ilkSettle_done b s) e he
  rwa [if_pos hc, Option.map_eq_none_iff] at this

/-! ## What a break of each kind brings about (R39) -/

/-- A car that is not UNKNOWN is car 1 or 2. -/
theorem carRec_range {s : State} {c : Nat} (h : (carRec s c).state ≠ .unknown) : 1 ≤ c ∧ c ≤ 2 := by
  apply Decidable.byContradiction
  intro hn
  apply h
  have : carRec s c = {} := by
    unfold carRec readNum
    split
    · rfl
    · exact readAt_ge _ _ _ (by omega)
  rw [this]

/-- An oven in service is one of the 128. -/
theorem ovenRec_range {s : State} {n : Nat} (h : (ovenRec s n).phase ≠ .outOfService) : 1 ≤ n ∧ n ≤ 128 := by
  apply Decidable.byContradiction
  intro hn
  apply h
  have : ovenRec s n = {} := by
    unfold ovenRec readNum
    split
    · rfl
    · exact readAt_ge _ _ _ (by omega)
  rw [this]

theorem idleAppend_cars (c : Nat) (s : State) : (idleAppend c s).qtc.cars = s.qtc.cars := rfl

/-- A car that is not ASSIGNED is none that the runner gives back. -/
theorem carReturned_other {c : Nat} {s : State} (h : (carRec s c).state ≠ .assigned) (d : Nat) :
    carRec (carReturned d s) c = carRec s c := by
  unfold carReturned
  extract_lets r
  split
  · next hr =>
    have hd : d ≠ c := by rintro rfl; exact h hr
    show carRec (setCarRec d _ s) c = _
    rw [carRec_setCarRec, if_neg (fun e => hd e.1)]
  · rfl

theorem stopRun_car {c : Nat} {s : State} (h : (carRec s c).state ≠ .assigned) (code : StopCode) (a d : Nat) :
    carRec (stopRun code a d s) c = carRec s c := by
  unfold stopRun
  extract_lets step s1 s2 s3 s4 s5
  have t2 : Touches [.run, .stretch, .runLaw, .idle, .sense] s s2 :=
    (onRun_touches _ _).mono.seq ((withdrawCar_touches _).mono.seq
      (onSense_touches (fun r => ⟨code, currentOven s1, r.cursor, step, d⟩) s1).mono)
  have t3 : Touches [.counts, .transmit] s2 s3 := .ite (fun _ => hardPushOfRun_touches _) (fun _ => .refl _ _)
  have t4 : Touches [.outbound, .tasks] s3 s4 := .ite (fun _ => haltMoves_touches _) (fun _ => .refl _ _)
  have e4 : carRec s4 c = carRec s c := (t4.carRec_kept c).trans ((t3.carRec_kept c).trans (t2.carRec_kept c))
  have e5 : carRec s5 c = carRec s c := by
    show carRec (returnRunCar s4) c = _
    unfold returnRunCar
    split
    · rw [carReturned_other (by rw [e4]; exact h), e4]
    · exact e4
    · exact e4
  rw [(raise_touches _ _ _ _ _).carRec_kept, e5]

theorem schPushBroken_car {c : Nat} {s : State} (h : (carRec s c).state ≠ .assigned) (n d : Nat) :
    carRec (schPushBroken n d s) c = carRec s c := by
  unfold schPushBroken
  split
  · rw [(afterRun_touches _ _).carRec_kept, stopRun_car h]
  · rfl

/-- A phase change to PUSH_INTERRUPTED hands no car on. -/
theorem setInterrupted_car {c : Nat} {s : State} (h : (carRec s c).state ≠ .assigned) {n : Nat}
    (hn : 1 ≤ n ∧ n ≤ 128) : carRec (setPhaseOnly n .pushInterrupted s) c = carRec s c := by
  unfold setPhaseOnly setPhase
  extract_lets r
  split
  · rfl
  · have ec : carRec (oprDerive n (setOvenRec n { r with phase := .pushInterrupted, stamp := (ovenRec s n).stamp } s)) c =
        carRec s c := (oprDerive_touches n _).carRec_kept c
    have hp : (ovenRec (oprDerive n
        (setOvenRec n { r with phase := .pushInterrupted, stamp := (ovenRec s n).stamp } s)) n).phase =
          .pushInterrupted := by
      rw [(oprDerive_touches n _).ovenRec_kept, ovenRec_setOvenRec, if_pos ⟨rfl, hn⟩]
    rw [← ec] at h ⊢
    generalize
      oprDerive n (setOvenRec n { r with phase := .pushInterrupted, stamp := (ovenRec s n).stamp } s) = u at hp h ⊢
    unfold schPhaseChange
    split
    · next hr =>
      simp only [Bool.and_eq_true, decide_eq_true_eq] at hr
      have hc : currentPhase u = .pushInterrupted := by unfold currentPhase; rw [hr.2]; exact hp
      rw [(afterRun_touches _ _).carRec_kept]
      split
      · unfold takeUp phaseCases
        rw [if_neg (by rw [hc]; decide), if_pos hc]
        exact stopRun_car h _ _ _
      · rw [if_neg (by rw [hc]; decide)]
      · rw [if_neg (by rw [hc]; decide)]
      · rw [if_neg (by rw [hc]; decide)]
      · rw [if_neg (by rw [hc]; decide)]
    · rfl

/-- The PUSH of an oven in PUSHING is cut: what it makes of the oven and of the car that receives (R10, R39). -/
theorem cutPush_oven {e : Permit} (hk : e.kind = .push) (ev : EventKind) (a b t cause : Nat) {s : State}
    (hp : (ovenRec s e.oven).phase = .pushing) (hn : 1 ≤ e.oven ∧ e.oven ≤ 128) :
    ovenRec (cutPermit e ev a b t cause s) e.oven = { ovenRec s e.oven with phase := .pushInterrupted } ∧
      ∀ c, e.car = some c → (carRec s c).state = .receiving →
        (carRec (cutPermit e ev a b t cause s) c).state = .loaded ∧ (carRec (cutPermit e ev a b t cause s) c).load = .hot ∧
          (carRec (cutPermit e ev a b t cause s) c).uncertain = true := by
  have ku := cutStart_touches e ev a b s
  have eo := ku.ovenRec_kept e.oven
  have ec := fun c => ku.carRec_kept c
  rw [cutPermit_eq]
  generalize cutStart e ev a b s = u at eo ec
  rw [← eo] at hp
  have e1 : ovtPushBroken e.oven u = setPhaseOnly e.oven .pushInterrupted u := by unfold ovtPushBroken; rw [if_pos hp]
  have ef : cutEffects e t cause u =
      schPushBroken e.oven t (withCar e.car (fun c => carLoads c true) (ovtPushBroken e.oven u)) := by
    unfold cutEffects; rw [hk]
  refine ⟨?_, fun c hc hr => ?_⟩
  · rw [(departFree_touches e _).ovenRec_kept, ef, (schPushBroken_touches _ _ _).ovenRec_kept,
      (withCar_touches _ fun c => carLoads_touches c true _).ovenRec_kept, e1]
    unfold setPhaseOnly
    rw [ovenRec_setPhase, if_pos ⟨rfl, hn⟩, eo]
  · have e2 : carRec (ovtPushBroken e.oven u) c = carRec s c := by
      rw [e1, setInterrupted_car (by rw [ec, hr]; decide) hn, ec]
    have hc12 : 1 ≤ c ∧ c ≤ 2 := carRec_range (by rw [hr]; decide)
    have e3 : carRec (carLoads c true (ovtPushBroken e.oven u)) c =
        { carRec s c with
          state := .loaded, load := .hot, uncertain := true, assignedOven := 0
          hotStart := some (ovtPushBroken e.oven u).now } := by
      unfold carLoads
      extract_lets r
      rw [if_pos (by rw [show r = _ from e2, hr]), (towerJoin_touches c _).carRec_kept, carRec_setCarRec,
        if_pos ⟨rfl, hc12⟩, show r = _ from e2]
    rw [(departFree_touches e _).carRec_kept, ef, hc]
    have e4 : carRec (schPushBroken e.oven t (carLoads c true (ovtPushBroken e.oven u))) c = _ :=
      schPushBroken_car (by rw [e3]; show CarState.loaded ≠ _; decide) _ _
    rw [show withCar (some c) (fun c => carLoads c true) (ovtPushBroken e.oven u) =
      carLoads c true (ovtPushBroken e.oven u) from rfl, e4, e3]
    exact ⟨rfl, rfl, rfl⟩

/-- The PUSH of the current oven of a run in PUSH is cut: the run stops (R59). -/
theorem cutPush_run {e : Permit} (hk : e.kind = .push) (ev : EventKind) (a b t cause : Nat) {s : State}
    (hp : (ovenRec s e.oven).phase = .pushing) (hn : 1 ≤ e.oven ∧ e.oven ≤ 128) (h1 : s.run.state = .running)
    (h2 : s.run.step = .push) (h3 : currentOven s = e.oven) :
    (cutPermit e ev a b t cause s).run.state = .stopped ∧
      (cutPermit e ev a b t cause s).sch.sense = ⟨.permitBroken, e.oven, s.run.cursor, .push, t⟩ := by
  have ku := cutStart_touches e ev a b s
  have eo := ku.ovenRec_kept e.oven
  have es := ku.sch_kept
  rw [cutPermit_eq]
  generalize cutStart e ev a b s = u at eo es
  show (departFree e _).sch.run.state = _ ∧ _
  rw [(departFree_touches e _).sch_kept]
  rw [← eo] at hp
  have ef : cutEffects e t cause u =
      schPushBroken e.oven t (withCar e.car (fun c => carLoads c true) (setPhaseOnly e.oven .pushInterrupted u)) := by
    unfold cutEffects ovtPushBroken; rw [hk, if_pos hp]
  have e1 : (setPhaseOnly e.oven .pushInterrupted u).sch = u.sch := by
    unfold setPhaseOnly setPhase
    extract_lets r
    split
    · rfl
    · have ed : (oprDerive e.oven (setOvenRec e.oven
          { r with phase := .pushInterrupted, stamp := (ovenRec u e.oven).stamp } u)).sch = u.sch :=
        (oprDerive_touches _ _).sch_kept
      have hph : (ovenRec (oprDerive e.oven (setOvenRec e.oven
          { r with phase := .pushInterrupted, stamp := (ovenRec u e.oven).stamp } u)) e.oven).phase =
            .pushInterrupted := by
        rw [(oprDerive_touches _ _).ovenRec_kept, ovenRec_setOvenRec, if_pos ⟨rfl, hn⟩]
      rw [← ed]
      rw [← ed] at es
      generalize oprDerive e.oven (setOvenRec e.oven
          { r with phase := .pushInterrupted, stamp := (ovenRec u e.oven).stamp } u) = v at es hph ⊢
      have hv : v.run = s.run := congrArg Runner.run es
      have hcur : currentOven v = e.oven := by rw [← h3]; unfold currentOven State.run; rw [es]
      have hcp : currentPhase v ≠ .outOfService := by unfold currentPhase; rw [hcur, hph]; decide
      unfold schPhaseChange
      rw [if_pos (by rw [hv, hcur]; simp [h1]), hv, h2]
      dsimp only
      rw [if_neg hcp]
      unfold afterRun
      rw [if_pos (by simp)]
  have e2 : (withCar e.car (fun c => carLoads c true) (setPhaseOnly e.oven .pushInterrupted u)).sch = s.sch :=
    ((withCar_touches _ fun c => carLoads_touches c true _).sch_kept).trans (e1.trans es)
  rw [ef]
  generalize withCar e.car (fun c => carLoads c true) (setPhaseOnly e.oven .pushInterrupted u) = v at e2 ⊢
  have hv : v.run = s.run := congrArg Runner.run e2
  have hcur : currentOven v = e.oven := by rw [← h3]; unfold currentOven State.run; rw [e2]
  unfold schPushBroken
  rw [if_pos (by rw [hv, hcur]; simp [h1]), (afterRun_touches _ _).sch_kept]
  obtain ⟨r1, r2⟩ := stopRun_run .permitBroken (pmAddress v) t v
  refine ⟨congrArg RunRecord.state r1, ?_⟩
  rw [r2, hcur, hv, h2]

/-- The CHARGE of an oven in CHARGING is cut (R11, R39, R40). -/
theorem cutCharge {e : Permit} (hk : e.kind = .charge) (ev : EventKind) (a b t cause : Nat) {s : State}
    (hp : (ovenRec s e.oven).phase = .charging) (hn : 1 ≤ e.oven ∧ e.oven ≤ 128) :
    ovenRec (cutPermit e ev a b t cause s) e.oven = { ovenRec s e.oven with phase := .coking, stamp := s.now } ∧
      Counted .chargeIncomplete s (cutPermit e ev a b t cause s) := by
  have ku := cutStart_touches e ev a b s
  have eo := ku.ovenRec_kept e.oven
  have en := ku.now_kept
  rw [cutPermit_eq]
  generalize cutStart e ev a b s = u at eo en ku
  rw [← eo] at hp
  have ef : cutEffects e t cause u =
      raise .chargeIncomplete e.oven e.station cause (setPhase e.oven .coking u.now u) := by
    unfold cutEffects ovtChargeCut chargeIncomplete; rw [hk]; dsimp only; rw [if_pos hp]
  rw [ef]
  constructor
  · rw [(departFree_touches e _).ovenRec_kept, (raise_touches _ _ _ _ _).ovenRec_kept, ovenRec_setPhase, if_pos ⟨rfl, hn⟩,
      eo, en]
  · have k1 : Touches (.permits :: phaseAspects) s (setPhase e.oven .coking u.now u) :=
      ku.mono.seq (setPhase_touches .coking (.inr (Int.le_refl _))).mono
    intro hc
    have h1 := k1.eventCount_le .chargeIncomplete hc
    exact Nat.le_trans (by omega) ((Counted.of_raise (departFree_touches e _)) h1.2)

/-- An order placed leaves a task record that is not in PLACED. -/
theorem putOrder_task {side : DoorSide} {s : State} (h : (taskOf s side).stage ≠ .placed) (p : Nat) (o : Order) :
    taskOf (putOrder p o s) side = taskOf s side := by
  unfold putOrder
  split
  · exact (setOutbound_touches _ _ _).taskOf_kept side
  · split
    · exact (setOutbound_touches _ _ _).taskOf_kept side
    · unfold orderLeftUndelivered
      split
      · next d _ =>
        split
        · next hc =>
          have hd : d ≠ side := by
            rintro rfl
            simp only [Bool.and_eq_true, decide_eq_true_eq] at hc
            exact h hc.2
          cases d <;> cases side <;> first | exact absurd rfl hd | rfl
        · rfl
      · rfl

/-- The end of a RESEAT's task at a break or an expiry (R39, R40, R112): the machine may be given another at once. -/
theorem cutReseat {e : Permit} {d : Door} (hk : e.kind = .reseat) (hd : doorOf e = some d) (ev : EventKind)
    (a b t cause : Nat) {s : State}
    (h1 : (taskOf s d.side).stage = .working) (h2 : (taskOf s d.side).door = some d) :
    taskOf (cutPermit e ev a b t cause s) d.side = {} ∨
      (taskOf (cutPermit e ev a b t cause s) d.side).stage = .placed := by
  have hp : (taskOf s d.side).stage ≠ .placed := by rw [h1]; decide
  have k0 : Touches [.permits, .counts, .transmit] s (raise ev e.oven e.station a (dropEntryOf e s)) :=
    (dropEntryOf_touches e s).mono.seq (raise_touches _ _ _ _ _).mono
  have e0 : taskOf (cutStart e ev a b s) d.side = taskOf s d.side := by
    have := k0.taskOf_kept d.side
    unfold cutStart placeHalt
    split
    · rw [putOrder_task (by rw [this]; exact hp), this]
    · exact this
  rw [cutPermit_eq]
  generalize cutStart e ev a b s = u at e0
  have ef : cutEffects e t cause u = setTask d.side {} u := by
    unfold cutEffects withDoor taskPermitEnds
    rw [hk, hd]
    dsimp only
    rw [if_pos (by rw [e0, h1, h2]; simp), if_neg (by decide)]
  rw [ef]
  have e1 : taskOf (setTask d.side {} u) d.side = {} := by cases d.side <;> rfl
  generalize setTask d.side {} u = v at e1
  have key : ∀ side, taskOf (dsmFree side v) d.side = {} ∨ (taskOf (dsmFree side v) d.side).stage = .placed := by
    intro side
    unfold dsmFree
    split
    · next p q r _ _ =>
      rw [taskOf_setTask]
      split
      · exact .inr rfl
      · exact .inl ((putOrder_task (by rw [e1]; decide) _ _).trans e1)
    · exact .inl e1
    · exact .inl e1
  unfold departFree
  split
  · unfold dsmFreeAt
    split
    · exact key _
    · exact .inl e1
  · exact .inl e1

/-- What the cut of a permit of the other kinds brings about (R39, R40). -/
theorem cutOthers (e : Permit) (ev : EventKind) (a b t cause : Nat) (s : State) :
    (e.kind = .doorOff → 1 ≤ e.oven → e.oven ≤ 128 →
      (regRec (cutPermit e ev a b t cause s) e.oven).mode = derivedMode (cutPermit e ev a b t cause s) e.oven) ∧
    (∀ c, e.kind = .quench → carOfEntry s e = some c → (carRec s c).state = .quenching →
      carRec (cutPermit e ev a b t cause s) c = { carRec s c with state := .loaded, load := .hot }) ∧
    ∀ c, e.kind = .dump → carOfEntry s e = some c → (carRec s c).state = .dumping →
      carRec (cutPermit e ev a b t cause s) c = { carRec s c with state := .quenched, load := .wet } := by
  have ku := cutStart_touches e ev a b s
  have ec := fun c => ku.carRec_kept c
  have eo : ∀ c, carOfEntry s e = some c →
      carOfEntry (cutStart e ev a b s) e = some c := by
    intro c h
    rw [← h]
    unfold carOfEntry carOf carAt
    rw [posOfAddress_kept ku]
    split
    · rw [ku.pollEntry_kept]
    · rfl
  rw [cutPermit_eq]
  generalize cutStart e ev a b s = u at ec eo
  refine ⟨fun hk h1 h2 => ?_, fun c hk hc hs => ?_, fun c hk hc hs => ?_⟩
  · have ef : cutEffects e t cause u = oprDerive e.oven u := by unfold cutEffects; rw [hk]
    have kd := departFree_touches e (oprDerive e.oven u)
    rw [ef, kd.regRec_kept, regRec_oprDerive h1 h2, derivedMode_kept kd, derivedMode_kept (oprDerive_touches e.oven u)]
  · have ef : cutEffects e t cause u = carQuenchEnds c false u := by
      unfold cutEffects withCar; rw [hk]; dsimp only; rw [eo c hc]
    rw [ef, (departFree_touches _ _).carRec_kept]
    unfold carQuenchEnds
    extract_lets r
    rw [if_pos (by rw [show r = _ from ec c, hs]), if_neg (by decide), carRec_setCarRec,
      if_pos ⟨rfl, carRec_range (s := s) (by rw [hs]; decide)⟩, show r = _ from ec c]
  · have ef : cutEffects e t cause u = carDumpEnds c false u := by
      unfold cutEffects withCar; rw [hk]; dsimp only; rw [eo c hc]
    rw [ef, (departFree_touches _ _).carRec_kept]
    unfold carDumpEnds
    extract_lets r
    rw [if_pos (by rw [show r = _ from ec c, hs]), if_neg (by decide), carRec_setCarRec,
      if_pos ⟨rfl, carRec_range (s := s) (by rw [hs]; decide)⟩, show r = _ from ec c]

/-- The effects by kind of a break or an expiry, all of them (R39, R40). -/
theorem cutPermit_takesEffect (e : Permit) (ev : EventKind) (a b t cause : Nat) (s : State) :
    CutTakesEffect e t s (cutPermit e ev a b t cause s) := by
  obtain ⟨o1, o2, o3⟩ := cutOthers e ev a b t cause s
  refine ⟨fun hk hp => ?_, fun hk hp => ?_, o1, fun d hk hd h1 h2 => cutReseat hk hd ev a b t cause h1 h2, o2, o3,
    fun hk => ?_⟩
  · have hn := ovenRec_range (s := s) (n := e.oven) (by rw [hp]; decide)
    have := cutPush_oven hk ev a b t cause hp hn
    exact ⟨this.1, fun h1 h2 h3 => cutPush_run hk ev a b t cause hp hn h1 h2 h3, this.2⟩
  · exact cutCharge hk ev a b t cause hp (ovenRec_range (s := s) (by rw [hp]; decide))
  · have ku := cutStart_touches e ev a b s
    have ef : cutEffects e t cause (cutStart e ev a b s) = cutStart e ev a b s := by
      unfold cutEffects
      rcases hk with hk | hk <;> rw [hk]
    rw [cutPermit_eq, ef]
    have k := ku.seq (departFree_touches e (cutStart e ev a b s)).mono
    exact ⟨k.ovens_kept, k.sch_kept, k.cars_kept, k.regs_kept⟩

/-- What an event changes of the inputs of an entry is read off the state it leaves: two states that agree in what the
hold terms watch have changed alike (R38). -/
theorem inputChanged_kept {l : List Aspect} {s t : State} (h : Touches l s t) (b : State) (e : Permit)
    (h1 : Aspect.pollTables ∉ l := by decide) (h2 : Aspect.align ∉ l := by decide)
    (h3 : Aspect.stations ∉ l := by decide) (h4 : Aspect.permits ∉ l := by decide)
    (h5 : Aspect.permitTable ∉ l := by decide) (h6 : Aspect.doors ∉ l := by decide)
    (h7 : Aspect.regs ∉ l := by decide) (h8 : Aspect.rounds ∉ l := by decide)
    (h9 : Aspect.regTables ∉ l := by decide) (h10 : Aspect.cars ∉ l := by decide)
    (h11 : Aspect.tower ∉ l := by decide) (h12 : Aspect.ovenTables ∉ l := by decide) :
    inputChanged b t e = inputChanged b s e := by
  have e1 := h.pollTables_kept h1
  have e2 := h.align_kept h2
  have e3 := h.stations_kept h3
  have e4 := h.permits_kept h4
  have e5 := h.permitTable_kept h5
  have e6 := h.doors_kept h6
  have e7 := h.regs_kept h7
  have e8 := (h.rounds_kept h8).1
  have e9 := h.regTables_kept h9
  have e10 := h.cars_kept h10
  have e11 := (h.tower_kept h11).1
  have e12 := (h.ovenTables_kept h12).1
  unfold inputChanged inputOf namedStations
  unfold namedBy effectiveTerms permitEntry alignMoved ovensMoved guideLocked doorPair
  unfold carInput carOf carAt chargeOn regRec posOfAddress posOfClass servingStation ovenConfig positions
  unfold pollEntry alignment station carRec
  simp only [e1.1, e1.2.1, e2, e3, e4, e5, e6, e7, e8, e9.2, e10, e11, e12]

end Sys2Proof.Machine
end

