-- ==== Sys2Proof/Laws/Dones.lean ====
section
/-!
SUPPORT. What the DONE of an active permit leaves: its own effects, and what the settling, the freedom test, the copy and the
round's end after them keep.
-/

set_option Elab.async false
namespace Sys2Proof.Machine

open Sys2Proof

/-! ## Doors -/

/-- Whether the doors of an oven are on reads no listed flag. -/
theorem bothDoorsOn_unlisted {s t : State} {n : Nat} (h : ∀ d,
    unlistedRec (doorRec t d) = unlistedRec (doorRec s d)) :
    bothDoorsOn t n = bothDoorsOn s n := by
  have h1 := congrArg DoorRecord.state (h ⟨n, .ps⟩)
  have h2 := congrArg DoorRecord.state (h ⟨n, .cs⟩)
  unfold unlistedRec at h1 h2
  simp only at h1 h2
  have e : ∀ u : State, bothDoorsOn u n = (!isOff (doorRec u ⟨n, .ps⟩) && !isOff (doorRec u ⟨n, .cs⟩))
      := fun _ => rfl
  rw [e, e]
  unfold isOff
  rw [h1, h2]

/-! ## Cars -/

/-- A car record but for what its MOVEs write. -/
def cycleRec (r : CarRecord) : CarRecord := { r with reserved := [], move := none, haltRelease := false }

theorem carReserves_cycle (c d : Nat) (t : Telegram) (s : State) :
    cycleRec (carRec (carReserves c t s) d) = cycleRec (carRec s d) := by
  unfold carReserves
  extract_lets r
  split
  · rw [carRec_setCarRec]
    split
    · next h => rw [← h.1]; rfl
    · rfl
  · rfl
  · rfl

theorem offerRunMove_cycle {m : RunMove} {s t : State} (h : offerRunMove m s = some t) (d : Nat) :
    cycleRec (carRec t d) = cycleRec (carRec s d) := by
  unfold offerRunMove at h
  split at h
  · next p c _ _ =>
    split at h
    · next hc =>
      injection h with h
      subst h
      unfold carMove at hc
      split at hc
      · exact nomatch hc
      · split at hc
        · exact nomatch hc
        · next ho =>
          injection hc with hc
          injection hc with h1 _
          rw [← h1, carReserves_cycle, (offerOrder_touches ho).carRec_kept]
    · exact nomatch h
  · rw [(offerOrder_touches h).carRec_kept]
  · rw [(offerOrder_touches h).carRec_kept]
  · exact nomatch h

theorem offerMoves_cycle (s : State) (d : Nat) : cycleRec (carRec (offerMoves s) d) = cycleRec (carRec s d) := by
  unfold offerMoves
  generalize (s.run.moves.filter fun m => !m.placed) = ms
  induction ms generalizing s with
  | nil => rfl
  | cons m ms ih =>
    rw [List.foldl_cons, ih]
    split
    · next h => exact offerRunMove_cycle h d
    · rfl

theorem entryTest_cycle (s : State) (d : Nat) : cycleRec (carRec (entryTest s) d) = cycleRec (carRec s d) := by
  unfold entryTest
  split
  · rw [(arrivalTest_touches _).carRec_kept]
    unfold formMoves
    exact offerMoves_cycle _ d
  · rfl

/-- A car handed to the runner is ASSIGNED to its oven, the rest of its record kept but for its MOVE (R85). -/
theorem handCar_cycle {c : Nat} (hc : 1 ≤ c ∧ c ≤ 2) (s : State) :
    cycleRec (carRec (handCar c s) c) =
      cycleRec { carRec s c with state := .assigned, assignedOven := currentOven s } := by
  unfold handCar
  extract_lets s1
  rw [entryTest_cycle]
  show cycleRec (carRec (setCarRec c _ s) c) = _
  rw [carRec_setCarRec, if_pos ⟨rfl, hc⟩]

/-- The taking of a reply writes no more of a car record than a delivered HALT does (R83, R167). -/
theorem taken_cycle (s : State) (x : Exchange) (c : Nat) : cycleRec (carRec (taken s x) c) = cycleRec
    (carRec s c) := by
  unfold taken
  rw [(uncarry_touches _ _).carRec_kept, (recordReply_touches _ _).carRec_kept]
  have h0 : carRec (lineIdle s) c = carRec s c := (lineIdle_touches s).carRec_kept c
  rw [← h0]
  generalize lineIdle s = u
  unfold deliver
  split
  · unfold withCar
    split
    · next d _ =>
      unfold carHaltDelivered
      rw [carRec_setCarRec]
      split
      · next h =>
        rw [h.1]
        exact Eq.trans (b := cycleRec (carRec (deliverOrder true x.position u) c)) rfl
          (congrArg cycleRec ((deliverOrder_touches true x.position u).carRec_kept c))
      · rw [(deliverOrder_touches _ _ _).carRec_kept]
    · rw [(deliverOrder_touches _ _ _).carRec_kept]
  · rw [(deliverOrder_touches _ _ _).carRec_kept]
  · rw [(deliverAnswer_touches _ _).carRec_kept]
  · rfl
  · rfl

/-! ## The DONE of an active permit -/

/-- What follows the own effect of a DONE: the settling, the freedom test, the copy and the round's end. -/
abbrev doneEnding (E : DispatchEntry) (U : Telegram) (e : Permit) (u w : State) : State :=
  roundOn (coreCopy E U (departFree e (ilkSettle u w)))

theorem doneEnding_touches (E U e) (u w : State) : Touches (.rounds :: .drawn :: cutAspects) w
    (doneEnding E U e u w) :=
  (ilkSettle_touches _ _).mono.seq ((departFree_touches _ _).mono.seq (roundOn_coreCopy_touches _ _ _).mono)

/-- An oven that no PUSH or CHARGE holds keeps its record through that ending. -/
theorem doneEnding_ovenRec {E U e} {u w : State} {n : Nat} (hn : 1 ≤ n ∧
    n ≤ 128) (h1 : (ovenRec w n).phase ≠ .pushing)
    (h2 : (ovenRec w n).phase ≠ .charging) : ovenRec (doneEnding E U e u w) n = ovenRec w n := by
  have e1 : ovenRec (coreCopy E U (departFree e (ilkSettle u w))) n = ovenRec w n := by
    rw [(coreCopy_touches _ _ _).ovenRec_kept, (departFree_touches _ _).ovenRec_kept]
    unfold ilkSettle
    exact ilkSettle_ovenRec _ _ hn _ _ h1 h2
  have := beginRound_ovenRec (s := coreCopy E U (departFree e (ilkSettle u w))) hn (by rw [e1]; exact h1)
      (by rw [e1]; exact h2)
  exact this.trans e1

/-- A reply of an ACTIVE station is taken and classified (R167, R151). -/
theorem exec_active_reply {c : Instr} {u : Telegram} {s : State} {x : Exchange} (h : replyTelegram c = some u)
    (hx : Awaits s x)
    (hf : fromPolled s x u = true) (hr : framed u = true) (ha : (station s x.position).state = .active) :
    exec c s = .next (roundOn (classifyField x.position u (taken s x))) := by
  rw [exec_reply h, fieldArrival_taken hx hf hr, afterReply_not_joining hx (by rw [ha]; decide), if_pos]
  unfold passedOn; rw [taken_station hx]; simp [ha]

/-- The DONE of an active permit runs its effects on the state whose set it has left (R36). -/
theorem exec_done_active {h : Header} {kind oven side result : Byte} {m : BitVec 16} {s : State} {x
    : Exchange} {k : PermitKind} {sd : Side}
    {e0 : Permit} (hx : Awaits s x) (hs : h.source.toNat = (pollEntry s x.position).address) (ha :
        (station s x.position).state = .active)
    (hk : (asked s x.position kind.toNat oven.toNat side.toNat).kind = some k)
    (hsd : (asked s x.position kind.toNat oven.toNat side.toNat).side = some sd)
    (hact : activeEntry s (pollEntry s x.position).address k (asked s x.position kind.toNat oven.toNat
        side.toNat).oven sd = some e0) :
    let u := arrived h Kind.done ([kind, oven, side, result] ++ toBytes 2 m.toNat)
    exec (.done h kind oven side result m) s = .next (doneEnding (entryFor s .field u) u e0 (taken s x)
      (doneEffects (taken s x) e0 (decide (result.toNat = 0)) m.toNat (dropEntryOf e0 (taken s x)))) := by
  intro U
  have hf : fromPolled s x U = true := decide_eq_true hs
  have hr := framed_arrived h Kind.done ([kind, oven, side, result] ++ toBytes 2 m.toNat) (by decide)
      (by simp [toBytes_length]) (by simp [toBytes_length]; rfl)
  have e := exec_active_reply (c := .done h kind oven side result m) rfl hx hf hr ha
  rw [classifyField_done] at e
  let u := taken s x
  have ku := taken_touches s x
  have ea := asked_kept ku x.position kind.toNat oven.toNat side.toNat
  have ep : pollEntry u x.position = pollEntry s x.position := ku.pollEntry_kept _
  have e4 : activeEntry u (pollEntry u x.position).address k (asked s x.position kind.toNat oven.toNat
      side.toNat).oven sd = some e0 := by rw [ep, activeEntry_kept ku, hact]
  rw [e, entryFor_kept ku]
  unfold ilkDone; dsimp only; rw [ea, hk, hsd]; simp only; rw [e4]

/-- An active entry found by kind, oven and side has them. -/
theorem activeEntry_names {s : State} {a : Nat} {k : PermitKind} {n : Nat} {sd : Side} {e : Permit}
    (h : activeEntry s a k n sd = some e) :
    e.kind = k ∧ e.oven = n ∧ e.side = sd := by
  unfold activeEntry at h
  have := List.find?_some h
  simp only [Bool.and_eq_true, decide_eq_true_eq] at this
  exact ⟨this.1.1.2, this.1.2, this.2⟩

/-- That ending changes no door but in its listed flag. -/
theorem doneEnding_doorRec {E U e} {u w v : State} (hw : ∀ d, unlistedRec (doorRec w d) = unlistedRec
    (doorRec v d)) (d : Door) :
    unlistedRec (doorRec (doneEnding E U e u w) d) = unlistedRec (doorRec v d) := by
  rw [(doneEnding_touches E U e u w).doorRec_kept, hw]

/-- The handing on of a door's change (R100) keeps the record of an oven that no PUSH or CHARGE holds. -/
theorem doorHandedOn_ovenRec {n : Nat} (hn : 1 ≤ n ∧ n ≤ 128) (b : State) (d : Door) (s : State)
    (h1 : (ovenRec s n).phase ≠ .pushing) (h2 : (ovenRec s n).phase ≠ .charging) :
    ovenRec (doorHandedOn b d s) n = ovenRec s n := by
  have e1 : ovenRec (ilkSettle b s) n = ovenRec s n := ilkSettle_ovenRec _ _ hn _ _ h1 h2
  have e2 : ovenRec (schDoorChange d.oven (ilkSettle b s)) n = ovenRec s n := by
    rw [(schDoorChange_touches _ _).ovenRec_kept, e1]
  unfold doorHandedOn settled
  rw [(oprDerive_touches _ _).ovenRec_kept, ← e2]
  exact ilkSettle_ovenRec _ _ hn _ _ (by rw [e2]; exact h1) (by rw [e2]; exact h2)

/-- A completed DOOR_OFF or DOOR_ON leaves the door record that its rule gives. -/
theorem doorCompleted_doorRec (b : State) (d : Door) (off : Bool) (s : State) (g : Door) :
    doorRec (doorCompleted b d off s) g = doorRec (if off then doorRemoved d s else doorReplaced d s) g := by
  unfold doorCompleted
  extract_lets s1 s2 s3
  have k2 : Touches phaseAspects s1 s2 := .ite (fun _ => ovtDoorOff_touches _ _) (fun _ => ovtDoorOn_touches _ _)
  have k3 : Touches cutAspects s2 s3 := doorHandedOn_touches _ _ _
  split
  · rw [k3.doorRec_kept, k2.doorRec_kept]
  · rw [(dsmFreeBoth_touches _).doorRec_kept, k3.doorRec_kept, k2.doorRec_kept]

/-- And an oven that then stands in neither PUSHING nor CHARGING keeps what the rule gave it. -/
theorem doorCompleted_ovenRec (b : State) (d : Door) (off : Bool) (s : State) {n : Nat} (hn : 1 ≤ n ∧ n ≤ 128)
    (v : State) (hv : v = if off then doorRemoved d s else doorReplaced d s)
    (h1 : (ovenRec (if off then ovtDoorOff d.oven v else ovtDoorOn d.oven v) n).phase ≠ .pushing)
    (h2 : (ovenRec (if off then ovtDoorOff d.oven v else ovtDoorOn d.oven v) n).phase ≠ .charging) :
    ovenRec (doorCompleted b d off s) n = ovenRec (if off then ovtDoorOff d.oven v else ovtDoorOn d.oven v) n := by
  subst hv
  unfold doorCompleted
  extract_lets s1 s2 s3
  have e3 : ovenRec s3 n = ovenRec s2 n := by
    exact doorHandedOn_ovenRec hn _ _ _ h1 h2
  split
  · exact e3
  · rw [(dsmFreeBoth_touches _).ovenRec_kept]; exact e3

end Sys2Proof.Machine
end

