-- ==== Sys2Proof/Laws/Grants.lean ====
section
/-!
SUPPORT. What a granted REQUEST brings about, kind by kind (R35), before the interlock looks at what it has changed.
-/

set_option Elab.async false
namespace Sys2Proof.Machine

open Sys2Proof

/-- The state at which the effects by kind of a grant begin: the entry added and the PERMIT placed (R35 items 1, 2). -/
abbrev grantStart (e : Permit) (p : Nat) (s : State) : State :=
  placeAnswer p (.permit e.kind.code e.oven e.side.code (e.deadline - e.grant))
    (s.onIlk fun k => { k with permits := k.permits ++ [e] })

theorem grantStart_touches (e : Permit) (p : Nat) (s : State) :
    Touches [.permits, .grants, .permitLaw, .holderLaw, .outbound, .answers] s (grantStart e p s) :=
  (addPermit_touches e s).mono.seq (placeAnswer_touches _ _ _).mono

/-- A REQUEST that is answered by a new PERMIT has passed every check, and takes the effects of its kind (R32, R35). -/
theorem ilkRequest_granted {p kind oven side : Nat} {s : State} {k : PermitKind} {sd : Side}
    (hk : (asked s p kind oven side).kind = some k) (hsd : (asked s p kind oven side).side = some sd)
    (hact : activeEntry s (pollEntry s p).address k (asked s p kind oven side).oven sd = none)
    (hans : requestAnswer s p kind oven side =
      .permit k.code (asked s p kind oven side).oven sd.code (holdLimit s k)) :
    let n := (asked s p kind oven side).oven
    let e := grantEntry s p k n sd
    ilkRequest p kind oven side s = ilkSettle s (grantEffects e p (grantStart e p s)) ∧
      firstFailure s (requestInput s p k n) = none ∧ (isCarKind k = false → configured s n = true) := by
  intro n e
  unfold requestAnswer at hans
  unfold ilkRequest
  dsimp only at hans ⊢
  split at hans
  · exact nomatch hans
  · next h1 =>
    rw [if_neg h1]
    split at hans
    · exact nomatch hans
    · next h2 =>
      rw [if_neg h2]
      rw [hk, hsd] at hans ⊢
      dsimp only at hans ⊢
      unfold requestChecked
      rw [hact] at hans ⊢
      dsimp only at hans ⊢
      split at hans
      · exact nomatch hans
      · next h3 =>
        rw [if_neg h3]
        split at hans
        · exact nomatch hans
        · next h4 =>
          rw [if_neg h4]
          split at hans
          · exact nomatch hans
          · next h5 =>
            rw [h5]
            refine ⟨rfl, rfl, fun hc => ?_⟩
            have hn : namesOven (asked s p kind oven side) = true := by unfold namesOven; rw [hk]; simp [hc]
            rw [hn] at h2
            simpa using h2

/-! ## PUSH and CHARGE -/

/-- What the terms of a PUSH say when it is granted (R24, R25): the PM asks for the current oven of a RUNNING run in step
PUSH, and the car of the entry stands empty. -/
theorem push_terms {s : State} {p n : Nat} (h : firstFailure s (requestInput s p .push n) = none)
    (hp : (pollEntry s p).cls = .pm) :
    (s.run.state = .running → currentOven s = n ∧ s.run.step = .push) ∧
      ∃ c, carFor s n = some c ∧ (carRec s c).load = .empty ∧ (carRec s c).state ≠ .unknown := by
  constructor
  · intro hr
    have h4 := termHolds_of h (t := 4) (mem_effectiveTerms (by omega) (show 4 ∈ coreTerms .push by decide))
    unfold termHolds at h4
    have hm : isRunMachine s p = true := by unfold isRunMachine; rw [hp]
    simp only [requestInput, hr, hm, ne_eq, not_true_eq_false, decide_false, Bool.not_true, Bool.false_or,
      Bool.and_eq_true, decide_eq_true_eq] at h4
    refine ⟨h4.1, ?_⟩
    have h5 := h4.2
    cases hs : s.run.step <;> rw [hs] at h5 <;> first
      | rfl
      | exact absurd h5 (by decide)
  · have h8 := termHolds_of h (t := 8) (mem_effectiveTerms (by omega) (show 8 ∈ coreTerms .push by decide))
    have h8 : carReceivingTerm s (requestInput s p .push n) = true := h8
    unfold carReceivingTerm at h8
    have hc : (requestInput s p .push n).car = carFor s n := rfl
    rw [hc] at h8
    cases hf : carFor s n with
    | none => rw [hf] at h8; exact nomatch h8
    | some c =>
      rw [hf] at h8
      simp only [Bool.and_eq_true, decide_eq_true_eq] at h8
      refine ⟨c, rfl, h8.1.2, fun hu => ?_⟩
      have h9 := h8.2
      rw [hu] at h9
      rw [show (requestInput s p .push n).held = false from rfl] at h9
      split at h9
      · contradiction
      · split at h9 <;> exact absurd h9 (by decide)

/-- A phase change to PUSHING of the current oven of a run in PUSH, or outside a run, hands the runner nothing to do. -/
theorem setPushing_still {s : State} (h : s.run.state = .running → s.run.step = .push) {n : Nat} (hn : 1 ≤ n ∧ n ≤ 128) :
    (setPhaseOnly n .pushing s).sch = s.sch ∧ (setPhaseOnly n .pushing s).qtc.cars = s.qtc.cars ∧
      (setPhaseOnly n .pushing s).qtc.idle = s.qtc.idle := by
  unfold setPhaseOnly setPhase
  extract_lets r
  split
  · exact ⟨rfl, rfl, rfl⟩
  · have k := oprDerive_touches n (setOvenRec n { r with phase := .pushing, stamp := (ovenRec s n).stamp } s)
    have hph : (ovenRec (oprDerive n (setOvenRec n { r with phase := .pushing, stamp := (ovenRec s n).stamp } s)) n).phase =
        .pushing := by
      rw [k.ovenRec_kept, ovenRec_setOvenRec, if_pos ⟨rfl, hn⟩]
    have e1 : (oprDerive n (setOvenRec n { r with phase := .pushing, stamp := (ovenRec s n).stamp } s)).sch = s.sch :=
      k.sch_kept
    have e2 : (oprDerive n (setOvenRec n { r with phase := .pushing, stamp := (ovenRec s n).stamp } s)).qtc.cars =
      s.qtc.cars := k.cars_kept
    have e3 : (oprDerive n (setOvenRec n { r with phase := .pushing, stamp := (ovenRec s n).stamp } s)).qtc.idle =
      s.qtc.idle := k.idle_kept.1
    generalize oprDerive n (setOvenRec n { r with phase := .pushing, stamp := (ovenRec s n).stamp } s) = v at hph e1 e2 e3 ⊢
    have hv : v.run = s.run := congrArg Runner.run e1
    rw [show schPhaseChange n v = v from ?_]
    · exact ⟨e1, e2, e3⟩
    · unfold schPhaseChange
      split
      · next hr =>
        simp only [Bool.and_eq_true, decide_eq_true_eq] at hr
        have hp : currentPhase v = .pushing := by unfold currentPhase; rw [hr.2]; exact hph
        rw [hv, h (by rw [← hv]; exact hr.1)]
        dsimp only
        rw [if_neg (by rw [hp]; decide)]
        unfold afterRun
        rw [if_pos (by simp)]
      · rfl

/-- A granted PUSH (R10, R51, R86). -/
theorem grantPush {e : Permit} (hk : e.kind = .push) (p : Nat) {s : State} (hn : 1 ≤ e.oven ∧ e.oven ≤ 128)
    (hr : s.run.state = .running → currentOven s = e.oven ∧ s.run.step = .push) {c : Nat} (hc : e.car = some c)
    (hu : (carRec s c).state ≠ .unknown) :
    let t := grantEffects e p s
    ovenRec t e.oven = { ovenRec s e.oven with phase := .pushing } ∧ t.qtc.idle = s.qtc.idle.erase c ∧
      carRec t c = { carRec s c with state := .receiving, assignedOven := e.oven, loadOven := e.oven } ∧
      (s.run.state = .running → t.run = { s.run with pushGrant := some s.now, lateness := s.now - s.run.planned }) := by
  intro t
  have ht : t = schPushGranted e.oven (carReceives c e.oven (setPhaseOnly e.oven .pushing s)) := by
    show grantEffects e p s = _
    unfold grantEffects
    rw [hk, hc]
    rfl
  obtain ⟨e1, e2, e3⟩ := setPushing_still (fun h => (hr h).2) hn
  have ev : ovenRec (setPhaseOnly e.oven .pushing s) e.oven = { ovenRec s e.oven with phase := .pushing } := by
    unfold setPhaseOnly; rw [ovenRec_setPhase, if_pos ⟨rfl, hn⟩]
  have en : (setPhaseOnly e.oven .pushing s).now = s.now := (setPhaseOnly_touches _ _ _).now_kept
  rw [ht]
  generalize setPhaseOnly e.oven .pushing s = v at e1 e2 e3 ev en
  have hv : v.run = s.run := congrArg Runner.run e1
  have hcur : currentOven v = currentOven s := by unfold currentOven; rw [hv, e1]
  have ec : carRec v c = carRec s c := by unfold carRec; rw [e2]
  have hcr := carRec_range hu
  have kg := schPushGranted_touches e.oven (carReceives c e.oven v)
  have eq : (carReceives c e.oven v).qtc =
      (idleRemove c (setCarRec c
        { carRec v c with state := .receiving, assignedOven := e.oven, loadOven := e.oven } v)).qtc := by
    unfold carReceives
    extract_lets r w
    split
    · rfl
    · unfold dropRunCar; split <;> rfl
  refine ⟨?_, ?_, ?_, fun h => ?_⟩
  · rw [kg.ovenRec_kept, (carReceives_touches c e.oven v).ovenRec_kept, ev]
  · rw [kg.idle_kept.1, eq, ← e3]; rfl
  · rw [kg.carRec_kept]
    have e5 : carRec (carReceives c e.oven v) c = carRec (idleRemove c (setCarRec c
        { carRec v c with state := .receiving, assignedOven := e.oven, loadOven := e.oven } v)) c :=
      congrArg (fun q : Track => readNum q.cars c {}) eq
    rw [e5]
    show carRec (setCarRec c _ v) c = _
    rw [carRec_setCarRec, if_pos ⟨rfl, hcr⟩, ec]
  · have hrun := (hr h).1
    have er : carReceives c e.oven v = idleRemove c (setCarRec c
        { carRec v c with state := .receiving, assignedOven := e.oven, loadOven := e.oven } v) := by
      unfold carReceives
      extract_lets r w
      rw [if_pos]
      show (v.run.state = .running && currentOven v = e.oven) = true
      rw [hv, hcur, h, hrun]; simp
    rw [er]
    unfold schPushGranted
    rw [if_pos]
    · show { v.run with pushGrant := some v.now, lateness := v.now - v.run.planned } = _
      rw [hv, en]
    · show (v.run.state = .running && currentOven v = e.oven) = true
      rw [hv, hcur, h, hrun]; simp

/-! ## The other kinds -/

/-- A granted DOOR_OFF isolates its oven (R119). -/
theorem grantDoorOff {e : Permit} (hk : e.kind = .doorOff) (p : Nat) {s : State} (hn : 1 ≤ e.oven ∧ e.oven ≤ 128)
    (hc : configured s e.oven = true) (hp : (ovenRec s e.oven).phase ≠ .outOfService) (he : e ∈ s.ilk.permits) :
    (regRec (grantEffects e p s) e.oven).mode = .isolated := by
  have ht : grantEffects e p s = oprDerive e.oven s := by unfold grantEffects; rw [hk]
  rw [ht, regRec_oprDerive hn.1 hn.2]
  have hd : doorOffActive s e.oven = true :=
    List.any_eq_true.mpr ⟨e, he, by simp [hk]⟩
  unfold derivedMode
  dsimp only
  rw [if_neg (by simp [hc, hp]), if_pos (by simp [hd])]

end Sys2Proof.Machine
end

