-- ==== Sys2Proof/Laws/Reports.lean ====
section
/-!
SUPPORT. What the report of a car does: its conflicts and releases (R78, R83), the tower (R88), its place in the
cycle (R77) and the load it carries (R93).
-/

set_option Elab.async false
namespace Sys2Proof.Machine

open Sys2Proof

/-! ## Conflicts and releases -/

/-- The conflicts of a report, read from the record it leaves (R78). -/
theorem newConflicts_recorded (c : Nat) (hc : c = 1 ∨ c = 2) (r : CarRecord) (before : List Nat) (v : State) :
    newConflicts (setCarRec c r v) c before = r.occupied.filter fun k =>
        !before.contains k && holds v (otherCar c) k := by
  unfold newConflicts
  rw [carRec_setCarRec, if_pos ⟨rfl, by omega, by omega⟩]
  have : ∀ k, holds (setCarRec c r v) (otherCar c) k = holds v (otherCar c) k := by
    intro k
    unfold holds
    rw [carRec_setCarRec, if_neg (by unfold otherCar; omega)]
  simp only [this]

/-- The record that the release tests leave, by which segments lie behind and whether the target is near (R83). -/
def releasedRec (behind : Nat → Bool) (near : Bool) (r : CarRecord) : CarRecord :=
  let r := { r with reserved := r.reserved.filter fun k => !behind k }
  let r := if !r.moving && near then { keepOccupied r with move := none } else r
  let r := if r.move.isNone then keepOccupied r else r
  if r.haltRelease && !r.moving then { keepOccupied r with move := none, haltRelease := false } else r

theorem releasedRec_eq (f : Nat → Bool) (near : Bool) (r : CarRecord) :
    let ends : Prop := r.moving = false ∧ (near = true ∨ r.haltRelease = true)
    ∃ l m, releasedRec f near r = { r with reserved := l, move := m, haltRelease := r.haltRelease && r.moving } ∧
      (ends → m = none) ∧ (¬ ends → m = r.move) ∧ l.Sublist r.reserved ∧
      ∀ k, k ∈ l ↔ k ∈ r.reserved ∧ f k = false ∧ (r.move = none ∨ ends → k ∈ r.occupied) := by
  obtain ⟨state, load, uncertain, reportedLoad, position, moving, occupied, reserved, move, haltRelease, ao, lo, hs,
      dd⟩ := r
  have s1 : (reserved.filter fun k => !f k).Sublist reserved := List.filter_sublist
  have s2 : ∀ l : List Nat, l.Sublist reserved → (l.filter fun k => occupied.contains k).Sublist reserved :=
    fun l h => List.filter_sublist.trans h
  cases moving <;> cases near <;> cases haltRelease <;> cases move <;>
    exact ⟨_, _, rfl, by simp, by simp, by first | exact s1 | exact s2 _ s1 | exact s2 _ (s2 _ s1) | exact s2 _ (s2 _
        (s2 _ s1)),
      by intro k; simp [keepOccupied] <;> exact fun _ => and_comm⟩

theorem carReleases_eq (c : Nat) (s : State) :
    carReleases c s = setCarRec c (releasedRec (isBehind s c (carRec s c)) (atTarget (carRec s c)) (carRec s c)) s :=
        rfl

theorem isBehind_iff (s : State) (c k pos : Nat) (r : CarRecord) (h : r.position = some pos) : isBehind s c r k =
    true ↔
    ∃ g m, carConfig s c = some g ∧ r.move = some m ∧
      (m.direction = some .up ∧ ((segment s k).stop : Int) ≤ (pos : Int) - (g.length / 2 : Nat) ∨
        m.direction = some .down ∧ pos + g.length / 2 ≤ (segment s k).start) := by
  unfold isBehind halfLength
  rw [h]
  cases carConfig s c with
  | none => cases r.move <;> simp
  | some g =>
    cases r.move with
    | none => simp
    | some m => cases hd : m.direction with
      | none => simp [hd]
      | some d => cases d <;> simp [hd]

theorem atTarget_iff (pos : Nat) (r : CarRecord) (h : r.position = some pos) : atTarget r = true ↔
    ∃ m, r.move = some m ∧ ((pos : Int) - m.target).natAbs ≤ 100 := by
  unfold atTarget
  rw [h]
  cases r.move <;> simp

/-- A car that joins has the tower or waits for it, and a holder keeps it (R87). -/
theorem towerJoin_joins (c : Nat) (s : State) :
    ((towerJoin c s).qtc.holder = some c ∨ c ∈ (towerJoin c s).qtc.queue) ∧
    ∀ d, s.qtc.holder = some d → (towerJoin c s).qtc.holder = some d ∧ (towerJoin c s).qtc.entered = s.qtc.entered ∧
      (towerJoin c s).qtc.queue = if d ≠ c ∧ c ∉ s.qtc.queue then s.qtc.queue ++ [c] else s.qtc.queue := by
  unfold towerJoin
  split
  · next h =>
    rw [Bool.or_eq_true, decide_eq_true_iff, List.contains_iff_mem] at h
    refine ⟨h, fun d hd => ⟨hd, rfl, ?_⟩⟩
    rw [if_neg]
    rintro ⟨h1, h2⟩
    rcases h with h | h
    · rw [hd] at h; exact h1 (Option.some.inj h)
    · exact h2 h
  · next h =>
    rw [Bool.or_eq_true, decide_eq_true_iff, List.contains_iff_mem, not_or] at h
    refine ⟨?_, fun d hd => ?_⟩
    · unfold towerGrant
      split
      · next g rest h1 h2 =>
        simp only [State.onQtc] at h1 h2 ⊢
        have : c ∈ g :: rest := by rw [← h2]; simp
        rcases List.mem_cons.mp this with h | h
        · exact .inl (congrArg some h.symm)
        · exact .inr h
      · next h1 h2 => simp [State.onQtc] at h2
      · exact .inr (by simp [State.onQtc])
    · unfold towerGrant
      have hd' : (s.onQtc fun q => { q with queue := q.queue ++ [c] }).qtc.holder = some d := hd
      rw [hd']
      refine ⟨hd, rfl, ?_⟩
      show s.qtc.queue ++ [c] = _
      rw [if_pos ⟨fun h1 => h.1 (h1 ▸ hd), h.2⟩]

theorem towerGrant_segments (s : State) : (towerGrant s).qtc.segments = s.qtc.segments := by
  unfold towerGrant; split <;> rfl

theorem towerJoin_segments (c : Nat) (s : State) : (towerJoin c s).qtc.segments = s.qtc.segments := by
  unfold towerJoin; split
  · rfl
  · exact towerGrant_segments _

/-- The release of the tower grant at a report (R88). -/
theorem towerReport_effect (c : Nat) (hc : c = 1 ∨ c = 2) (s : State) :
    let t := towerReport c s
    let r := carRec s c
    let released : Prop := s.qtc.holder = some c ∧ occupiesTower s c = false ∧ s.qtc.entered = true
    let same : Prop := t.qtc.holder = s.qtc.holder ∧ t.qtc.entered = s.qtc.entered ∧ t.qtc.queue = s.qtc.queue
    (∀ d, d ≠ c → carRec t d = carRec s d) ∧
    (released → carRec t c = { r with reserved := r.reserved.filter fun k => !isTower s k }) ∧
    (¬ released → carRec t c = r) ∧
    (s.qtc.holder ≠ some c → same) ∧
    (s.qtc.holder = some c → occupiesTower s c = false → s.qtc.entered = false → same) ∧
    (s.qtc.holder = some c → occupiesTower s c = true →
      t.qtc.holder = some c ∧ t.qtc.entered = true ∧ t.qtc.queue = s.qtc.queue) ∧
    (released → s.qtc.queue = [] →
      t.qtc.holder = (if r.state = .loaded then some c else none) ∧ t.qtc.entered = false ∧ t.qtc.queue = []) ∧
    ∀ d rest, released → s.qtc.queue = d :: rest →
      t.qtc.holder = some d ∧ t.qtc.entered = occupiesTower t d ∧
        t.qtc.queue = if r.state = .loaded ∧ d ≠ c ∧ c ∉ rest then rest ++ [c] else rest := by
  intro t r released same
  by_cases hh : s.qtc.holder = some c
  · cases ho : occupiesTower s c with
    | true =>
      have e : t = s.onQtc fun q => { q with entered := true } := by
        show towerReport c s = _
        unfold towerReport; rw [if_pos hh, if_pos ho]
      have nr : ¬ released := fun h => by have := h.2.1; rw [ho] at this; cases this
      exact ⟨fun d _ => by rw [e]; rfl, fun h => (nr h).elim, fun _ => by rw [e]; rfl, fun h => (h hh).elim,
          fun _ h => (nomatch h),
        fun _ _ => by rw [e]; exact ⟨hh, rfl, rfl⟩, fun h => (nr h).elim, fun _ _ h => (nr h).elim⟩
    | false =>
      cases he : s.qtc.entered with
      | false =>
        have e : t = s := by
          show towerReport c s = _
          unfold towerReport; rw [if_pos hh, if_neg (by rw [ho]; decide), if_neg (by rw [he]; decide)]
        have nr : ¬ released := fun h => by have := h.2.2; rw [he] at this; cases this
        exact ⟨fun d _ => by rw [e], fun h => (nr h).elim, fun _ => by rw [e], fun h => (h hh).elim, fun _ _ _ =>
            by simp only [same]; rw [e, he]; exact ⟨rfl, rfl, rfl⟩,
          fun _ h => (nomatch h), fun h => (nr h).elim, fun _ _ h => (nr h).elim⟩
      | true =>
        have hr : released := ⟨hh, ho, he⟩
        let s1 := setCarRec c { r with reserved := r.reserved.filter fun k => !isTower s k } s
        let s2 := s1.onQtc fun q => { q with holder := none, entered := false }
        have e : t = if (carRec (towerGrant s2) c).state = .loaded then towerJoin c (towerGrant s2) else towerGrant
            s2 := by
          show towerReport c s = _
          unfold towerReport towerRelease; rw [if_pos hh, if_neg (by rw [ho]; decide), if_pos he]
        have c2 : ∀ d, carRec (towerGrant s2) d = carRec s1 d := by
          intro d; unfold carRec; rw [towerGrant_cars]; rfl
        have ct : ∀ d, carRec t d = carRec s1 d := by
          intro d
          rw [e, ← c2 d]
          split
          · unfold carRec; rw [towerJoin_cars]
          · rfl
        have c1 : carRec s1 c = { r with reserved := r.reserved.filter fun k => !isTower s k } := by
          show carRec (setCarRec _ _ _) _ = _
          rw [carRec_setCarRec, if_pos ⟨rfl, by omega, by omega⟩]
        have st : (carRec (towerGrant s2) c).state = r.state := by rw [c2, c1]
        rw [st] at e
        refine ⟨fun d hd => ?_, fun _ => by rw [ct, c1], fun h => (h hr).elim, fun h => (h hh).elim, fun _ _ h =>
            (by cases h),
          fun _ h => (nomatch h), fun _ hq => ?_, fun d rest _ hq => ?_⟩
        · rw [ct]; show carRec (setCarRec _ _ _) _ = _
          rw [carRec_setCarRec, if_neg (fun h => hd h.1.symm)]
        · have eg : towerGrant s2 = s2 := by
            unfold towerGrant
            have h2 : s2.qtc.queue = [] := hq
            have h1 : s2.qtc.holder = none := rfl
            rw [h1, h2]
          rw [eg] at e
          rw [e]
          by_cases hl : r.state = .loaded
          · rw [if_pos hl, if_pos hl]
            unfold towerJoin
            have h1 : s2.qtc.holder = none := rfl
            have h2 : s2.qtc.queue = [] := hq
            rw [if_neg (by rw [h1, h2]; simp)]
            unfold towerGrant
            have h3 : (s2.onQtc fun q => { q with queue := q.queue ++ [c] }).qtc.holder = none := rfl
            have h4 : (s2.onQtc fun q => { q with queue := q.queue ++ [c] }).qtc.queue = [c] := by
              show s2.qtc.queue ++ [c] = [c]; rw [h2]; rfl
            rw [h3, h4]
            refine ⟨rfl, ?_, rfl⟩
            show occupiesTower s1 c = false
            unfold occupiesTower
            rw [c1]
            exact ho
          · rw [if_neg hl, if_neg hl]; exact ⟨rfl, rfl, hq⟩
        · have eg : towerGrant s2 =
              s2.onQtc fun q => { q with holder := some d, queue := rest, entered := occupiesTower s2 d } := by
            unfold towerGrant
            have h2 : s2.qtc.queue = d :: rest := hq
            have h1 : s2.qtc.holder = none := rfl
            rw [h1, h2]
          have ts : t.qtc.segments = s.qtc.segments := by
            rw [e, eg]
            split
            · exact towerJoin_segments _ _
            · rfl
          have ot : occupiesTower t d = occupiesTower s2 d := by
            have h1 : carRec t d = carRec s2 d := ct d
            unfold occupiesTower; rw [h1]
            congr 1; funext k; unfold isTower segment; rw [ts]; rfl
          rw [ot]
          have hg : (towerGrant s2).qtc.holder = some d := by rw [eg]; rfl
          by_cases hl : r.state = .loaded
          · rw [if_pos hl] at e
            obtain ⟨j1, j2, j3⟩ := (towerJoin_joins c (towerGrant s2)).2 d hg
            rw [e, j1, j2, j3, eg]
            refine ⟨rfl, rfl, ?_⟩
            show (if d ≠ c ∧ c ∉ rest then rest ++ [c] else rest) = _
            by_cases hx : d ≠ c ∧ c ∉ rest
            · rw [if_pos hx, if_pos ⟨hl, hx⟩]
            · rw [if_neg hx, if_neg (fun h => hx h.2)]
          · rw [if_neg hl] at e
            rw [e, if_neg (fun h => hl h.1), eg]
            exact ⟨rfl, rfl, rfl⟩
  · have e : t = s := by
      show towerReport c s = _
      unfold towerReport; rw [if_neg hh]
    have nr : ¬ released := fun h => hh h.1
    exact ⟨fun d _ => by rw [e], fun h => (nr h).elim, fun _ => by rw [e], fun _ =>
        by simp only [same]; rw [e]; exact ⟨rfl, rfl, rfl⟩, fun h => (hh h).elim,
      fun h => (hh h).elim, fun h => (nr h).elim, fun _ _ h => (nr h).elim⟩

/-! ## The report -/

theorem occupiesTower_iff (s : State) (c : Nat) : occupiesTower s c = true ↔ ∃ k ∈ (carRec s c).occupied,
    isTower s k = true := by
  unfold occupiesTower; rw [List.any_eq_true]

theorem posOfClass_kept {l : List Aspect} {s t : State} (h : Touches l s t) (c : StationClass) (i : Nat)
    (ha : Aspect.pollTables ∉ l := by decide) : posOfClass t c i = posOfClass s c i := by
  unfold posOfClass positions pollEntry
  rw [(h.pollTables_kept ha).1, (h.pollTables_kept ha).2.1]

theorem addressOfClass_kept {l : List Aspect} {s t : State} (h : Touches l s t) (c : StationClass) (i : Nat)
    (ha : Aspect.pollTables ∉ l := by decide) : addressOfClass t c i = addressOfClass s c i := by
  unfold addressOfClass
  rw [posOfClass_kept h c i ha]
  split
  · rw [h.pollEntry_kept _ ha]
  · rfl

theorem isTower_kept {l : List Aspect} {s t : State} (h : Touches l s t) (k : Nat)
    (ha : Aspect.trackTables ∉ l := by decide) : isTower t k = isTower s k := by
  unfold isTower segment; rw [(h.trackTables_kept ha).1]

/-- What the placing of an UNKNOWN car in its cycle leaves of its record, but for state and load (R77). -/
def placedRec (conflict : Bool) (q : CarRecord) : CarRecord :=
  { q with
    reserved := if conflict then q.reserved else q.reserved.filter fun k => q.occupied.contains k
    move := none, uncertain := false, assignedOven := 0, loadOven := 0, drainDeadline := none }

theorem carPlaced_eq (c : Nat) (conflict : Bool) (s : State) {x : LoadState}
    (hx : LoadState.ofStatus (carRec s c).reportedLoad = x) {q : CarRecord} (hq : placedRec conflict (carRec s c) =
        q) :
    carPlaced c conflict s = match (generalizing := false) x with
      | .empty => idleAppend c (setCarRec c { q with state := .idle, load := .empty } s)
      | .hot => towerJoin c (setCarRec c { q with state := .loaded, load := .hot, hotStart := some s.now } s)
      | .wet => setCarRec c { q with state := .quenched, load := .wet } s := by
  subst hx hq
  cases conflict <;> rfl

/-- A report taken from a car has the effect that R76 to R78, R83, R88 and R93 give it. -/
theorem carReport_takesEffect {c : Nat} (hc : c = 1 ∨ c = 2) (pos : Nat) (moving : Bool) (status : Nat) (v : State) :
    CarReportTakesEffect c pos moving status v (carReport c pos moving status v) := by
  unfold CarReportTakesEffect
  intro r body recorded conf behind arrived halted inTower released sameTower load tested
  have hr : 1 ≤ c ∧ c ≤ 2 := by omega
  let a := setCarRec c recorded v
  let b := carConflictOrRelease c r.occupied a
  have ac : carRec a c = recorded := by
    show carRec (setCarRec _ _ _) _ = _
    rw [carRec_setCarRec, if_pos ⟨rfl, hr⟩]
  have ao : ∀ d, d ≠ c → carRec a d = carRec v d := by
    intro d hd
    show carRec (setCarRec _ _ _) _ = _
    rw [carRec_setCarRec, if_neg (fun h => hd h.1.symm)]
  have acs : newConflicts a c r.occupied = conf := newConflicts_recorded c hc recorded r.occupied v
  have ew : carReport c pos moving status v =
      if (carRec b c).state = .unknown then carPlaced c (!conf.isEmpty) b else carLoadTest c b := by
    rw [← acs]; rfl
  -- the conflict
  have hcon : ∀ k rest, conf = k :: rest →
      b = placeHalt .qtc HaltReason.trackConflict (posOfClass v .car 2)
        (placeHalt .qtc HaltReason.trackConflict (posOfClass v .car 1)
          (raise .trackConflict 0 (addressOfClass v .car c) k (setCarRec c recorded v))) := by
    intro k rest h
    show carConflictOrRelease c r.occupied a = _
    unfold carConflictOrRelease
    rw [acs, h]
    dsimp only
    unfold trackConflict
    dsimp only
    have k1 := raise_touches .trackConflict 0 (addressOfClass a .car c) k a
    rw [posOfClass_kept k1, posOfClass_kept k1]
    rfl
  have hrel : conf = [] → b = towerReport c (carReleases c a) := by
    intro h
    show carConflictOrRelease c r.occupied a = _
    unfold carConflictOrRelease
    rw [acs, h]
  obtain ⟨l, m, el, em1, em2, es, ek⟩ := releasedRec_eq (isBehind a c recorded) (atTarget recorded) recorded
  have ecr : carReleases c a = setCarRec c
      { recorded with reserved := l, move := m, haltRelease := recorded.haltRelease && recorded.moving } a := by
    rw [carReleases_eq, ac, el]
  have hbehind : ∀ k, isBehind a c recorded k = true ↔ behind k := fun k => isBehind_iff a c k pos recorded rfl
  have hat : atTarget recorded = true ↔ ∃ m, r.move = some m ∧ ((pos : Int) - m.target).natAbs ≤ 100 :=
    atTarget_iff pos recorded rfl
  have hends : (recorded.moving = false ∧ (atTarget recorded = true ∨ recorded.haltRelease = true)) ↔ arrived ∨
      halted := by
    rw [hat]
    exact ⟨fun h => h.2.elim (fun h2 => .inl ⟨h.1, h2⟩) (fun h2 => .inr ⟨h.1, h2⟩),
      fun h => h.elim (fun h => ⟨h.1, .inl h.2⟩) (fun h => ⟨h.1, .inr h.2⟩)⟩
  rw [hends] at em1 em2
  simp only [hends] at ek
  let a2 := carReleases c a
  have a2c : carRec a2 c = { recorded with reserved := l, move := m, haltRelease := r.haltRelease && moving } := by
    show carRec (carReleases c a) c = _
    rw [ecr, carRec_setCarRec, if_pos ⟨rfl, hr⟩]
  have a2o : ∀ d, d ≠ c → carRec a2 d = carRec v d := by
    intro d hd
    show carRec (carReleases c a) d = _
    rw [ecr, carRec_setCarRec, if_neg (fun h => hd h.1.symm), ao d hd]
  have hin : occupiesTower a2 c = true ↔ inTower := by
    rw [occupiesTower_iff, a2c]; exact Iff.rfl
  have hout : occupiesTower a2 c = false ↔ ¬ inTower := by
    rw [← hin, Bool.not_eq_true]
  obtain ⟨t1, t2, t3, t4, t5, t6, t7, t8⟩ := towerReport_effect c hc a2
  have hrl : (a2.qtc.holder = some c ∧ occupiesTower a2 c = false ∧ a2.qtc.entered = true) ↔ released := by
    rw [hout]; exact Iff.rfl
  rw [hrl] at t2 t3 t7
  simp only [hrl] at t8
  have a2s : (carRec a2 c).state = r.state := by rw [a2c]
  rw [a2s] at t7
  simp only [a2s] at t8
  -- the state of the car before it is placed
  have bs : (carRec b c).state = r.state ∧ (carRec b c).uncertain = r.uncertain ∧ (carRec b c).loadOven = r.loadOven ∧
      (carRec b c).reportedLoad = status ∧ (carRec b c).occupied = body ∧ b.now = v.now ∧
      addressOfClass b .car c = addressOfClass v .car c := by
    have kb := carConflictOrRelease_touches c r.occupied a
    have kn : b.now = v.now := kb.now_kept
    have ka : addressOfClass b .car c = addressOfClass v .car c := addressOfClass_kept kb .car c
    suffices h : ∃ l m x, carRec b c = { recorded with reserved := l, move := m, haltRelease := x } by
      obtain ⟨l, m, x, h⟩ := h
      rw [h]; exact ⟨rfl, rfl, rfl, rfl, rfl, kn, ka⟩
    cases hcf : conf with
    | cons k rest =>
      refine ⟨recorded.reserved, recorded.move, recorded.haltRelease, ?_⟩
      have k2 : Touches [.counts, .transmit, .outbound, .tasks] a b := by
        rw [hcon k rest hcf]
        exact (raise_touches _ _ _ _ _).mono.seq ((placeHalt_touches _ _ _ _).mono.seq (placeHalt_touches _ _ _
            _).mono)
      rw [k2.carRec_kept, ac]
    | nil =>
      have eb : b = towerReport c a2 := hrel hcf
      rw [eb]
      by_cases hrd : released
      · exact ⟨_, m, r.haltRelease && moving, by rw [t2 hrd, a2c]⟩
      · exact ⟨l, m, r.haltRelease && moving, by rw [t3 hrd, a2c]⟩
  obtain ⟨b1, b2, b3, b4, b5, b6, b7⟩ := bs
  have htest : ((carRec b c).uncertain && decide (LoadState.ofStatus (carRec b c).reportedLoad = .empty) &&
      (decide ((carRec b c).state = .loaded) || decide ((carRec b c).state =
          .quenching) || decide ((carRec b c).state = .draining) ||
        decide ((carRec b c).state = .quenched))) = true ↔ tested := by
    rw [b1, b2, b4]
    simp only [Bool.and_eq_true, Bool.or_eq_true, decide_eq_true_eq, tested, and_assoc, or_assoc]
    exact Iff.rfl
  refine ⟨b, hcon, fun h => ?_, fun hu => ?_, fun hu ht => ?_, fun hu ht => ?_⟩
  · have eb : b = towerReport c a2 := hrel h
    rw [eb]
    refine ⟨?_, fun d hd => (t1 d hd).trans (a2o d hd), t4, fun h1 h2 h3 => t5 h1 (hout.2 h2) h3, fun h1 h2 =>
        t6 h1 (hin.2 h2), t7, t8⟩
    by_cases hrd : released
    · refine ⟨l.filter fun k => !isTower a2 k, m, ?_, em1, em2, List.filter_sublist.trans es, fun k => ?_⟩
      · rw [t2 hrd, a2c]
      · rw [List.mem_filter, ek k]
        have : isTower a2 k = isTower v k := rfl
        rw [this, ← hbehind k, Bool.not_eq_true]
        simp only [hrd, true_and, Bool.not_eq_true, Bool.not_eq_true']
        simp only [and_assoc]
        exact Iff.rfl
    · refine ⟨l, m, ?_, em1, em2, es, fun k => ?_⟩
      · rw [t3 hrd, a2c]
      · rw [ek k, ← hbehind k, Bool.not_eq_true]
        simp only [hrd, false_and, not_false_eq_true, and_true]
        exact Iff.rfl
  · rw [ew, if_pos (b1.trans hu)]
    intro q placed
    have ep : placedRec (!conf.isEmpty) q = placed := by
      cases hcf : conf with
      | nil => simp only [placedRec, placed, hcf, show q.occupied = body from b5]; rfl
      | cons k rest => simp [placedRec, placed, hcf]
    have ef := fun x => carPlaced_eq c (!conf.isEmpty) b (x := x) (q := placed)
    have hl : LoadState.ofStatus (carRec b c).reportedLoad = load := congrArg LoadState.ofStatus b4
    have hcar : ∀ x : CarRecord, carRec (setCarRec c x b) c = x := fun x => by
      rw [carRec_setCarRec, if_pos ⟨rfl, hr⟩]
    have hj := fun x => towerJoin_joins c (setCarRec c x b)
    have hjc : ∀ x, carRec (towerJoin c (setCarRec c x b)) c = x := fun x => by
      rw [show carRec (towerJoin c (setCarRec c x b)) c =
          carRec (setCarRec c x b) c from by unfold carRec; rw [towerJoin_cars], hcar]
    refine ⟨fun h => ?_, fun h => ?_, fun h => ?_, fun d hd => ?_⟩
    · rw [ef _ (hl.trans h) ep]
      exact ⟨hcar _, rfl⟩
    · rw [ef _ (hl.trans h) ep, b6]
      exact ⟨hjc _, (hj _).1⟩
    · rw [ef _ (hl.trans h) ep]
      exact hcar _
    · cases hx : load <;> rw [ef _ (hl.trans hx) ep]
      · exact hd
      · exact ((hj _).2 d hd).1
      · exact hd
  · rw [ew, if_neg (fun h => hu (b1.symm.trans h))]
    unfold carLoadTest
    dsimp only
    rw [if_pos (htest.2 ht), b3, b7, b4]
  · rw [ew, if_neg (fun h => hu (b1.symm.trans h))]
    unfold carLoadTest
    dsimp only
    rw [if_neg (fun h => ht (htest.1 h))]

/-! ## A report beside the run -/

theorem towerGrant_request (s : State) : (towerGrant s).qtc.carRequest = s.qtc.carRequest := by
  unfold towerGrant
  split <;> rfl

theorem towerJoin_request (c : Nat) (s : State) : (towerJoin c s).qtc.carRequest = s.qtc.carRequest := by
  unfold towerJoin
  split
  · rfl
  · exact towerGrant_request _

theorem towerRelease_request (c : Nat) (s : State) : (towerRelease c s).qtc.carRequest = s.qtc.carRequest := by
  unfold towerRelease
  extract_lets r s1 s2
  have : s2.qtc.carRequest = s.qtc.carRequest := towerGrant_request _
  split
  · exact (towerJoin_request _ _).trans this
  · exact this

/-- A report asks for no car and withdraws no request (R85). -/
theorem carReport_request (c p : Nat) (m : Bool) (st : Nat) (s : State) :
    (carReport c p m st s).qtc.carRequest = s.qtc.carRequest := by
  unfold carReport
  extract_lets r s1 conflict s2
  have h2 : s2.qtc.carRequest = s.qtc.carRequest := by
    show (carConflictOrRelease c r.occupied s1).qtc.carRequest = s1.qtc.carRequest
    unfold carConflictOrRelease
    split
    · unfold trackConflict
      extract_lets s3
      rw [(placeHalt_touches _ _ _ _).idle_kept.2, (placeHalt_touches _ _ _ _).idle_kept.2]
      exact (raise_touches _ _ _ _ _).idle_kept.2
    · unfold towerReport
      split
      · split
        · rfl
        · split
          · exact towerRelease_request _ _
          · rfl
      · rfl
  split
  · unfold carPlaced
    extract_lets q1 q2
    split
    · exact h2
    · exact (towerJoin_request _ _).trans h2
    · exact h2
  · unfold carLoadTest
    extract_lets q
    split
    · rw [(raise_touches _ _ _ _ _).idle_kept.2]; exact h2
    · exact h2

end Sys2Proof.Machine
end

