-- ==== Sys2Proof/Laws/Pushes.lean ====
section
/-!
SUPPORT. What the end of a PUSH leaves of its car and of the run beside it (R36, R59, R86).
-/

set_option Elab.async false
namespace Sys2Proof.Machine

open Sys2Proof

/-! ## What the runner does at the phase change -/

/-- What the runner's WAIT leaves of a car that is neither assigned nor idle: its record but for its MOVE,
    and no place in
the idle list. -/
abbrev StandsBy (c : Nat) (s t : State) : Prop :=
  (carRec s c).state ≠ .assigned → c ∉ s.qtc.idle →
    cycleRec (carRec t c) = cycleRec (carRec s c) ∧ c ∉ t.qtc.idle

theorem cycle_state {s t : State} {c : Nat} (h : cycleRec (carRec t c) = cycleRec (carRec s c)) :
    (carRec t c).state = (carRec s c).state := by
  have := congrArg CarRecord.state h
  exact this

theorem StandsBy.trans {c : Nat} {s t u : State} (h : StandsBy c s t) (k : StandsBy c t u) : StandsBy c s u :=
  fun h1 h2 =>
    have a := h h1 h2
    have b := k (by rw [cycle_state a.1]; exact h1) a.2
    ⟨b.1.trans a.1, b.2⟩

theorem StandsBy.refl (c : Nat) (s : State) : StandsBy c s s := fun _ h => ⟨rfl, h⟩

theorem StandsBy.of {l : List Aspect} {c : Nat} {s t : State} (h : Touches l s t)
    (h1 : Aspect.cars ∉ l := by decide) (h2 : Aspect.idle ∉ l := by decide) : StandsBy c s t :=
  fun _ h3 => ⟨by rw [h.carRec_kept c h1], by rw [(h.idle_kept h2).1]; exact h3⟩

/-- A write of the runner's that leaves the cars as they are. -/
theorem StandsBy.same {c : Nat} {s t : State} (h1 : t.qtc.cars = s.qtc.cars) (h2 : t.qtc.idle = s.qtc.idle) :
    StandsBy c s t := fun _ h3 => ⟨by unfold carRec; rw [h1], by rw [h2]; exact h3⟩

theorem carReturned_standsBy (c d : Nat) (s : State) : StandsBy c s (carReturned d s) := by
  intro h1 h2
  refine ⟨by rw [carReturned_other h1], ?_⟩
  unfold carReturned
  extract_lets r
  split
  · next hr =>
    have hd : d ≠ c := by rintro rfl; exact h1 hr
    show c ∉ (if s.qtc.idle.contains d then s.qtc.idle else s.qtc.idle ++ [d])
    split
    · exact h2
    · intro h3
      rcases List.mem_append.mp h3 with h3 | h3
      · exact h2 h3
      · exact hd (List.mem_singleton.mp h3).symm
  · exact h2

theorem entryTest_standsBy (c : Nat) (s : State) : StandsBy c s (entryTest s) := by
  intro _ h2
  refine ⟨entryTest_cycle s c, ?_⟩
  unfold entryTest
  split
  · have k : Touches [.run, .cars, .outbound, .tasks]
        (withdrawCar (enterStep .position s.sch.timing.position s)) _ :=
      (formMoves_touches (withdrawCar (enterStep .position s.sch.timing.position s))).mono.seq (arrivalTest_touches
          _).mono
    rw [k.idle_kept.1]; exact h2
  · exact h2

theorem handCar_standsBy {c d : Nat} (hd : d ≠ c) (s : State) : StandsBy c s (handCar d s) := by
  unfold handCar
  extract_lets s1
  refine StandsBy.trans (fun _ h2 => ⟨?_, ?_⟩) (entryTest_standsBy c _)
  · show cycleRec (carRec (setCarRec d _ s) c) = _
    rw [carRec_setCarRec, if_neg (fun h => hd h.1)]
  · exact fun h => h2 (List.mem_of_mem_erase h)

theorem carRequestTest_standsBy (c : Nat) (s : State) : StandsBy c s (carRequestTest s) := by
  intro h1 h2
  unfold carRequestTest
  split
  · split
    · next d l hi =>
      exact handCar_standsBy (by rintro rfl; exact h2 (by rw [hi]; simp)) s h1 h2
    · exact ⟨rfl, h2⟩
  · exact ⟨rfl, h2⟩

theorem waitTests_standsBy (c : Nat) (s : State) : StandsBy c s (waitTests s) :=
  (carRequestTest_standsBy c s).trans (entryTest_standsBy c _)

theorem stopRun_standsBy (c : Nat) (code : StopCode) (a d : Nat) (s : State) :
    StandsBy c s (stopRun code a d s) := by
  unfold stopRun
  extract_lets step s1 s2 s3 s4 s5
  have k3 : StandsBy c s2 s3 := by
    refine .of (l := [.counts, .transmit]) (.ite (fun _ => hardPushOfRun_touches _) (fun _ => .refl _ _))
  have k4 : StandsBy c s3 s4 := by
    refine .of (l := [.outbound, .tasks]) (.ite (fun _ => haltMoves_touches _) (fun _ => .refl _ _))
  have k5 : StandsBy c s4 s5 := by
    show StandsBy c s4 (returnRunCar s4)
    unfold returnRunCar
    split
    · exact carReturned_standsBy _ _ _
    · exact .refl _ _
    · exact .refl _ _
  exact (StandsBy.trans (.same (t := s2) rfl rfl) k3).trans (k4.trans (k5.trans (.of (raise_touches _ _ _ _ _))))

theorem skipOven_standsBy (c : Nat) (s : State) : StandsBy c s (skipOven s) := by
  unfold skipOven
  extract_lets s1
  refine StandsBy.trans ?_ (.of (raise_touches _ _ _ _ _))
  refine StandsBy.trans (t := onRun (fun r => { r with skipped := r.skipped + 1, residual := r.residual - 1 }) s)
    (.same rfl rfl) ?_
  show StandsBy c _ (freeRunCar _)
  unfold freeRunCar
  split
  · exact (carReturned_standsBy c _ _).trans (.same rfl rfl)
  · exact .refl _ _

theorem completeRun_standsBy (c : Nat) (s : State) : StandsBy c s (completeRun s) :=
  StandsBy.trans (t := withdrawCar (onRun (fun r => { r with state := .idle, holdPending :=
      false }) s)) (.same rfl rfl)
    (.of (raise_touches _ _ _ _ _))

theorem phaseCases_standsBy (c : Nat) : ∀ (f : Nat) (s : State), StandsBy c s (phaseCases f s)
  | 0, s => .refl c s
  | f + 1, s => by
    unfold phaseCases
    split
    · refine (skipOven_standsBy c s).trans ?_
      dsimp only
      split
      · exact completeRun_standsBy c _
      · exact StandsBy.trans (.same (t := arriveNext (skipOven s)) rfl rfl) (phaseCases_standsBy c f _)
    · split
      · exact stopRun_standsBy c _ _ _ s
      · exact waitTests_standsBy c s

/-- The end of a PUSH, OK or not, hands the runner of a run past WAIT nothing to do. -/
theorem schPhaseChange_past {n : Nat} {s : State} (h : s.run.step ≠ .wait)
    (hp : currentOven s = n → currentPhase s ≠ .outOfService) : schPhaseChange n s = s := by
  unfold schPhaseChange
  split
  · next hr =>
    simp only [Bool.and_eq_true, decide_eq_true_eq] at hr
    have e : ∀ t, t = s → afterRun s t = s := by
      rintro t rfl
      unfold afterRun
      rw [if_pos (by simp)]
    apply e
    have := hp hr.2
    split <;> first
      | exact absurd ‹_› h
      | exact if_neg this
  · rfl

/-- What the end of a PUSH hands the runner leaves a car that is neither assigned nor idle: in WAIT,
    where the runner may
take the oven up again, and past it, where it does nothing. -/
theorem schPhaseChange_wait {n : Nat} {s : State} (h : s.run.step = .wait) (c : Nat) :
    StandsBy c s (schPhaseChange n s) := by
  unfold schPhaseChange
  split
  · rw [h]
    exact (phaseCases_standsBy c _ s).trans (.of (afterRun_touches _ _))
  · exact .refl _ _

/-! ## The car and the run -/

/-- The end of a PUSH changes what it writes in the oven's record and events, and then hands the runner the phase. -/
theorem ovtPushDone_eq (n a m : Nat) (ok : Bool) (s : State) :
    ∃ u, Touches [.ovens, .stampLaw, .counts, .transmit, .regs, .dirty] s u ∧
      (ovtPushDone n a m ok s = u ∨ (ovtPushDone n a m ok s = schPhaseChange n u ∧ 1 ≤ n ∧ n ≤ 128 ∧
        (ovenRec u n).phase ≠ .outOfService)) := by
  unfold ovtPushDone
  extract_lets r hard s1 ofRun s2
  have k2 : Touches [.ovens, .stampLaw, .counts, .transmit, .regs, .dirty] s s2 :=
    (setOvenRec_touches n _ s).mono.seq (.ite (fun _ => (raise_touches _ _ _ _ _).mono) (fun _ => .refl _ _))
  split
  · next hp =>
    have hn : 1 ≤ n ∧ n ≤ 128 := ovenRec_range (s := s2) (by rw [hp]; decide)
    have hx : (if ok then Phase.empty else .pushInterrupted) ≠ .outOfService := by cases ok <;> decide
    generalize (if ok then Phase.empty else .pushInterrupted) = ph at hx ⊢
    unfold setPhaseOnly setPhase
    extract_lets q
    split
    · exact ⟨s2, k2, .inl rfl⟩
    · refine ⟨_, k2.seq ((setOvenRec_touches n _ s2).mono.seq (oprDerive_touches n _).mono), .inr ⟨rfl, hn.1, hn.2,
        ?_⟩⟩
      rw [(oprDerive_touches n _).ovenRec_kept, ovenRec_setOvenRec, if_pos ⟨rfl, hn⟩]
      exact hx
  · exact ⟨s2, k2, .inl rfl⟩

theorem ovtPushDone_standsBy {n a m : Nat} {ok : Bool} {s : State} {c : Nat} (h : (carRec s c).state ≠ .assigned)
    (hi : s.run.step = .wait → c ∉ s.qtc.idle) :
    cycleRec (carRec (ovtPushDone n a m ok s) c) = cycleRec (carRec s c) := by
  obtain ⟨u, k, e | ⟨e, _, _, hp⟩⟩ := ovtPushDone_eq n a m ok s
  · rw [e, k.carRec_kept]
  · have ec := k.carRec_kept c
    by_cases hw : s.run.step = .wait
    · rw [e, (schPhaseChange_wait (by rw [k.runRecord_kept, hw]) c (by rw [ec]; exact h)
        (by rw [k.idle_kept.1]; exact hi hw)).1, ec]
    · rw [e, schPhaseChange_past (by rw [k.runRecord_kept]; exact hw), ec]
      intro hc
      unfold currentPhase
      rw [hc]; exact hp

theorem ovtPushDone_run {n a m : Nat} {ok : Bool} {s : State} (h : s.run.step = .push) :
    (ovtPushDone n a m ok s).run = s.run ∧ (ovtPushDone n a m ok s).now = s.now ∧
      (ovtPushDone n a m ok s).sch.series = s.sch.series ∧ (ovtPushDone n a m ok s).sch.timing = s.sch.timing := by
  have hu : ∃ u, Touches [.ovens, .stampLaw, .counts, .transmit, .regs, .dirty] s u ∧ ovtPushDone n a m ok s = u := by
    obtain ⟨u, k, e | ⟨e, _, _, hp⟩⟩ := ovtPushDone_eq n a m ok s
    · exact ⟨u, k, e⟩
    · refine ⟨u, k, ?_⟩
      rw [e, schPhaseChange_past (by rw [k.runRecord_kept, h]; decide)]
      intro hc
      unfold currentPhase
      rw [hc]; exact hp
  obtain ⟨u, k, e⟩ := hu
  rw [e]
  exact ⟨k.runRecord_kept, k.now_kept, k.runnerTables_kept.1, k.runnerTables_kept.2.2.1⟩

/-- A RECEIVING car takes the coke (R86). -/
theorem carLoads_receiving {c : Nat} {b : Bool} {s : State} (h : (carRec s c).state = .receiving) :
    let w := carLoads c b s
    carRec w c = { carRec s c with
      state := .loaded, load := .hot, uncertain := b, assignedOven := 0, hotStart := some s.now } ∧
    (w.qtc.holder = some c ∨ c ∈ w.qtc.queue) := by
  have hc := carRec_range (s := s) (c := c) (by rw [h]; decide)
  intro w
  have e : w = towerJoin c (setCarRec c { carRec s c with
      state := .loaded, load := .hot, uncertain := b, assignedOven := 0, hotStart := some s.now } s) := if_pos h
  rw [e]
  refine ⟨?_, (towerJoin_joins _ _).1⟩
  show readNum (towerJoin _ _).qtc.cars c {} = _
  rw [towerJoin_cars]
  show carRec (setCarRec c _ s) c = _
  rw [carRec_setCarRec, if_pos ⟨rfl, hc⟩]

/-- A broken PUSH, or one that fails, leaves a car that is not assigned as it is, and the tower (R39, R59). -/
theorem pushFollows_car {c : Nat} {s : State} (n : Nat) (ok : Bool) (h : (carRec s c).state ≠ .assigned) :
    let w := if ok = true then schPushDone n s else schPushBroken n 255 s
    carRec w c = carRec s c ∧ w.qtc.holder = s.qtc.holder ∧ w.qtc.queue = s.qtc.queue := by
  intro w
  cases ok with
  | true =>
    have k : Touches [.run, .outbound, .tasks] s w := schPushDone_touches n s
    exact ⟨k.carRec_kept c, k.tower_kept.1, k.tower_kept.2.2⟩
  | false =>
    have k : Touches runAspects s w := schPushBroken_touches n 255 s
    refine ⟨?_, k.tower_kept.1, k.tower_kept.2.2⟩
    show carRec (schPushBroken n 255 s) c = _
    unfold schPushBroken
    split
    · rw [(afterRun_touches _ _).carRec_kept, stopRun_car h]
    · rfl

/-- A stopped run holds in its sense record why (R65). -/
theorem stopRun_sense (code : StopCode) (a d : Nat) (s : State) :
    (stopRun code a d s).run.state = .stopped ∧
      (stopRun code a d s).sch.sense = ⟨code, currentOven s, s.run.cursor, s.run.step, d⟩ := by
  unfold stopRun
  extract_lets step s1 s2 s3 s4 s5
  have t3 : Touches [.counts, .transmit] s2 s3 := .ite (fun _ => hardPushOfRun_touches _) (fun _ => .refl _ _)
  have t4 : Touches [.outbound, .tasks] s3 s4 := .ite (fun _ => haltMoves_touches _) (fun _ => .refl _ _)
  have k : Touches [.counts, .transmit, .outbound, .tasks, .cars, .idle] s2
      (raise .runStopped (currentOven s5) a (code.code * 256 + s5.run.progress : Nat) s5) :=
    t3.mono.seq (t4.mono.seq ((returnRunCar_touches _).mono.seq (raise_touches _ _ _ _ _).mono))
  rw [k.runRecord_kept, k.sense_kept]
  exact ⟨rfl, rfl⟩

/-- In PUSH, the PUSH of the current oven takes the run to CLOSE without its car, or stops it (R59). -/
theorem pushFollows_run {n : Nat} {s : State} (h1 : s.run.state = .running) (h2 : s.run.step = .push)
    (h3 : currentOven s = n) :
    (schPushDone n s).run = { s.run with step := .close, deadline := some (s.now + s.sch.timing.close), car :=
        none } ∧
    (schPushBroken n 255 s).run.state = .stopped ∧
    (schPushBroken n 255 s).sch.sense = ⟨.permitBroken, n, s.run.cursor, .push, 255⟩ := by
  unfold schPushDone schPushBroken
  rw [if_pos (by simp [h1, h2, h3]), if_pos (by simp [h1, h3])]
  have k := fun b t => afterRun_touches b t
  refine ⟨?_, ?_, ?_⟩
  · rw [(k _ _).runRecord_kept]; rfl
  · rw [(k _ _).runRecord_kept]; exact (stopRun_sense _ _ _ s).1
  · rw [(k _ _).sense_kept, (stopRun_sense _ _ _ s).2, h3, h2]

end Sys2Proof.Machine
end

