-- ==== Sys2Proof/Laws/Resumes.lean ====
section
/-!
SUPPORT. What taking a HELD run up again leads to: the skip of an oven, the WAIT tests, the lateness test and the MOVEs formed
anew.
-/

set_option Elab.async false
namespace Sys2Proof.Machine

open Sys2Proof

/-- A HELD run as RESUME takes it up again, before its tests (R67). -/
abbrev resumedFrom (v : State) : State := onRun (fun r => { r with
    state := .running
    deadline := match stepLimit v.sch.timing r.step with
      | some limit => some (v.after limit)
      | none => r.deadline }) v

/-- RESUME of a HELD run: taken up, tested, and settled (R67). -/
theorem exec_resume_held (s : State) (h : s.run.state = .held) :
    exec .resume s = .next (answer ReqCode.resume ⟨ilkSettle (clearSense (controlAccepted s)) (afterRun
        (clearSense (controlAccepted s)) (resumeTests (resumedFrom (clearSense (controlAccepted s))))),
            Status.ok, []⟩) := by
  rw [show exec .resume s = .next (answer ReqCode.resume (resumeRequest (clearSense (controlAccepted s)))) from
    congrArg Host.Outcome.next (mgmtArrival_answers ReqCode.resume 1 resumeRequest s (by decide))]
  unfold resumeRequest
  rw [show (clearSense (controlAccepted s)).run = s.run from rfl, h]
  rfl

theorem phaseCases_skipped_le (f : Nat) : ∀ s : State, s.run.skipped ≤ (phaseCases f s).run.skipped := by
  induction f with
  | zero => intro s; exact Nat.le_refl _
  | succ f ih =>
    intro s
    unfold phaseCases
    have hs : (skipOven s).run.skipped = s.run.skipped + 1 := by
      unfold skipOven freeRunCar
      rw [(raise_touches _ _ _ _ _).runRecord_kept]
      split
      · show (carReturned _ _).run.skipped = _
        rw [(carReturned_touches _ _).runRecord_kept]; rfl
      · rfl
    split
    · extract_lets s1
      split
      · show _ ≤ (completeRun (skipOven s)).run.skipped
        unfold completeRun
        rw [(raise_touches _ _ _ _ _).runRecord_kept]
        show s.run.skipped ≤ (skipOven s).run.skipped
        omega
      · refine Nat.le_trans ?_ (ih _)
        show s.run.skipped ≤ (skipOven s).run.skipped
        omega
    · split
      · exact Nat.le_of_eq (congrArg RunRecord.skipped (stopRun_run _ _ _ _).1).symm
      · exact Nat.le_of_eq (waitTests_keepsRun s).2.2.2.1.symm

/-- A skipped oven is counted (R52). -/
theorem phaseCases_skipped_lt {f : Nat} {s : State} (h : skippedPhase (currentPhase s) = true) : s.run.skipped <
    (phaseCases (f+1) s).run.skipped := by
  unfold phaseCases
  have hs : (skipOven s).run.skipped = s.run.skipped + 1 := by
    unfold skipOven freeRunCar
    rw [(raise_touches _ _ _ _ _).runRecord_kept]
    split
    · show (carReturned _ _).run.skipped = _
      rw [(carReturned_touches _ _).runRecord_kept]; rfl
    · rfl
  rw [if_pos h]
  extract_lets s1
  split
  · show _ < (completeRun (skipOven s)).run.skipped
    unfold completeRun
    rw [(raise_touches _ _ _ _ _).runRecord_kept]
    show s.run.skipped < (skipOven s).run.skipped
    omega
  · refine Nat.lt_of_lt_of_le ?_ (phaseCases_skipped_le _ _)
    show s.run.skipped < (skipOven s).run.skipped
    omega

theorem latenessTest_skipped (s : State) : (latenessTest s).run.skipped = s.run.skipped := by
  unfold latenessTest
  split
  · split
    · rw [(afterRun_touches _ _).runRecord_kept, (stopRun_run _ _ _ _).1]
    · split
      · rfl
      · rw [(afterRun_touches _ _).runRecord_kept, (stopRun_run _ _ _ _).1]
  · rfl

/-- An oven that is neither skipped nor interrupted leaves the run its WAIT tests (R52 to R54). -/
theorem takeUp_stays {s : State} (h : skippedPhase (currentPhase s) = false)
    (h2 : currentPhase s ≠ .pushInterrupted) : takeUp s = waitTests s := by
  unfold takeUp phaseCases
  rw [if_neg (by rw [h]; decide), if_neg h2]

/-- Before the greatest lateness the test changes nothing (R55). -/
theorem latenessTest_early {s : State} (h : ¬ s.run.planned + s.sch.timing.maxLateness ≤ s.now)
    : latenessTest s = s := by
  unfold latenessTest
  rw [if_neg]
  unfold lateTestDue
  rw [show reached s _ = false from not_reached_of_lt (by omega)]
  simp

theorem lateTestDue_of {s : State} (h1 : s.run.state = .running)
    (h2 : s.run.step = .wait ∨ s.run.step = .position ∨ s.run.step = .opening)
    (h3 : s.run.planned + s.sch.timing.maxLateness ≤ s.now) : lateTestDue s = true := by
  unfold lateTestDue
  rw [show reached s _ = true from reached_of_le h3]
  rcases h2 with h | h | h <;> simp [h1, h]

/-- Nor does it for an oven that has reached its ready instant, with a car. -/
theorem latenessTest_ready {s : State} (h1 : ¬ (s.run.step = .wait ∧
    s.run.car = none)) (h2 : readyInstant s (currentOven s) ≤ s.now) : latenessTest s = s := by
  unfold latenessTest
  split
  · rw [if_neg (by simpa using h1), if_pos (reached_of_le h2)]
  · rfl

/-- Past it, with the oven not ready, the run stops with OVEN_NOT_READY. -/
theorem latenessTest_stops {s : State} (hd : lateTestDue s = true) (h1 : ¬ (s.run.step = .wait ∧
    s.run.car = none)) (h2 : s.now < readyInstant s (currentOven s)) :
    (latenessTest s).run.state = .stopped ∧ (latenessTest s).sch.sense = ⟨.ovenNotReady, currentOven s,
        s.run.cursor, s.run.step, 0⟩ := by
  unfold latenessTest
  rw [if_pos hd, if_neg (by simpa using h1), if_neg (by rw [not_reached_of_lt h2]; decide)]
  obtain ⟨a, b⟩ := stopRun_run .ovenNotReady 0 0 s
  rw [(afterRun_touches _ _).runRecord_kept, (afterRun_touches _ _).sense_kept, a, b]
  exact ⟨rfl, rfl⟩

/-- And in WAIT without a car it stops with NO_CAR. -/
theorem latenessTest_noCar {s : State} (hd : lateTestDue s = true) (h1 : s.run.step = .wait)
    (h2 : s.run.car = none) :
    (latenessTest s).run.state = .stopped ∧ (latenessTest s).sch.sense = ⟨.noCar, currentOven s, s.run.cursor,
        .wait, 0⟩ := by
  unfold latenessTest
  rw [if_pos hd, if_pos (by simp [h1, h2])]
  obtain ⟨a, b⟩ := stopRun_run .noCar 0 0 s
  rw [(afterRun_touches _ _).runRecord_kept, (afterRun_touches _ _).sense_kept, a, b, h1]
  exact ⟨rfl, rfl⟩

/-- The instants of the current oven stay where no oven, clock or table is touched and the cursor stays. -/
theorem instants_kept {l : List Aspect} {s t : State} (k : Touches l s t) (hc : t.run.cursor = s.run.cursor)
    (h1 : Aspect.ovens ∉ l := by decide) (h2 : Aspect.ovenTables ∉ l := by decide) (h3 : Aspect.clock ∉ l
        := by decide) (h4 : Aspect.runnerTables ∉ l := by decide) : t.now = s.now ∧
            currentOven t = currentOven s ∧ readyInstant t (currentOven s) = readyInstant s (currentOven s) ∧
                t.sch.timing = s.sch.timing := by
  have hr := k.runnerTables_kept h4
  refine ⟨k.now_kept h3, ?_, ?_, hr.2.2.1⟩
  · unfold currentOven
    rw [hr.1, hc]
  · unfold readyInstant targetOf ovenConfig
    rw [k.ovenRec_kept _ h1, (k.ovenTables_kept h2).1, (k.ovenTables_kept h2).2]

theorem entryTest_planned (s : State) : (entryTest s).run.planned = s.run.planned := by
  unfold entryTest
  split
  · have h1 : ∀ u : State, (offerMoves u).run.planned = u.run.planned := by
      intro u
      unfold offerMoves
      generalize (u.run.moves.filter fun m => !m.placed) = ms
      induction ms generalizing u with
      | nil => rfl
      | cons m ms ih =>
        simp only [List.foldl_cons]
        rw [ih]
        split
        · next h =>
            have q := congrArg RunRecord.planned (offerRunMove_run h)
            exact q
        · rfl
    have h2 : ∀ u : State, (openTest u).run.planned = u.run.planned
        := by intro u; unfold openTest; extract_lets n; split <;> rfl
    have h3 : ∀ u : State, (arrivalTest u).run.planned = u.run.planned := by
      intro u; unfold arrivalTest; split
      · rw [h2]; rfl
      · rfl
    rw [h3]; unfold formMoves; extract_lets m; rw [h1]; rfl
  · rfl

/-- A run whose entry conditions hold leaves WAIT (R54). -/
theorem entryTest_step (s : State) (h : entryReady s = true) : (entryTest s).run.step = .position ∨
    (entryTest s).run.step = .opening ∨ (entryTest s).run.step = .push := by
  unfold entryTest
  rw [if_pos h]
  let u := formMoves (withdrawCar (enterStep .position s.sch.timing.position s))
  have hu : u.run.step = .position := by
    have := (formMoves_car (withdrawCar (enterStep .position s.sch.timing.position s))).2
    rw [this]; rfl
  show (arrivalTest u).run.step = _ ∨ (arrivalTest u).run.step = _ ∨ (arrivalTest u).run.step = _
  unfold arrivalTest
  split
  · unfold openTest
    extract_lets n
    split
    · right; right; rfl
    · right; left; rfl
  · left; exact hu

theorem offerMoves_machines (s : State) : (offerMoves s).run.moves.map RunMove.machine
    = s.run.moves.map RunMove.machine ∧ (offerMoves s).run.deadline = s.run.deadline ∧
        (offerMoves s).run.planned = s.run.planned := by
  unfold offerMoves
  generalize (s.run.moves.filter fun m => !m.placed) = ms
  induction ms generalizing s with
  | nil => exact ⟨rfl, rfl, rfl⟩
  | cons m ms ih =>
    simp only [List.foldl_cons]
    cases h : offerRunMove m s with
    | none => exact ih s
    | some u =>
      have e := offerRunMove_run h
      obtain ⟨a, b, c⟩ := ih (markPlaced m u)
      have e2 : (markPlaced m u).run.moves.map RunMove.machine = u.run.moves.map RunMove.machine := by
        show (u.run.moves.map fun x => if x.machine = m.machine then { x with placed
            := true } else x).map RunMove.machine = _
        rw [List.map_map]
        congr 1
        funext x
        simp only [Function.comp]
        split <;> rfl
      rw [e] at e2
      refine ⟨a.trans e2, b.trans ?_, c.trans ?_⟩
      · have q := congrArg RunRecord.deadline e
        exact q
      · have q := congrArg RunRecord.planned e
        exact q

/-- The moves set holds a MOVE for each run machine that is not in place (R56). -/
theorem formMoves_machines (s : State) : (formMoves s).run.moves.map RunMove.machine = (runMachines s).filter
    (fun m => !inPlace s m) ∧ (formMoves s).run.deadline = s.run.deadline ∧
        (formMoves s).run.planned = s.run.planned := by
  unfold formMoves
  extract_lets moves
  obtain ⟨a, b, c⟩ := offerMoves_machines (onRun (fun r => { r with moves := moves }) s)
  refine ⟨a.trans ?_, b, c⟩
  show ((runMachines s).filterMap fun m => if inPlace s m then none else some ⟨m, runTarget s m,
      false⟩).map RunMove.machine = _
  induction runMachines s with
  | nil => rfl
  | cons m ms ih =>
    rw [List.filterMap_cons, List.filter_cons]
    cases hm : inPlace s m <;> simp [ih]

/-- The forming of the MOVEs moves no machine and no door. -/
theorem formMoves_inPlace (s : State) : allInPlace (formMoves s) = allInPlace s ∧
    bothDoorsOff (formMoves s) (currentOven (formMoves s)) = bothDoorsOff s (currentOven s) ∧
        guideLockedAt (formMoves s) (currentOven (formMoves s)) = guideLockedAt s (currentOven s) ∧
            currentOven (formMoves s) = currentOven s := by
  have k := formMoves_touches s
  obtain ⟨c1, c2⟩ := formMoves_car s
  have kr := formMoves_keepsRun s
  have hcur : currentOven (formMoves s) = currentOven s := by
    unfold currentOven
    rw [(k.runnerTables_kept).1, kr.2.1]
  have hal : ∀ p, alignment (formMoves s) p = alignment s p := fun p => by unfold alignment; rw [k.align_kept]
  have hpc : ∀ c i, posOfClass (formMoves s) c i = posOfClass s c i := fun c i => by
    unfold posOfClass positions; rw [(k.pollTables_kept).2.1]; simp only [k.pollEntry_kept]
  have hin : ∀ m, inPlace (formMoves s) m = inPlace s m := by
    intro m
    cases m <;> (unfold inPlace; dsimp only; rw [hcur]; first | unfold alignedAt | unfold receivingAt) <;> rw
        [hpc] <;> simp only [hal]
  refine ⟨?_, ?_, ?_, hcur⟩
  · unfold allInPlace runMachines
    rw [c1, show inPlace (formMoves s) = inPlace s from funext hin]
  · rw [hcur]; unfold bothDoorsOff doorPair; rw [k.doors_kept]
  · rw [hcur]; unfold guideLockedAt
    rw [hpc]
    split
    · next p _ =>
      have : guideLocked (formMoves s) p = guideLocked s p := by unfold guideLocked; rw [k.station_kept]
      rw [hal, this]
    · rfl

end Sys2Proof.Machine
end

