-- ==== Sys2Proof/Laws/Steps.lean ====
section
/-!
SUPPORT. How a run goes through its steps: the tests of WAIT, POSITION and OPEN (R53 to R58), what taking up an oven
does (R52), and what the end of CLOSE does (R60, R61).
-/

set_option Elab.async false
namespace Sys2Proof.Machine

open Sys2Proof

/-! ## POSITION and OPEN -/

/-- The test of OPEN takes the run to PUSH, or changes nothing (R58). -/
theorem openTest_eq {s : State} (h1 : s.run.state = .running) (h2 : s.run.step = .opening) :
    (opened s → openTest s = enterStep .push s.sch.timing.push s) ∧ (¬ opened s → openTest s = s) := by
  unfold opened openTest
  refine ⟨fun h => ?_, fun h => ?_⟩
  · dsimp only
    rw [if_pos (by simp [h1, h2, h])]
  · dsimp only
    rw [if_neg (by simpa [h1, h2] using h)]

/-- The test of POSITION with every machine in place takes the run to OPEN or PUSH (R57, R58). -/
theorem arrivalTest_run {s : State} (h1 : s.run.state = .running) (h2 : s.run.step = .position)
    (h3 : allInPlace s = true) :
    (opened s → arrivalTest s = enterStep .push s.sch.timing.push
      (onRun (fun r => { r with moves := [] }) (enterStep .opening s.sch.timing.opening s))) ∧
    (¬ opened s → arrivalTest s =
      onRun (fun r => { r with moves := [] }) (enterStep .opening s.sch.timing.opening s)) := by
  let u := onRun (fun r => { r with moves := [] }) (enterStep .opening s.sch.timing.opening s)
  have e : arrivalTest s = openTest u := by
    unfold arrivalTest
    rw [if_pos (by simp [h1, h2, h3])]
  rw [e]
  obtain ⟨a, b⟩ := openTest_eq (s := u) h1 rfl
  have ho : opened u ↔ opened s := Iff.rfl
  exact ⟨fun h => a (ho.mpr h), fun h => b (fun x => h (ho.mp x))⟩

theorem arrivalTest_no {s : State} (h : ¬ (s.run.state = .running ∧ s.run.step = .position ∧ allInPlace s = true)) :
    arrivalTest s = s := by
  unfold arrivalTest
  rw [if_neg (by simpa [and_assoc] using h)]

theorem openTest_no {s : State} (h : ¬ (s.run.state = .running ∧ s.run.step = .opening)) : openTest s = s := by
  unfold openTest
  dsimp only
  rw [if_neg]
  intro hc
  simp only [Bool.and_eq_true, decide_eq_true_eq] at hc
  exact h ⟨hc.1.1.1, hc.1.1.2⟩

/-- What a change of a machine's alignment brings about (R57, R58). -/
theorem schAlignChange_goesOn (z : State) : RunGoesOn z (schAlignChange z) := by
  have hk : (schAlignChange z).run = (openTest (arrivalTest z)).run := (afterRun_touches _ _).runRecord_kept
  unfold RunGoesOn
  rw [hk]
  dsimp only
  refine ⟨fun h1 h2 h3 => ?_, fun h1 h2 h3 => ?_, fun h1 h2 h3 => ?_, fun h2 h3 => ?_, fun h => ?_⟩
  · obtain ⟨a, b⟩ := arrivalTest_run h1 h2 h3
    refine ⟨fun h => ?_, fun h => ?_⟩
    · rw [a h, openTest_no (by rintro ⟨_, hx⟩; exact nomatch hx)]; rfl
    · rw [b h]
      have ho : opened (onRun (fun r => { r with moves := [] }) (enterStep .opening z.sch.timing.opening z)) ↔
          opened z :=
        Iff.rfl
      rw [(openTest_eq (s := onRun (fun r => { r with moves := [] }) (enterStep .opening z.sch.timing.opening z))
        h1 rfl).2 (fun x => h (ho.mp x))]
      rfl
  · rw [arrivalTest_no (by rintro ⟨_, hx, _⟩; rw [h2] at hx; exact nomatch hx), (openTest_eq h1 h2).1 h3]; rfl
  · rw [arrivalTest_no (by rintro ⟨_, hx, _⟩; rw [h2] at hx; exact nomatch hx), (openTest_eq h1 h2).2 h3]
  · rw [arrivalTest_no (by rintro ⟨_, _, hx⟩; rw [h3] at hx; exact nomatch hx),
      openTest_no (by rintro ⟨_, hx⟩; rw [h2] at hx; exact nomatch hx)]
  · rw [arrivalTest_no (by rintro ⟨h1, hx, _⟩; exact h.elim (fun y => y h1) fun y => y.1 hx),
      openTest_no (by rintro ⟨h1, hx⟩; exact h.elim (fun y => y h1) fun y => y.2 hx)]

/-! ## WAIT -/

theorem entryReady_iff {s : State} (h1 : s.run.state = .running) (h2 : s.run.step = .wait) :
    entryReady s = true ↔ (s.run.planned - s.sch.timing.lead ≤ s.now ∧ workable (currentPhase s) = true ∧
      readyInstant s (currentOven s) ≤ s.now + s.sch.timing.lead) ∧ s.run.car.isSome = true := by
  unfold entryReady leadReached reached State.after
  simp only [h1, h2, decide_true, Bool.true_and, Bool.and_eq_true, decide_eq_true_eq]
  constructor
  · rintro ⟨⟨⟨a, b⟩, c⟩, d⟩; exact ⟨⟨a, c, d⟩, b⟩
  · rintro ⟨⟨a, c, d⟩, b⟩; exact ⟨⟨⟨a, b⟩, c⟩, d⟩

/-- POSITION entered with its MOVEs formed: what the test of R57 makes of it. -/
theorem arrivalTest_entered {s u : State} (h1 : u.run.state = .running) (h2 : u.run.step = .position)
    (hc : u.run.car = s.run.car) (hq : u.qtc.carRequest = false) (hd : u.run.deadline =
        some (s.now + s.sch.timing.position))
    (hm : u.run.moves.map RunMove.machine = (runMachines s).filter fun m => !inPlace s m)
    (hp : allInPlace u = allInPlace s) (ho : opened u ↔ opened s) (hn : u.now = s.now)
    (ht : u.sch.timing = s.sch.timing) : PositionEntered s (arrivalTest u) := by
  have e1 : some (u.now + (u.sch.timing.push : Int)) = some (s.now + (s.sch.timing.push : Int)) := by rw [hn, ht]
  have e2 : some (u.now + (u.sch.timing.opening : Int)) = some (s.now + (s.sch.timing.opening : Int)) := by rw [hn,
      ht]
  have kq : (arrivalTest u).qtc.carRequest = false := (arrivalTest_touches u).idle_kept.2.trans hq
  have kc : (arrivalTest u).run.car = s.run.car := (arrivalTest_car u).1.trans hc
  cases hi : allInPlace s with
  | false =>
    rw [hi] at hp
    have e : arrivalTest u = u := arrivalTest_no (by rintro ⟨_, _, hx⟩; rw [hp] at hx; exact nomatch hx)
    rw [e] at kq kc ⊢
    exact ⟨h1, kc, kq, fun _ => ⟨h2, hd, hm⟩, fun hx => absurd hx (by rw [hi]; decide)⟩
  | true =>
    rw [hi] at hp
    obtain ⟨a, b⟩ := arrivalTest_run h1 h2 hp
    refine ⟨?_, kc, kq, fun hx => absurd hx (by rw [hi]; decide), fun _ => ⟨?_, fun x => ?_, fun x => ?_⟩⟩
    · by_cases x : opened u
      · rw [a x]; exact h1
      · rw [b x]; exact h1
    · by_cases x : opened u
      · rw [a x]; rfl
      · rw [b x]; rfl
    · rw [a (ho.mpr x)]; exact ⟨rfl, e1⟩
    · rw [b (fun y => x (ho.mp y))]; exact ⟨rfl, e2⟩

/-- A run whose entry conditions hold enters POSITION (R54, R56 to R58). -/
theorem entryTest_entered {s : State} (h : entryReady s = true) : PositionEntered s (entryTest s) := by
  have h1 : s.run.state = .running := by
    unfold entryReady at h; simp only [Bool.and_eq_true, decide_eq_true_eq] at h; exact h.1.1.1.1.1
  have e : entryTest s = arrivalTest (formMoves (withdrawCar (enterStep .position s.sch.timing.position s))) := by
    unfold entryTest; rw [if_pos h]
  have hv : (withdrawCar (enterStep .position s.sch.timing.position s)).run.state = .running ∧
      (withdrawCar (enterStep .position s.sch.timing.position s)).run.step = .position ∧
      (withdrawCar (enterStep .position s.sch.timing.position s)).run.car = s.run.car ∧
      (withdrawCar (enterStep .position s.sch.timing.position s)).qtc.carRequest = false ∧
      (withdrawCar (enterStep .position s.sch.timing.position s)).run.deadline =
        some (s.now + s.sch.timing.position) := ⟨h1, rfl, rfl, rfl, rfl⟩
  have hw : runMachines (withdrawCar (enterStep .position s.sch.timing.position s)) = runMachines s := rfl
  have hi : inPlace (withdrawCar (enterStep .position s.sch.timing.position s)) = inPlace s := by
    funext m; cases m <;> rfl
  have ha : allInPlace (withdrawCar (enterStep .position s.sch.timing.position s)) = allInPlace s := by
    unfold allInPlace; rw [hw, hi, hv.2.2.1]
  have hb : bothDoorsOff (withdrawCar (enterStep .position s.sch.timing.position s))
      (currentOven (withdrawCar (enterStep .position s.sch.timing.position s))) =
      bothDoorsOff s (currentOven s) := rfl
  have hg : guideLockedAt (withdrawCar (enterStep .position s.sch.timing.position s))
      (currentOven (withdrawCar (enterStep .position s.sch.timing.position s))) =
      guideLockedAt s (currentOven s) := rfl
  have hn : (withdrawCar (enterStep .position s.sch.timing.position s)).now = s.now := rfl
  have ht : (withdrawCar (enterStep .position s.sch.timing.position s)).sch.timing = s.sch.timing := rfl
  rw [e]
  generalize withdrawCar (enterStep .position s.sch.timing.position s) = v at hv hw hi ha hb hg hn ht
  obtain ⟨c1, c2⟩ := formMoves_car v
  obtain ⟨m1, m2, _⟩ := formMoves_machines v
  obtain ⟨i1, i2, i3, i4⟩ := formMoves_inPlace v
  have kr := formMoves_keepsRun v
  have k := formMoves_touches v
  refine arrivalTest_entered (kr.1.trans hv.1) (c2.trans hv.2.1) (c1.trans hv.2.2.1) (k.idle_kept.2.trans hv.2.2.2.1)
    (m2.trans hv.2.2.2.2) (by rw [m1, hw, hi]) (i1.trans ha) ?_ (k.now_kept.trans hn)
    ((k.runnerTables_kept.2.2.1).trans ht)
  unfold opened
  rw [i2, i3, hb, hg]

theorem entryTest_no {s : State} (h : entryReady s = false) : entryTest s = s := (entryTest_car s).2.2.2 h

/-- The tests of WAIT (R53, R54). -/
theorem waitTests_tested {s : State} (h1 : s.run.state = .running) (h2 : s.run.step = .wait) :
    WaitTested s (waitTests s) := by
  have hl : leadReached s = true ↔ s.run.planned - s.sch.timing.lead ≤ s.now := by unfold leadReached reached; simp
  unfold WaitTested
  refine ⟨fun h => waitTests_before_lead (Int.not_le.mp h), fun h hc hi => ?_, fun c rest h hc hi => ?_, fun c hc =>
      ?_⟩
  · unfold waitTests carRequestTest
    rw [if_pos (by simp [h1, h2, hc, hl.mpr h]), hi]
    refine entryTest_no ?_
    unfold entryReady
    show (_ && s.run.car.isSome && _ && _) = false
    rw [hc]
    simp
  · let g := onRun (fun r => { r with car := some c }) (withdrawCar (idleRemove c
      (setCarRec c { carRec s c with state := .assigned, assignedOven := currentOven s } s)))
    have e1 : carRequestTest s = entryTest g := by
      unfold carRequestTest
      rw [if_pos (by simp [h1, h2, hc, hl.mpr h]), hi]
      rfl
    have e2 : waitTests s = entryTest (entryTest g) := by unfold waitTests; rw [e1]
    have hr : entryReady g = true ↔ (s.run.planned - s.sch.timing.lead ≤ s.now ∧ workable (currentPhase s) = true ∧
        readyInstant s (currentOven s) ≤ s.now + s.sch.timing.lead) :=
      (entryReady_iff (s := g) h1 h2).trans (and_iff_left rfl)
    have e3 : waitTests s = entryTest g := by
      rw [e2]
      cases hg : entryReady g with
      | false => rw [entryTest_no hg, entryTest_no hg]
      | true =>
        refine entryTest_no ?_
        have := ((entryTest_car g).2.2.1 hg).1
        unfold entryReady
        simp [this]
    have hid : g.qtc.idle = rest := by
      show s.qtc.idle.erase c = rest
      rw [hi]; simp
    rw [e3]
    refine ⟨(entryTest_car g).2.1.trans hid, ?_, fun hcc => ?_, fun he => ?_, fun he => ?_⟩
    · exact (handCar_car c s).2.2
    · have hcy := handCar_cycle (c := c) (by omega) s
      have a1 := congrArg CarRecord.state hcy
      have a2 := congrArg CarRecord.assignedOven hcy
      exact ⟨a1, a2⟩
    · exact entryTest_entered (hr.mpr he)
    · rw [entryTest_no (by cases hg : entryReady g; rfl; exact absurd (hr.mp hg) he)]
      rfl
  · have e1 : carRequestTest s = s := by
      unfold carRequestTest
      rw [if_neg (by simp [hc])]
    have e2 : waitTests s = entryTest s := by unfold waitTests; rw [e1]
    rw [e2]
    have hr := entryReady_iff h1 h2
    refine ⟨fun he => entryTest_entered (hr.mpr ⟨he, by rw [hc]; rfl⟩), fun he => ?_⟩
    exact entryTest_no (by cases hg : entryReady s; rfl; exact absurd (hr.mp hg).1 he)

/-! ## Taking up an oven -/

theorem carReturned_assigned {c : Nat} {s : State} (h : (carRec s c).state = .assigned) :
    carRec (carReturned c s) c = { carRec s c with state := .idle, assignedOven := 0 } ∧
    (carReturned c s).qtc.idle = (if s.qtc.idle.contains c then s.qtc.idle else s.qtc.idle ++ [c]) ∧
    ∀ d, c ≠ d → carRec (carReturned c s) d = carRec s d := by
  have hc := carRec_range (s := s) (c := c) (by rw [h]; decide)
  have e : carReturned c s =
      idleAppend c (setCarRec c { carRec s c with state := .idle, assignedOven := 0 } s) := if_pos h
  rw [e]
  have e2 : ∀ d, carRec (idleAppend c (setCarRec c { carRec s c with state := .idle, assignedOven := 0 } s)) d =
      carRec (setCarRec c { carRec s c with state := .idle, assignedOven := 0 } s) d := fun _ => rfl
  refine ⟨?_, rfl, fun d hd => ?_⟩
  · rw [e2, carRec_setCarRec, if_pos ⟨rfl, hc⟩]
  · rw [e2, carRec_setCarRec, if_neg (fun x => hd x.1)]

theorem raise_track (k : EventKind) (o a : Nat) (d : Int) (s : State) : (raise k o a d s).qtc = s.qtc := by
  unfold raise
  dsimp only
  split <;> rfl

/-- A skip, the cursor's advance apart (R52). -/
theorem skipOven_skipped (s : State) : OvenSkipped s (skipOven s) := by
  let w := onRun (fun r => { r with skipped := r.skipped + 1, residual := r.residual - 1 }) s
  have e : skipOven s = raise .ovenSkipped (currentOven (freeRunCar w)) 0 (currentPhase (freeRunCar w)).code
    (freeRunCar w) := rfl
  have kr := raise_touches .ovenSkipped (currentOven (freeRunCar w)) 0 (currentPhase (freeRunCar w)).code (freeRunCar
      w)
  have kf := freeRunCar_touches w
  have hq : (skipOven s).qtc = (freeRunCar w).qtc := by rw [e]; exact raise_track _ _ _ _ _
  have hr : (skipOven s).run = (freeRunCar w).run := by rw [e]; exact kr.runRecord_kept
  have hcar : ∀ d, carRec (skipOven s) d = carRec (freeRunCar w) d := fun d => by unfold carRec; rw [hq]
  have hn : s.run.car = none → freeRunCar w = w := by
    intro h
    unfold freeRunCar
    rw [show w.run.car = none from h]
  have hs : ∀ c, s.run.car = some c → freeRunCar w = onRun (fun r => { r with car := none }) (carReturned c w) := by
    intro c h
    unfold freeRunCar
    rw [show w.run.car = some c from h]
  refine ⟨skipOven_base s, ?_, ?_, ?_, fun c hc ha => ?_, fun h => ?_, fun d hd => ?_⟩
  · rw [hr]
    cases hc : s.run.car with
    | none => rw [hn hc]; show { s.run with skipped := s.run.skipped + 1, residual := s.run.residual - 1 } =
        { s.run with skipped := s.run.skipped + 1, residual := s.run.residual - 1, car := none }; rw [← hc]
    | some c =>
      rw [hs c hc]
      show { (carReturned c w).run with car := none } = _
      rw [(carReturned_touches c w).run_eq]
      rfl
  · refine Counted.after (t := freeRunCar w) ?_ (l := [.run, .runLaw, .cars, .idle]) ?_
    · rw [e]; exact Counted.of_raise (.refl [] _)
    · exact Touches.seq (Touches.mono (l := [.run, .runLaw]) (onRun_within ⟨rfl, rfl⟩)) kf.mono
  · rw [hq]
    cases hc : s.run.car with
    | none => rw [hn hc]; rfl
    | some c =>
      rw [hs c hc]
      show (carReturned c w).qtc.carRequest = _
      unfold carReturned
      extract_lets r
      split <;> rfl
  · rw [hcar, hq, hs c hc]
    obtain ⟨a, b, _⟩ := carReturned_assigned (s := w) (c := c) ha
    exact ⟨a, b⟩
  · rw [hq]
    cases hc : s.run.car with
    | none => rw [hn hc]; rfl
    | some c =>
      rw [hs c hc]
      show (carReturned c w).qtc = _
      unfold carReturned
      dsimp only
      rw [if_neg (show ¬ (carRec w c).state = .assigned from h c hc)]
      rfl
  · rw [hcar]
    cases hc : s.run.car with
    | none => rw [hn hc]; rfl
    | some c =>
      rw [hs c hc]
      show carRec (carReturned c w) d = _
      by_cases ha : (carRec w c).state = .assigned
      · exact (carReturned_assigned ha).2.2 d (fun x => hd (by rw [hc, x]))
      · unfold carReturned
        dsimp only
        rw [if_neg ha]
        rfl

theorem completeRun_completed (s : State) : RunCompleted s (completeRun s) := by
  let w := withdrawCar (onRun (fun r => { r with state := .idle, holdPending := false }) s)
  have e : completeRun s = raise .runDone (currentOven w) 0 (w.run.progress * 256 + w.run.pushed : Nat) w := rfl
  have kr := raise_touches .runDone (currentOven w) 0 (w.run.progress * 256 + w.run.pushed : Nat) w
  rw [e]
  refine ⟨kr.runRecord_kept, kr.idle_kept.2, ?_⟩
  refine Counted.after (t := w) (Counted.of_raise (.refl [] _)) (l := [.run, .runLaw, .stretch, .idle]) ?_
  exact Touches.seq (Touches.mono (l := [.run, .stretch, .runLaw]) (onRun_touches _ _)) (withdrawCar_touches _).mono

/-- The phase cases of R52, with fuel above the residual. -/
theorem phaseCases_takenUp : ∀ (f : Nat) (s : State), s.run.residual ≤ f → s.run.state = .running →
    s.run.step = .wait → TakenUp s (phaseCases (f + 1) s)
  | f, s, hf, h1, h2 => by
    unfold phaseCases
    cases hk : skippedPhase (currentPhase s) with
    | true =>
      rw [if_pos rfl]
      have hs := skipOven_skipped s
      dsimp only
      by_cases hr : (skipOven s).run.residual = 0
      · rw [if_pos hr]; exact .last hk hs hr (completeRun_completed _)
      · rw [if_neg hr]
        refine .next hk hs hr ?_
        have er := hs.2.1
        have e2 : (skipOven s).run.residual = s.run.residual - 1 := congrArg RunRecord.residual er
        match f, hf with
        | 0, hf => omega
        | f + 1, hf =>
          have h3 : (arriveNext (skipOven s)).run.residual ≤ f := by
            show (skipOven s).run.residual ≤ f
            omega
          exact phaseCases_takenUp f (arriveNext (skipOven s)) h3 ((congrArg RunRecord.state er).trans h1) rfl
    | false =>
      rw [if_neg (by decide)]
      split
      · next hp =>
        obtain ⟨a, b⟩ := stopRun_sense .ovenHeld 0 (currentPhase s).code s
        exact .held hp a b (stopRun_counted _ _ _ _)
      · next hp => exact .waits hk hp (waitTests_tested h1 h2)

/-- What taking up the current oven does (R52). -/
theorem takeUp_takenUp {s : State} (h1 : s.run.state = .running) (h2 : s.run.step = .wait) : TakenUp s (takeUp s) :=
  phaseCases_takenUp _ s (Nat.le_refl _) h1 h2

/-! ## CLOSE -/

/-- A completed CLOSE (R60, R61). -/
theorem close_completed {s : State} (h1 : s.run.state = .running) (h2 : s.run.step = .close) :
    CloseCompleted s (closeContinue (closeAccount s)) := by
  let a := onRun (fun r =>
    { r with pushed := r.pushed + 1, residual := r.residual - 1, progress :=
        if 0 < s.sch.block then r.progress + 1 else r.progress }) s
  let g := raise .runBlock (currentOven a) 0 (a.run.pushed * 256 + a.run.skipped : Nat) a
  let v := if 0 < s.sch.block ∧ s.sch.block ≤ a.run.progress then onRun (fun r => { r with progress := 0 }) g else a
  have e : closeAccount s = hardPushOfRun v := rfl
  have kh := hardPushOfRun_touches v
  have kg : Touches [.counts, .transmit] a g := raise_touches _ _ _ _ _
  have ka : Touches [.run, .runLaw] s a := onRun_within ⟨rfl, rfl⟩
  have kv : Touches [.run, .runLaw, .counts, .transmit] s v := by
    refine .ite (fun _ => ?_) (fun _ => ka.mono)
    exact ka.mono.seq (kg.mono.seq (Touches.mono (l := [.run, .runLaw]) (onRun_within ⟨rfl, rfl⟩)))
  have hap : a.run.progress = if 0 < s.sch.block then s.run.progress + 1 else s.run.progress := rfl
  have har : a.run = { s.run with
      pushed := s.run.pushed + 1, residual := s.run.residual - 1
      progress := if 0 < s.sch.block then s.run.progress + 1 else s.run.progress } := rfl
  have hvr : v.run = { s.run with
      pushed := s.run.pushed + 1, residual := s.run.residual - 1
      progress := if 0 < s.sch.block ∧ s.sch.block ≤ (if 0 < s.sch.block then s.run.progress + 1 else s.run.progress)
          then 0
        else if 0 < s.sch.block then s.run.progress + 1 else s.run.progress } := by
    by_cases hf : 0 < s.sch.block ∧ s.sch.block ≤ a.run.progress
    · have hve : v = onRun (fun r => { r with progress := 0 }) g := if_pos hf
      rw [hap] at hf
      rw [hve, if_pos hf]
      have h3 : (onRun (fun r => { r with progress := 0 }) g).run = { g.run with progress := 0 } := rfl
      rw [h3, kg.runRecord_kept, har]
    · have hve : v = a := if_neg hf
      rw [hap] at hf
      rw [hve, if_neg hf, har]
  have hr : (closeAccount s).run = v.run := by rw [e, kh.runRecord_kept]
  have hst : (closeAccount s).run.state = .running := by rw [hr, hvr]; exact h1
  have hcur : currentOven v = currentOven s := by
    unfold currentOven
    rw [hvr, (kv.runnerTables_kept).1]
  have hcu : currentOven (closeAccount s) = currentOven s := by
    unfold currentOven
    rw [hr, hvr, e, (kh.runnerTables_kept).1, (kv.runnerTables_kept).1]
  have k := closeAccount_base s
  have hpk : (ovenRec (closeAccount s) (currentOven (closeAccount s))).ramPeak =
      (ovenRec s (currentOven s)).ramPeak := by
    rw [hcu, k.ovenRec_kept]
  have hhp : (arriveNext (closeAccount s)).run.holdPending = s.run.holdPending := by
    show (closeAccount s).run.holdPending = _
    rw [hr, hvr]
  have htm : (closeAccount s).sch.timing = s.sch.timing := k.runnerTables_kept.2.2.1
  refine ⟨closeAccount s, k, hr.trans hvr, fun hf => ?_, fun hw => ?_, fun h0 => ?_, fun h0 hh => ?_, fun h0 hh hp =>
      ?_,
    fun h0 hh hp => ?_⟩
  · have hve : v = onRun (fun r => { r with progress := 0 }) g := if_pos hf
    have kt : Touches [.run, .runLaw, .counts, .transmit] g (closeAccount s) := by
      rw [e, hve]
      exact Touches.seq (Touches.mono (l := [.run, .runLaw]) (onRun_within ⟨rfl, rfl⟩)) (hardPushOfRun_touches _).mono
    exact Counted.after (t := a) (Counted.of_raise kt) ka
  · have hwv : v.sch.timing.hardWarn < (ovenRec v (currentOven v)).ramPeak := by
      rw [hcur, kv.ovenRec_kept, kv.runnerTables_kept.2.2.1]; exact hw
    have he : closeAccount s = raise .hardPush (currentOven v) (pmAddress v) (ovenRec v (currentOven v)).ramPeak v :=
        by
      rw [e]; unfold hardPushOfRun; dsimp only; rw [if_pos hwv]
    rw [he]
    intro hc
    by_cases hf : 0 < s.sch.block ∧ s.sch.block ≤ a.run.progress
    · have hve : v = onRun (fun r => { r with progress := 0 }) g := if_pos hf
      have kt : Touches [.run, .runLaw, .counts, .transmit] s v := kv
      have := kt.eventCount_le .hardPush hc
      rw [eventCount_raise]
      omega
    · have := kv.eventCount_le .hardPush hc
      rw [eventCount_raise]
      omega
  · unfold closeContinue
    dsimp only
    rw [if_pos h0]
    exact completeRun_completed _
  · unfold closeContinue
    dsimp only
    rw [if_neg h0, if_pos (by rw [hpk, htm]; exact hh)]
    obtain ⟨a1, a2⟩ := stopRun_run .hardPush (pmAddress (closeAccount s))
      (ovenRec (closeAccount s) (currentOven (closeAccount s))).ramPeak (closeAccount s)
    refine ⟨a1, stopRun_counted _ _ _ _, ?_⟩
    rw [a2, hcu, k.ovenRec_kept, hr, hvr, h2]
  · unfold closeContinue
    dsimp only
    rw [if_neg h0, if_neg (by rw [hpk, htm]; exact hh), if_pos (hhp.trans hp)]
    rfl
  · unfold closeContinue
    dsimp only
    rw [if_neg h0, if_neg (by rw [hpk, htm]; exact hh),
        if_neg (show ¬ (arriveNext (closeAccount s)).run.holdPending = true by rw [hhp, hp]; decide)]
    exact takeUp_takenUp (s := arriveNext (closeAccount s)) hst rfl

end Sys2Proof.Machine
end

