-- ==== Sys2Proof/Laws/Departures.lean ====
section
/-!
SUPPORT. What the departure of a station does to the run, the cars, the ovens and the tasks (R64, R94, R112, R126,
R127), what a break leaves of a run it does not concern, and which entry breaks first (R38, R39, R41).
-/

set_option Elab.async false
namespace Sys2Proof.Machine

open Sys2Proof

/-! ## What a stop leaves of the cars -/

theorem Touches.qtc_kept {l : List Aspect} {s t : State} (h : Touches l s t) (h1 : Aspect.cars ∉ l := by decide)
    (h2 : Aspect.tower ∉ l := by decide) (h3 : Aspect.idle ∉ l := by decide)
    (h4 : Aspect.trackTables ∉ l := by decide) : t.qtc = s.qtc := by
  have e1 : t.qtc.cars = s.qtc.cars := h .cars h1
  have e2 := h.tower_kept h2
  have e3 := h.idle_kept h3
  have e4 := h.trackTables_kept h4
  generalize t.qtc = a at *
  generalize s.qtc = b at *
  cases a
  cases b
  simp only at *
  simp only [e1, e2.1, e2.2.1, e2.2.2, e3.1, e3.2, e4.1, e4.2.1, e4.2.2.1, e4.2.2.2]

/-- A stop returns a car, or none (R65). -/
theorem stopRun_returns (code : StopCode) (a d : Nat) (s : State) :
    ∃ u, u.qtc = { s.qtc with carRequest := false } ∧
      ((stopRun code a d s).qtc = u.qtc ∨ ∃ c, (stopRun code a d s).qtc = (carReturned c u).qtc) := by
  generalize ht : stopRun code a d s = t
  unfold stopRun at ht
  extract_lets step s1 s2 s3 s4 s5 at ht
  subst ht
  have t3 : Touches [.counts, .transmit] s2 s3 := .ite (fun _ => hardPushOfRun_touches _) (fun _ => .refl _ _)
  have t4 : Touches [.outbound, .tasks] s3 s4 := .ite (fun _ => haltMoves_touches _) (fun _ => .refl _ _)
  have hq : s4.qtc = s2.qtc := (t4.qtc_kept).trans t3.qtc_kept
  have he : (raise .runStopped (currentOven s5) a (code.code * 256 + s5.run.progress : Nat) s5).qtc = s5.qtc :=
    raise_track ..
  refine ⟨s4, hq, ?_⟩
  rw [he]
  show (returnRunCar s4).qtc = _ ∨ _
  show _ ∨ ∃ c, (returnRunCar s4).qtc = _
  unfold returnRunCar
  split
  · exact .inr ⟨_, rfl⟩
  · exact .inl rfl
  · exact .inl rfl

/-- What the stop of a run whose machine is lost leaves of the cars. -/
theorem schStationLeft_returns (p : Nat) (s : State) (c : Nat) :
    (carRec (schStationLeft p s) c = carRec s c ∨
      carRec (schStationLeft p s) c = { carRec s c with state := .idle, assignedOven := 0 }) ∧
    ((schStationLeft p s).qtc.idle = s.qtc.idle ∨
      ∃ d, (schStationLeft p s).qtc.idle = if s.qtc.idle.contains d then s.qtc.idle else s.qtc.idle ++ [d]) := by
  unfold schStationLeft
  extract_lets a
  split
  · have ea : (afterRun s (stopRun .stationLost a a s)).qtc = (stopRun .stationLost a a s).qtc :=
      (afterRun_touches _ _).qtc_kept
    have ec : carRec (afterRun s (stopRun .stationLost a a s)) c =
        readNum (stopRun .stationLost a a s).qtc.cars c {} := by
      unfold carRec; rw [ea]
    rw [ec, ea]
    obtain ⟨u, hu, h | ⟨d, h⟩⟩ := stopRun_returns .stationLost a a s
    · rw [h, hu]; exact ⟨.inl rfl, .inl rfl⟩
    · rw [h]
      have hui : u.qtc.idle = s.qtc.idle := by rw [hu]
      have huc : ∀ x, carRec u x = carRec s x := fun x => by unfold carRec; rw [hu]
      by_cases hd : (carRec u d).state = .assigned
      · obtain ⟨a1, a2, a3⟩ := carReturned_assigned hd
        rw [hui] at a2
        refine ⟨?_, .inr ⟨d, a2⟩⟩
        by_cases hdc : d = c
        · subst hdc; exact .inr (a1.trans (by rw [huc]))
        · exact .inl ((a3 c hdc).trans (huc c))
      · have e : carReturned d u = u := by unfold carReturned; dsimp only; rw [if_neg hd]
        rw [e]
        exact ⟨.inl (huc c), .inl hui⟩
  · exact ⟨.inl rfl, .inl rfl⟩

/-! ## A station that leaves ACTIVE -/

theorem dropRunCar_car (c : Nat) (s : State) : (dropRunCar c s).run = s.run ∨ (runEngaged s = true ∧ s.run.car =
    some c) := by
  unfold dropRunCar
  split
  · next h => simp only [Bool.and_eq_true, decide_eq_true_eq] at h; exact .inr h
  · exact .inl rfl

theorem dropRunCar_state (c : Nat) (s : State) : (dropRunCar c s).run.state = s.run.state := by
  unfold dropRunCar
  split <;> rfl

theorem regRec_held (ms : List Nat) {m : Nat} (h1 : 1 ≤ m ∧ m ≤ 128) (r : RegRecord) : ∀ s : State,
    (regRec s m = r → m ∈ ms → regRec (ms.foldl (fun s n => setRegRec n (heldRecord (regRec s n)) s) s) m =
        heldRecord r) ∧
    (regRec s m = heldRecord r →
      regRec (ms.foldl (fun s n => setRegRec n (heldRecord (regRec s n)) s) s) m = heldRecord r) := by
  have hh : heldRecord (heldRecord r) = heldRecord r := rfl
  induction ms with
  | nil => exact fun s => ⟨fun _ h => (nomatch h), id⟩
  | cons n ms ih =>
    intro s
    rw [List.foldl_cons]
    have hx := ih (setRegRec n (heldRecord (regRec s n)) s)
    rw [regRec_setRegRec] at hx
    refine ⟨fun hr hm => ?_, fun hr => ?_⟩
    · by_cases e : n = m
      · refine hx.2 ?_
        rw [if_pos ⟨e, h1⟩, e, hr]
      · rw [if_neg (fun x => e x.1)] at hx
        exact hx.1 hr ((List.mem_cons.mp hm).resolve_left (fun x => e x.symm))
    · refine hx.2 ?_
      by_cases e : n = m
      · rw [if_pos ⟨e, h1⟩, e, hr, hh]
      · rw [if_neg (fun x => e x.1)]; exact hr

/-- The departure as the blocks after the interlock take it (R64, R94, R112, R126, R127). -/
theorem departureHanded_leaves (p : Nat) (s : State) : StationLeaves p s (departureHanded p s) := by
  let s1 := schStationLeft p s
  let s2 := withCar (carAt s1 p) carLost s1
  let s3 := if (pollEntry s p).cls = .os then oprStationLeft (pollEntry s p).inst s2 else s2
  let s4 := match doorSideAt s3 p with
    | some side => dsmStationLeft side s3
    | none => s3
  have e : departureHanded p s = s4 := rfl
  have k1 : Touches runAspects s s1 := schStationLeft_touches _ _
  have k2 : Touches [.cars, .tower, .idle, .run] s1 s2 := withCar_touches _ fun c => (carLost_touches c _).mono
  have k3 : Touches [.regs, .dirty] s2 s3 := .ite (fun _ => oprStationLeft_touches _ _) (fun _ => .refl _ _)
  have k4 : Touches [.outbound, .tasks] s3 s4 := by
    show Touches _ s3 (match doorSideAt s3 p with
      | some side => dsmStationLeft side s3
      | none => s3)
    split
    · exact dsmStationLeft_touches _ _
    · exact .refl _ _
  have hca : carAt s1 p = carAt s p := by unfold carAt; rw [k1.pollEntry_kept]
  have hds : doorSideAt s3 p = doorSideAt s p := by
    unfold doorSideAt; rw [k3.pollEntry_kept, k2.pollEntry_kept, k1.pollEntry_kept]
  have hr4 : s4.run = s2.run := (k4.runRecord_kept).trans k3.runRecord_kept
  have hs4 : s4.sch.sense = s1.sch.sense := (k4.sense_kept).trans ((k3.sense_kept).trans k2.sense_kept)
  rw [e]
  refine ⟨fun hst => ?_, fun hst => ?_, fun c hc hcp => ?_, fun hcl => ⟨fun m hm hsm => ?_, fun ha hb => ?_⟩,
    fun side hsd hdp hna => ?_⟩
  · have e1 : s1 = afterRun s (stopRun .stationLost (pollEntry s p).address (pollEntry s p).address s) := by
      show schStationLeft p s = _
      unfold schStationLeft
      dsimp only
      rw [if_pos (by simp [hst.1, hst.2])]
    have ka := afterRun_touches s (stopRun .stationLost (pollEntry s p).address (pollEntry s p).address s)
    obtain ⟨a, b⟩ := stopRun_run .stationLost (pollEntry s p).address (pollEntry s p).address s
    have hst1 : s1.run.state = .stopped := by rw [e1, ka.runRecord_kept, a]
    have hst2 : s2.run.state = .stopped := by
      show (withCar (carAt s1 p) carLost s1).run.state = _
      unfold withCar
      split
      · unfold carLost
        dsimp only
        rw [dropRunCar_state]
        exact hst1
      · exact hst1
    refine ⟨by rw [hr4]; exact hst2, ?_, ?_⟩
    · have kk : Touches [.cars, .tower, .idle, .run, .regs, .dirty, .outbound, .tasks] s1 s4 :=
        k2.mono.seq (k3.mono.seq k4.mono)
      have hco : Counted .runStopped s s1 := by
        rw [e1]
        intro hc
        refine Nat.le_trans (stopRun_counted .stationLost (pollEntry s p).address (pollEntry s p).address s hc) ?_
        refine Nat.le_of_eq ?_
        unfold eventCount countAt
        rw [ka.counts_kept]
      intro hc
      refine Nat.le_trans (hco hc) (Nat.le_of_eq ?_)
      unfold eventCount countAt
      rw [kk.counts_kept]
    · rw [hs4, e1, ka.sense_kept, b]
  · have e1 : s1 = s := by
      show schStationLeft p s = s
      unfold schStationLeft
      dsimp only
      rw [if_neg (by simpa using hst)]
    refine ⟨?_, by rw [hs4, e1]⟩
    rw [hr4]
    show (withCar (carAt s1 p) carLost s1).run = _
    rw [e1]
    unfold withCar
    split
    · next c hc =>
      unfold carLost
      dsimp only
      let v := { carRec s c with state := .unknown, assignedOven := 0, hotStart := none, drainDeadline := none }
      let w := setCarRec c v s
      rcases dropRunCar_car c (idleRemove c (w.onQtc fun q => { q with queue := q.queue.erase c }))
        with h | ⟨h1, h2⟩
      · exact h
      · refine absurd ⟨h1, ?_⟩ hst
        unfold carAt at hc
        split at hc
        · next hcl =>
          injection hc with hc
          unfold isRunMachine
          rw [hcl]
          dsimp only
          rw [hc]
          exact decide_eq_true h2
        · exact nomatch hc
    · rfl
  · have hq : s4.qtc = s2.qtc := (k4.qtc_kept).trans k3.qtc_kept
    have e2 : s2 = carLost c s1 := by
      show withCar (carAt s1 p) carLost s1 = _
      rw [hca, hcp]; rfl
    have hc2 : carRec s4 c = carRec (carLost c s1) c := by unfold carRec; rw [hq, e2]
    have hq2 : s2.qtc = (carLost c s1).qtc := by rw [e2]
    let v := { carRec s1 c with state := .unknown, assignedOven := 0, hotStart := none, drainDeadline := none }
    let w := setCarRec c v s1
    have el : carLost c s1 = dropRunCar c (idleRemove c (w.onQtc fun q => { q with queue := q.queue.erase c })) := rfl
    have hdq : ∀ u, (dropRunCar c u).qtc = u.qtc := by intro u; unfold dropRunCar; split <;> rfl
    have hr1 : (carRec s1 c = carRec s c ∨ carRec s1 c = { carRec s c with state := .idle, assignedOven := 0 }) ∧
        s1.qtc.holder = s.qtc.holder ∧ s1.qtc.queue = s.qtc.queue ∧
        (s1.qtc.idle = s.qtc.idle ∨ ∃ d, s1.qtc.idle = if s.qtc.idle.contains d then s.qtc.idle else s.qtc.idle ++
            [d]) := by
      refine ⟨?_, k1.tower_kept.1, k1.tower_kept.2.2, ?_⟩
      · exact (schStationLeft_returns p s c).1
      · exact (schStationLeft_returns p s c).2
    refine ⟨?_, ?_, fun hl => ?_⟩
    · rw [hc2, el]
      have : carRec (dropRunCar c (idleRemove c (w.onQtc fun q => { q with queue := q.queue.erase c }))) c =
          carRec w c := by
        unfold carRec; rw [hdq]; rfl
      rw [this]
      show carRec (setCarRec c _ s1) c = _
      rw [carRec_setCarRec, if_pos ⟨rfl, by omega, by omega⟩]
      rcases hr1.1 with h | h <;> (dsimp only [v]; rw [h])
    · rw [hq, hq2, el, hdq]
      exact hr1.2.1
    · rw [hq, hq2, el, hdq]
      constructor
      · show c ∉ s1.qtc.idle.erase c
        have hn : s1.qtc.idle.Nodup := by
          rcases hr1.2.2.2 with h | ⟨d, h⟩
          · rw [h]; exact hl.1
          · rw [h]
            split
            · exact hl.1
            · next hd =>
              refine List.nodup_append.mpr ⟨hl.1, by simp, ?_⟩
              intro a ha b hb hab
              rw [List.mem_singleton] at hb
              subst hb hab
              exact hd (by simpa using ha)
        exact fun hm => (hn.mem_erase_iff.mp hm).1 rfl
      · show c ∉ s1.qtc.queue.erase c
        rw [hr1.2.2.1]
        exact fun hm => (hl.2.1.mem_erase_iff.mp hm).1 rfl
  · rw [k4.regRec_kept]
    have e3 : s3 = oprStationLeft (pollEntry s p).inst s2 := if_pos hcl
    have kc : Touches (.cars :: .tower :: .idle :: .run :: runAspects) s s2 := k1.mono.seq k2.mono
    have hcf : configured s2 m = true := by
      unfold configured ovenConfig at hm ⊢
      rw [(kc.ovenTables_kept).1]; exact hm
    have hsv : servingStation s2 m = (pollEntry s p).inst := by
      rw [← hsm]; unfold servingStation ovenConfig; rw [(kc.ovenTables_kept).1]
    have hmem : m ∈ ovensOf s2 (pollEntry s p).inst := by
      unfold ovensOf
      exact List.mem_filter.mpr ⟨mem_configuredOvens hcf, by simpa using hsv⟩
    have hrange : 1 ≤ m ∧ m ≤ 128 := configured_range hm
    rw [e3]
    unfold oprStationLeft
    show regRec (List.foldl _ s2 _) m = _
    rw [((regRec_held _ hrange (regRec s2 m) s2).1 rfl hmem), kc.regRec_kept]
    rfl
  · have e3 : s3 = oprStationLeft (pollEntry s p).inst s2 := if_pos hcl
    have hd : isDirty s4 (pollEntry s p).inst = isDirty s3 (pollEntry s p).inst := by
      unfold isDirty; rw [k4.dirty_kept]
    rw [hd, e3]
    unfold oprStationLeft isDirty markDirty
    show readNum (writeNum _ _ true) _ false = true
    rw [readNum_writeNum, if_pos ⟨rfl, ha, hb⟩]
  · have e4 : s4 = dsmStationLeft side s3 := by
      show (match doorSideAt s3 p with
      | some side => dsmStationLeft side s3
      | none => s3) = _
      rw [hds, hsd]
    rw [e4]
    unfold dsmStationLeft dsmFree
    have hfm : freeMachine (setTask side {} s3) side = none := by
      have kk : Touches (.cars :: .tower :: .idle :: .run :: .regs :: .dirty :: .tasks :: runAspects) s (setTask side
          {} s3) :=
        k1.mono.seq (k2.mono.seq (k3.mono.seq (setTask_touches side {} s3).mono))
      unfold freeMachine doorMachinePos
      rw [posOfClass_kept kk]
      unfold doorMachinePos at hdp
      rw [hdp]
      dsimp only
      rw [if_neg]
      rw [kk.station_kept]
      simp [hna]
    rw [hfm]
    dsimp only
    rw [taskOf_setTask, if_pos rfl]

/-! ## Breaks beside a run past WAIT -/

/-- A phase given past WAIT leaves the runner's records, unless the current oven goes out of service (R52, R63). -/
theorem setPhase_past {s : State} (h : s.run.step ≠ .wait) {n : Nat} (ph : Phase) (st : Int)
    (hp : currentOven s = n → ph ≠ .outOfService ∧ 1 ≤ n ∧ n ≤ 128) : (setPhase n ph st s).sch = s.sch := by
  unfold setPhase
  extract_lets r
  split
  · rfl
  · let u := oprDerive n (setOvenRec n { r with phase := ph, stamp := st } s)
    have e : u.sch = s.sch := (oprDerive_still n (setOvenRec n { r with phase := ph, stamp := st } s)).1
    show (schPhaseChange n u).sch = _
    have hr : u.run = s.run := by show u.sch.run = s.sch.run; rw [e]
    have hc : currentOven u = currentOven s := by unfold currentOven; rw [hr, e]
    rw [schPhaseChange_past (by rw [hr]; exact h), e]
    intro hx
    unfold currentPhase
    have hy := hp (hc.symm.trans hx)
    rw [hx, (oprDerive_touches n _).ovenRec_kept, ovenRec_setOvenRec, if_pos ⟨rfl, hy.2⟩]
    exact hy.1

/-- Past WAIT, with no PUSH permit on its oven, a run is apart from what a break does. -/
abbrev RunApart (s : State) : Prop :=
  s.run.step ≠ .wait ∧ ∀ e ∈ s.ilk.permits, e.kind = .push → e.oven ≠ currentOven s

/-- Only its phase and its stamp may differ in an oven's record. -/
abbrev PeakKept (s t : State) : Prop := ∀ n, (ovenRec t n).ramPeak = (ovenRec s n).ramPeak

theorem PeakKept.of {l : List Aspect} {s t : State} (h : Touches l s t) (h1 : Aspect.ovens ∉ l := by decide) :
    PeakKept s t := fun n => by rw [h.ovenRec_kept n h1]

theorem PeakKept.trans {s t u : State} (h : PeakKept s t) (k : PeakKept t u) : PeakKept s u :=
  fun n => (k n).trans (h n)

theorem setPhase_peak (n : Nat) (ph : Phase) (st : Int) (s : State) : PeakKept s (setPhase n ph st s) := by
  intro m
  rw [ovenRec_setPhase]
  split <;> rfl

/-- A break of a permit leaves the runner's records and the ram peaks where the run is apart from it. -/
theorem breakPermit_apart {s : State} {e : Permit} (h1 : s.run.step ≠ .wait)
    (h2 : e.kind = .push → e.oven ≠ currentOven s) (t : Nat) :
    (breakPermit e t s).sch = s.sch ∧ PeakKept s (breakPermit e t s) := by
  have k := cutStart_touches e .permitBroken t HaltReason.permitBroken s
  have e1 : (cutStart e .permitBroken t HaltReason.permitBroken s).sch = s.sch := k.sch_kept
  have kd := departFree_touches e (cutEffects e t 2 (cutStart e .permitBroken t HaltReason.permitBroken s))
  have e2 : breakPermit e t s =
      departFree e (cutEffects e t 2 (cutStart e .permitBroken t HaltReason.permitBroken s)) := rfl
  rw [e2, kd.sch_kept]
  suffices (cutEffects e t 2 (cutStart e .permitBroken t HaltReason.permitBroken s)).sch =
      (cutStart e .permitBroken t HaltReason.permitBroken s).sch ∧
      PeakKept (cutStart e .permitBroken t HaltReason.permitBroken s)
        (cutEffects e t 2 (cutStart e .permitBroken t HaltReason.permitBroken s)) from
    ⟨this.1.trans e1, (PeakKept.of k).trans (this.2.trans (.of kd))⟩
  have h1 : (cutStart e .permitBroken t HaltReason.permitBroken s).run.step ≠ .wait := by
    unfold State.run; rw [e1]; exact h1
  have h2 : e.kind = .push → e.oven ≠ currentOven (cutStart e .permitBroken t HaltReason.permitBroken s) := by
    unfold currentOven State.run; rw [e1]; exact h2
  generalize cutStart e .permitBroken t HaltReason.permitBroken s = u at h1 h2 ⊢
  unfold cutEffects
  split
  · next hk =>
    have hn := h2 hk
    have a1 : (ovtPushBroken e.oven u).sch = u.sch ∧ PeakKept u (ovtPushBroken e.oven u) := by
      unfold ovtPushBroken
      split
      · exact ⟨setPhase_past h1 _ _ (fun x => absurd x.symm hn), setPhase_peak _ _ _ _⟩
      · exact ⟨rfl, fun _ => rfl⟩
    have k2 := withCar_touches e.car fun c => carLoads_touches c true (ovtPushBroken e.oven u)
    have a3 : schPushBroken e.oven t (withCar e.car (fun c => carLoads c true) (ovtPushBroken e.oven u)) =
        withCar e.car (fun c => carLoads c true) (ovtPushBroken e.oven u) := by
      unfold schPushBroken
      rw [if_neg]
      intro hc
      simp only [Bool.and_eq_true, decide_eq_true_eq] at hc
      apply hn
      have := hc.2
      unfold currentOven State.run at this ⊢
      rw [k2.sch_kept, a1.1] at this
      exact this.symm
    rw [a3]
    exact ⟨(k2.sch_kept).trans a1.1, a1.2.trans (.of k2)⟩
  · unfold ovtChargeCut chargeIncomplete
    split
    · next hp =>
      have kr := fun x => raise_touches .chargeIncomplete e.oven e.station ((2 : Nat) : Int) x
      have hr := ovenRec_range (s := u) (n := e.oven) (by rw [hp]; decide)
      exact ⟨((kr _).sch_kept).trans (setPhase_past h1 _ _ fun _ => ⟨by decide, hr⟩),
        (setPhase_peak _ _ _ _).trans (.of (kr _))⟩
    · exact ⟨rfl, fun _ => rfl⟩
  · have k := oprDerive_touches e.oven u
    exact ⟨k.sch_kept, .of k⟩
  · exact ⟨rfl, fun _ => rfl⟩
  · have k := withDoor_touches (doorOf e) fun d => taskPermitEnds_touches d false u
    exact ⟨k.sch_kept, .of k⟩
  · have k := withCar_touches (carOfEntry u e) fun c => carQuenchEnds_touches c false u
    exact ⟨k.sch_kept, .of k⟩
  · have k := withCar_touches (carOfEntry u e) fun c => carDumpEnds_touches c false u
    exact ⟨k.sch_kept, .of k⟩
  · exact ⟨rfl, fun _ => rfl⟩

/-- The re-evaluation of the hold terms leaves the records of a run that is apart from it, and the ram peaks. -/
theorem ilkSettle_apart {s : State} (h : RunApart s) (b : State) :
    (ilkSettle b s).sch = s.sch ∧ PeakKept s (ilkSettle b s) := by
  unfold ilkSettle
  generalize s.ilk.permits.length = f
  induction f generalizing s with
  | zero => exact ⟨rfl, fun _ => rfl⟩
  | succ f ih =>
    unfold settleLoop
    split
    · next e t hf =>
      have a := breakPermit_apart h.1 (h.2 e (firstBroken_some hf).1) t
      have hb : RunApart (breakPermit e t s) := by
        refine ⟨by unfold State.run; rw [a.1]; exact h.1, fun e' he' hk => ?_⟩
        rw [breakPermit_permits] at he'
        have := h.2 e' (List.mem_of_mem_erase he') hk
        unfold currentOven State.run at this ⊢
        rw [a.1]; exact this
      have c := ih hb
      exact ⟨c.1.trans a.1, a.2.trans c.2⟩
    · exact ⟨rfl, fun _ => rfl⟩

/-! ## The entry that breaks first -/

/-- No entry before it breaks, and no lower hold term of it fails (R38, R39, R41). -/
theorem firstBroken_first {b s : State} {e : Permit} {t : Nat} (h : firstBroken b s = some (e, t)) :
    ∃ l r, s.ilk.permits = l ++ e :: r ∧ inputChanged b s e = true ∧ failedHold s e = some t ∧
      ∀ d ∈ l, inputChanged b s d = true → failedHold s d = none := by
  unfold firstBroken at h
  obtain ⟨l, x, r, hs, hx, hl⟩ := List.findSome?_eq_some_iff.mp h
  split at hx
  · next hc =>
    cases hf : failedHold s x with
    | none => rw [hf] at hx; exact nomatch hx
    | some u =>
      rw [hf] at hx
      injection hx with hx
      injection hx with h1 h2
      subst h1 h2
      refine ⟨l, r, hs, hc, hf, fun d hd hdc => ?_⟩
      have := hl d hd
      rwa [if_pos hdc, Option.map_eq_none_iff] at this
  · exact nomatch hx

theorem effectiveTerms_rising (s : State) (k : PermitKind) : (effectiveTerms s k).Pairwise (· < ·) := by
  unfold effectiveTerms
  refine List.Pairwise.filter _ ?_
  decide

/-- The failing hold term named is the lowest (R39). -/
theorem failedHold_lowest {s : State} {e : Permit} {t : Nat} (h : failedHold s e = some t) :
    ∀ u ∈ effectiveTerms s e.kind, u < t → isHoldTerm u = true → termHolds s (inputOf s e) u = true := by
  intro u hu hlt hh
  unfold failedHold at h
  obtain ⟨_, l, r, hs, hl⟩ := List.find?_eq_some_iff_append.mp h
  have hp := effectiveTerms_rising s e.kind
  rw [hs] at hu hp
  have hul : u ∈ l := by
    rcases List.mem_append.mp hu with hu | hu
    · exact hu
    · have h2 := (List.pairwise_append.mp hp).2.1
      rcases List.mem_cons.mp hu with rfl | hu
      · omega
      · have := (List.pairwise_cons.mp h2).1 u hu
        omega
  have := hl u hul
  simpa [hh] using this

end Sys2Proof.Machine
end

