-- ==== Sys2Proof/Laws/DoorRuns.lean ====
section
/-!
SUPPORT. What a completed DOOR_OFF or DOOR_ON hands the run of its oven (R58, R60), and what stands apart from it (R31, R91).
-/

set_option Elab.async false
namespace Sys2Proof.Machine

open Sys2Proof

/-! ## A door completed beside the run -/

/-- A DOOR_OFF or DOOR_ON completed on an oven past WAIT: the runner's records stand until the runner takes the change
(R58, R60). -/
theorem doorCompleted_run {b s : State} {d : Door} (off : Bool) (h : RunApart s) (hd : 1 ≤ d.oven ∧ d.oven ≤ 128) :
    ∃ u z, z = ilkSettle b u ∧ (∀ m, m ≠ d.oven → ovenRec u m = ovenRec s m) ∧ z.sch = s.sch ∧ PeakKept s z ∧
      Touches (.doors :: .leaks :: cutAspects) s z ∧
      (∀ g, doorRec z g = doorRec (if off then doorRemoved d s else doorReplaced d s) g) ∧
      (doorCompleted b d off s).sch = (ilkSettle z (schDoorChange d.oven z)).sch := by
  let v := if off then doorRemoved d s else doorReplaced d s
  let u := if off then ovtDoorOff d.oven v else ovtDoorOn d.oven v
  let z := ilkSettle b u
  have kv : Touches [.doors, .leaks] s v := .ite (fun _ => doorRemoved_touches _ _) (fun _ =>
      doorReplaced_touches _ _)
  have ku : Touches phaseAspects v u := .ite (fun _ => ovtDoorOff_touches _ _) (fun _ => ovtDoorOn_touches _ _)
  have ev : v.sch = s.sch := kv.sch_kept
  have hv : v.run.step ≠ .wait := by unfold State.run; rw [ev]; exact h.1
  have eu : u.sch = v.sch ∧ PeakKept v u := by
    have hu : u = (if off then ovtDoorOff d.oven v else ovtDoorOn d.oven v) := rfl
    rw [hu]
    split
    · unfold ovtDoorOff setPhaseOnly
      dsimp only
      split
      · exact ⟨setPhase_past hv _ _ fun _ => ⟨nofun, hd⟩, setPhase_peak _ _ _ _⟩
      · exact ⟨rfl, fun _ => rfl⟩
    · unfold ovtDoorOn setPhaseOnly
      dsimp only
      split
      · refine ⟨setPhase_past hv _ _ fun _ => ⟨?_, hd⟩, setPhase_peak _ _ _ _⟩
        unfold cokingPhase
        split <;> nofun
      · exact ⟨rfl, fun _ => rfl⟩
  have hu : RunApart u := by
    refine ⟨by unfold State.run; rw [eu.1, ev]; exact h.1, fun e he hk => ?_⟩
    rw [ku.permits_kept, kv.permits_kept] at he
    have := h.2 e he hk
    unfold currentOven State.run at this ⊢
    rw [eu.1, ev]; exact this
  obtain ⟨ez, pz⟩ := ilkSettle_apart hu b
  have eo : ∀ m, m ≠ d.oven → ovenRec u m = ovenRec s m := by
    intro m hm
    have e1 : ovenRec u m = ovenRec v m := by
      have hu : u = (if off then ovtDoorOff d.oven v else ovtDoorOn d.oven v) := rfl
      rw [hu]
      unfold ovtDoorOff ovtDoorOn setPhaseOnly
      dsimp only
      repeat' split
      all_goals first
        | rfl
        | (rw [ovenRec_setPhase]; exact if_neg fun x => hm x.1.symm)
    rw [e1, kv.ovenRec_kept]
  refine ⟨u, z, rfl, eo, (ez.trans eu.1).trans ev, ((PeakKept.of kv).trans eu.2).trans pz,
    (kv.mono).seq (ku.mono.seq (ilkSettle_touches _ _).mono), fun g => ?_, ?_⟩
  · rw [(ilkSettle_touches b u).doorRec_kept, ku.doorRec_kept]
  · have e1 : (doorHandedOn b d u).sch = (ilkSettle z (schDoorChange d.oven z)).sch :=
      (oprDerive_touches d.oven (settled (schDoorChange d.oven) (ilkSettle b u))).sch_kept
    have e0 : doorCompleted b d off s = if leakEntries (doorHandedOn b d u) = leakEntries b then doorHandedOn b d u
      else dsmFreeBoth (doorHandedOn b d u) := rfl
    rw [e0]
    split
    · exact e1
    · exact ((dsmFreeBoth_touches (doorHandedOn b d u)).sch_kept).trans e1

/-- The runner takes a change of a door of its oven in OPEN (R58). -/
theorem schDoorChange_opening {z : State} (h1 : z.run.state = .running) (h2 : z.run.step = .opening) :
    let y := schDoorChange (currentOven z) z
    (opened z → y.run = { z.run with step := .push, deadline := some (z.now + z.sch.timing.push) } ∧
      y.sch.sense = z.sch.sense) ∧ (¬ opened z → y = z) := by
  have e : schDoorChange (currentOven z) z = afterRun z (openTest z) := by
    unfold schDoorChange
    rw [if_pos (by simp [h1]), h2]
  obtain ⟨a, b⟩ := openTest_eq h1 h2
  have k := afterRun_touches z (openTest z)
  rw [e]
  refine ⟨fun ho => ?_, fun ho => ?_⟩
  · rw [k.runRecord_kept, k.sense_kept, a ho]; exact ⟨rfl, rfl⟩
  · rw [b ho]; unfold afterRun; rw [if_pos (by simp)]

/-- The runner takes a change of a door of its oven in CLOSE (R60, R61). -/
theorem schDoorChange_close {z : State} (h1 : z.run.state = .running) (h2 : z.run.step = .close) :
    let y := schDoorChange (currentOven z) z
    (bothDoorsOn z (currentOven z) = true → ∃ x, CloseCompleted z x ∧ y = afterRun z x) ∧
      (bothDoorsOn z (currentOven z) = false → y = z) := by
  have e : schDoorChange (currentOven z) z = afterRun z (closeTest z) := by
    unfold schDoorChange
    rw [if_pos (by simp [h1]), h2]
  rw [e]
  refine ⟨fun ho => ⟨_, close_completed h1 h2, ?_⟩, fun ho => ?_⟩
  · unfold closeTest
    rw [if_pos (by simp [h1, h2, ho])]
  · unfold closeTest
    rw [if_neg (by simp [ho])]
    unfold afterRun
    rw [if_pos (by simp)]

/-- A PUSH and a door permit of one oven do not stand together (R31). -/
theorem PermitLaw.apart {s : State} (h : PermitLaw s) {e : Permit} (he : e ∈ s.ilk.permits)
    (hk : e.kind = .doorOff ∨ e.kind = .doorOn) : ∀ d ∈ s.ilk.permits, d.kind = .push → d.oven ≠ e.oven := by
  intro d hd hp ho
  have hne : d ≠ e := by rintro rfl; rw [hp] at hk; exact hk.elim nofun nofun
  have sym : ∀ a b : Permit, a.kind = .push → (b.kind = .doorOff ∨ b.kind = .doorOn) → a.oven = b.oven →
      compatible a b = false ∧ compatible b a = false := by
    intro a b ha hb hab
    unfold compatible
    rcases hb with hb | hb <;> simp [ha, hb, hab, isCarKind]
  obtain ⟨h1, h2⟩ := sym d e hp hk ho
  have pair : ∀ l : List Permit, l.Pairwise (compatible · ·) → d ∈ l → e ∈ l → False := by
    intro l
    induction l with
    | nil => exact fun _ h _ => nomatch h
    | cons a l ih =>
      intro hl hd he
      obtain ⟨ha, hl⟩ := List.pairwise_cons.mp hl
      rcases List.mem_cons.mp hd with hd | hd <;> rcases List.mem_cons.mp he with he | he
      · exact hne (hd.trans he.symm)
      · have := ha e he; rw [← hd, h1] at this; exact nomatch this
      · have := ha d hd; rw [← he, h2] at this; exact nomatch this
      · exact ih hl hd he
  exact pair _ h.2.2 hd he

/-- A reply moves no guide and no door machine. -/
theorem taken_guideLockedAt (s : State) (x : Exchange) (n : Nat) : guideLockedAt (taken s x) n = guideLockedAt s n :=
    by
  have k := taken_touches s x
  have ha : ∀ p, alignment (taken s x) p = alignment s p := fun p => by unfold alignment; rw [k.align_kept]
  have hs : ∀ p, guideLocked (taken s x) p = guideLocked s p := by
    intro p
    unfold guideLocked
    have : (station (taken s x) p).status = (station s p).status := by
      unfold taken
      rw [(uncarry_touches _ _).station_kept]
      generalize hd : deliver x.position x.item (lineIdle s) = u
      have ku : station u p = station s p := by
        rw [← hd, (deliver_touches _ _ _).station_kept, (lineIdle_touches _).station_kept]
      rw [← ku]
      unfold recordReply
      extract_lets r
      split <;> (rw [station_setStation]; split <;> first | rfl | (next h => rw [← h.1]))
    rw [this]
  unfold guideLockedAt
  rw [posOfClass_kept k]
  split
  · rw [ha, hs]
  · rfl

/-- The runner's change at a door leaves nothing for the interlock where it moves no car (R91). -/
theorem ilkSettle_still {s t : State} (h : Touches runAspects s t) (hc : t.qtc.cars = s.qtc.cars) : ilkSettle s t =
    t := by
  have k : Touches [.run, .sense, .idle, .counts, .transmit, .outbound, .tasks] s t :=
    Touches.keep (a := .cars) (h.mono) hc
  refine ilkSettle_unchanged fun e _ => ?_
  rw [inputChanged_kept k s e, inputChanged_self]

/-- The states of the doors after one is removed or replaced (R98, R99). -/
theorem doorTurned_state (d g : Door) (off : Bool) (s : State) (h : 1 ≤ d.oven ∧ d.oven ≤ 128) :
    (doorRec (if off then doorRemoved d s else doorReplaced d s) g).state =
      if d = g then (if off then .removed else .unsealed) else (doorRec s g).state := by
  have key : ∀ r, (doorRec (leaveList d (setDoorRec d r s)) g).state =
      if d = g then r.state else (doorRec s g).state := by
    intro r
    have := congrArg DoorRecord.state (leaveList_unlisted d g (setDoorRec d r s))
    refine (Eq.trans this ?_ : _)
    show (doorRec (setDoorRec d r s) g).state = _
    rw [doorRec_setDoorRec]
    by_cases hg : d = g
    · subst hg; rw [if_pos ⟨rfl, h⟩, if_pos rfl]
    · rw [if_neg (fun x => hg x.1), if_neg hg]
  cases off
  · exact key _
  · exact key _

/-- Both doors of an oven, from one and the other. -/
theorem bothDoors_other (z : State) (n : Nat) (d : DoorSide) :
    (bothDoorsOff z n = true ↔ (doorRec z ⟨n, d⟩).state = .removed ∧ ∀ o, o ≠ d → (doorRec z ⟨n, o⟩).state =
        .removed) ∧
    (bothDoorsOn z n = true ↔ (doorRec z ⟨n, d⟩).state ≠ .removed ∧ ∀ o, o ≠ d → (doorRec z ⟨n,
        o⟩).state ≠ .removed) := by
  have e1 : bothDoorsOff z n = (isOff (doorRec z ⟨n, .ps⟩) && isOff (doorRec z ⟨n, .cs⟩)) := rfl
  have e2 : bothDoorsOn z n = (!isOff (doorRec z ⟨n, .ps⟩) && !isOff (doorRec z ⟨n, .cs⟩)) := rfl
  have q : ∀ P : DoorSide → Prop, ((P .ps ∧ P .cs) ↔ P d ∧ ∀ o, o ≠ d → P o) := by
    intro P
    constructor
    · rintro ⟨a, b⟩; exact ⟨by cases d <;> assumption, fun o _ => by cases o <;> assumption⟩
    · rintro ⟨a, b⟩
      cases d
      · exact ⟨a, b .cs nofun⟩
      · exact ⟨b .ps nofun, a⟩
  rw [e1, e2]
  unfold isOff
  simp only [Bool.and_eq_true, decide_eq_true_eq, Bool.not_eq_true', decide_eq_false_iff_not]
  exact ⟨q fun o => (doorRec z ⟨n, o⟩).state = .removed, q fun o => (doorRec z ⟨n, o⟩).state ≠ .removed⟩

end Sys2Proof.Machine
end

