-- ==== Sys2Proof/Laws/Guards.lean ====
section
/-!
SUPPORT. What keeps a HALT that waits in its slot through a reply (R164, R167), and what requests can change the mode
(R175).
-/

set_option Elab.async false
namespace Sys2Proof.Machine

open Sys2Proof

/-! ## Waiting HALTs -/

theorem deliverOrder_halts {halt : Bool} {q p : Nat} {s : State} (h : q = p → halt = false) (hw : haltWaits s p = true) :
    haltWaits (deliverOrder halt q s) p = true := by
  obtain ⟨w0, g1, g2⟩ := (haltWaits_iff s p).mp hw
  unfold deliverOrder
  split
  · next w ho =>
    split
    · next hc =>
      have hq : q ≠ p := by
        intro e
        subst e
        rw [g1] at ho
        injection ho with ho
        subst ho
        rw [h rfl, g2] at hc
        simp at hc
      extract_lets o s1 s2
      have h1 : haltWaits s1 p = true := by
        rw [haltWaits_iff]
        show ∃ w, (outbound (setOutbound q _ s) p).order = some w ∧ _
        rw [outbound_setOutbound, if_neg (fun e => hq e.1)]
        exact ⟨w0, g1, g2⟩
      have h2 : haltWaits s2 p = true := by
        dsimp only [s2]
        split
        · split
          · exact (taskDelivered_touches _ s1).halts_kept (by decide) p h1
          · exact h1
        · exact h1
      exact (dsmFreeAt_touches q s2).halts_kept (by decide) p h2
    · exact hw
  · exact hw

theorem deliver_halts {item : PollItem} {q p : Nat} {s : State} (h : ¬ (q = p ∧ item = .halt)) (hw : haltWaits s p = true) :
    haltWaits (deliver q item s) p = true := by
  unfold deliver
  split
  · exact (withCar_touches (l := [.cars]) (carAt s q) fun c => (carHaltDelivered_touches c _).mono).halts_kept (by decide) p
      (deliverOrder_halts (fun e => absurd ⟨e, rfl⟩ h) hw)
  · exact deliverOrder_halts (fun _ => rfl) hw
  · exact (deliverAnswer_touches q s).halts_kept (by decide) p hw
  · exact hw
  · exact hw

theorem takeReply_halts {item : PollItem} {q p : Nat} {s : State} (u : Telegram) (h : ¬ (q = p ∧ item = .halt)) (hw : haltWaits s p = true) :
    haltWaits (takeReply q item u s) p = true := by
  have h1 := deliver_halts h ((lineIdle_touches s).halts_kept (by decide) p hw)
  have h2 := (uncarry_touches q _).halts_kept (by decide) p ((recordReply_touches q _).halts_kept (by decide) p h1)
  unfold takeReply
  extract_lets s1
  have h3 : haltWaits s1 p = true := by
    show haltWaits (replyTaken q item u (lineIdle s)) p = true
    unfold replyTaken
    extract_lets s2
    split
    · exact (joinTest_touches q u s2).halts_kept (by decide) p h2
    · exact h2
  refine (roundOn_touches _).halts_kept (by decide) p ?_
  split
  · have k := (classifyField_within u (requestWithin_any q s1.fpl.length))
    exact k .halts (by
      unfold reportAspectsOf
      repeat' split
      all_goals decide) p h3
  · exact h3

theorem fieldArrival_halts {u : Telegram} {p : Nat} {s : State}
   (h : ∀ x, Awaits s x → fromPolled s x u = true → framed u = true → ¬ (x.position = p ∧ x.item = .halt)) (hw : haltWaits s p = true) :
    haltWaits (fieldArrival u s) p = true := by
  unfold fieldArrival
  split
  · exact hw
  · next hl =>
    split
    · exact (fieldDiscard_touches s).halts_kept (by decide) p hw
    · next hf =>
      split
      · next x hx =>
        split
        · next hv =>
          simp only [Bool.and_eq_true, Bool.not_eq_true', decide_eq_true_eq] at hv
          refine takeReply_halts u ?_ hw
          intro hp
          by_cases h24 : p < 24
          · exact h x ⟨by simpa using hl, hx, hv.1, by rw [hp.1]; exact h24⟩ (by unfold fromPolled; simpa using hv.2) (by simpa using hf) hp
          · have : outbound s p = {} := by unfold outbound readAt; rw [Vector.getElem?_eq_none (by omega)]; rfl
            unfold haltWaits at hw
            rw [this] at hw
            exact absurd hw (by decide)
        · exact (exchangeMissed_touches s).halts_kept (by decide) p hw
      · exact hw

/-! ## The mode -/

/-- The request codes that may change the mode. -/
abbrev modeCodes : List Nat := [ReqCode.enterService, ReqCode.enterMaintenance, ReqCode.restart]

theorem withArgs_mode {l : List Aspect} (n : Nat) (args : List Byte) {f : (Nat → Nat) → State → Reply} (s : State)
    (h : ∀ b s, Touches l s (f b s).state) (hl : Aspect.mode ∉ l := by decide) :
    (withArgs n args f s).state.mgt.mode = s.mgt.mode :=
  (withArgs_touches n args s h) .mode hl

theorem withArgs_none {args : List Byte} {f : (Nat → Nat) → State → Reply} {s : State}
    (h : (withArgs 0 args f s).state.mgt.mode ≠ s.mgt.mode) : args = [] := by
  unfold withArgs at h
  split at h
  · next ha => exact List.length_eq_zero_iff.mp ha
  · exact absurd rfl h

theorem loadTable_mode (table : Nat) (a : LoadArgs) (s : State) : (loadTable table a s).state.mgt.mode = s.mgt.mode := by
  unfold loadTable
  split
  · exact (loadDispatch_touches _ _) .mode (by decide)
  · exact (loadSelectors_touches _ _) .mode (by decide)
  · exact (loadLine_touches _ _) .mode (by decide)
  · exact (loadPoll_touches _ _) .mode (by decide)
  · exact (loadOvens_touches _ _) .mode (by decide)
  · exact (loadOvenState_touches _ _) .mode (by decide)
  · exact (loadPermits_touches _ _) .mode (by decide)
  · exact (loadSegments_touches _ _) .mode (by decide)
  · exact (loadCars_touches _ _) .mode (by decide)
  · exact (loadTiming_touches _ _) .mode (by decide)
  · exact (loadSeries_touches _ _) .mode (by decide)
  · exact (loadStepTiming_touches _ _) .mode (by decide)
  · exact (loadTrackTiming_touches _ _) .mode (by decide)
  · exact (loadSealConfig_touches _ _) .mode (by decide)
  · exact (loadModes_touches _ _) .mode (by decide)
  · exact (loadRegulator_touches _ _) .mode (by decide)
  · exact (loadMask_touches _ _) .mode (by decide)
  · rfl

/-- A request without arguments, of three codes, is all that changes the mode. -/
theorem perform_mode {code : Nat} {args : List Byte} {s : State} :
    (perform code args s).state.mgt.mode ≠ s.mgt.mode → code ∈ modeCodes ∧ args = [] := by
  have mem {c : Nat} (hc : modeCodes.contains c = true) (e : code = c) : code ∈ modeCodes := by
    rw [e]; simpa using hc
  have branch {c : Prop} [Decidable c] {a b : Reply}
      (ha : c → a.state.mgt.mode ≠ s.mgt.mode → code ∈ modeCodes ∧ args = [])
      (hb : ¬ c → b.state.mgt.mode ≠ s.mgt.mode → code ∈ modeCodes ∧ args = []) :
      (if c then a else b).state.mgt.mode ≠ s.mgt.mode → code ∈ modeCodes ∧ args = [] := by
    by_cases h : c
    · rw [if_pos h]; exact ha h
    · rw [if_neg h]; exact hb h
  unfold perform
  refine branch (fun _ => branch (fun _ h => absurd rfl h) (fun _ h => absurd (loadTable_mode _ _ _) h)) (fun _ => ?_)
  refine branch (fun _ h => absurd (withArgs_mode _ _ _ fun _ _ => readRequest_touches _ _ _ _) h) (fun _ => ?_)
  refine branch (fun _ h => absurd (withArgs_mode _ _ _ fun _ _ => statusRequest_touches _) h) (fun _ => ?_)
  refine branch (fun e h => ⟨mem (by decide) e, withArgs_none h⟩) (fun _ => ?_)
  refine branch (fun e h => ⟨mem (by decide) e, withArgs_none h⟩) (fun _ => ?_)
  refine branch (fun e h => ⟨mem (by decide) e, withArgs_none h⟩) (fun _ => ?_)
  refine branch (fun _ h => absurd (withArgs_mode _ _ _ fun _ s => fieldRestartRequest_touches s) h) (fun _ => ?_)
  refine branch (fun _ h => absurd (withArgs_mode _ _ _ fun _ _ => setTime_touches _ _) h) (fun _ => ?_)
  refine branch (fun _ h => absurd (withArgs_mode _ _ _ fun _ _ => runRequest_touches _ _ _) h) (fun _ => ?_)
  refine branch (fun _ h => absurd (withArgs_mode _ _ _ fun _ _ => holdRequest_touches _) h) (fun _ => ?_)
  refine branch (fun _ h => absurd (withArgs_mode _ _ _ fun _ _ => resumeRequest_touches _) h) (fun _ => ?_)
  refine branch (fun _ h => absurd (withArgs_mode _ _ _ fun _ _ => abortRequest_touches _) h) (fun _ => ?_)
  refine branch (fun _ h => absurd (withArgs_mode _ _ _ fun _ _ => senseRequest_touches _) h) (fun _ => ?_)
  refine branch (fun _ h => absurd (withArgs_mode _ _ _ fun _ _ => verifyRequest_touches _ _ _) h) (fun _ => ?_)
  refine branch (fun _ h => absurd (withArgs_mode _ _ _ fun _ _ => setBlock_touches _ _) h) (fun _ => ?_)
  refine branch (fun _ h => absurd (withArgs_mode _ _ _ fun _ _ => ovenService_touches _ _ _ _) h) (fun _ => ?_)
  refine branch (fun _ h => absurd (withArgs_mode _ _ _ fun _ _ => releaseOven_touches _ _) h) (fun _ => ?_)
  refine branch (fun _ h => absurd (withArgs_mode _ _ _ fun _ _ => freezeOvens_touches _ _ _) h) (fun _ => ?_)
  refine branch (fun _ h => absurd (withArgs_mode _ _ _ fun _ _ => freezeOvens_touches _ _ _) h) (fun _ => ?_)
  refine branch (fun _ h => absurd (withArgs_mode _ _ _ fun _ _ => clearCarRequest_touches _ _) h) (fun _ => ?_)
  exact fun h => absurd rfl h

/-- A MGMT body that changes the mode is ENTER SERVICE, ENTER MAINTENANCE or RESTART without arguments. -/
theorem mgmtBody_mode {body : List Byte} {s : State} (h : (mgmtBody body s).mgt.mode ≠ s.mgt.mode) :
    ∃ code, code ∈ modeCodes ∧ body = [BitVec.ofNat 8 code] := by
  cases body with
  | nil => exact absurd rfl h
  | cons c args =>
    unfold mgmtBody mgmtArrival at h
    dsimp only at h
    split at h
    · exact absurd rfl h
    · have key : ∀ v : State, v.mgt.mode = s.mgt.mode →
          (perform c.toNat args v).state.mgt.mode ≠ s.mgt.mode → c.toNat ∈ modeCodes ∧ args = [] :=
        fun v hv hp => perform_mode (by rw [hv]; exact hp)
      obtain ⟨a, b⟩ := key (if c.toNat = ReqCode.sense then controlAccepted s else clearSense (controlAccepted s))
        (by split <;> rfl) h
      exact ⟨c.toNat, a, by rw [b, BitVec.ofNat_toNat, BitVec.setWidth_eq]⟩

end Sys2Proof.Machine
end

