-- ==== Sys2Proof/Laws/LoadFacts.lean ====
section
/-!
SUPPORT. What the LOADs bring about: the checks they share, and the entries that each leaves in its table.
-/

set_option Elab.async false
namespace Sys2Proof.Machine

open Sys2Proof

theorem loadCheck_ok {s : State} {g : Bool} {size : Nat} {a : LoadArgs} (hg : g = true → s.mgt.mode ≠ .service)
    (h : a.entries.length = a.count * size) : loadCheck s g size a = none := by
  unfold loadCheck
  rw [if_neg, if_neg (by omega)]
  cases g <;> simp_all

theorem loadMany_ok {α : Type} {g fits : Bool} {size : Nat} {a : LoadArgs} {parse : List Byte → Option α}
    {rule : List α → State → Reply} {s : State} {l : List α}
   (hg : g = true → s.mgt.mode ≠ .service) (h : a.entries.length = a.count * size) (hf : fits = true)
     (hp : parseAll parse (rows size a.count a.entries) = some l) :
   loadMany g size a fits parse rule s = rule l s := by
  unfold loadMany
  rw [loadCheck_ok hg h]
  dsimp only
  rw [if_neg (by simp [hf]), hp]

theorem loadOne_ok {α : Type} {g : Bool} {size : Nat} {a : LoadArgs} {parse : List Byte → Option α}
    {rule : α → State → Reply} {s : State} {v : α}
   (hg : g = true → s.mgt.mode ≠ .service) (h : a.entries.length = size) (hf : a.first = 1) (hn : a.count = 1)
     (hp : parse a.entries = some v) :
   loadOne g size a parse rule s = rule v s := by
  unfold loadOne
  rw [loadCheck_ok hg (by rw [hn]; omega)]
  dsimp only
  rw [if_neg (by omega), hp]

theorem loadMany_guarded {α : Type} {size : Nat} {a : LoadArgs} {fits : Bool} {parse : List Byte → Option α}
    {rule : List α → State → Reply} {s : State} (hm : s.mgt.mode = .service) :
   loadMany true size a fits parse rule s = refuse Status.guarded s := by
  unfold loadMany loadCheck
  rw [if_pos (by simp [hm])]

theorem loadOne_guarded {α : Type} {size : Nat} {a : LoadArgs} {parse : List Byte → Option α}
    {rule : α → State → Reply} {s : State} (hm : s.mgt.mode = .service) :
   loadOne true size a parse rule s = refuse Status.guarded s := by
  unfold loadOne loadCheck
  rw [if_pos (by simp [hm])]

theorem loadOvenState_guarded {a : LoadArgs} {s : State} (hm : s.mgt.mode = .service) : loadOvenState a s =
    refuse Status.guarded s := by
  unfold loadOvenState loadCheck
  dsimp only
  rw [if_pos (by simp [hm])]

theorem loadPermits_guarded {a : LoadArgs} {s : State} (hm : s.mgt.mode = .service) : loadPermits a s =
    refuse Status.guarded s := by
  unfold loadPermits loadCheck
  dsimp only
  rw [if_pos (by simp [hm])]

theorem loadPoll_guarded {a : LoadArgs} {s : State} (hm : s.mgt.mode = .service) : loadPoll a s =
    refuse Status.guarded s := by
  unfold loadPoll; exact loadMany_guarded hm

theorem loadSegments_guarded {a : LoadArgs} {s : State} (hm : s.mgt.mode = .service) : loadSegments a s =
    refuse Status.guarded s := by
  unfold loadSegments; exact loadMany_guarded hm

theorem row_lt {n : Byte} {k : Nat} {α : Type} {l : List α} {a : α} (hl : l.length = n.toNat)
    (h : l[k]? = some a) : k < n.toNat := by
  have := List.getElem?_eq_some_iff.mp h
  obtain ⟨h, _⟩ := this; omega

theorem parseAll_length {α : Type} {parse : List Byte → Option α} : ∀ {rs : List (List Byte)}
    {l : List α}, parseAll parse rs = some l → l.length = rs.length := by
  intro rs
  induction rs with
  | nil => intro l h; injection h with h; subst h; rfl
  | cons r rs ih =>
    intro l h
    unfold parseAll at h
    split at h
    · next h1 h2 => injection h with h; subst h; simp [ih h2]
    · cases h
    · cases h

theorem rows_length (size : Nat) : ∀ (n : Nat) (bs : List Byte), (rows size n bs).length = n := by
  intro n
  induction n with
  | zero => intro bs; rfl
  | succ n ih => intro bs; unfold rows; simp [ih]

theorem ovenConfig_kept {l : List Aspect} {s t : State} (h : Touches l s t) (n : Nat)
    (ha : Aspect.ovenTables ∉ l := by decide) : ovenConfig t n = ovenConfig s n := by
  unfold ovenConfig; rw [(h.ovenTables_kept ha).1]

theorem writeOven_config (n : Nat) (c : OvenConfig) (s : State) (m : Nat) (hm : 1 ≤ m ∧ m ≤ 128) : ovenConfig
    (writeOven n c s) m = if n = m then some c else ovenConfig s m := by
  let s1 := s.onOvt fun o => { o with config := writeNum o.config n (some c) }
  have h1 : ovenConfig s1 m = if n = m then some c else ovenConfig s m := by
    show readNum (writeNum s.ovt.config n (some c)) m none = _
    rw [readNum_writeNum]
    by_cases h : n = m
    · subst h; rw [if_pos ⟨rfl, hm⟩, if_pos rfl]
    · rw [if_neg (fun hh => h hh.1), if_neg h]; rfl
  unfold writeOven
  dsimp only
  cases ovenConfig s n with
  | some old => dsimp only; rw [ovenConfig_kept (reconfigured_touches _ _ _ _)]; exact h1
  | none => dsimp only; rw [ovenConfig_kept (oprDerive_touches _ _)]; exact h1

theorem foldWriteOven_config (m f : Nat) (hm : 1 ≤ m ∧ m ≤ 128) (l : List OvenConfig) : ∀ (b : Nat) (s : State)
    (c : OvenConfig), (∃ k, l[k]? = some c ∧ m = f + (b + k)) ∨
      ((∀ k a, l[k]? = some a → m ≠ f + (b + k)) ∧ ovenConfig s m = some c) →
   ovenConfig ((l.zipIdx b).foldl (fun s e => writeOven (f + e.2) e.1 s) s) m = some c := by
  induction l with
  | nil => intro b s c h; rcases h with ⟨k, h, _⟩ | h
           · cases h
           · exact h.2
  | cons a l ih =>
    intro b s c h
    rw [List.zipIdx_cons, List.foldl_cons]
    apply ih
    rcases h with ⟨k, hk, hmk⟩ | ⟨hn, hc⟩
    · cases k with
      | zero =>
        right
        simp at hk; subst hk
        refine ⟨fun k a' _ => by omega, ?_⟩
        rw [writeOven_config _ _ _ _ hm, if_pos (by omega)]
      | succ k => left; exact ⟨k, by simpa using hk, by omega⟩
    · right
      refine ⟨fun k a' hk => by have := hn (k+1) a' (by simpa using hk); omega, ?_⟩
      rw [writeOven_config _ _ _ _ hm, if_neg (by have := hn 0 a rfl; omega)]
      exact hc

theorem returnedPhase_kept {l : List Aspect} {s t : State} (h : Touches l s t) (n : Nat) (st : Int)
    (h1 : Aspect.ovenTables ∉ l := by decide) (h2 : Aspect.clock ∉ l := by decide)
      (h3 : Aspect.doors ∉ l := by decide) : returnedPhase t n st = returnedPhase s n st := by
  have e1 := h.ovenTables_kept h1
  have e2 := h.clock_kept h2
  have e3 := h.doors_kept h3
  unfold returnedPhase cokingPhase bothDoorsOn doorPair reached targetOf ovenConfig State.now
  simp only [e1.1, e1.2, e2, e3]

theorem putOvenState_ovenRec (n m : Nat) (hm : 1 ≤ m ∧ m ≤ 128) (e : Phase × Nat) (s : State) : ovenRec
    (putOvenState n e s) m = if n = m then { ovenRec s m with
            phase := if e.1 = .coking ∨ e.1 = .ready then returnedPhase s m (s.now - e.2 * 60) else e.1
            stamp := s.now - e.2 * 60 } else ovenRec s m := by
  unfold putOvenState
  dsimp only
  rw [ovenRec_setPhase]
  by_cases h : n = m
  · subst h
    rw [if_pos ⟨rfl, hm⟩, if_pos rfl]
    by_cases hc : e.1 = .coking ∨ e.1 = .ready
    · rw [if_pos (by simpa using hc), if_pos hc]
    · rw [if_neg (by simpa using hc), if_neg hc]
  · rw [if_neg (fun hh => h hh.1), if_neg h]

theorem foldOvenState_ovenRec (m f : Nat) (hm : 1 ≤ m ∧ m ≤ 128) (r0 : State) (l : List (Phase × Nat)) :
    ∀ (b : Nat) (s : State) (e : Phase × Nat), Touches phaseAspects r0 s → 
   ((∃ k, l[k]? = some e ∧ m = f + (b + k)) ∧ ovenRec s m = ovenRec r0 m) ∨
     ((∀ k a, l[k]? = some a → m ≠ f + (b + k)) ∧ ovenRec s m = { ovenRec r0 m with
            phase := if e.1 = .coking ∨ e.1 = .ready then returnedPhase r0 m (r0.now - e.2 * 60) else e.1
            stamp := r0.now - e.2 * 60 }) →
   ovenRec ((l.zipIdx b).foldl (fun s e => putOvenState (f + e.2) e.1 s) s) m = { ovenRec r0 m with
            phase := if e.1 = .coking ∨ e.1 = .ready then returnedPhase r0 m (r0.now - e.2 * 60) else e.1
            stamp := r0.now - e.2 * 60 } := by
  induction l with
  | nil => intro b s e _ h; rcases h with ⟨⟨k, h, _⟩, _⟩ | h
           · cases h
           · exact h.2
  | cons a l ih =>
    intro b s e ht h
    rw [List.zipIdx_cons, List.foldl_cons]
    have hn : s.now = r0.now := ht.now_kept
    apply ih _ _ _ (ht.seq (putOvenState_touches _ _ _))
    rcases h with ⟨⟨k, hk, hmk⟩, hr⟩ | ⟨hne, hc⟩
    · cases k with
      | zero =>
        right
        simp at hk; subst hk
        refine ⟨fun k a' _ => by omega, ?_⟩
        rw [putOvenState_ovenRec _ _ hm, if_pos (by omega), hr, returnedPhase_kept ht, hn]
      | succ k =>
        left
        refine ⟨⟨k, by simpa using hk, by omega⟩, ?_⟩
        rw [putOvenState_ovenRec _ _ hm, if_neg (by omega), hr]
    · right
      refine ⟨fun k a' hk => by have := hne (k+1) a' (by simpa using hk); omega, ?_⟩
      rw [putOvenState_ovenRec _ _ hm, if_neg (by have := hne 0 a rfl; omega)]
      exact hc

theorem carReseated_keeps_empty (c d : Nat) (s : State)
    (h : (carRec s d).reserved = [] ∧ (carRec s d).move = none) : (carRec (carReseated c s) d).reserved = [] ∧
      (carRec (carReseated c s) d).move = none := by
  unfold carReseated; dsimp only; rw [carRec_setCarRec]
  split
  · exact ⟨rfl, rfl⟩
  · exact h

theorem carReseated_empty (c : Nat) (s : State) (hc : 1 ≤ c ∧ c ≤ 2) : (carRec (carReseated c s) c).reserved = [] ∧
    (carRec (carReseated c s) c).move = none := by
  unfold carReseated; dsimp only; rw [carRec_setCarRec, if_pos ⟨rfl, hc⟩]
  exact ⟨rfl, rfl⟩

theorem carConfig_carReseated (c d : Nat) (s : State) : carConfig (carReseated c s) d = carConfig s d := by
  unfold carConfig; rw [(carReseated_touches c s).trackTables_kept.2.2.1]

theorem foldCars_config (m f : Nat) (hm : 1 ≤ m ∧ m ≤ 2) (l : List CarConfig) : ∀ (b : Nat) (s : State)
    (c : CarConfig), (∃ k, l[k]? = some c ∧ m = f + (b + k)) ∨
      ((∀ k a, l[k]? = some a → m ≠ f + (b + k)) ∧ carConfig s m = some c) →
   carConfig ((l.zipIdx b).foldl (fun s e => carReseated (f + e.2)
     (s.onQtc fun q => { q with config := writeNum q.config (f + e.2) (some e.1) })) s) m = some c := by
  induction l with
  | nil => intro b s c h; rcases h with ⟨k, h, _⟩ | h
           · cases h
           · exact h.2
  | cons a l ih =>
    intro b s c h
    rw [List.zipIdx_cons, List.foldl_cons]
    have hw : carConfig (carReseated (f + b)
      (s.onQtc fun q => { q with config := writeNum q.config (f + b) (some a) })) m = if f + b =
        m then some a else carConfig s m := by
      rw [carConfig_carReseated]
      show readNum (writeNum s.qtc.config (f + b) (some a)) m none = _
      rw [readNum_writeNum]
      by_cases h : f + b = m
      · subst h; rw [if_pos ⟨rfl, hm⟩, if_pos rfl]
      · rw [if_neg (fun hh => h hh.1), if_neg h]; rfl
    apply ih
    rcases h with ⟨k, hk, hmk⟩ | ⟨hn, hc⟩
    · cases k with
      | zero =>
        right
        simp at hk; subst hk
        exact ⟨fun k a' _ => by omega, by rw [hw, if_pos (by omega)]⟩
      | succ k => left; exact ⟨k, by simpa using hk, by omega⟩
    · right
      refine ⟨fun k a' hk => by have := hn (k+1) a' (by simpa using hk); omega, ?_⟩
      rw [hw, if_neg (by have := hn 0 a rfl; omega)]
      exact hc

theorem clampOne_regRec (n m : Nat) (s : State) (hm : 1 ≤ m ∧ m ≤ 128) : regRec
    (putReg n { regRec s n with valve := clampValve (modeEntry s (regRec s n).mode) (regRec s n).valve } s) m =
      if n = m then { regRec s m with valve := clampValve (modeEntry s (regRec s m).mode) (regRec s m).valve } else
        regRec s m := by
  rw [regRec_putReg]
  by_cases h : n = m
  · subst h; rw [if_pos ⟨rfl, hm⟩, if_pos rfl]
  · rw [if_neg (fun hh => h hh.1), if_neg h]

theorem clampValve_idem (e : ModeEntry) (v : Nat) : clampValve e (clampValve e v) = clampValve e v := by
  unfold clampValve; omega

theorem foldClamp_valve (m : Nat) (hm : 1 ≤ m ∧ m ≤ 128) (me : PressureMode → ModeEntry) (md : PressureMode)
    (v : Nat) (l : List Nat) : ∀ s : State, (∀ x, modeEntry s x = me x) → (regRec s m).mode = md →
     ((regRec s m).valve = v ∧ m ∈ l) ∨ (regRec s m).valve = clampValve (me md) v →
   (regRec (l.foldl (fun s n => putReg n
     { regRec s n with valve := clampValve (modeEntry s (regRec s n).mode) (regRec s n).valve } s) s) m).valve =
       clampValve (me md) v := by
  induction l with
  | nil => intro s _ _ h; rcases h with h | h
           · cases h.2
           · exact h
  | cons n l ih =>
    intro s h1 h2 h3
    rw [List.foldl_cons]
    have hr := clampOne_regRec n m s hm
    refine ih _ (fun x => by rw [modeEntry_putReg]; exact h1 x) ?_ ?_
    · rw [hr]; split
      · exact h2
      · exact h2
    · rw [hr]
      by_cases hn : n = m
      · right; rw [if_pos hn]; dsimp only; rw [h1, h2]
        rcases h3 with ⟨h3, _⟩ | h3
        · rw [h3]
        · rw [h3]; exact clampValve_idem _ _
      · rw [if_neg hn]
        rcases h3 with ⟨h3, hl⟩ | h3
        · left; exact ⟨h3, by simp at hl; exact hl.resolve_left (fun h => hn h.symm)⟩
        · right; exact h3

theorem loadOne_badRange {α : Type} {size : Nat} {a : LoadArgs} {parse : List Byte → Option α}
    {rule : α → State → Reply} {s : State} (h : a.first ≠ 1 ∨ a.count ≠ 1) :
   loadOne false size a parse rule s = refuse Status.badRange s := by
  unfold loadOne loadCheck
  rw [if_neg (by simp)]
  by_cases hl : a.entries.length ≠ a.count * size
  · rw [if_pos hl]
  · rw [if_neg hl]; dsimp only; rw [if_pos h]

/-! ## What a written configuration makes of an oven's record (R2) -/

theorem recomputeReady_ovenRec (n m : Nat) (s : State) (hm : 1 ≤ m ∧ m ≤ 128) : ovenRec (recomputeReady n s) m =
    if n = m ∧ ((ovenRec s m).phase = .coking ∨ (ovenRec s m).phase = .ready) then
      { ovenRec s m with phase := if readyInstant s m ≤ s.now then .ready else .coking }
    else ovenRec s m := by
  unfold recomputeReady
  by_cases h : n = m
  · subst h
    by_cases hp : (ovenRec s n).phase = .coking ∨ (ovenRec s n).phase = .ready
    · dsimp only
      rw [if_pos (by simpa using hp), if_pos ⟨rfl, hp⟩]
      unfold setPhaseOnly
      rw [ovenRec_setPhase, if_pos ⟨rfl, hm⟩]
      unfold cokingPhase readyInstant reached
      simp only [decide_eq_true_eq]
    · dsimp only
      rw [if_neg (by simpa using hp), if_neg (fun hh => hp hh.2)]
  · dsimp only
    rw [if_neg (show ¬ (n = m ∧ _) from fun hh => h hh.1)]
    split
    · unfold setPhaseOnly
      rw [ovenRec_setPhase, if_neg (fun hh => h hh.1)]
    · rfl

/-- The record of an oven after its service bit was written. -/
def serviceRec (o c : OvenConfig) (now : Int) (r : OvenRecord) : OvenRecord :=
  if o.inService = true ∧ c.inService = false then { r with phase := .outOfService }
  else if o.inService = false ∧ c.inService = true ∧ r.phase = .outOfService then
    { r with phase := .coking, stamp := now }
  else r

theorem reconfigured_ovenRec (n m : Nat) (o c : OvenConfig) (s : State) (hm : 1 ≤ m ∧ m ≤ 128) :
    ovenRec (reconfigured n o c s) m =
      if n = m then
        if o.target ≠ c.target ∧
            ((serviceRec o c s.now (ovenRec s m)).phase = .coking ∨ (serviceRec o c s.now (ovenRec s m)).phase = .ready) then
          { serviceRec o c s.now (ovenRec s m) with
            phase := if readyInstant (reconfigured n o c s) m ≤ s.now then .ready else .coking }
        else serviceRec o c s.now (ovenRec s m)
      else ovenRec s m := by
  let s1 :=
    if o.inService && !c.inService then setPhaseOnly n .outOfService s
    else if !o.inService && c.inService && (ovenRec s n).phase = .outOfService then setPhase n .coking s.now s
    else s
  have e : reconfigured n o c s = if o.target = c.target then s1 else oprDerive n (recomputeReady n s1) := rfl
  have k1 : Touches phaseAspects s s1 :=
    .ite (fun _ => setPhaseOnly_touches _ _ _)
      (fun _ => .ite (fun _ => setPhase_touches _ (Or.inr (Int.le_refl _))) (fun _ => .refl _ _))
  have r1 : ovenRec s1 m = if n = m then serviceRec o c s.now (ovenRec s m) else ovenRec s m := by
    show ovenRec (if _ then _ else _) m = _
    unfold serviceRec
    by_cases h : n = m
    · subst h
      rw [if_pos rfl]
      cases o.inService <;> cases c.inService <;> simp
      · by_cases hp : (ovenRec s n).phase = .outOfService
        · simp [hp, ovenRec_setPhase, hm]
        · simp [hp]
      · unfold setPhaseOnly; rw [ovenRec_setPhase, if_pos ⟨rfl, hm⟩]
    · rw [if_neg h]
      split
      · unfold setPhaseOnly; rw [ovenRec_setPhase, if_neg (fun hh => h hh.1)]
      · split
        · rw [ovenRec_setPhase, if_neg (fun hh => h hh.1)]
        · rfl
  have n1 : s1.now = s.now := k1.now_kept
  by_cases ht : o.target = c.target
  · rw [e, if_pos ht, r1, if_neg (fun hh : o.target ≠ c.target ∧ _ => hh.1 ht)]
  · have k2 : Touches phaseAspects s1 (recomputeReady n s1) := recomputeReady_touches _ _
    have k3 := oprDerive_touches n (recomputeReady n s1)
    have r2 := recomputeReady_ovenRec n m s1 hm
    have r3 : ovenRec (reconfigured n o c s) m = ovenRec (recomputeReady n s1) m := by
      rw [e, if_neg ht]; exact k3.ovenRec_kept m
    have rd : readyInstant (reconfigured n o c s) m = readyInstant s1 m := by
      have hst : (ovenRec (reconfigured n o c s) m).stamp = (ovenRec s1 m).stamp := by
        rw [r3, r2]; split <;> rfl
      have hc : Touches phaseAspects s1 (reconfigured n o c s) := by
        rw [e, if_neg ht]; exact k2.seq k3.mono
      unfold readyInstant targetOf
      rw [hst, ovenConfig_kept hc, hc.ovenTables_kept.2]
    by_cases h : n = m
    · subst h
      rw [if_pos rfl] at r1
      rw [if_pos rfl, r3, r2, rd, n1, r1]
      by_cases hp : (serviceRec o c s.now (ovenRec s n)).phase = .coking ∨
          (serviceRec o c s.now (ovenRec s n)).phase = .ready
      · rw [if_pos (show n = n ∧ _ from ⟨rfl, hp⟩), if_pos (show o.target ≠ c.target ∧ _ from ⟨ht, hp⟩)]
      · rw [if_neg (show ¬ (n = n ∧ _) from fun hh => hp hh.2),
          if_neg (show ¬ (o.target ≠ c.target ∧ _) from fun hh => hp hh.2)]
    · rw [if_neg h] at r1
      rw [if_neg h, r3, r2, if_neg (show ¬ (n = m ∧ _) from fun hh => h hh.1), r1]

/-- What one written entry makes of the record of its own oven, and of no other. -/
def writtenRec (o : Option OvenConfig) (c : OvenConfig) (now ready : Int) (r : OvenRecord) : OvenRecord :=
  match o with
  | none => { r with phase := if c.inService then .coking else .outOfService, stamp := now, hardPushes := 0, ramPeak := 0 }
  | some o =>
    if o.target ≠ c.target ∧ ((serviceRec o c now r).phase = .coking ∨ (serviceRec o c now r).phase = .ready) then
      { serviceRec o c now r with phase := if ready ≤ now then .ready else .coking }
    else serviceRec o c now r

theorem writeOven_ovenRec (n m : Nat) (c : OvenConfig) (s : State) (hm : 1 ≤ m ∧ m ≤ 128) :
    ovenRec (writeOven n c s) m =
      if n = m then writtenRec (ovenConfig s m) c s.now (readyInstant (writeOven n c s) m) (ovenRec s m)
      else ovenRec s m := by
  let s1 := s.onOvt fun o => { o with config := writeNum o.config n (some c) }
  unfold writeOven
  cases ho : ovenConfig s n with
  | some o =>
    dsimp only
    rw [reconfigured_ovenRec n m o c s1 hm]
    by_cases h : n = m
    · subst h; rw [if_pos rfl, if_pos rfl, ho]; rfl
    · rw [if_neg h, if_neg h]; rfl
  | none =>
    dsimp only
    rw [(oprDerive_touches _ _).ovenRec_kept m, ovenRec_setOvenRec]
    by_cases h : n = m
    · subst h; rw [if_pos ⟨rfl, hm⟩, if_pos rfl, ho]; rfl
    · rw [if_neg (fun hh => h hh.1), if_neg h]; rfl

/-- The record's stamp, the target and the early minutes are all that a ready instant reads. -/
theorem readyInstant_kept {s t : State} {n : Nat} (hr : (ovenRec t n).stamp = (ovenRec s n).stamp)
    (hc : ovenConfig t n = ovenConfig s n) (ht : t.ovt.timing = s.ovt.timing) : readyInstant t n = readyInstant s n := by
  unfold readyInstant targetOf; rw [hr, hc, ht]

theorem writeOven_now (n : Nat) (c : OvenConfig) (s : State) : (writeOven n c s).now = s.now :=
  (writeOven_touches n c s).now_kept

theorem writeOven_timing (n : Nat) (c : OvenConfig) (s : State) : (writeOven n c s).ovt.timing = s.ovt.timing := by
  unfold writeOven
  cases ovenConfig s n with
  | some o => exact (reconfigured_touches _ _ _ _).ovenTables_kept.2
  | none => exact (oprDerive_touches _ _).ovenTables_kept.2

theorem foldWriteOven_ovenRec (m f : Nat) (hm : 1 ≤ m ∧ m ≤ 128) (l : List OvenConfig) : ∀ (b : Nat) (s : State)
    (k : Nat) (c : OvenConfig), l[k]? = some c → m = f + (b + k) →
    let t := (l.zipIdx b).foldl (fun s e => writeOven (f + e.2) e.1 s) s
    ovenRec t m = writtenRec (ovenConfig s m) c s.now (readyInstant t m) (ovenRec s m) := by
  have after : ∀ (l : List OvenConfig) (b : Nat) (s : State), m < f + b →
      let t := (l.zipIdx b).foldl (fun s e => writeOven (f + e.2) e.1 s) s
      ovenRec t m = ovenRec s m ∧ ovenConfig t m = ovenConfig s m ∧ t.ovt.timing = s.ovt.timing := by
    intro l
    induction l with
    | nil => intro b s _; exact ⟨rfl, rfl, rfl⟩
    | cons a l ih =>
      intro b s hlt
      have := ih (b + 1) (writeOven (f + b) a s) (by omega)
      rw [List.zipIdx_cons, List.foldl_cons]
      refine ⟨this.1.trans ?_, this.2.1.trans ?_, this.2.2.trans (writeOven_timing _ _ _)⟩
      · rw [writeOven_ovenRec _ _ _ _ hm, if_neg (by omega)]
      · rw [writeOven_config _ _ _ _ hm, if_neg (by omega)]
  induction l with
  | nil => intro b s k c h; cases h
  | cons a l ih =>
    intro b s k c hk hmk
    dsimp only
    rw [List.zipIdx_cons, List.foldl_cons]
    cases k with
    | zero =>
      have ha : a = c := by simpa using hk
      subst ha
      have hb : f + b = m := by omega
      subst hb
      have h := after l (b + 1) (writeOven (f + b) a s) (by omega)
      rw [h.1, readyInstant_kept (by rw [h.1]) h.2.1 h.2.2, writeOven_ovenRec _ _ _ _ hm, if_pos rfl]
    | succ k =>
      have h := ih (b + 1) (writeOven (f + b) a s) k c (by simpa using hk) (by omega)
      dsimp only at h
      rw [h, writeOven_config _ _ _ _ hm, if_neg (by omega), writeOven_ovenRec _ _ _ _ hm, if_neg (by omega),
        writeOven_now]

end Sys2Proof.Machine
end

