-- ==== Sys2Proof/Laws/PerInstr.lean ====
section
/-!
SUPPORT. One lemma a command: no command's footprint names one of the laws or the queue of commands.
-/

set_option Elab.async false
namespace Sys2Proof.Laws.Footprint

open Sys2Proof Sys2Proof.Machine

/-- The aspects that no footprint names. -/
def unnamed : List Aspect :=
  [.pending, .stampLaw, .valveLaw, .permitLaw, .queueLaw, .runLaw, .trackLaw, .listLaw, .countLaw]

/-- A list names none of them. -/
def clear (l : List Aspect) : Bool := unnamed.all fun a => !l.contains a

/-- A command breaks no law and touches no waiting command. -/
def Statement (c : Instr) : Prop := clear (footprint c) = true

/-- What a reply of a kind may touch. -/
theorem reply_clear (k : Nat) : clear (replyAspects k) = true := by
  unfold replyAspects reportAspectsOf
  repeat' split
  all_goals rfl

/-- What a telegram of a kind on the control port may touch. -/
theorem telegram_clear (k : Nat) : clear (telegramAspects k) = true := by
  unfold telegramAspects
  split <;> rfl

/-- An unnamed aspect is in no footprint that is clear. -/
theorem not_mem_of_clear {l : List Aspect} {a : Aspect} (h : clear l = true) (ha : a ∈ unnamed) : a ∉ l := by
  intro hl
  have := List.all_eq_true.mp h a ha
  simp only [Bool.not_eq_true', List.contains_eq_mem, decide_eq_false_iff_not] at this
  exact this hl

theorem powerOnReset (straps : BitVec 4) : Statement (.powerOnReset straps) := rfl
theorem clockAdvance : Statement .clockAdvance := rfl
theorem readyInstantReached (oven : Nat) : Statement (.readyInstantReached oven) := rfl
theorem chargeHoldEndReached (oven : Nat) : Statement (.chargeHoldEndReached oven) := rfl
theorem lateInstantReached (oven : Nat) : Statement (.lateInstantReached oven) := rfl
theorem holdDeadlineReached : Statement .holdDeadlineReached := rfl
theorem stepDeadlineReached : Statement .stepDeadlineReached := rfl
theorem leadInstantReached : Statement .leadInstantReached := rfl
theorem maximumLatenessTest : Statement .maximumLatenessTest := rfl
theorem drainDeadlineReached (car : Nat) : Statement (.drainDeadlineReached car) := rfl
theorem hotLimitReached (car : Nat) : Statement (.hotLimitReached car) := rfl
theorem sealDeadlineReached (oven : Nat) (side : DoorSide) : Statement (.sealDeadlineReached oven side) := rfl
theorem taskDeadlineReached (side : DoorSide) : Statement (.taskDeadlineReached side) := rfl
theorem cpSilence : Statement .cpSilence := rfl
theorem roundTimerExpiry : Statement .roundTimerExpiry := rfl
theorem pollFormed : Statement .pollFormed := rfl
theorem pollSent : Statement .pollSent := rfl
theorem responseWindowExpiry : Statement .responseWindowExpiry := rfl
theorem gapWindowExpiry (port : Port) : Statement (.gapWindowExpiry port) := by cases port <;> rfl
theorem framingDiscard (port : Port) (line : List LineByte) :
    Statement (.framingDiscard port line) := by cases port <;> rfl
theorem controlTransmitDone : Statement .controlTransmitDone := rfl
theorem foreignReply (t : Telegram) : Statement (.foreignReply t) := reply_clear (kindOf t)
theorem position (h : Header) (pos : BitVec 24) (moving status : Byte) :
    Statement (.position h pos moving status) := rfl
theorem request (h : Header) (kind oven side : Byte) : Statement (.request h kind oven side) := rfl
theorem done (h : Header) (kind oven side result : Byte) (measurement : BitVec 16) :
    Statement (.done h kind oven side result measurement) := rfl
theorem sealReport (h : Header) (oven side leak : Byte) : Statement (.sealReport h oven side leak) := rfl
theorem sample (h : Header) (firstOven validity : Byte) (pressures : Vector (BitVec 16) 8) (feedbacks : Vector Byte 8) :
    Statement (.sample h firstOven validity pressures feedbacks) := rfl
theorem ready (h : Header) (selfCheck claimed : Byte) : Statement (.ready h selfCheck claimed) := rfl
theorem fieldOtherKind (t : Telegram) : Statement (.fieldOtherKind t) := reply_clear (kindOf t)
theorem controlMove (h : Header) (target : BitVec 24) (speed oven : Byte) :
    Statement (.controlMove h target speed oven) := rfl
theorem controlHalt (h : Header) (reason : Byte) : Statement (.controlHalt h reason) := rfl
theorem controlTask (h : Header) (task oven side : Byte) : Statement (.controlTask h task oven side) := rfl
theorem broadcastHalt (source : Byte) (marked : Bool) (reason : Byte) :
    Statement (.broadcastHalt source marked reason) := rfl
theorem broadcastOtherKind (t : Telegram) : Statement (.broadcastOtherKind t) := telegram_clear (kindOf t)
theorem unknownStationTelegram (t : Telegram) : Statement (.unknownStationTelegram t) := telegram_clear (kindOf t)
theorem controlOtherKind (t : Telegram) : Statement (.controlOtherKind t) := telegram_clear (kindOf t)
theorem ownAddressNonMgmt (t : Telegram) : Statement (.ownAddressNonMgmt t) := telegram_clear (kindOf t)
theorem mgmtUnknownRequest (body : List Byte) : Statement (.mgmtUnknownRequest body) := rfl
theorem loadDispatchTable (first count : Byte) (entries : List Byte) :
    Statement (.loadDispatchTable first count entries) := rfl
theorem loadSelectorParameters (first count : Byte) (entries : List Byte) :
    Statement (.loadSelectorParameters first count entries) := rfl
theorem loadFieldLineSettings (first count : Byte) (entries : List Byte) :
    Statement (.loadFieldLineSettings first count entries) := rfl
theorem loadPollList (first count : Byte) (entries : List Byte) : Statement (.loadPollList first count entries) := rfl
theorem loadOvenConfiguration (first count : Byte) (entries : List Byte) :
    Statement (.loadOvenConfiguration first count entries) := rfl
theorem loadOvenstate (first count : Byte) (entries : List Byte) :
    Statement (.loadOvenstate first count entries) := rfl
theorem loadPermitTable (first count : Byte) (entries : List Byte) :
    Statement (.loadPermitTable first count entries) := rfl
theorem loadSegmentTable (first count : Byte) (entries : List Byte) :
    Statement (.loadSegmentTable first count entries) := rfl
theorem loadCarConfiguration (first count : Byte) (entries : List Byte) :
    Statement (.loadCarConfiguration first count entries) := rfl
theorem loadTimingTable (first count : Byte) (entries : List Byte) :
    Statement (.loadTimingTable first count entries) := rfl
theorem loadSeriesTable (first count : Byte) (entries : List Byte) :
    Statement (.loadSeriesTable first count entries) := rfl
theorem loadStepTimingTable (first count : Byte) (entries : List Byte) :
    Statement (.loadStepTimingTable first count entries) := rfl
theorem loadTrackTimingTable (first count : Byte) (entries : List Byte) :
    Statement (.loadTrackTimingTable first count entries) := rfl
theorem loadSealConfiguration (first count : Byte) (entries : List Byte) :
    Statement (.loadSealConfiguration first count entries) := rfl
theorem loadPressureModeTable (first count : Byte) (entries : List Byte) :
    Statement (.loadPressureModeTable first count entries) := rfl
theorem loadRegulatorConfiguration (first count : Byte) (entries : List Byte) :
    Statement (.loadRegulatorConfiguration first count entries) := rfl
theorem loadEventEnableMask (first count : Byte) (entries : List Byte) :
    Statement (.loadEventEnableMask first count entries) := rfl
theorem read (table first count : Byte) : Statement (.read table first count) := rfl
theorem status : Statement .status := rfl
theorem enterService : Statement .enterService := rfl
theorem enterMaintenance : Statement .enterMaintenance := rfl
theorem restart : Statement .restart := rfl
theorem fieldRestart : Statement .fieldRestart := rfl
theorem setTime (wall : BitVec 32) : Statement (.setTime wall) := rfl
theorem run (start count : Byte) : Statement (.run start count) := rfl
theorem hold : Statement .hold := rfl
theorem resume : Statement .resume := rfl
theorem abort : Statement .abort := rfl
theorem sense : Statement .sense := rfl
theorem verify (start count : Byte) : Statement (.verify start count) := rfl
theorem setBlock (size : Byte) : Statement (.setBlock size) := rfl
theorem ovenServiceOut (oven : Byte) (elapsed : BitVec 16) : Statement (.ovenServiceOut oven elapsed) := rfl
theorem ovenServiceIn (oven : Byte) (elapsed : BitVec 16) : Statement (.ovenServiceIn oven elapsed) := rfl
theorem releaseOven (oven : Byte) : Statement (.releaseOven oven) := rfl
theorem freeze (oven : Byte) : Statement (.freeze oven) := rfl
theorem unfreeze (oven : Byte) : Statement (.unfreeze oven) := rfl
theorem clearCar (car : Byte) : Statement (.clearCar car) := rfl
theorem preambleStartsAssembly (port : Port) : Statement (.preambleStartsAssembly port) := by cases port <;> rfl

end Sys2Proof.Laws.Footprint
end

