-- ==== Sys2Proof/Tests/Slice0.lean ====
section
/-!
SUPPORT. The model's own tests: ill-formed terms that the check refuses, the worked examples of the spec, and for every
statement that has hypotheses a state and operands that meet them.
-/

set_option Elab.async false
namespace Sys2Proof.Tests

open Sys2Proof Sys2Proof.Machine

/-! ## Ill-formed terms -/

/-- A telegram to an address, of a kind, with a body. -/
def tele (dest source kind : Nat) (body : List Byte) : Telegram :=
  ⟨BitVec.ofNat 8 dest, BitVec.ofNat 8 source, BitVec.ofNat 8 kind, body⟩

theorem test_oven_numbers_are_checked :
    ([0, 129].all fun n =>
      !(Instr.readyInstantReached n).wellFormed && !(Instr.chargeHoldEndReached n).wellFormed &&
        !(Instr.lateInstantReached n).wellFormed && !(Instr.sealDeadlineReached n .ps).wellFormed) = true := by
  decide

theorem test_car_numbers_are_checked :
    ([0, 3].all fun c => !(Instr.drainDeadlineReached c).wellFormed && !(Instr.hotLimitReached c).wellFormed) = true := by
  decide

theorem test_a_discard_needs_a_byte : (Instr.framingDiscard .field []).wellFormed = false := by decide

theorem test_a_discard_fits_a_telegram :
    (Instr.framingDiscard .control (List.replicate 55 ⟨0#8, true, 0⟩)).wellFormed = false := by decide +kernel

/-- A body of 49 bytes fits no telegram. -/
def overlong (dest kind : Nat) : Telegram := tele dest 0 kind (List.replicate 49 0#8)

theorem test_unframed_telegrams_are_refused :
    ([Instr.foreignReply (overlong 15 0x60), .fieldOtherKind (overlong 15 0x60), .broadcastOtherKind (overlong 255 0x60),
      .unknownStationTelegram (overlong 200 0x60), .controlOtherKind (overlong 16 0x60),
      .ownAddressNonMgmt (overlong 15 0x60)].all fun c => !c.wellFormed) = true := by
  decide +kernel

theorem test_reports_are_no_other_kind :
    ([0x20, 0x21, 0x22, 0x23, 0x24, 0x25].all fun k =>
      ([2, 3, 5, 6, 26].all fun n =>
        !(Instr.fieldOtherKind (tele 15 16 k (List.replicate n 0#8))).wellFormed)) = true := by
  decide +kernel

theorem test_a_broadcast_names_255_and_no_halt :
    ([Instr.broadcastOtherKind (tele 254 0 0x60 []), .broadcastOtherKind (tele 255 0 0x11 [1#8])].all fun c =>
      !c.wellFormed) = true := by
  decide +kernel

theorem test_255_is_no_unknown_station : (Instr.unknownStationTelegram (tele 255 0 0x60 [])).wellFormed = false := by
  decide +kernel

theorem test_other_kinds_go_to_station_addresses :
    ([Instr.controlOtherKind (tele 15 0 0x60 []), .controlOtherKind (tele 240 0 0x60 []),
      .controlOtherKind (tele 16 0 0x11 [1#8])].all fun c => !c.wellFormed) = true := by
  decide +kernel

theorem test_own_addresses_are_1_to_15 :
    ([Instr.ownAddressNonMgmt (tele 0 0 0x60 []), .ownAddressNonMgmt (tele 16 0 0x60 []),
      .ownAddressNonMgmt (tele 15 0 0x40 [8#8])].all fun c => !c.wellFormed) = true := by
  decide +kernel

theorem test_a_management_body_holds_1_to_48_bytes :
    ([[], List.replicate 49 0#8].all fun b => !(Instr.mgmtUnknownRequest b).wellFormed) = true := by
  decide +kernel

/-- One entry byte more than a body has room for. -/
def tooMany : List Byte := List.replicate 45 0#8

theorem test_load_entries_fit_a_body :
    ([Instr.loadDispatchTable 0 1 tooMany, .loadSelectorParameters 0 1 tooMany, .loadFieldLineSettings 1 1 tooMany,
      .loadPollList 1 1 tooMany, .loadOvenConfiguration 1 1 tooMany, .loadOvenstate 1 1 tooMany,
      .loadPermitTable 1 1 tooMany, .loadSegmentTable 1 1 tooMany, .loadCarConfiguration 1 1 tooMany,
      .loadTimingTable 1 1 tooMany, .loadSeriesTable 1 1 tooMany, .loadStepTimingTable 1 1 tooMany,
      .loadTrackTimingTable 1 1 tooMany, .loadSealConfiguration 1 1 tooMany, .loadPressureModeTable 0 1 tooMany,
      .loadRegulatorConfiguration 1 1 tooMany, .loadEventEnableMask 1 1 tooMany].all fun c => !c.wellFormed) = true := by
  decide +kernel

theorem test_orders_go_to_station_addresses :
    ([15, 240].all fun a =>
      !(Instr.controlMove ⟨BitVec.ofNat 8 a, 0, false⟩ 0 0 0).wellFormed &&
        !(Instr.controlHalt ⟨BitVec.ofNat 8 a, 0, false⟩ 0).wellFormed &&
        !(Instr.controlTask ⟨BitVec.ofNat 8 a, 0, false⟩ 1 1 1).wellFormed) = true := by
  decide +kernel

/-! ## A part at work -/

/-- Oven `n` of a battery with a pitch of 1,000 mm, served by offtake station 1. -/
def ovenAt (n : Nat) : OvenConfig := ⟨n * 1000, true, 1080, 1, (n - 1) % 8⟩

/-- A full poll list, positions 0 to 23. -/
def pollList : Vector PollEntry 24 :=
  #v[⟨16, .pm, 1⟩, ⟨17, .cgm, 1⟩, ⟨18, .car, 1⟩, ⟨19, .os, 1⟩, ⟨20, .cc, 1⟩, ⟨21, .car, 2⟩, ⟨22, .os, 2⟩, ⟨23, .os, 3⟩,
    ⟨24, .os, 4⟩, ⟨25, .os, 5⟩, ⟨26, .os, 6⟩, ⟨27, .os, 7⟩, ⟨28, .os, 8⟩, ⟨29, .os, 9⟩, ⟨30, .os, 10⟩, ⟨31, .os, 11⟩,
    ⟨32, .os, 12⟩, ⟨33, .os, 13⟩, ⟨34, .os, 14⟩, ⟨35, .os, 15⟩, ⟨36, .os, 16⟩, ⟨37, .aux, 1⟩, ⟨38, .aux, 2⟩,
    ⟨239, .aux, 8⟩]

/-- A part in SERVICE at clock 100,000, ovens 1 to 3 and 128 configured, all 24 stations ACTIVE. Ovens 1 and 128 are
COKING, charged at clock 0; oven 2 is PUSHING; oven 3 is PUSH_INTERRUPTED. -/
def plant : State :=
  { ovt :=
      { config :=
          ((((Vector.replicate 128 none).set 0 (some (ovenAt 1))).set 1 (some (ovenAt 2))).set 2 (some (ovenAt 3))).set 127
            (some (ovenAt 128))
        ovens :=
          ((((Vector.replicate 128 {}).set 0 { phase := .coking }).set 1 { phase := .pushing }).set 2
            { phase := .pushInterrupted }).set 127 { phase := .coking }
        clock := 100000 }
    fpl := { list := pollList, length := 24, stations := Vector.replicate 24 { state := .active } }
    mgt := { mode := .service, validity := ⟨true, true, true, true, true, true, true, true⟩ } }

/-- A bare exchange with the station at a position. -/
def exch (p : Nat) : Exchange := ⟨p, .bare, originated 15 16 Kind.poll [], .r19200, 20, 4, false⟩

/-- The line awaits the reply of the station at a position. -/
def awaiting (p : Nat) (s : State) : State :=
  (s.onFpi fun f => { f with line := .awaiting }).onFpl fun f => { f with exchange := some (exch p) }

/-- The state of the station at a position. -/
def withStation (p : Nat) (state : StationState) (s : State) : State :=
  setStation p { station s p with state := state } s

/-- A run of two positions, ovens 1 and 2, RUNNING in a step, with its planned instant. -/
def running (step : RunStep) (planned : Int) (s : State) : State :=
  s.onSch fun r =>
    { r with
      series := ((Vector.replicate 128 {}).set 0 ⟨1, 600⟩).set 1 ⟨2, 600⟩
      length := 2
      run :=
        { state := .running, start := 1, requested := 2, residual := 2, cursor := 1, step := step, planned := planned } }

/-- A HALT waiting in the slot of a position. -/
def halted (p : Nat) (s : State) : State :=
  setOutbound p { order := some ⟨tele 16 0 0x11 [1#8], .control, false⟩ } s

/-- A permit of the PM for oven 2, due at an instant. -/
def pushPermit (deadline : Int) : Permit := ⟨16, .push, 2, .none, 99900, deadline, some 1⟩

/-- The permit is active. -/
def permitted (deadline : Int) (s : State) : State :=
  s.onIlk fun i => { i with permits := [pushPermit deadline] }

/-- A header from a station to the part. -/
def fromStation (source : Nat) : Header := ⟨15#8, BitVec.ofNat 8 source, false⟩

/-- A header from the control station to a station. -/
def toStation (dest : Nat) : Header := ⟨BitVec.ofNat 8 dest, 0#8, false⟩

theorem awaits_awaiting (p : Nat) (s : State) (h : p < 24) : Awaits (awaiting p s) (exch p) := ⟨rfl, rfl, rfl, h⟩

/-! ## Hypotheses that are met: the machine, laws and frames

For each statement with hypotheses, named after it: a state and operands that meet them. -/

theorem test_meets_StepRunsTheFrontCommand : plant.pending = [] := rfl

/-- A clock advance waits at the front of the queue. -/
def ticking (s : State) : State := { s with pending := [.clockAdvance] }

theorem test_meets_StampsNeverLieAfterTheClock :
    (∃ t, step (ticking plant) = .next t) ∧ StampLaw (ticking plant) ∧ ∃ t, exec .clockAdvance plant = .next t := by
  refine ⟨⟨_, rfl⟩, ?_, ⟨_, rfl⟩⟩
  have h : ((List.range 129).all fun n => decide ((ovenRec (ticking plant) n).stamp ≤ (ticking plant).now)) = true := by
    decide +kernel
  intro n _ hn
  exact of_decide_eq_true (List.all_eq_true.mp h n (List.mem_range.mpr (by omega)))

theorem test_meets_ValvesStayWithinTheirLimits :
    (∃ t, step (ticking plant) = .next t) ∧ ValveLaw (ticking plant) := by
  refine ⟨⟨_, rfl⟩, fun m => by cases m <;> decide +kernel, ?_⟩
  have h : ((List.range 129).all fun n =>
      let r := regRec (ticking plant) n
      decide ((modeEntry (ticking plant) r.mode).vmin ≤ r.valve) &&
        decide (r.valve ≤ (modeEntry (ticking plant) r.mode).vmax)) = true := by
    decide +kernel
  intro n _ hn
  have := List.all_eq_true.mp h n (List.mem_range.mpr (by omega))
  simp only [Bool.and_eq_true, decide_eq_true_eq] at this
  exact this

theorem test_meets_PermitSetStaysLawful :
    (∃ t, step (ticking (permitted 100000 plant)) = .next t) ∧ PermitLaw (ticking (permitted 100000 plant)) := by
  refine ⟨⟨_, rfl⟩, fun h => absurd rfl h, by decide +kernel, by decide +kernel⟩

/-- A queue of 32 EVENTs. -/
def fullQueue (s : State) : State :=
  s.onCpi fun c => { c with sending := some (tele 0 15 0x43 []), queue := List.replicate 32 ⟨.event, tele 0 15 0x43 []⟩ }

theorem test_meets_TransmitQueueStaysLawful :
    (∃ t, step (ticking (fullQueue plant)) = .next t) ∧ QueueLaw (ticking (fullQueue plant)) := by
  refine ⟨⟨_, rfl⟩, ?_⟩
  unfold QueueLaw
  decide +kernel

theorem test_meets_RunCountsStayTrue :
    (∃ t, step (ticking (running .wait 100000 plant)) = .next t) ∧ RunLaw (ticking (running .wait 100000 plant)) := by
  refine ⟨⟨_, rfl⟩, ?_⟩
  unfold RunLaw
  decide +kernel

/-- Both cars on the track with segments of their own; car 1 holds the grant of the tower. -/
def twoCars (s : State) : State :=
  s.onQtc fun q =>
    { q with
      segments :=
        (((Vector.replicate 32 {}).set 0 ⟨0, 20000, .battery, 0⟩).set 1 ⟨20000, 40000, .battery, 0⟩).set 2
          ⟨40000, 60000, .tower, 50000⟩
      count := 3
      config := #v[some ⟨12000, 3000⟩, some ⟨12000, 3000⟩]
      cars :=
        #v[{ state := .idle, position := some 30000, occupied := [2], reserved := [2, 3] },
          { state := .idle, position := some 8000, occupied := [1], reserved := [1] }]
      holder := some 1
      idle := [1, 2] }

theorem carRec_high (s : State) (c : Nat) (h : 3 ≤ c) : carRec s c = {} := by
  unfold carRec readNum readAt
  rw [if_neg (by omega), Vector.getElem?_eq_none (by omega)]
  rfl

theorem test_meets_TrackReservationsStayApart :
    (∃ t, step (ticking (twoCars plant)) = .next t) ∧ TrackLaw (ticking (twoCars plant)) := by
  have small : ∀ c, c = 0 ∨ c = 1 ∨ c = 2 ∨ 3 ≤ c := fun c => by omega
  refine ⟨⟨_, rfl⟩, fun c p h => ?_, by decide +kernel, fun c => ?_⟩
  · rcases small c with rfl | rfl | rfl | hc
    · exact absurd (show none = some p from h) nofun
    · rw [← Option.some.inj (show some 30000 = some p from h)]; decide
    · rw [← Option.some.inj (show some 8000 = some p from h)]; decide
    · rw [carRec_high _ _ hc] at h; exact absurd h nofun
  · rcases small c with rfl | rfl | rfl | hc
    · decide +kernel
    · decide +kernel
    · decide +kernel
    · rw [carRec_high _ _ hc]; exact nofun

theorem test_meets_CarListsStayLawful :
    (∃ t, step (ticking (twoCars plant)) = .next t) ∧ ListLaw (ticking (twoCars plant)) :=
  ⟨⟨_, rfl⟩, by decide +kernel, by decide +kernel, fun _ _ => nofun, fun _ hc => by rcases hc with rfl | rfl <;> decide +kernel⟩

theorem test_meets_SummaryCountsStayBytes :
    (∃ t, step (ticking plant) = .next t) ∧ CountLaw (ticking plant) := by
  refine ⟨⟨_, rfl⟩, fun i => ?_⟩
  unfold countAt readAt
  by_cases h : i < 24
  · have : ((List.range 24).all fun i => decide ((ticking plant).mgt.counts[i]?.getD 0 ≤ 255)) = true := by decide +kernel
    exact of_decide_eq_true (List.all_eq_true.mp this i (List.mem_range.mpr h))
  · rw [Vector.getElem?_eq_none (by omega)]; decide

/-- The PS door of oven 1 leaks MAJOR, that of oven 128 MINOR, and both are listed. -/
def leaking (s : State) : State :=
  (setDoorRec ⟨1, .ps⟩ { state := .leaking, severity := some .major, listed := true }
    (setDoorRec ⟨128, .ps⟩ { state := .leaking, severity := some .minor, listed := true } s)).onDsm fun d =>
      { d with leaks := [⟨1, .ps⟩, ⟨128, .ps⟩] }

theorem test_meets_LeakListStaysLawful :
    (∃ t, step (ticking (leaking plant)) = .next t) ∧ LeakLaw (ticking (leaking plant)) := by
  have h : ((List.range 129).all fun n => [DoorSide.ps, .cs].all fun side =>
      let r := doorRec (ticking (leaking plant)) ⟨n, side⟩
      (r.listed == (ticking (leaking plant)).dsm.leaks.contains ⟨n, side⟩) &&
        (r.severity.isSome == decide (r.state = .leaking)) && (!decide (r.state = .leaking) || r.listed)) = true := by
    decide +kernel
  have all : ∀ d : Door, isDoor d →
      let r := doorRec (ticking (leaking plant)) d
      ((r.listed == (ticking (leaking plant)).dsm.leaks.contains d) = true ∧
        (r.severity.isSome == decide (r.state = .leaking)) = true) ∧ (!decide (r.state = .leaking) || r.listed) = true := by
    rintro ⟨n, side⟩ ⟨_, hn⟩
    have := List.all_eq_true.mp (List.all_eq_true.mp h n (List.mem_range.mpr (by dsimp only at hn; omega))) side
      (by cases side <;> decide)
    simpa only [Bool.and_eq_true] using this
  refine ⟨⟨_, rfl⟩, by decide +kernel, by decide +kernel, by decide +kernel, ?_, fun d hd => ?_, fun d hd => ?_,
    fun _ d hd hl => ?_⟩
  · intro d hd
    rcases List.mem_cons.mp (show d ∈ [⟨1, .ps⟩, (⟨128, .ps⟩ : Door)] from hd) with rfl | hd
    · exact ⟨by unfold isDoor; decide, by decide +kernel⟩
    · rw [List.mem_singleton.mp hd]; exact ⟨by unfold isDoor; decide, by decide +kernel⟩
  · have := (all d hd).1.1
    rw [beq_iff_eq] at this
    rw [this, List.contains_iff_mem]
  · have := (all d hd).1.2
    rw [beq_iff_eq] at this
    rw [this, decide_eq_true_iff]
  · have := (all d hd).2
    simpa [hl] using this

theorem test_meets_PermitHoldersStayActive :
    (∃ t, step (ticking (permitted 100100 plant)) = .next t) ∧ HolderLaw (ticking (permitted 100100 plant)) := by
  have h : ((List.range 24).all fun p => (List.range 24).all fun q =>
      (pollEntry plant p).address != (pollEntry plant q).address || p == q) = true := by decide +kernel
  refine ⟨⟨_, rfl⟩, fun h => absurd rfl h, by decide +kernel, fun p q hp hq he => ?_, fun x => nofun, by decide +kernel⟩
  have := List.all_eq_true.mp (List.all_eq_true.mp h p (List.mem_range.mpr hp)) q (List.mem_range.mpr hq)
  simpa [show (pollEntry plant p).address = (pollEntry plant q).address from he] using this

theorem test_meets_CommandsTouchOnlyTheirFootprint :
    (∃ t, exec .pollSent (twoCars plant) = .next t) ∧ Aspect.cars ∉ footprint .pollSent :=
  ⟨⟨_, rfl⟩, by decide⟩

theorem test_meets_WaitingHaltsStayUntilAPollIsAnswered :
    ([0, 23].all fun p => haltWaits (halted p plant) p) = true ∧
    ((∀ straps, Instr.clockAdvance ≠ .powerOnReset straps) ∧ replyTelegram .clockAdvance = none ∧
      ∃ t, exec .clockAdvance (halted 23 plant) = .next t) ∧
    (let s := halted 0 (awaiting 0 plant)
     let c := Instr.position (fromStation 16) 5000 0 0
     haltWaits s 0 = true ∧ (∃ t, exec c s = .next t) ∧
       ∀ u x, replyTelegram c = some u → Awaits s x → fromPolled s x u = true → framed u = true →
         ¬ (x.position = 0 ∧ x.item = .halt)) := by
  refine ⟨by decide +kernel, ⟨nofun, rfl, ⟨_, rfl⟩⟩, by decide +kernel, ⟨_, rfl⟩, fun u x _ hx _ _ h => ?_⟩
  have hx : exch 0 = x := Option.some.inj hx.2.1
  rw [← hx] at h
  exact absurd h.2 (by decide)

theorem test_meets_ModeChangesOnlyByItsCommands :
    (∃ t, exec .enterMaintenance plant = .next t ∧ t.mgt.mode ≠ plant.mgt.mode) ∧
    ∃ t, exec (.mgmtUnknownRequest [BitVec.ofNat 8 ReqCode.enterMaintenance]) plant = .next t ∧
      t.mgt.mode ≠ plant.mgt.mode :=
  ⟨⟨_, rfl, by decide +kernel⟩, ⟨_, rfl, by decide +kernel⟩⟩

theorem test_meets_OnlyRequestsGrantPermits :
    (∃ t, exec (.done (fromStation 16) 4 2 0 0 0) (awaiting 0 (permitted 100100 plant)) = .next t) ∧
      ∀ u, replyTelegram (.done (fromStation 16) 4 2 0 0 0) = some u → kindOf u ≠ Kind.request :=
  ⟨⟨_, rfl⟩, fun _ h => by cases h; decide⟩

theorem test_meets_TelegramBytesFrameBack :
    framed (tele 15 16 0x60 (List.replicate 48 1#8)) = true ∧ framed (tele 15 16 0x60 []) = true := by
  decide +kernel

/-! ## Hypotheses that are met: the clock -/

theorem test_meets_OvenInstantsAct :
    ([1, 128].all fun n =>
      configured plant n && decide ((ovenRec plant n).phase = .coking) && decide (readyInstant plant n ≤ plant.now) &&
        decide (chargeHoldEnd plant n ≤ plant.now) && decide (lateInstant plant n ≤ plant.now)) = true := by
  decide +kernel

/-- The run's step deadline is the present clock value. -/
def deadlined (s : State) : State := onRun (fun r => { r with deadline := some 100000 }) s

theorem test_meets_StepDeadlineStopsTheRun :
    ([RunStep.position, .opening, .push, .close].all fun step =>
      let s := deadlined (running step 99000 plant)
      decide (s.run.state = .running ∧ s.run.step ≠ .wait ∧ s.run.deadline = some 100000 ∧ 100000 ≤ s.now)) = true := by
  decide +kernel

/-- The lateness test is still to be made. -/
def lateTest (s : State) : State := s.onSch fun r => { r with latenessDue := true }

theorem test_meets_LatenessTestStopsTheRun :
    (let s := lateTest (running .wait 99400 plant)
     s.sch.latenessDue = true ∧ s.run.state = .running ∧ s.run.planned + s.sch.timing.maxLateness ≤ s.now ∧
       s.run.step = .wait ∧ s.run.car = none) ∧
    (let s := setOvenRec 1 { phase := .coking, stamp := 50000 } (lateTest (running .position 99400 plant))
     s.sch.latenessDue = true ∧ s.run.state = .running ∧ s.run.planned + s.sch.timing.maxLateness ≤ s.now ∧
       s.run.step = .position ∧ s.now < readyInstant s (currentOven s)) ∧
    (let s := lateTest (running .opening 99400 plant)
     s.sch.latenessDue = true ∧ s.run.state = .running ∧ s.run.planned + s.sch.timing.maxLateness ≤ s.now ∧
       s.run.step = .opening ∧ readyInstant s (currentOven s) ≤ s.now) := by
  decide +kernel

theorem test_meets_LeadInstantAsksForACar :
    (let s := running .wait 100120 plant
     s.run.state = .running ∧ s.run.step = .wait ∧ s.run.planned - s.sch.timing.lead ≤ s.now ∧ s.run.car = none ∧
       s.qtc.idle = []) ∧
    (let s := running .wait 100120 (twoCars plant)
     s.run.state = .running ∧ s.run.step = .wait ∧ s.run.planned - s.sch.timing.lead ≤ s.now ∧ s.run.car = none ∧
       s.qtc.idle = 1 :: [2]) ∧
    (let s := onRun (fun r => { r with car := some 1 }) (running .wait 100120 (twoCars plant))
     s.run.state = .running ∧ s.run.step = .wait ∧ s.run.planned - s.sch.timing.lead ≤ s.now ∧ s.run.car = some 1 ∧
       currentPhase s = .coking ∧ readyInstant s (currentOven s) ≤ s.now + s.sch.timing.lead) := by
  decide +kernel

theorem test_meets_CarDeadlinesAct :
    ([1, 2].all fun c =>
      let s := setCarRec c { state := .draining, drainDeadline := some 100000, hotStart := some 99700 } plant
      decide ((carRec s c).state = .draining ∧ (carRec s c).drainDeadline = some 100000 ∧ 100000 ≤ s.now ∧
        (carRec s c).hotStart = some 99700 ∧ 99700 + s.qtc.timing.hotLimit ≤ s.now)) = true := by
  decide +kernel

theorem test_meets_SealDeadlineMakesTheDoorOverdue :
    ([1, 128].all fun n => [DoorSide.ps, .cs].all fun side =>
      let s := setDoorRec ⟨n, side⟩ { state := .unsealed, doorOn := 99100 } plant
      decide ((doorRec s ⟨n, side⟩).state = .unsealed ∧ (doorRec s ⟨n, side⟩).overdue = false ∧
        (doorRec s ⟨n, side⟩).doorOn + s.dsm.config.deadline * 60 ≤ s.now)) = true := by
  decide +kernel

theorem test_meets_TaskDeadlineEndsTheTask :
    ([DoorSide.ps, .cs].all fun side => [TaskStage.delivered, .testing].all fun stage =>
      let s := setTask side { stage := stage, door := some ⟨1, side⟩, deadline := some 100000 } plant
      decide ((taskOf s side).stage = stage ∧ (taskOf s side).deadline = some 100000 ∧ 100000 ≤ s.now)) = true := by
  decide +kernel

/-- The silence watch runs with its limit at the present clock value. -/
def silent (s : State) : State :=
  s.onSch fun r => { r with timing := { r.timing with silence := 30 }, silenceStart := 99970 }

theorem test_meets_SilenceHoldsTheRun :
    ([running .wait 100000 plant, running .position 100000 plant, running .push 100000 plant, plant].all fun s =>
      decide (0 < (silent s).sch.timing.silence ∧ (silent s).sch.silenceRaised = false ∧
        (silent s).sch.silenceStart + (silent s).sch.timing.silence ≤ (silent s).now)) = true := by
  decide +kernel

/-! ## Hypotheses that are met: the ports and the reports -/

/-- The line is idle and the turn of a round stands at a position. -/
def turnAt (p : Nat) (s : State) : State := s.onFpl fun f => { f with round := some p }

theorem test_meets_RoundTimerStartsARound :
    plant.fpl.round = none ∧ (turnAt 0 plant).fpl.round ≠ none := ⟨rfl, nofun⟩

theorem test_meets_PollCarriesTheItemThatWaits :
    ([0, 23].all fun p =>
      let s := turnAt p plant
      decide (s.fpi.line = .idle ∧ s.fpl.round = some p ∧ p < s.fpl.length) && takesTurn s p) = true ∧
    ([StationState.active, .joining, .absent, .lost].all fun st =>
      [0, 23].all fun p => decide ((station (withStation p st plant) p).state = st)) = true := by
  decide +kernel

theorem test_meets_LineEventsMoveTheLines :
    (plant.onFpi fun f => { f with line := .sending }).fpi.line = .sending ∧ (awaiting 0 plant).fpi.line = .awaiting ∧
      plant.cpi.queue = [] ∧
      (fullQueue plant).cpi.queue = ⟨.event, tele 0 15 0x43 []⟩ :: List.replicate 31 ⟨.event, tele 0 15 0x43 []⟩ := by
  decide +kernel

/-- A first byte that comes 89 bit times late, one more than the gap window of the control port. -/
def lateByte : LineByte := ⟨16#8, true, 89⟩

theorem test_meets_FailedTelegramsAreCounted :
    ((plant.onCpi fun c => { c with assembling := true }).cpi.assembling = true ∧
      frame 8 [] [lateByte] = .discarded .gap lateByte [] ∧
      frame 8 [] [⟨16#8, true, 88⟩] = .assembling) ∧
    ((awaiting 0 plant).onFpi fun f => { f with assembling := true }).fpi.line = .awaiting ∧
    Awaits (awaiting 0 plant) (exch 0) ∧ frame (exch 0).gap [] [⟨16#8, false, 0⟩] = .discarded .parity ⟨16#8, false, 0⟩ [] :=
  ⟨by decide +kernel, rfl, awaits_awaiting _ _ (by decide), by decide +kernel⟩

/-- A reply of another station. -/
def foreign : Telegram := tele 15 99 0x60 []

theorem test_meets_MissesCountAgainstTheStation :
    (let s := awaiting 23 plant
     Awaits s (exch 23) ∧ endsAsMiss s (exch 23) .responseWindowExpiry = true ∧
       endsAsMiss (s.onFpi fun f => { f with assembling := true }) (exch 23) (.gapWindowExpiry .field) = true ∧
       endsAsMiss s (exch 23) (.framingDiscard .field [⟨16#8, false, 0⟩]) = true ∧
       endsAsMiss s (exch 23) (.foreignReply foreign) = true) ∧
    (let s := setStation 0 { state := .active, misses := 1 } (awaiting 0 plant)
     Awaits s (exch 0) ∧ (station s 0).state = .active ∧ (station s 0).misses + 1 < s.fpl.settings.misses) ∧
    (let s := setStation 0 { state := .active, misses := 2 } (awaiting 0 plant)
     Awaits s (exch 0) ∧ (station s 0).state = .active ∧ s.fpl.settings.misses ≤ (station s 0).misses + 1) ∧
    [StationState.joining, .absent, .lost].all
      (fun st => (station (withStation 0 st (awaiting 0 plant)) 0).state = st) = true :=
  ⟨⟨awaits_awaiting _ _ (by decide), by decide +kernel, by decide +kernel, by decide +kernel, by decide +kernel⟩,
    ⟨⟨rfl, rfl, rfl, by decide⟩, by decide +kernel, by decide +kernel⟩,
    ⟨⟨rfl, rfl, rfl, by decide⟩, by decide +kernel, by decide +kernel⟩, by decide +kernel⟩

/-- The station at a position LOST, its alignment entry emptied, and the hold terms re-evaluated. -/
def left (p : Nat) (s : State) : State := ilkSettle s (setAlignment p {} (withStation p .lost s))

theorem test_meets_MissesCountAgainstTheStation_left :
    (let s := onRun (fun r => { r with car := some 1 }) (running .position 100000 (twoCars plant))
     ([0, 1, 2].all fun p =>
       runEngaged (left p s) && isRunMachine (left p s) p && decide ((station (left p s) p).state ≠ .active)) = true ∧
       isRunMachine (left 3 s) 3 = false ∧ carAt (left 2 s) 2 = some 1 ∧ doorSideAt (left 1 s) 1 = some .cs ∧
       doorMachinePos (left 1 s) .cs = some 1 ∧ (pollEntry (left 3 s) 3).cls = .os ∧ configured (left 3 s) 128 = true ∧
       servingStation (left 3 s) 128 = (pollEntry (left 3 s) 3).inst) ∧
    ListLaw (left 2 (twoCars plant)) :=
  ⟨by decide +kernel, by decide +kernel, by decide +kernel, by decide +kernel,
    fun c hc => by rcases hc with rfl | rfl <;> decide +kernel⟩

theorem test_meets_RepliesAreTakenAndClassified :
    ([Instr.position (fromStation 239) 5000 0 0, .request (fromStation 239) 1 2 1, .done (fromStation 239) 1 2 1 0 0,
      .sealReport (fromStation 239) 2 1 10, .sample (fromStation 239) 1 1 (Vector.replicate 8 0) (Vector.replicate 8 0),
      .ready (fromStation 239) 0 5, .fieldOtherKind (tele 15 239 0x60 []), .foreignReply (tele 15 239 0x60 [])].all fun c =>
      match replyTelegram c with
      | some u => fromPolled (awaiting 23 plant) (exch 23) u && framed u
      | none => false) = true ∧ Awaits (awaiting 23 plant) (exch 23) :=
  ⟨by decide +kernel, awaits_awaiting _ _ (by decide)⟩

/-- The station at a position is ACTIVE and its reply is awaited; the source of the reply is its address. -/
def hears (p : Nat) (s : State) : Bool :=
  decide ((fromStation (pollEntry s p).address).source.toNat = (pollEntry s (exch p).position).address) &&
    decide ((station s (exch p).position).state = .active)

/-- A machine of a class at a position stands at oven `n`, and at no lower one of the plant. -/
def standsFirst (c : StationClass) (pos n : Nat) : Bool :=
  let near (m : Nat) : Bool :=
    configured plant m && decide (((pos : Int) - centreOf plant m).natAbs ≤ toleranceOf plant.ovt.timing c)
  near n && (List.range n).all fun m => !near m

theorem test_meets_PositionsAreRecorded :
    ([0, 2, 5, 23].all fun p => hears p (awaiting p plant)) = true ∧ Awaits (awaiting 5 plant) (exch 5) ∧
      (pollEntry plant 2).cls = .car ∧ (pollEntry plant 2).inst = 1 ∧ (pollEntry plant 5).cls = .car ∧
      (pollEntry plant 5).inst = 2 ∧ (pollEntry plant 0).cls = .pm ∧ plant.ovt.timing.receiveOffset = 0 ∧
      (standsFirst .pm 980 1 && standsFirst .pm 1020 1 && standsFirst .car 127950 128) = true ∧
      ((List.range 129).all fun n => !standsFirst .pm 1021 n) = true ∧
      configured plant 2 = true ∧ ((2600 : Int) - centreOf plant 2).natAbs ≤ plant.ovt.timing.receiveSpan :=
  ⟨by decide +kernel, awaits_awaiting _ _ (by decide), by decide +kernel⟩

/-- Car 1 of `twoCars`, changed as `f` says, with the tower's grant and queue as given. -/
def carOne (f : CarRecord → CarRecord) (holder : Option Nat) (entered : Bool) (queue : List Nat) : State :=
  let s := twoCars plant
  (setCarRec 1 (f (carRec s 1)) s).onQtc fun q => { q with holder := holder, entered := entered, queue := queue }

/-- The segments that a report of car 1 at a position adds and car 2 holds (R78). -/
def conflictsAt (pos : Nat) (s : State) : List Nat :=
  (bodySegments s 1 (some pos)).filter fun k => !(carRec s 1).occupied.contains k && holds s (otherCar 1) k

/-- A report of car 1 at a position, with what R83 and R88 ask about it: segment `k` lies behind its body, its target is
within 100 mm, its body is in the tower. -/
def reportAsks (pos k : Nat) (s : State) : Bool × Bool × Bool :=
  let r := { carRec s 1 with position := some pos }
  (isBehind s 1 r k, atTarget r, (bodySegments s 1 (some pos)).any (isTower s))

theorem test_meets_PositionsAreRecorded_car :
    hears 2 (awaiting 2 (carOne id (some 1) true [])) = true ∧ carAt plant 2 = some 1 ∧
    conflictsAt 18000 (carOne id none false []) = [1] ∧ conflictsAt 46000 (carOne id none false []) = [] ∧
    (let up := carOne (fun r => { r with move := some ⟨46100, some .up, 2⟩ }) (some 1) false []
     reportAsks 46000 2 up = (true, true, true) ∧ reportAsks 45999 2 up = (false, false, true)) ∧
    (let down := carOne (fun r => { r with move := some ⟨34101, some .down, 2⟩ }) (some 1) true []
     reportAsks 34000 3 down = (true, false, false) ∧ reportAsks 34001 3 down = (false, true, true)) ∧
    ([(CarState.loaded, [2]), (.loaded, []), (.idle, [1, 2]), (.idle, [])].all fun q =>
      let s := carOne (fun r => { r with state := q.1, haltRelease := true }) (some 1) true q.2
      decide (reportAsks 30000 3 s = (false, false, false) ∧ conflictsAt 30000 s = [])) = true ∧
    (let s := carOne (fun r => { r with state := .unknown }) (some 2) false []
     (carRec s 1).state = .unknown ∧ s.qtc.holder ≠ some 1) ∧
    LoadState.ofStatus 0 = .empty ∧ LoadState.ofStatus 1 = .hot ∧ LoadState.ofStatus 2 = .wet ∧
    (let s := carOne (fun r => { r with state := .loaded, uncertain := true }) none false []
     (carRec s 1).uncertain = true ∧ (carRec s 1).state = .loaded) := by
  decide +kernel

/-- A run in a step on oven 1 with car 1, the CGM and the car in place, and the PM's alignment oven as given. -/
def arriving (step : RunStep) (n : Nat) : State :=
  setAlignment 0 { oven := n } (setAlignment 1 { oven := 1 } (setAlignment 2 { receiving := [1] }
    (onRun (fun r => { r with car := some 1 }) (running step 100000 plant))))

theorem test_meets_PositionsAreRecorded_run :
    hears 0 (awaiting 0 (arriving .position 0)) = true ∧
    (let s := arriving .position 0
     s.run.step ≠ .wait ∧ s.qtc.carRequest = false ∧ s.ilk.permits = [] ∧ allInPlace s = false) ∧
    (let z := arriving .position 1
     alignment z 0 ≠ alignment (arriving .position 0) 0 ∧ z.run.state = .running ∧ z.run.step = .position ∧
       allInPlace z = true ∧ guideLockedAt z 1 = false) ∧
    (let s := arriving .opening 1
     let z := setDoorRec ⟨1, .ps⟩ { state := .removed } (setDoorRec ⟨1, .cs⟩ { state := .removed }
       (setStation 1 { state := .active, status := 1 } s))
     guideLocked z 1 ≠ guideLocked s 1 ∧ (pollEntry s 1).cls = .cgm ∧ 1 < s.fpl.length ∧ z.run.step = .opening ∧
       bothDoorsOff z (currentOven z) = true ∧ guideLockedAt z (currentOven z) = true ∧
       bothDoorsOff s (currentOven s) = false) := by
  decide +kernel

theorem test_meets_RequestsAreAnswered :
    ([0, 23].all fun p => hears p (awaiting p plant)) = true ∧ Awaits (awaiting 23 plant) (exch 23) :=
  ⟨by decide +kernel, awaits_awaiting _ _ (by decide)⟩

theorem test_meets_DonesReleaseTheirPermit :
    (let s := awaiting 0 (permitted 100100 plant)
     Awaits s (exch 0) ∧ hears 0 s = true ∧ (asked s 0 4 2 0).kind = some .push ∧ (asked s 0 4 2 0).side = some .none ∧
       activeEntry s (pollEntry s 0).address .push (asked s 0 4 2 0).oven .none = some (pushPermit 100100)) ∧
    (let s := awaiting 0 plant
     Awaits s (exch 0) ∧ hears 0 s = true ∧ (asked s 0 4 2 0).kind = some .push ∧ (asked s 0 4 2 0).side = some .none ∧
       activeEntry s (pollEntry s 0).address .push (asked s 0 4 2 0).oven .none = none ∧ s.fpl.owed = false) :=
  ⟨⟨awaits_awaiting _ _ (by decide), by decide +kernel⟩, ⟨awaits_awaiting _ _ (by decide), by decide +kernel⟩⟩

theorem test_meets_SealsAreEvaluated :
    ([1, 128].all fun n => decide (sealDoor plant 0 n 1 = some ⟨n, .ps⟩) && decide (sealDoor plant 1 n 2 = some ⟨n, .cs⟩)) =
      true ∧
    ([(DoorState.unsealed, 1), (.unsealed, 2), (.sealed, 0), (.leaking, 0)].all fun q =>
      decide (sealDoor (setDoorRec ⟨1, .ps⟩ { state := q.1, retries := q.2 } plant) 0 1 1 = some ⟨1, .ps⟩)) = true ∧
    plant.dsm.config.accept = 40 ∧ plant.dsm.config.reject = 120 ∧ plant.dsm.config.maxRetries = 2 ∧
    ([(0, 0, 1), (0, 129, 1), (0, 1, 2), (0, 4, 1), (2, 1, 1)].all fun q =>
      decide (sealDoor plant q.1 q.2.1 q.2.2 = none)) = true ∧
    ([0, 1, 2].all fun p => hears p (awaiting p plant)) = true ∧ Awaits (awaiting 1 plant) (exch 1) :=
  ⟨by decide +kernel, by decide +kernel, rfl, rfl, rfl, by decide +kernel, by decide +kernel,
    awaits_awaiting _ _ (by decide)⟩

/-- A slot of oven 1 with feedback `fb` is taken under a regulator record. -/
def sampled (r : RegRecord) (fb : Nat) : RegRecord :=
  let s := setRegRec 1 r plant
  regRec (ilkSettle s (setRegRec 1 { regRec s 1 with feedback := some ⟨fb, s.fpl.roundNumber⟩ } s)) 1

theorem test_meets_SamplesAreTakenSlotBySlot :
    hears 3 (awaiting 3 plant) = true ∧ (pollEntry plant 3).cls = .os ∧ Awaits (awaiting 3 plant) (exch 3) ∧
    (slotTaken plant 1 0 1 true 200 && slotTaken plant 1 7 128 true 0 && !slotTaken plant 1 0 1 true 201) = true ∧
    (let off (r : RegRecord) (fb : Nat) : Prop := 100 < ((fb * 5 : Int) - r.valve).natAbs
     (sampled { hold := true } 0).hold = true ∧
       isDirty (plant.onOpr fun o => { o with dirty := Vector.replicate 16 true }) 1 = true ∧ isDirty plant 1 = false ∧
       ¬ off (sampled {} 20) 20 ∧ off (sampled {} 21) 21 ∧
       min 3 ((sampled { mismatches := 2 } 21).mismatches + 1) = 3 ∧
       (sampled { mismatches := 2 } 21).mismatchReported = false ∧
       min 3 ((sampled { mismatches := 1 } 21).mismatches + 1) ≠ 3 ∧
       (sampled { mode := .coking } 0).mode ≠ .out ∧ (sampled { mode := .coking } 0).mode ≠ .isolated ∧
       (sampled { updates := 0 } 0).updates + 1 < plant.opr.config.interval ∧
       plant.opr.config.interval ≤ (sampled { updates := 1 } 0).updates + 1) ∧
    (let m := modeEntry plant .coking
     let c := plant.opr.config
     m.regulate = true ∧ (modeEntry plant .isolated).regulate = false ∧ (ovenRec plant 1).freeze = false ∧
       (1280 - m.target).natAbs ≤ c.wide ∧ c.wide < (1281 - m.target).natAbs ∧ (1230 - m.target).natAbs ≤ c.stable ∧
       c.stable < (1231 - m.target).natAbs ∧ 3 + 1 = c.limit) :=
  ⟨by decide +kernel, by decide +kernel, awaits_awaiting _ _ (by decide), by decide +kernel, by decide +kernel,
    by decide +kernel⟩

theorem test_meets_ReadyStationsJoin :
    ([StationState.absent, .lost, .joining, .active].all fun st => [0, 23].all fun p =>
      let s := withStation p st (awaiting p plant)
      decide ((station s p).state = st) &&
        decide ((fromStation (pollEntry s p).address).source.toNat = (pollEntry s p).address)) = true ∧
      (0#8).toNat = (pollEntry plant 0).cls.code ∧ (5#8).toNat = (pollEntry plant 23).cls.code ∧
      (0#8).toNat ≠ (pollEntry plant 23).cls.code ∧ Awaits (withStation 23 .joining (awaiting 23 plant)) (exch 23) :=
  ⟨by decide +kernel, by decide +kernel, by decide +kernel, by decide +kernel, rfl, rfl, rfl, by decide⟩

theorem test_meets_JoiningMachinesBecomeActive :
    let s := setStation 0 { state := .joining, joinProgress := 1, joinRef := some 5000 } (awaiting 0 plant)
    Awaits s (exch 0) ∧ (fromStation 16).source.toNat = (pollEntry s 0).address ∧ (station s 0).state = .joining ∧
      (pollEntry s 0).cls.isMachine = true ∧ (station s 0).joinProgress ≠ 0 ∧ (station s 0).joinRef = some 5000 ∧
      (([4500, 5500] : List Nat).all fun pos =>
        decide (((pos : Int) - 5000).natAbs ≤ 500) &&
          plausible s 0 (arrived (fromStation 16) Kind.position (toBytes 3 pos ++ [0, 0]))) = true :=
  ⟨⟨rfl, rfl, rfl, by decide⟩, by decide +kernel⟩

/-- The dispatch entry of field kind 60h and of control kind 60h, replaced. -/
def dispatching (e : DispatchEntry) (s : State) : State :=
  s.onCls fun c => { c with dispatch := writeAt (writeAt c.dispatch 224 e) 96 e }

theorem test_meets_OtherFieldKindsFollowTheirEntry :
    ([DispatchEntry.mk .pass .none false 0 1 .clockLow 0, ⟨.depositPass, .none, false, 0, 1, .mode, 0⟩,
      ⟨.absorb, .none, false, 0, 1, .clockLow, 0⟩, ⟨.absorb, .opr, false, 0, 1, .clockLow, 0⟩,
      ⟨.check, .fpl, false, 0, 1, .clockLow, 0⟩, ⟨.drop, .none, false, 0, 1, .clockLow, 0⟩].all fun e =>
      let s := dispatching e (awaiting 23 plant)
      let u := tele 15 239 0x60 [1#8]
      hears 23 s && fromPolled s (exch 23) u && framed u && decide (entryFor s .field u = e) &&
        !(Kind.position ≤ kindOf u && kindOf u ≤ Kind.ready)) = true ∧ Awaits (awaiting 23 plant) (exch 23) ∧
    (let u := tele 15 239 0x60 [1#8]
     let v (s : State) := afterReply s (exch 23) u
     verdict (v (awaiting 23 plant)) .field .fpl 23 0x60 = .passes ∧
       verdict (v (awaiting 23 (plant.onMgt fun m => { m with mode := .standby }))) .field .mgt 23 0x60 =
         .refused Reason.notInService ∧
       verdict (v (awaiting 23 plant)) .field .dsm 23 0x60 = .mismatch) :=
  ⟨by decide +kernel, awaits_awaiting _ _ (by decide), by decide +kernel⟩

/-! ## Hypotheses that are met: permits and orders -/

theorem test_meets_ExclusionCheckFollowsItsCases :
    isCarKind .quench = true ∧ isCarKind .push = false ∧ isCarKind .level = false := by decide

/-- Everything that a PUSH on oven 2 asks for. -/
def pushReady : State :=
  let s := setCarRec 1 { state := .assigned, assignedOven := 2 } (setOvenRec 2 { phase := .doorsOff } plant)
  let s := setRegRec 2 { feedback := some ⟨0, 0⟩ } s
  let s := setDoorRec ⟨2, .ps⟩ { state := .removed } (setDoorRec ⟨2, .cs⟩ { state := .removed } s)
  let s := setAlignment 0 { oven := 2 } (setAlignment 1 { oven := 2 } (setAlignment 2 { receiving := [2] } s))
  setStation 1 { state := .active, status := 1 } s

/-- Everything that a CHARGE on oven 2 asks for. -/
def chargeReady : State :=
  setAlignment 4 { oven := 2 } (setRegRec 2 { feedback := some ⟨190, 0⟩ } (setOvenRec 2 { phase := .empty } plant))

/-- The PM and the CGM stand at an oven. -/
def machinesAt (n : Nat) : State := setAlignment 0 { oven := n } (setAlignment 1 { oven := n } plant)

/-- Everything that a QUENCH and a DUMP of car 1 ask for. -/
def carReady (c : CarState) (load : LoadState) (type : SegmentType) : State :=
  (setCarRec 1 { state := c, load := load, position := some 50000, occupied := [3] } (twoCars plant)).onQtc fun q =>
    { q with segments := q.segments.set 2 ⟨40000, 60000, type, 50000⟩ }

/-- A run in PUSH on oven 2, whose car is car 1. -/
def pushTurn (s : State) : State := onRun (fun r => { r with cursor := 2, car := some 1 }) (running .push 99900 s)

/-- A REQUEST of a kind from the station at `p` for an oven and a side is granted. -/
def grants (p : Nat) (k : PermitKind) (oven : Nat) (sd : Side) (s : State) : Bool :=
  let s := awaiting p s
  let u := arrived (fromStation (pollEntry s p).address) Kind.request
    [BitVec.ofNat 8 k.code, BitVec.ofNat 8 oven, BitVec.ofNat 8 sd.code]
  let v := afterReply s (exch p) u
  let a := asked v p k.code oven sd.code
  hears p s && decide (a.kind = some k) && decide (a.side = some sd) &&
    decide (activeEntry v (pollEntry v p).address k a.oven sd = none) &&
    decide (requestAnswer v p k.code oven sd.code = .permit k.code a.oven sd.code (holdLimit v k))

theorem test_meets_GrantsTakeTheirEffect :
    (grants 0 .push 2 .none pushReady && grants 0 .push 2 .none (pushTurn pushReady) &&
      grants 4 .charge 2 .none chargeReady && grants 1 .doorOff 128 .cs (machinesAt 128) &&
      grants 1 .doorOn 3 .cs (machinesAt 3) && grants 0 .reseat 1 .ps (machinesAt 1) &&
      grants 0 .level 3 .none
        ((setOvenRec 3 { phase := .charging } (machinesAt 3)).onIlk fun i =>
          { i with permits := [⟨20, .charge, 3, .none, 99900, 100100, none⟩] }) &&
      grants 2 .quench 9 .none (carReady .loaded .hot .tower) && grants 2 .dump 9 .none (carReady .quenched .wet .wharf)) =
        true ∧
    Awaits (awaiting 4 chargeReady) (exch 4) ∧ carAt plant 2 = some 1 ∧ Side.ps.door = some .ps ∧
    (pushTurn pushReady).run.state = .running :=
  ⟨by decide +kernel, awaits_awaiting _ _ (by decide), by decide +kernel⟩

/-- A permit of a station, granted at 99,900 and due at 100,100. -/
def entry (station : Nat) (k : PermitKind) (oven : Nat) (side : Side) (car : Option Nat) : Permit :=
  ⟨station, k, oven, side, 99900, 100100, car⟩

/-- One permit of each kind but QUENCH and DUMP, and one of car 2 of a kind given. -/
def everyPermit (k : PermitKind) : List Permit :=
  [entry 16 .push 2 .none (some 1), entry 20 .charge 3 .none none, entry 17 .doorOff 128 .cs none,
    entry 17 .doorOn 1 .cs none, entry 16 .reseat 128 .ps none, entry 16 .level 3 .none none, entry 21 k 0 .none none]

/-- What those permits are for is under way: oven 2 PUSHING into car 1 under a run in PUSH, oven 3 CHARGING, oven 1
DOORS_OFF, the PM reseating a door of oven 128, and car 2 in a state given. -/
def atWork (k : PermitKind) (c : CarState) : State :=
  let s := pushTurn plant
  let s := setOvenRec 3 { phase := .charging } (setOvenRec 1 { phase := .doorsOff } s)
  let s := setCarRec 2 { state := c } (setCarRec 1 { state := .receiving, assignedOven := 2 } s)
  let s := setTask .ps { stage := .working, door := some ⟨128, .ps⟩ } s
  s.onIlk fun i => { i with permits := everyPermit k }

/-- A DONE of the station at `p` meets its active permit. -/
def meetsPermit (p kind oven side : Nat) (e : Permit) (s : State) : Bool :=
  let s := awaiting p s
  let a := asked s p kind oven side
  hears p s && decide (a.kind = some e.kind) && decide (a.side = some e.side) &&
    decide (activeEntry s (pollEntry s p).address e.kind a.oven e.side = some e)

theorem test_meets_DonesTakeTheirEffect :
    (meetsPermit 0 4 2 0 (entry 16 .push 2 .none (some 1)) (atWork .quench .quenching) &&
      meetsPermit 4 5 3 0 (entry 20 .charge 3 .none none) (atWork .quench .quenching) &&
      meetsPermit 1 1 128 2 (entry 17 .doorOff 128 .cs none) (atWork .quench .quenching) &&
      meetsPermit 1 2 1 2 (entry 17 .doorOn 1 .cs none) (atWork .quench .quenching) &&
      meetsPermit 0 3 128 1 (entry 16 .reseat 128 .ps none) (atWork .quench .quenching) &&
      meetsPermit 0 6 3 0 (entry 16 .level 3 .none none) (atWork .quench .quenching) &&
      meetsPermit 5 7 9 0 (entry 21 .quench 0 .none none) (atWork .quench .quenching) &&
      meetsPermit 5 8 9 0 (entry 21 .dump 0 .none none) (atWork .dump .dumping)) = true ∧
    (let s := awaiting 0 (atWork .quench .quenching)
     Awaits s (exch 0) ∧ (ovenRec s 2).phase = .pushing ∧ (ovenRec s 3).phase = .charging ∧
       (ovenRec s 128).phase = .coking ∧ (ovenRec s 1).phase = .doorsOff ∧ Side.cs.door = some .cs ∧
       Side.ps.door = some .ps ∧
       (let v := afterReply s (exch 0) (arrived (fromStation 16) Kind.done [3, 128, 1, 0, 0, 0])
        (taskOf v .ps).stage = .working ∧ (taskOf v .ps).door = some ⟨128, .ps⟩) ∧
       carOfEntry s (entry 21 .quench 0 .none none) = some 2 ∧ (carRec s 2).state = .quenching ∧
       s.qtc.timing.drain ≠ 0 ∧
       (carRec s 1).state = .receiving ∧ s.run.state = .running ∧ s.run.step = .push ∧ currentOven s = 2) ∧
    ListLaw (awaiting 0 (atWork .quench .quenching)) ∧
    (let s := awaiting 5 (atWork .dump .dumping)
     let asking := s.onQtc fun q => { q with carRequest := true }
     Awaits s (exch 5) ∧ carOfEntry s (entry 21 .dump 0 .none none) = some 2 ∧ (carRec s 2).state = .dumping ∧
       s.qtc.carRequest = false ∧ asking.qtc.carRequest = true ∧ asking.qtc.idle = []) :=
  ⟨by decide +kernel, ⟨awaits_awaiting _ _ (by decide), by decide +kernel⟩,
    ⟨by decide +kernel, by decide +kernel, fun _ _ => nofun, fun _ hc => by rcases hc with rfl | rfl <;> decide +kernel⟩,
    ⟨awaits_awaiting _ _ (by decide), by decide +kernel⟩⟩

/-- A run RUNNING in a step on oven 1, whose door machine on the coke side has its only permit, for that door, with the
CGM's guide locked at the oven; the door on the other side in a state given. -/
def atDoors (step : RunStep) (k : PermitKind) (other : DoorState) : State :=
  let s := setDoorRec ⟨1, .ps⟩ { state := other } (running step 100000 plant)
  let s := setAlignment 1 { oven := 1 } (setStation 1 { state := .active, status := 1 } s)
  s.onIlk fun i => { i with permits := [entry 17 k 1 .cs none] }

theorem test_meets_DonesTakeTheirEffect_door :
    ([DoorState.removed, .unsealed].all fun other =>
      let o := awaiting 1 (atDoors .opening .doorOff other)
      let c := awaiting 1 (atDoors .close .doorOn other)
      meetsPermit 1 1 1 2 (entry 17 .doorOff 1 .cs none) o && meetsPermit 1 2 1 2 (entry 17 .doorOn 1 .cs none) c &&
        decide (currentOven o = 1 ∧ o.run.step = .opening ∧ c.run.step = .close ∧ (doorRec o ⟨1, .ps⟩).state = other) &&
        guideLockedAt o 1 && decide (o.ilk.permits.Pairwise (compatible · ·))) = true ∧
    (let w (f : State → State) (n : Nat) : RunState × Nat × Nat :=
       let s := f (onRun (fun r => { r with residual := n }) (atDoors .close .doorOn .unsealed))
       let r := (closeContinue (closeAccount s)).run
       (r.state, r.cursor, r.pushed)
     w id 1 = (.idle, 1, 1) ∧ w id 2 = (.running, 2, 1) ∧ w (onRun fun r => { r with holdPending := true }) 2 = (.held, 2, 1) ∧
       w (setOvenRec 1 { ramPeak := 4000 }) 2 = (.stopped, 1, 1) ∧ w (setOvenRec 2 {}) 2 = (.idle, 2, 1)) := by
  decide +kernel

/-- What an entry of those permits is for is under way, as the effects of its break or expiry ask. -/
def underWay (e : Permit) (s : State) : Bool :=
  match e.kind with
  | .push =>
    decide ((ovenRec s e.oven).phase = .pushing ∧ s.run.state = .running ∧ s.run.step = .push ∧ currentOven s = e.oven ∧
      e.car = some 1 ∧ (carRec s 1).state = .receiving)
  | .charge => decide ((ovenRec s e.oven).phase = .charging)
  | .doorOff => decide (e.oven = 128)
  | .reseat =>
    decide (doorOf e = some ⟨e.oven, .ps⟩ ∧ (taskOf s .ps).stage = .working ∧ (taskOf s .ps).door = some ⟨e.oven, .ps⟩)
  | .quench => decide (carOfEntry s e = some 2 ∧ (carRec s 2).state = .quenching)
  | .dump => decide (carOfEntry s e = some 2 ∧ (carRec s 2).state = .dumping)
  | .doorOn => true
  | .level => true

/-- The only permit is due at the present clock value. -/
def due (e : Permit) (s : State) : State := s.onIlk fun i => { i with permits := [{ e with deadline := 100000 }] }

theorem test_meets_HoldDeadlineExpiresTheFirstEntry :
    ([(PermitKind.quench, CarState.quenching), (.dump, .dumping)].all fun q =>
      (everyPermit q.1).all fun e =>
        let s := due e (atWork q.1 q.2)
        let e := { e with deadline := 100000 }
        decide ((s.ilk.permits.find? fun e => e.deadline ≤ s.now) = some e) && underWay e s &&
          (posOfAddress s e.station).isSome) = true := by
  decide +kernel

/-- A push under way on oven 2 with every hold term holding. -/
def pushHolds : State :=
  let s := setCarRec 1 { state := .receiving, assignedOven := 2 } (setOvenRec 2 { phase := .pushing } pushReady)
  permitted 100100 s

theorem test_meets_BreaksTakeTheirEffect :
    firstBroken plant plant = none ∧
    firstBroken pushHolds (setAlignment 0 {} pushHolds) = some (pushPermit 100100, 3) ∧
    (let both := pushHolds.onIlk fun i => { i with permits := [entry 21 .quench 0 .none none, pushPermit 100100] }
     firstBroken both (setAlignment 0 {} both) = some (pushPermit 100100, 3)) ∧
    (∀ e ∈ pushHolds.ilk.permits, ∀ t ∈ effectiveTerms pushHolds e.kind, isHoldTerm t = true →
      termHolds pushHolds (inputOf pushHolds e) t = true) ∧
    (let b := setAlignment 0 {} pushHolds
     (ilkSettle b pushHolds).ilk.permits = [pushPermit 100100] ∧
       inputChanged b (ilkSettle b pushHolds) (pushPermit 100100) = true) ∧
    posOfAddress (atWork .quench .quenching) 16 = some 0 ∧
    ((everyPermit .quench).all fun e => underWay e (atWork .quench .quenching)) = true ∧
    ((everyPermit .dump).all fun e => underWay e (atWork .dump .dumping)) = true ∧
    (let s := setStation 0 { state := .active, misses := 2 } (awaiting 0 (permitted 100100 plant))
     Awaits s (exch 0) ∧ endsAsMiss s (exch 0) .responseWindowExpiry = true ∧ (station s 0).state = .active ∧
       s.fpl.settings.misses ≤ (station s 0).misses + 1) :=
  ⟨by decide +kernel, by decide +kernel, by decide +kernel, by decide +kernel, by decide +kernel, by decide +kernel,
    by decide +kernel, by decide +kernel, ⟨rfl, rfl, rfl, by decide⟩, by decide +kernel⟩

theorem test_meets_AverageIsTheRoundedMean :
    0 < weightOf {} [1290] ∧ weightOf {} [] = 0 ∧ (regRec plant 128).average = none := by decide +kernel

theorem test_meets_ControlOrdersArePlaced :
    ([(0, 16), (23, 239)].all fun q =>
      let u := arrived (toStation q.2) Kind.halt [1]
      framed u && decide (q.1 < 24) && decide (posOfAddress plant u.dest.toNat = some q.1) &&
        decide (u.dest.toNat ≠ plant.mgt.address) && decide (u.dest.toNat ≠ 255)) = true ∧
    (let u (dest : Nat) := arrived (toStation dest) Kind.move (toBytes 3 5000 ++ [1, 2])
     ForStation plant 0 (u 16) ∧ (pollEntry plant 0).cls = .pm ∧ ForStation plant 3 (u 19) ∧ (pollEntry plant 3).cls = .os ∧
       ForStation plant 23 (u 239) ∧ (pollEntry plant 23).cls = .aux) ∧
    (let u (dest side : Nat) := arrived (toStation dest) Kind.task [1, 128, BitVec.ofNat 8 side]
     ForStation plant 0 (u 16 1) ∧ ForStation plant 1 (u 17 2) ∧ (pollEntry plant 1).cls = .cgm ∧
       ForStation plant 0 (u 16 2) ∧ ForStation plant 4 (u 20 1) ∧ (pollEntry plant 4).cls = .cc ∧
       configured plant 128 = true ∧ configured plant 4 = false) ∧
    (let s := running .wait 100000 plant
     (runEngaged s && isRunMachine s 0) = true ∧ runEngaged plant = false) ∧
    holdsTerm3 (permitted 100100 plant) 16 = true ∧ holdsTerm3 plant 16 = false ∧
    carAt plant 0 = none ∧ haltWaits (halted 0 plant) 0 = true ∧ haltWaits plant 0 = false := by
  unfold ForStation
  decide +kernel

/-- A MOVE to `z` for car 2 meets the hypotheses on its destination. -/
def movesCar2 (s : State) (z : Nat) : Bool :=
  let u := arrived (toStation 21) Kind.move (toBytes 3 z ++ [1, 2])
  framed u && decide (posOfAddress s u.dest.toNat = some 5) && decide (u.dest.toNat ≠ s.mgt.address) &&
    decide (carAt s 5 = some 2) && !(runEngaged s && isRunMachine s 5) && !holdsTerm3 s (pollEntry s 5).address

/-- And car 2 has its configuration, stands at `q`, and can stand at `z` on the track. -/
def fitsTrack (s : State) (q z : Nat) : Bool :=
  movesCar2 s z && decide (carConfig s 2 = some ⟨12000, 3000⟩) && decide ((carRec s 2).position = some q) &&
    decide (trackStart s + 6000 ≤ z) && decide (z + 6000 ≤ trackEnd s) && decide (s.qtc.count ≠ 0)

/-- The conflicts of a MOVE of car 2 from `q` to 24,000. -/
def conflicts24 (s : State) (q : Nat) : List Nat := conflicts s 2 (routeSegments s 6000 q 24000)

/-- Where that move is clamped. -/
def clamped24 (s : State) (q : Nat) : Option Nat :=
  clampedTarget s ⟨12000, 3000⟩ q (directionTo q 24000) (conflicts24 s q)

/-- A state in which a HALT waits for car 2, and one outside SERVICE, beside the state itself. -/
def haltedOrNot (s : State) : List State := [s, halted 5 s, s.onMgt fun m => { m with mode := .standby }]

theorem test_meets_CarMovesReserveTheirRoute :
    (movesCar2 plant 24000 && movesCar2 (setCarRec 2 {} (twoCars plant)) 24000) = true ∧ carConfig plant 2 = none ∧
    (let s := twoCars plant
     (movesCar2 s 54001 && fitsTrack s 8000 54000 && fitsTrack s 8000 6000) = true ∧ ¬ 54001 + 6000 ≤ trackEnd s ∧
       (plant.qtc.count = 0)) ∧
    (let s := setCarRec 2 { carRec (twoCars plant) 2 with state := .draining } (twoCars plant)
     fitsTrack s 8000 24000 = true ∧ (carRec s 2).state = .draining ∧
       (segmentsIn s 18000 30000).any (isTower s) = false ∧ (segmentsIn s 48000 60000).any (isTower s) = true) ∧
    (let s := setCarRec 1 {} (twoCars plant)
     ((haltedOrNot s).all fun s => fitsTrack s 8000 24000 && decide (conflicts24 s 8000 = [])) = true) ∧
    (let s := twoCars plant
     ((haltedOrNot s).all fun s =>
       fitsTrack s 8000 24000 && decide (conflicts24 s 8000 ≠ []) && decide (clamped24 s 8000 = some 11000)) = true ∧
     haltWaits s 5 = false ∧ haltWaits (halted 5 s) 5 = true) ∧
    (let s := setCarRec 2 { carRec (twoCars plant) 2 with position := some 11000 } (twoCars plant)
     fitsTrack s 11000 24000 = true ∧ conflicts24 s 11000 ≠ [] ∧ clamped24 s 11000 = none) := by
  decide +kernel

theorem test_meets_BroadcastHaltReachesEveryStation : plant.mgt.address ≠ 255 ∧ 23 < plant.fpl.length := by
  decide +kernel

theorem test_meets_OtherControlTelegramsAreSorted :
    (let u := tele 255 0 0x60 []
     framed u = true ∧ u.dest.toNat = 255 ∧ plant.mgt.address ≠ 255 ∧ kindOf u ≠ Kind.halt) ∧
    (let u := tele 200 0 0x60 []
     framed u = true ∧ u.dest.toNat ≠ 255 ∧ u.dest.toNat ≠ plant.mgt.address ∧
       posOfAddress plant u.dest.toNat = none) ∧
    (let u := tele 15 0 0x60 []
     framed u = true ∧ u.dest.toNat = plant.mgt.address ∧ kindOf u ≠ Kind.mgmt) ∧
    ([DispatchEntry.mk .pass .none false 0 1 .clockLow 0, ⟨.drop, .none, false, 0, 1, .clockLow, 0⟩,
      ⟨.absorb, .none, false, 0, 1, .clockLow, 0⟩, ⟨.absorb, .opr, false, 0, 1, .clockLow, 0⟩,
      ⟨.depositPass, .none, false, 0, 1, .mode, 0⟩, ⟨.check, .mgt, false, 0, 1, .clockLow, 0⟩].all fun e =>
      let s := dispatching e plant
      let u := tele 16 0 0x60 []
      framed u && decide (posOfAddress s u.dest.toNat = some 0) && decide (entryFor s .control u = e) &&
        !(runEngaged s && isRunMachine s 0) && !haltWaits s 0 && haltWaits (halted 0 s) 0) = true ∧
    (let s := dispatching { action := .pass } (running .wait 100000 plant)
     (entryFor s .control (tele 16 0 0x60 [])).action = .pass ∧ (runEngaged s && isRunMachine s 0) = true) ∧
    verdict plant .control .mgt 0 0x60 = .passes ∧
    verdict (permitted 100100 plant) .control .ilk 0 0x60 = .refused Reason.permitHeld ∧
    verdict plant .control .dsm 0 0x60 = .mismatch := by
  decide +kernel

/-! ## Hypotheses that are met: management requests -/

theorem test_meets_EveryRequestGetsOneAnswer :
    (∃ r, requestOf .status = some r ∧ r.size ≤ 48) ∧
    (∃ r, requestOf (.loadDispatchTable 0 0 (List.replicate 44 0#8)) = some r ∧ r.size ≤ 48) ∧
    ([0x00#8, 0x09#8, 0x17#8, 0xFF#8].all fun c => !requestCodes.contains c.toNat) = true ∧
    (requestCodes.all fun code => !argsFit code (if code = ReqCode.read then 2 else if code = ReqCode.load then 2 else 5)) =
      true ∧
    ((fullQueue plant).cpi.queue.drop 1).length < 32 ∧ (fullQueue plant).cpi.sending ≠ none ∧ plant.cpi.sending = none ∧
    ([(QueueItem.mk .copy (tele 15 17 0x23 []), true, false), (⟨.event, tele 0 15 0x43 []⟩, false, true),
      (⟨.answer, tele 0 15 0x41 []⟩, false, false)].all fun q =>
      let c := (fullQueue plant).cpi.sending
      let l := List.replicate 32 q.1
      decide (32 ≤ l.length) && c.isSome && (l.any isCopy == q.2.1) && (l.any isEvent == q.2.2)) = true :=
  ⟨⟨_, rfl, by decide⟩, ⟨_, rfl, by decide⟩, by decide, by decide, by decide +kernel, by decide +kernel, rfl, by decide +kernel⟩

theorem test_meets_ReleaseAndServiceOut :
    (configured plant 3 = true ∧ (ovenRec plant 3).phase = .pushInterrupted) ∧
    (configured plant 128 = true ∧ (ovenRec plant 128).phase ≠ .pushInterrupted) ∧
    (configured plant 2 = true ∧ (ovenRec plant 2).phase = .pushing) ∧
    (let s := setOvenRec 128 {} plant
     configured s 128 = true ∧ (ovenRec s 128).phase = .outOfService) ∧
    (configured plant 1 = true ∧ (ovenRec plant 1).phase ≠ .pushing ∧ (ovenRec plant 1).phase ≠ .charging) ∧
    ([0, 4, 129, 255].all fun n => !configured plant n) = true := by
  decide +kernel

theorem test_meets_TimeBlockOvenAndCarCommandsAct :
    (16#8).toNat ≤ 16 ∧ 16 < (17#8).toNat ∧
    (let s := setOvenRec 128 {} plant
     configured s 128 = true ∧ (ovenRec s 128).phase = .outOfService) ∧
    configured plant 128 = true ∧
    ([1, 2].all fun c => !activeAt State.reset (posOfClass State.reset .car c)) = true ∧
    (let s := (withStation 2 .lost (twoCars plant)).onQtc fun q => { q with queue := [2] }
     activeAt s (posOfClass s .car 1) = false ∧ s.qtc.holder = some 1 ∧ s.qtc.queue = [2] ∧
       (carRec s 1).state ≠ .loaded) := by
  decide +kernel

theorem test_meets_ReadingRequestsAnswerWithData :
    (readTable (clearSense (controlAccepted plant)) 16 1 1).isSome = true ∧
    readTable (clearSense (controlAccepted plant)) 16 0 1 = none ∧
    readTable (clearSense (controlAccepted plant)) 6 1 1 = none ∧
    badStretch (running .wait 100000 plant) 1 2 = false ∧
    ([(0, 1), (1, 3), (3, 1)].all fun q => badStretch (running .wait 100000 plant) q.1 q.2) = true := by
  decide +kernel

/-- A part that meets every check of Table 10-4. -/
def fit : State :=
  { plant with
    ovt := { plant.ovt with config := plant.ovt.config.set 127 none }
    qtc :=
      { plant.qtc with
        segments :=
          (((Vector.replicate 32 {}).set 0 ⟨0, 20000, .battery, 0⟩).set 1 ⟨20000, 40000, .tower, 30000⟩).set 2
            ⟨40000, 60000, .wharf, 0⟩
        count := 3 }
    mgt := { plant.mgt with mode := .standby } }

theorem test_meets_ModesAndRestarts :
    (fit.mgt.mode ≠ .service ∧ failedCheck fit = none) ∧
    (State.reset.mgt.mode ≠ .service ∧ failedCheck State.reset = some (1, 4, 0)) ∧
    (runEngaged plant = false ∧ plant.ilk.permits = []) ∧
    (plant.mgt.mode = .service ∧ runEngaged (running .wait 100000 plant) = true ∧
      (permitted 100100 plant).ilk.permits ≠ []) ∧
    haltWaits (halted 5 (permitted 100100 plant)) 5 = true ∧
    (pollEntry plant 0).cls.isMachine = true ∧ (pollEntry plant 5).cls.isMachine = true := by
  decide +kernel

/-- A run HELD in a step, with its planned instant, its car and its current oven's record. -/
def heldIn (step : RunStep) (planned : Int) (car : Option Nat) (r : OvenRecord) (s : State) : State :=
  onRun (fun q => { q with state := .held, car := car }) (setOvenRec 1 r (running step planned s))

/-- Past the lead instant, past the greatest lateness, and past the ready instant of the current oven. -/
def instants (s : State) : Bool × Bool × Bool :=
  (decide (s.run.planned - s.sch.timing.lead ≤ s.now), decide (s.run.planned + s.sch.timing.maxLateness ≤ s.now),
    decide (readyInstant s (currentOven s) ≤ s.now))

/-- The current oven is neither skipped nor interrupted. -/
def stays (s : State) : Bool := !skippedPhase (currentPhase s) && decide (currentPhase s ≠ .pushInterrupted)

/-- Charged so that the ready instant is `d` seconds after clock 100,000. -/
def readyIn (d : Int) : OvenRecord := { phase := .coking, stamp := 37000 + d }

theorem test_meets_RunCommandsMoveTheRun :
    (let s := onRun (fun r => { r with state := .idle }) (running .wait 100000 plant)
     s.mgt.mode = .service ∧ runEngaged s = false ∧ badStretch s 1 2 = false ∧ badStretch s 1 3 = true ∧
       workable (ovenRec s (seriesEntry s 1).oven).phase = true) ∧
    ([Phase.outOfService, .empty, .charging, .pushing, .pushInterrupted].all fun ph =>
      let s := setOvenRec 1 { phase := ph } (onRun (fun r => { r with state := .idle }) (running .wait 100000 plant))
      let t := takeUp (running .wait 100000 s)
      !runEngaged s && !badStretch s 1 2 && decide ((ovenRec s (seriesEntry s 1).oven).phase = ph) &&
        decide ((t.run.state, t.run.skipped) =
          if skippedPhase ph then (.running, 1) else if ph = .pushing then (.running, 0) else (.stopped, 0))) = true ∧
    fit.mgt.mode ≠ .service ∧
    ([RunStep.wait, .position, .opening, .push, .close].all fun step => runEngaged (running step 100000 plant)) = true ∧
    (let s := heldIn .wait 100500 none (readyIn 0) plant
     s.run.state = .held ∧ s.run.step = .wait ∧ workable (currentPhase s) = true ∧
       s.now < s.run.planned - s.sch.timing.lead ∧ s.now < s.run.planned + s.sch.timing.maxLateness) ∧
    (let s := running .push 100000 plant
     s.run.state = .running ∧ s.run.holdPending = false ∧
       (onRun (fun r => { r with holdPending := true }) s).run.holdPending = true) ∧
    skippedPhase (currentPhase (heldIn .wait 100500 none {} plant)) = true ∧
    currentPhase (heldIn .wait 100500 none { phase := .pushInterrupted } plant) = .pushInterrupted ∧
    (let s := heldIn .wait 100000 none (readyIn 0) plant
     stays s = true ∧ instants s = (true, false, true) ∧ s.run.car = none ∧ s.qtc.idle = []) ∧
    (let s := heldIn .wait 99400 none (readyIn 0) plant
     stays s = true ∧ instants s = (true, true, true) ∧ s.run.car = none ∧ s.qtc.idle = []) ∧
    (let s := heldIn .wait 100000 none (readyIn 0) (twoCars plant)
     stays s = true ∧ instants s = (true, false, true) ∧ s.run.car = none ∧ s.qtc.idle = 1 :: [2]) ∧
    (let s := heldIn .wait 100000 (some 1) (readyIn 120) plant
     workable (currentPhase s) = true ∧ instants s = (true, false, false) ∧
       readyInstant s (currentOven s) ≤ s.now + s.sch.timing.lead) ∧
    (let s := heldIn .wait 99400 (some 1) (readyIn 120) plant
     workable (currentPhase s) = true ∧ instants s = (true, true, false) ∧
       readyInstant s (currentOven s) ≤ s.now + s.sch.timing.lead) ∧
    (let s := heldIn .wait 99400 (some 1) (readyIn 121) plant
     stays s = true ∧ instants s = (true, true, false) ∧
       s.now + s.sch.timing.lead < readyInstant s (currentOven s)) ∧
    (let s := heldIn .position 100000 (some 1) (readyIn 0) plant
     s.run.state = .held ∧ s.run.step = .position ∧ allInPlace s = false ∧ instants s = (true, false, true)) ∧
    (let s := setAlignment 0 { oven := 1 } (setAlignment 1 { oven := 1 } (setAlignment 2 { receiving := [1] }
       (heldIn .position 100000 (some 1) (readyIn 0) plant)))
     allInPlace s = true ∧ instants s = (true, false, true)) ∧
    (let s := heldIn .position 99400 none (readyIn 1) plant
     allInPlace s = false ∧ instants s = (true, true, false)) ∧
    runEngaged plant = false := by
  refine ⟨?_, ?_, ?_, ?_, ?_, ?_, ?_, ?_, ?_, ?_, ?_, ?_, ?_, ?_, ?_, ?_, ?_, ?_⟩ <;> decide +kernel

/-! ## Hypotheses that are met: loads -/

/-- The bytes of an entry, from its fields with their widths. -/
def ent (fields : List (Nat × Nat)) : List Byte := fields.flatMap fun f => toBytes f.1 f.2

theorem test_meets_GuardedLoadsWriteTheirTables :
    (guardedLoad (.loadPollList 1 1 []) = true ∧ plant.mgt.mode = .service) ∧ fit.mgt.mode ≠ .service ∧
    (let es := ent [(1, 0), (1, 0), (1, 1), (1, 47), (1, 2), (1, 3), (2, 7)]
     es.length = 1 * 8 ∧ 255 + 1 ≤ 256 ∧ (parseAll parseDispatch (rows 8 1 es)).isSome = true) ∧
    (let es := ent [(1, 31), (1, 8), (1, 255)]
     es.length = 1 * 3 ∧ 1 + 1 ≤ 2 ∧ (parseAll parseSelector (rows 3 1 es)).isSome = true) ∧
    (let es := ent [(1, 2), (2, 2000), (1, 64), (1, 8), (1, 8)]
     es.length = 6 ∧ (parseLine es).isSome = true) ∧
    (let es := ent [(1, 239), (1, 5), (1, 8)]
     es.length = 1 * 3 ∧ 24 + 1 ≤ 25 ∧ 24 ≤ fit.fpl.length + 1 ∧
       parseAll parsePoll (rows 3 1 es) = some [⟨239, .aux, 8⟩] ∧
       distinctStations ((writeFrom fit.fpl.list 23 [⟨239, .aux, 8⟩]).toList.take 24) = true ∧
       distinctStations ((writeFrom State.reset.fpl.list 0 [⟨239, .aux, 8⟩]).toList.take 1) = true) ∧
    (25 ≤ fit.fpl.length + 1 ∧ distinctStations (fit.fpl.list.toList.take fit.fpl.length) = true) ∧
    (33 ≤ (plant.onQtc fun q => { q with count := 32 }).qtc.count + 1 ∧ 4 ≤ fit.qtc.count + 1 ∧ 1 ≤ fit.qtc.count + 1) ∧
    (let new := parseOven (ent [(3, 62900), (1, 0), (2, 900), (1, 16), (1, 7)])
     (new.map fun c => (c.inService, c.target)) = some (false, 900) ∧ ovenConfig fit 128 = none ∧
       (ovenConfig fit 1).map (fun o => (o.inService, o.target)) = some (true, 1080) ∧ (ovenRec fit 1).phase = .coking) ∧
    (let es := ent [(3, 62900), (1, 1), (2, 1080), (1, 16), (1, 7)]
     es.length = 1 * 8 ∧ 128 + 1 ≤ 129 ∧ (parseAll parseOven (rows 8 1 es)).isSome = true) ∧
    (let es := ent [(1, 1), (2, 60)]
     es.length = 1 * 3 ∧ configured fit 3 = true ∧ (ovenRec fit 3).phase ≠ .pushing ∧ (ovenRec fit 3).phase ≠ .charging ∧
       (parseAll parseOvenState (rows 3 1 es)).isSome = true) ∧
    (let es := ent [(2, 0), (2, 1800)]
     es.length = 1 * 4 ∧ 8 + 1 ≤ 9 ∧
       (((rows 4 1 es).zipIdx).map fun r => parsePermit (addableFrom 8 r.2) r.1).all Option.isSome = true) ∧
    (let es := ent [(3, 0), (3, 20000), (1, 0), (3, 0)]
     es.length = 1 * 10 ∧ 4 ≤ fit.qtc.count + 1 ∧ 32 + 1 ≤ 33 ∧ (parseAll parseSegment (rows 10 1 es)).isSome = true) ∧
    (let es := ent [(2, 40000), (2, 20000)]
     es.length = 1 * 4 ∧ 2 + 1 ≤ 3 ∧ (parseAll parseCar (rows 4 1 es)).isSome = true) := by
  decide +kernel

theorem test_meets_LiveLoadsWriteTheirTables :
    (let es := ent [(1, 120), (1, 240), (1, 30), (1, 100), (1, 5), (1, 5), (1, 5), (2, 8000), (2, 8000)]
     es.length = 11 ∧ (parseTiming es).isSome = true ∧
       (∀ x ∈ tolerances ((parseTiming es).getD {}), fitsPitch plant x.2 = true)) ∧
    (let es := ent [(1, 128), (2, 3600)]
     es.length = 1 * 3 ∧ runEngaged plant = false ∧ 1 ≤ plant.sch.length + 1 ∧ 128 + 1 ≤ 129 ∧
       parseAll parseSeries (rows 3 1 es) = some [⟨128, 3600⟩] ∧ configured plant 128 = true ∧
       noRepeat (((writeFrom plant.sch.series 0 [⟨128, 3600⟩]).toList.take 1).map SeriesEntry.oven) = true) ∧
    (let es := ent [(2, 900), (2, 30), (2, 900), (2, 30), (2, 900), (2, 3600), (2, 4000), (2, 4000), (1, 60)]
     es.length = 17 ∧ (parseStep es).isSome = true) ∧
    (let es := ent [(2, 300), (2, 300), (2, 900)]
     es.length = 6 ∧ (parseTrack es).isSome = true) ∧
    (let es := ent [(1, 255), (1, 255), (1, 3), (1, 60), (2, 900), (2, 900)]
     es.length = 8 ∧ (parseSeal es).isSome = true) ∧
    (let es := ent [(2, 65535), (2, 1000), (2, 1000), (1, 1)]
     es.length = 1 * 7 ∧ 4 + 1 ≤ 5 ∧ (parseAll parseMode (rows 7 1 es)).isSome = true) ∧
    (let es := ent [(1, 0), (1, 0), (1, 0), (1, 15), (2, 1000), (2, 2000), (1, 100), (2, 8000), (1, 15), (1, 15), (2, 500),
      (1, 20), (1, 200)]
     es.length = 17 ∧ (parseReg es).isSome = true ∧ (weights ((parseReg es).getD {})).any (· ≠ 0) = true) ∧
    (ent [(3, 16777215)]).length = 3 := by
  decide +kernel

/-! ## Worked examples of the spec -/

/-- Section 1.9: the instants of oven 37, charged at clock 86,400 with a target of 1080 minutes. -/
theorem test_example_1_9_instants :
    let s := setOvenRec 1 { phase := .coking, stamp := 86400 } plant
    chargeHoldEnd s 1 = 87000 ∧ lateInstant s 1 = 147600 ∧ readyInstant s 1 = 149400 ∧ dueInstant s 1 = 151200 := by
  decide +kernel

/-- Section 1.10: OVEN SERVICE in at clock 200,000 with 1060 elapsed minutes makes the oven READY, with 1040 COKING. -/
theorem test_example_1_10_return :
    let s := setOvenRec 1 {} (plant.onOvt fun o => { o with clock := 200000 })
    let after (m : Nat) := (ovenServiceIn 1 m s).state
    ovenRec (after 1060) 1 = { phase := .ready, stamp := 136400 } ∧
      ovenRec (after 1040) 1 = { phase := .coking, stamp := 137600 } := by
  decide +kernel

/-- Section 6.9: the averages of oven 37's first four samples. -/
theorem test_example_6_9_averages :
    averageOf {} [1290] none = some 1290 ∧ averageOf {} [1310, 1290] none = some 1303 ∧
      averageOf {} [1270, 1310, 1290] none = some 1284 ∧ averageOf {} [1330, 1270, 1310, 1290] none = some 1308 := by
  decide +kernel

/-- R117: a mean of -7.5 goes to -7. -/
theorem test_example_r117_half : averageOf { w0 := 1, w1 := 1 } [-7, -8] none = some (-7) := by decide +kernel

/-- Section 6.9, row 2: an error of 103 steps the valve from 500 to 505. -/
theorem test_example_6_9_step :
    let s := setRegRec 1 { mode := .coking, window := [1310, 1290], average := some 1303, valve := 500 } plant
    (regRec (oprUpdate 1 s) 1).valve = 505 ∧ (regRec (oprUpdate 1 s) 1).correcting = true := by
  decide +kernel

/-- Section 6.10: a step from 848 is clamped to 850, and an update at the bound counts 1. -/
theorem test_example_6_10_bound :
    let at' (v : Nat) := setRegRec 1 { mode := .coking, average := some 1350, valve := v, correcting := true } plant
    (regRec (oprUpdate 1 (at' 848)) 1).valve = 850 ∧ (regRec (oprUpdate 1 (at' 848)) 1).limitCount = 0 ∧
      (regRec (oprUpdate 1 (at' 850)) 1).limitCount = 1 := by
  decide +kernel

/-- Section 7.7: what a full queue of 3 copies, 25 EVENTs and 4 ANSWERs does with new items. -/
theorem test_example_7_7_queue :
    let ev : QueueItem := ⟨.event, tele 0 15 0x43 [1]⟩
    let an : QueueItem := ⟨.answer, tele 0 15 0x41 [2]⟩
    let car : QueueItem := ⟨.copy, tele 15 18 0x20 [1, 0, 0, 0, 0]⟩
    let door : QueueItem := ⟨.copy, tele 15 17 0x23 [1, 2, 3]⟩
    let pm (n : Nat) : QueueItem := ⟨.copy, tele 15 16 0x20 [BitVec.ofNat 8 n, 0, 0, 0, 0]⟩
    let tail := List.replicate 25 ev ++ List.replicate 4 an
    queueAfter ([car, door, pm 1] ++ tail) (pm 2) = [car, door] ++ tail ++ [pm 2] ∧
      queueAfter ([car, door] ++ tail ++ [pm 2]) ev = [door] ++ tail ++ [pm 2, ev] ∧
      queueAfter (tail ++ [ev, an, ev]) ev = tail ++ [ev, an, ev] ∧
      queueAfter (tail ++ [ev, an, ev]) an = tail.drop 1 ++ [ev, an, ev, an] ∧
      queueAfter (tail ++ [ev, an, ev]) car = tail ++ [ev, an, ev] := by
  decide +kernel

/-- Section 8.7.1: the header word and the entry of a PM's POSITION. -/
theorem test_example_8_7_1_selection :
    let t := tele 3 20 0x20 [0, 0, 0, 0, 0]
    headerWord t = 51650565 ∧ selected ⟨8, 7, 128⟩ (headerWord t) = 32 ∧ entryIndex plant .field t = 160 ∧
      entryIndex (plant.onCls fun c => { c with field := ⟨30, 4, 128⟩ }) .field t = 128 := by
  decide +kernel

/-- Section 8.7.4: the deposit of the clock's low half at clock 201,990. -/
theorem test_example_8_7_4_deposit :
    let s := plant.onOvt fun o => { o with clock := 201990 }
    let e : DispatchEntry := ⟨.depositPass, .none, false, 2, 2, .clockLow, 0⟩
    let t := tele 3 50 0x61 [1, 2, 3, 4]
    deposited s e 50 t = tele 3 50 0x61 [1, 2, 0x15, 0x06] ∧ deposited s { e with offset := 3 } 50 t = t := by
  decide +kernel

/-- Section 10.6: the validity flags of STATUS with all but OVENSTATE set read 479. -/
theorem test_example_10_6_validity : maskBytes 2 (validityItems plant.mgt.validity) = [1, 0xDF] := by decide +kernel

/-- Section 4.10, clock 300,010: car 1's MOVE behind car 2 is clamped to 91,000. -/
theorem test_example_4_10_clamp :
    let seg (k : Nat) : Segment := ⟨(k - 1) * 20000, k * 20000, .battery, 0⟩
    let s := plant.onQtc fun q =>
      { q with
        segments := Vector.ofFn fun k => seg (k.val + 1)
        count := 12
        config := #v[some ⟨12000, 3000⟩, some ⟨12000, 3000⟩]
        cars :=
          #v[{ state := .idle, position := some 70000, occupied := [4], reserved := [4] },
            { state := .loaded, position := some 107900, occupied := [6], reserved := [6] }] }
    routeSegments s 6000 70000 130000 = [4, 5, 6, 7] ∧
      clampedTarget s ⟨12000, 3000⟩ 70000 (directionTo 70000 130000) (conflicts s 1 [4, 5, 6, 7]) = some 91000 ∧
      clampedTarget s ⟨12000, 3000⟩ 91000 (directionTo 91000 150000) [6] = none := by
  decide +kernel

end Sys2Proof.Tests
end

section
/-!
SUPPORT. The frame of every command, from the lemmas of Laws about its meaning, and what follows of the laws and the
clock.
-/

set_option Elab.async false
namespace Sys2Proof.Machine

open Sys2Proof Sys2Proof.Laws.Footprint

/-- An outcome's only next state. -/
theorem next_touches {l : List Aspect} {s u t : State}
    (h : (Host.Outcome.next u : Host.Outcome State Fault Refusal) = .next t) (k : Touches l s u) : Touches l s t := by
  obtain rfl := Host.Outcome.next.inj h
  exact k

/-- The LOAD of a table touches what its rule does and what every request does. -/
theorem loadArrival_touches {l : List Aspect} {rule : LoadArgs → State → Reply} (f n : Byte) (es : List Byte)
    (s : State)
    (h : ∀ a s, Touches l s (rule a s).state) : Touches (l ++ mgmtAspects) s (loadArrival rule f n es s) :=
  mgmtArrival_touches _ _ s (h _)

/-- A reply on the field line touches what a reply of its kind may. -/
theorem arrivedReply_touches (k : Nat) (hk : k < 128) (h : Header) (b : List Byte) (s : State) :
    Touches (replyAspects k) s (fieldArrival (arrived h k b) s) := by
  have t := fieldArrival_touches (arrived h k b) s
  rwa [kindOf_arrived k hk h b] at t

/-- A telegram on the control port that is no MGMT touches what an order may. -/
theorem arrivedOrder_touches (k : Nat) (hk : k < 128) (hm : k ≠ Kind.mgmt) (h : Header) (b : List Byte) (s : State) :
    Touches controlAspects s (controlArrival (arrived h k b) s) := by
  have t := controlArrival_touches (arrived h k b) s
  rwa [kindOf_arrived k hk h b, telegramAspects, if_neg hm] at t

/-- Every command leaves untouched what its footprint does not name. -/
theorem exec_touches {c : Instr} {s t : State} (h : exec c s = .next t) : Touches (footprint c) s t := by
  cases c with
  | powerOnReset straps => exact next_touches h (powerOn_touches straps s)
  | clockAdvance => exact next_touches h (advance_touches s)
  | readyInstantReached n => exact next_touches h (settled_touches (readyActs_touches n s).mono)
  | chargeHoldEndReached n => exact next_touches h (holdEndActs_touches n s)
  | lateInstantReached n => exact next_touches h (lateActs_touches n s)
  | holdDeadlineReached => exact next_touches h (expireFirst_touches s)
  | stepDeadlineReached => exact next_touches h (settled_touches (stepTimeout_touches s).mono)
  | leadInstantReached => exact next_touches h (settled_touches (leadInstant_touches s).mono)
  | maximumLatenessTest => exact next_touches h (latenessOnce_touches s)
  | drainDeadlineReached n => exact next_touches h (drainActs_touches n s)
  | hotLimitReached n => exact next_touches h (carHot_touches n s)
  | sealDeadlineReached n side => exact next_touches h (sealOverdue_touches ⟨n, side⟩ s)
  | taskDeadlineReached side => exact next_touches h (taskLapses_touches side s)
  | cpSilence => exact next_touches h (silenceActs_touches s)
  | roundTimerExpiry => exact next_touches h (roundTimer_touches s)
  | pollFormed => exact next_touches h (pollTurn_touches s)
  | pollSent => exact next_touches h (pollSent_touches s)
  | responseWindowExpiry => exact next_touches h (responseExpiry_touches s)
  | gapWindowExpiry port => exact next_touches h (gapExpiry_touches port s)
  | framingDiscard port line => exact next_touches h (framingDiscard_touches port line s)
  | controlTransmitDone => exact next_touches h (transmitDone_touches s)
  | foreignReply u => exact next_touches h (fieldArrival_touches u s)
  | position hd pos moving status => exact next_touches h (arrivedReply_touches _ (by decide) hd _ s)
  | request hd kind oven side => exact next_touches h (arrivedReply_touches _ (by decide) hd _ s)
  | done hd kind oven side result m => exact next_touches h (arrivedReply_touches _ (by decide) hd _ s)
  | sealReport hd oven side leak => exact next_touches h (arrivedReply_touches _ (by decide) hd _ s)
  | sample hd first validity ps fs => exact next_touches h (arrivedReply_touches _ (by decide) hd _ s)
  | ready hd selfCheck claimed => exact next_touches h (arrivedReply_touches _ (by decide) hd _ s)
  | fieldOtherKind u => exact next_touches h (fieldArrival_touches u s)
  | controlMove hd target speed oven => exact next_touches h (arrivedOrder_touches _ (by decide) (by decide) hd _ s)
  | controlHalt hd reason => exact next_touches h (arrivedOrder_touches _ (by decide) (by decide) hd _ s)
  | controlTask hd task oven side => exact next_touches h (arrivedOrder_touches _ (by decide) (by decide) hd _ s)
  | broadcastHalt source marked reason => exact next_touches h (arrivedOrder_touches _ (by decide) (by decide) _ _ s)
  | broadcastOtherKind u => exact next_touches h (controlArrival_touches u s)
  | unknownStationTelegram u => exact next_touches h (controlArrival_touches u s)
  | controlOtherKind u => exact next_touches h (controlArrival_touches u s)
  | ownAddressNonMgmt u => exact next_touches h (controlArrival_touches u s)
  | mgmtUnknownRequest body => exact next_touches h (mgmtBody_touches body s)
  | loadDispatchTable f n es => exact next_touches h ((loadArrival_touches f n es s loadDispatch_touches).mono rfl)
  | loadSelectorParameters f n es =>
    exact next_touches h ((loadArrival_touches f n es s loadSelectors_touches).mono rfl)
  | loadFieldLineSettings f n es => exact next_touches h ((loadArrival_touches f n es s loadLine_touches).mono rfl)
  | loadPollList f n es => exact next_touches h (loadArrival_touches f n es s loadPoll_touches)
  | loadOvenConfiguration f n es => exact next_touches h ((loadArrival_touches f n es s loadOvens_touches).mono rfl)
  | loadOvenstate f n es => exact next_touches h (loadArrival_touches f n es s loadOvenState_touches)
  | loadPermitTable f n es => exact next_touches h ((loadArrival_touches f n es s loadPermits_touches).mono rfl)
  | loadSegmentTable f n es => exact next_touches h ((loadArrival_touches f n es s loadSegments_touches).mono rfl)
  | loadCarConfiguration f n es => exact next_touches h ((loadArrival_touches f n es s loadCars_touches).mono rfl)
  | loadTimingTable f n es => exact next_touches h ((loadArrival_touches f n es s loadTiming_touches).mono rfl)
  | loadSeriesTable f n es => exact next_touches h ((loadArrival_touches f n es s loadSeries_touches).mono rfl)
  | loadStepTimingTable f n es => exact next_touches h ((loadArrival_touches f n es s loadStepTiming_touches).mono rfl)
  | loadTrackTimingTable f n es =>
    exact next_touches h ((loadArrival_touches f n es s loadTrackTiming_touches).mono rfl)
  | loadSealConfiguration f n es =>
    exact next_touches h ((loadArrival_touches f n es s loadSealConfig_touches).mono rfl)
  | loadPressureModeTable f n es => exact next_touches h ((loadArrival_touches f n es s loadModes_touches).mono rfl)
  | loadRegulatorConfiguration f n es =>
    exact next_touches h ((loadArrival_touches f n es s loadRegulator_touches).mono rfl)
  | loadEventEnableMask f n es => exact next_touches h ((loadArrival_touches f n es s loadMask_touches).mono rfl)
  | read table f n => exact next_touches h ((mgmtArrival_touches _ _ s (readRequest_touches _ _ _)).mono rfl)
  | status => exact next_touches h ((mgmtArrival_touches _ _ s statusRequest_touches).mono rfl)
  | enterService => exact next_touches h ((mgmtArrival_touches _ _ s enterService_touches).mono rfl)
  | enterMaintenance => exact next_touches h ((mgmtArrival_touches _ _ s enterMaintenance_touches).mono rfl)
  | restart => exact next_touches h (mgmtArrival_touches _ _ s restartRequest_touches)
  | fieldRestart => exact next_touches h (mgmtArrival_touches _ _ s fieldRestartRequest_touches)
  | setTime wall => exact next_touches h ((mgmtArrival_touches _ _ s (setTime_touches _)).mono rfl)
  | run start count => exact next_touches h ((mgmtArrival_touches _ _ s (runRequest_touches _ _)).mono rfl)
  | hold => exact next_touches h ((mgmtArrival_touches _ _ s holdRequest_touches).mono rfl)
  | resume => exact next_touches h (mgmtArrival_touches _ _ s resumeRequest_touches)
  | abort => exact next_touches h (mgmtArrival_touches _ _ s abortRequest_touches)
  | sense => exact next_touches h ((mgmtArrival_touches _ _ s senseRequest_touches).mono rfl)
  | verify start count => exact next_touches h ((mgmtArrival_touches _ _ s (verifyRequest_touches _ _)).mono rfl)
  | setBlock size => exact next_touches h ((mgmtArrival_touches _ _ s (setBlock_touches _)).mono rfl)
  | ovenServiceOut n elapsed => exact next_touches h (mgmtArrival_touches _ _ s (ovenServiceOut_touches _))
  | ovenServiceIn n elapsed => exact next_touches h (mgmtArrival_touches _ _ s (ovenServiceIn_touches _ _))
  | releaseOven n => exact next_touches h (mgmtArrival_touches _ _ s (releaseOven_touches _))
  | freeze n => exact next_touches h ((mgmtArrival_touches _ _ s (freezeOvens_touches _ _)).mono rfl)
  | unfreeze n => exact next_touches h ((mgmtArrival_touches _ _ s (freezeOvens_touches _ _)).mono rfl)
  | clearCar c => exact next_touches h (mgmtArrival_touches _ _ s (clearCarRequest_touches _))
  | preambleStartsAssembly port => exact next_touches h (preamble_touches port s)

/-- No footprint names the queue of commands or one of the laws of `unnamed`. -/
theorem footprint_clear (c : Instr) : Statement c := by
  cases c
  case foreignReply u => exact Laws.Footprint.foreignReply u
  case fieldOtherKind u => exact Laws.Footprint.fieldOtherKind u
  case broadcastOtherKind u => exact Laws.Footprint.broadcastOtherKind u
  case unknownStationTelegram u => exact Laws.Footprint.unknownStationTelegram u
  case controlOtherKind u => exact Laws.Footprint.controlOtherKind u
  case ownAddressNonMgmt u => exact Laws.Footprint.ownAddressNonMgmt u
  case gapWindowExpiry port => exact Laws.Footprint.gapWindowExpiry port
  case framingDiscard port line => exact Laws.Footprint.framingDiscard port line
  case preambleStartsAssembly port => exact Laws.Footprint.preambleStartsAssembly port
  all_goals rfl

/-- A law that no footprint names, and that does not read the queue of commands, is kept by every step. -/
theorem step_keeps {P : State → Prop} (a : Aspect) (ha : ∀ s t, a.same s t ↔ (P s → P t))
    (hu : a ∈ unnamed) (hp : ∀ (s : State) (l : List Instr), P s → P { s with pending := l })
    {s t : State} (h : step s = .next t) (hs : P s) : P t := by
  unfold step at h
  split at h
  · obtain rfl := Host.Outcome.next.inj h
    exact hs
  · next c rest _ => exact (ha _ _).mp (exec_touches h a (not_mem_of_clear (footprint_clear c) hu)) (hp s rest hs)

theorem not_mem_of_contains {a : Aspect} {l : List Aspect} (h : l.contains a = false) : a ∉ l := by simpa using h

/-- Of the commands only a power-on reset and a clock advance write the clock. -/
theorem clock_not_mem_footprint {c : Instr} (h1 : ∀ straps, c ≠ .powerOnReset straps) (h2 : c ≠ .clockAdvance) :
    Aspect.clock ∉ footprint c := by
  cases c
  case powerOnReset straps => exact absurd rfl (h1 straps)
  case clockAdvance => exact absurd rfl h2
  case foreignReply u => exact not_mem_replyAspects _ rfl _
  case fieldOtherKind u => exact not_mem_replyAspects _ rfl _
  case broadcastOtherKind u => exact not_mem_telegramAspects _ rfl _
  case unknownStationTelegram u => exact not_mem_telegramAspects _ rfl _
  case controlOtherKind u => exact not_mem_telegramAspects _ rfl _
  case ownAddressNonMgmt u => exact not_mem_telegramAspects _ rfl _
  case gapWindowExpiry port => cases port <;> exact not_mem_of_contains rfl
  case framingDiscard port line => cases port <;> exact not_mem_of_contains rfl
  case preambleStartsAssembly port => cases port <;> exact not_mem_of_contains rfl
  all_goals exact not_mem_of_contains rfl

/-- The clock runs back at a power-on reset alone (R4). -/
theorem exec_now_le {c : Instr} {s t : State} (h : exec c s = .next t) (hc : ∀ straps, c ≠ .powerOnReset straps) :
    s.now ≤ t.now := by
  by_cases ha : c = .clockAdvance
  · subst ha
    have e : advance s = t := Host.Outcome.next.inj h
    unfold State.now
    rw [← e, advance_clock]
    split <;> omega
  · exact Int.le_of_eq ((exec_touches h).now_kept (clock_not_mem_footprint hc ha)).symm

end Sys2Proof.Machine

open Sys2Proof Sys2Proof.Machine

/-- Settles O5: no footprint names the law of the stamps, and only a clock advance, forwards, and a power-on reset write the
clock. -/
theorem stampsNeverLieAfterTheClock : Obligations.StampsNeverLieAfterTheClock :=
  ⟨fun _ _ h hs => step_keeps .stampLaw (fun _ _ => Iff.rfl) (by decide) (fun _ _ => id) h hs,
    fun _ _ _ h hc => exec_now_le h hc⟩
end

section
/-!
SUPPORT. The records of the state right after reset, and the ten laws there.
-/

set_option Elab.async false
namespace Sys2Proof.Machine

open Sys2Proof

/-! ## Records at reset -/

@[simp] theorem ovenRec_reset (n : Nat) : ovenRec State.reset n = {} := readNum_replicate _ _
@[simp] theorem regRec_reset (n : Nat) : regRec State.reset n = {} := readNum_replicate _ _
@[simp] theorem carRec_reset (c : Nat) : carRec State.reset c = {} := readNum_replicate _ _

@[simp] theorem doorRec_reset (d : Door) : doorRec State.reset d = {} := by
  have h : doorPair State.reset d.oven = {} := readNum_replicate _ _
  unfold doorRec
  rw [h]
  cases d.side <;> rfl

@[simp] theorem countAt_reset (i : Nat) : countAt State.reset i = 0 := readAt_replicate _ _

/-! ## Laws at reset -/

theorem stampLaw_reset : StampLaw State.reset := by
  intro n _ _
  rw [ovenRec_reset]
  decide

theorem valveLaw_reset : ValveLaw State.reset := by
  refine ⟨fun m => by cases m <;> decide, fun n _ _ => ?_⟩
  unfold ValveFits
  rw [regRec_reset]
  decide

theorem permitLaw_reset : PermitLaw State.reset := ⟨fun _ => rfl, Nat.zero_le _, .nil⟩

theorem queueLaw_reset : QueueLaw State.reset := ⟨Nat.zero_le _, .nil⟩

theorem runLaw_reset : RunLaw State.reset := ⟨rfl, nofun⟩

theorem trackLaw_reset : TrackLaw State.reset := by
  refine ⟨fun c p h => ?_, fun k h => ?_, fun c k h => ?_⟩
  · rw [carRec_reset] at h
    exact nomatch h
  · rw [carRec_reset] at h
    exact nomatch h
  · rw [carRec_reset] at h
    exact nomatch h

theorem listLaw_reset : ListLaw State.reset := by
  refine ⟨.nil, .nil, nofun, fun c _ => ?_⟩
  rw [carRec_reset]
  exact ⟨nofun, nofun⟩

theorem countLaw_reset : CountLaw State.reset := fun i =>
  Nat.le_trans (Nat.le_of_eq (countAt_reset i)) (Nat.zero_le _)

theorem leakLaw_reset : LeakLaw State.reset := by
  refine ⟨Nat.zero_le _, .nil, .nil, nofun, fun d _ => ?_, fun d _ => ?_, fun _ d _ h => ?_⟩
  · rw [doorRec_reset]
    exact ⟨nofun, nofun⟩
  · rw [doorRec_reset]
    exact ⟨nofun, nofun⟩
  · rw [doorRec_reset] at h
    exact nomatch h

theorem holderLaw_reset : HolderLaw State.reset :=
  ⟨fun _ => rfl, Nat.zero_le _, fun _ _ h => absurd h (Nat.not_lt_zero _), nofun, nofun⟩

end Sys2Proof.Machine

open Sys2Proof.Machine

/-- Settles O4, law by law: every list is empty, and every record holds its defaults. -/
theorem lawsHoldAtReset : Obligations.LawsHoldAtReset :=
  ⟨stampLaw_reset, valveLaw_reset, permitLaw_reset, queueLaw_reset, runLaw_reset, trackLaw_reset, listLaw_reset,
    countLaw_reset, leakLaw_reset, holderLaw_reset⟩
end

section
/-!
SUPPORT. The clock advance and the instants of an oven.
-/

set_option Elab.async false
namespace Sys2Proof.Machine

open Sys2Proof

/-- The battery clock read as `now`, and its top as a number. -/
theorem now_of_clock {s t : State}
    (h : t.ovt.clock = if s.ovt.clock < clockTop then s.ovt.clock + 1 else s.ovt.clock) :
    t.now = if s.now < 2147483647 then s.now + 1 else s.now := by
  unfold State.now
  rwa [clockTop] at h

/-- The clock after an advance (R4). -/
theorem advance_now (s : State) : (advance s).now = if s.now < 2147483647 then s.now + 1 else s.now :=
  now_of_clock (advance_clock s)

/-- After an advance no entry is left that was due, and the lateness test is to be made. -/
theorem advance_deadlines (s : State) :
    (∀ e ∈ (advance s).ilk.permits, s.now < e.deadline) ∧ (advance s).sch.latenessDue = true := by
  unfold advance
  exact tick_then_deadlines s (takeDue s) (takeDue_deadlines s)

/-- A settling leaves the record of an oven that is neither PUSHING nor CHARGING. -/
theorem ilkSettle_keeps_ovenRec {w : State} {n : Nat} (b : State) (hn : 1 ≤ n ∧ n ≤ 128)
    (h1 : (ovenRec w n).phase ≠ .pushing) (h2 : (ovenRec w n).phase ≠ .charging) :
    ovenRec (ilkSettle b w) n = ovenRec w n :=
  ilkSettle_ovenRec b n hn _ w h1 h2

theorem ovenRec_setPhaseOnly_other {n m : Nat} (h : m ≠ n) (ph : Phase) (s : State) :
    ovenRec (setPhaseOnly n ph s) m = ovenRec s m := by
  unfold setPhaseOnly
  rw [ovenRec_setPhase, if_neg fun e => h e.1.symm]

theorem regRec_setPhaseOnly {n : Nat} {ph : Phase} {s : State} (h1 : 1 ≤ n ∧ n ≤ 128) (hc : ph ≠ (ovenRec s n).phase) :
    (regRec (setPhaseOnly n ph s) n).mode = derivedMode (setPhaseOnly n ph s) n :=
  regRec_setPhase h1.1 h1.2 (.inl hc)

/-- At its ready instant an oven in COKING is given the phase READY (R8). -/
theorem readyActs_due {n : Nat} {s : State} (hc : configured s n = true) (hp : (ovenRec s n).phase = .coking)
    (hr : readyInstant s n ≤ s.now) : readyActs n s = setPhaseOnly n .ready s := by
  unfold readyActs readyDue
  rw [hc, hp, reached_of_le hr]
  rfl

/-- At the charge-hold end of an oven in COKING or READY its mode is derived (R18). -/
theorem holdEndActs_due {n : Nat} {s : State} (hc : configured s n = true)
    (hp : (ovenRec s n).phase = .coking ∨ (ovenRec s n).phase = .ready) (hr : chargeHoldEnd s n ≤ s.now) :
    holdEndActs n s = oprDerive n s := by
  unfold holdEndActs
  rw [hc, reached_of_le hr]
  rcases hp with hp | hp <;> rw [hp] <;> rfl

/-- At the late instant of an oven in COKING or READY its mode is derived (R18). -/
theorem lateActs_due {n : Nat} {s : State} (hc : configured s n = true)
    (hp : (ovenRec s n).phase = .coking ∨ (ovenRec s n).phase = .ready) (hr : lateInstant s n ≤ s.now) :
    lateActs n s = oprDerive n s := by
  unfold lateActs
  rw [hc, reached_of_le hr]
  rcases hp with hp | hp <;> rw [hp] <;> rfl

/-- Deriving the mode of an oven in COKING or READY gives the mode of Table 6-2. -/
theorem oprDerive_mode {n : Nat} {s : State} (hc : configured s n = true)
    (hp : (ovenRec s n).phase = .coking ∨ (ovenRec s n).phase = .ready) :
    (regRec (oprDerive n s) n).mode =
      if doorOffActive s n then .isolated else if s.now < chargeHoldEnd s n then .charge
      else if lateInstant s n ≤ s.now then .late else .coking := by
  obtain ⟨h1, h2⟩ := configured_range hc
  rw [regRec_oprDerive h1 h2, derivedMode_coking hc hp]

end Sys2Proof.Machine

open Sys2Proof.Machine

/-- Settles O20: the advance takes every due entry, and then ticks; nothing after the tick adds an entry or writes the
mark. -/
theorem clockAdvanceAddsASecond : Obligations.ClockAdvanceAddsASecond := by
  intro s
  obtain ⟨hd, hl⟩ := advance_deadlines s
  exact ⟨advance s, rfl, advance_now s, hl, hd⟩

/-- Settles O21: READY is a phase change of an oven that no break touches, and at the two other instants the mode is
derived, where the instant reached decides its test in Table 6-2. -/
theorem ovenInstantsAct : Obligations.OvenInstantsAct := by
  refine ⟨fun n s hc hp hr => ?_, fun n s hc hp => ⟨fun hr => ?_, fun hr => ?_⟩⟩
  · have hn := configured_range hc
    have hw : ovenRec (readyActs n s) n = { ovenRec s n with phase := .ready } := by
      rw [readyActs_due hc hp hr, ovenRec_setPhaseOnly hc]
    refine ⟨readyActs n s, rfl, hw, ilkSettle_keeps_ovenRec s hn ?_ ?_, fun m hm => ?_, ?_⟩
    · rw [hw]
      nofun
    · rw [hw]
      nofun
    · rw [readyActs_due hc hp hr, ovenRec_setPhaseOnly_other hm]
    · rw [readyActs_due hc hp hr, regRec_setPhaseOnly hn (by rw [hp]; nofun)]
  · refine ⟨oprDerive n s, congrArg _ (holdEndActs_due hc hp hr), ?_⟩
    rw [oprDerive_mode hc hp, if_neg (Int.not_lt.mpr hr)]
  · refine ⟨oprDerive n s, congrArg _ (lateActs_due hc hp hr), ?_⟩
    rw [oprDerive_mode hc hp, if_pos hr]
end

section
/-!
SUPPORT. The exchanges that end as a miss, and what a miss makes of the station and of the blocks that take its
departure.
-/

set_option Elab.async false
namespace Sys2Proof.Machine

open Sys2Proof

/-! ## Endings -/

/-- The state on which a miss is counted: the line idle, nothing carried any more, a carried image dirty again
(R167). -/
def missStart (x : Exchange) (s : State) : State :=
  let u := uncarry x.position (lineIdle s)
  match x.item with
  | .valve i => markDirty i u
  | .halt => u
  | .answer => u
  | .order => u
  | .bare => u

theorem missStart_touches (x : Exchange) (s : State) :
    Touches [.line, .exchange, .outbound, .dirty] s (missStart x s) := by
  have h : Touches [.line, .exchange, .outbound, .dirty] s (uncarry x.position (lineIdle s)) :=
    (lineIdle_touches s).mono.seq (uncarry_touches _ _).mono
  unfold missStart
  cases x.item with
  | valve i => exact h.seq (markDirty_touches i _).mono
  | halt => exact h
  | answer => exact h
  | order => exact h
  | bare => exact h

theorem missStart_line (x : Exchange) (s : State) : (missStart x s).fpi.line = .idle := by
  have h : Touches [.outbound, .dirty] (lineIdle s) (missStart x s) := by
    unfold missStart
    cases x.item with
    | valve i => exact (uncarry_touches _ _).mono.seq (markDirty_touches i _).mono
    | halt => exact (uncarry_touches _ _).mono
    | answer => exact (uncarry_touches _ _).mono
    | order => exact (uncarry_touches _ _).mono
    | bare => exact (uncarry_touches _ _).mono
  exact (h.line_kept).1

theorem exchangeMissed_eq {s : State} {x : Exchange} (h : s.fpl.exchange = some x) (hv : x.void = false) :
    exchangeMissed s = roundOn (miss x.position (missStart x s)) := by
  unfold exchangeMissed missStart
  rw [h]
  dsimp only
  refine (if_neg (by rw [hv]; nofun)).trans ?_
  cases x.item <;> rfl

/-- A discarded reply is counted, and the exchange missed (R146, R167). -/
theorem fieldDiscard_eq (s : State) : ∃ v, Touches [.fieldDiscards] s v ∧ fieldDiscard s = exchangeMissed v :=
  ⟨_, onFieldDiscards_touches _ s, rfl⟩

/-- Each ending as a miss is a missed exchange, of the state itself or with one more discard counted. -/
theorem exec_endsAsMiss {c : Instr} {s : State} {x : Exchange} (hx : Awaits s x) (hc : endsAsMiss s x c = true) :
    ∃ v, Touches [.fieldDiscards] s v ∧ exec c s = .next (exchangeMissed v) := by
  obtain ⟨hl, he, hv, _⟩ := hx
  have discarded : ∀ {u : State}, u = fieldDiscard s → ∃ v, Touches [.fieldDiscards] s v ∧
      (Host.Outcome.next u : Host.Outcome State Fault Refusal) = .next (exchangeMissed v) := by
    rintro u rfl
    obtain ⟨v, hv, e⟩ := fieldDiscard_eq s
    exact ⟨v, hv, congrArg _ e⟩
  unfold endsAsMiss at hc
  split at hc
  case h_1 => -- the response window, the receiver hunting
    refine ⟨s, .refl _ _, ?_⟩
    show Host.Outcome.next (responseExpiry s) = _
    unfold responseExpiry
    rw [hl, hc]
    rfl
  case h_2 => -- the gap window, the receiver assembling
    refine discarded ?_
    unfold gapExpiry
    dsimp only
    rw [hl, hc]
    rfl
  case h_3 line => -- a framing test that fails
    refine discarded ?_
    unfold framingDiscard fieldGap
    dsimp only
    rw [if_pos hl, he]
    split at hc
    · next hf =>
      rw [hf]
    · exact nomatch hc
  case h_4 t => -- another source
    rw [Bool.and_eq_true, Bool.not_eq_true'] at hc
    obtain ⟨hr, hf⟩ := hc
    refine ⟨s, .refl _ _, ?_⟩
    show Host.Outcome.next (fieldArrival t s) = _
    unfold fromPolled at hf
    unfold fieldArrival
    rw [if_neg (Classical.not_not.mpr hl), hr, he]
    dsimp only
    rw [hv, hf]
    rfl
  case h_5 => exact nomatch hc

/-! ## Departures -/

theorem Touches.alignment_kept {l : List Aspect} {s t : State} (h : Touches l s t) (p : Nat)
    (ha : Aspect.align ∉ l := by decide) : alignment t p = alignment s p := by
  unfold alignment
  rw [h.align_kept ha]

/-- A departure: the settling with the entry emptied, and then the blocks that take it, whose car is an input again. -/
theorem departure_eq (b : State) (p : Nat) (s : State) :
    departure b p s =
      ilkSettle (ilkSettle b (setAlignment p {} s)) (departureHanded p (ilkSettle b (setAlignment p {} s))) := rfl

/-- A station that has left ACTIVE has an empty alignment entry (R16). -/
theorem departure_alignment {p : Nat} (hp : p < 24) (b s : State) : alignment (departure b p s) p = {} := by
  have k : Touches cutAspects (setAlignment p {} s) (departure b p s) :=
    (ilkSettle_touches _ _).seq (departureTaken_touches _ _)
  rw [k.alignment_kept, alignment_setAlignment, if_pos ⟨rfl, hp⟩]

theorem departure_station {p : Nat} (hp : p < 24) (b : State) (r : StationRecord) (k : EventKind) (o a : Nat) (d : Int)
    (s : State) : station (departure b p (raise k o a d (setStation p r s))) p = r := by
  rw [(departure_keeps_stations b p _).station_kept, (raise_touches _ _ _ _ _).station_kept, station_setStation,
    if_pos ⟨rfl, hp⟩]

/-- The loss of a station is counted, whatever round begins after it. -/
theorem departure_counted {p q : Nat} {b : State} {r : StationRecord} {k : EventKind} {o a : Nat} {d : Int}
    {s t : State} (h : Touches roundAspects (departure b p (raise k o a d (setStation q r s))) t) : Counted k s t :=
  have hd := departure_keeps_stations b p (raise k o a d (setStation q r s))
  (Counted.of_raise (l := .align :: .regs :: .dirty :: roundAspects) (hd.mono.seq h.mono)).after
    (setStation_touches q r s)

/-! ## Misses -/

theorem miss_short {p : Nat} {s : State} (ha : (station s p).state = .active)
    (hm : (station s p).misses + 1 < s.fpl.settings.misses) :
    miss p s = setStation p { station s p with misses := (station s p).misses + 1 } s := by
  unfold miss
  dsimp only
  rw [ha]
  exact if_neg (by omega)

theorem miss_limit {p : Nat} {s : State} (ha : (station s p).state = .active)
    (hm : s.fpl.settings.misses ≤ (station s p).misses + 1) :
    miss p s = departure s p (raise .stationLost 0 (pollEntry s p).address ((station s p).misses + 1 : Nat)
      (setStation p { station s p with state := .lost, misses := (station s p).misses + 1 } s)) := by
  unfold miss
  dsimp only
  rw [ha]
  exact if_pos hm

theorem miss_joining {p : Nat} {s : State} (hp : p < 24) (hj : (station s p).state = .joining) :
    (station (miss p s) p).state = .absent := by
  unfold miss
  dsimp only
  rw [hj]
  dsimp only
  rw [station_setStation, if_pos ⟨rfl, hp⟩]

theorem miss_out {p : Nat} {s : State} (h : (station s p).state = .absent ∨ (station s p).state = .lost) :
    miss p s = s := by
  unfold miss
  dsimp only
  rcases h with h | h <;> rw [h]

end Sys2Proof.Machine

open Sys2Proof.Machine

/-- Settles O34: every ending is a missed exchange; the round's end after the miss writes no station record, and the four
states of the station are the four cases of the miss. -/
theorem missesCountAgainstTheStation : Obligations.MissesCountAgainstTheStation := by
  intro c s x hx hc
  obtain ⟨v, kv, hv⟩ := exec_endsAsMiss hx hc
  obtain ⟨hl, he, hvoid, hp⟩ := hx
  have ku : Touches [.line, .exchange, .fieldDiscards, .outbound, .dirty] s (missStart x v) :=
    kv.mono.seq (missStart_touches x v).mono
  have hline := missStart_line x v
  rw [exchangeMissed_eq (by rw [kv.exchange_kept, he]) hvoid] at hv
  generalize missStart x v = u at ku hv hline
  have kr := roundOn_touches (miss x.position u)
  have es := ku.station_kept x.position
  have eset : u.fpl.settings = s.fpl.settings := (ku.pollTables_kept).2.2
  have ep := ku.pollEntry_kept x.position
  refine ⟨_, hv, ?_, fun ha hm => ?_, fun ha hm => ?_, fun hj => ?_, fun ho => ?_⟩
  · rw [roundOn_line, ((miss_touches _ u).line_kept).1, hline]
  · rw [kr.station_kept, miss_short (by rw [es, ha]) (by rw [es, eset]; exact hm), station_setStation,
      if_pos ⟨rfl, hp⟩, es]
  · have e := miss_limit (s := u) (p := x.position) (by rw [es, ha]) (by rw [es, eset]; exact hm)
    rw [es, ep] at e
    rw [e] at kr ⊢
    refine ⟨?_, ?_, ?_, u, _, ku, departureHanded_leaves _ _, congrArg roundOn (departure_eq _ _ _)⟩
    · rw [kr.station_kept, departure_station hp]
    · exact (departure_counted kr).after ku
    · rw [kr.alignment_kept, departure_alignment hp]
  · rw [kr.station_kept, miss_joining hp (by rw [es, hj])]
  · rw [kr.station_kept, miss_out (by rw [es]; exact ho), es]
end

section
/-!
SUPPORT. What a READY makes of its station (R170), and what the departure of an ACTIVE one leaves of the permits.
-/

set_option Elab.async false
namespace Sys2Proof.Machine

open Sys2Proof

/-- What came before and lost no count does not matter. -/
theorem Counted.since {l : List Aspect} {k : EventKind} {s t u : State} (hu : Counted k t u) (h : Touches l s t)
    (ha : Aspect.tally ∉ l := by decide) : Counted k s u := by
  intro hc
  obtain ⟨h1, h2⟩ := h.eventCount_le k hc ha
  have h3 := hu h2
  omega

/-- No permit of a station stays that has left ACTIVE (R38, R42). -/
theorem departure_permits {p : Nat} (hp : p < 24) {s : State} (hs : (station s p).state = .active) {r : StationRecord}
    (hr : r.state ≠ .active) (k : EventKind) (o a : Nat) (d : Int) :
    ∀ e ∈ (departure s p (raise k o a d (setStation p r s))).ilk.permits, posOfAddress s e.station ≠ some p := by
  intro e he hpos
  have kz : Touches [.stations, .holderLaw, .counts, .transmit, .align] s
      (setAlignment p {} (raise k o a d (setStation p r s))) :=
    (setStation_touches p r s).mono.seq ((raise_touches _ _ _ _ _).mono.seq (setAlignment_touches _ _ _).mono)
  have kq := ilkSettle_touches s (setAlignment p {} (raise k o a d (setStation p r s)))
  have hin : e ∈ (ilkSettle s (setAlignment p {} (raise k o a d (setStation p r s)))).ilk.permits :=
    (departureTaken_touches p _).grants_kept.subset he
  have hact := ilkSettle_leaves hin ((posOfAddress_kept kq _).trans ((posOfAddress_kept kz _).trans hpos)) hs
  rw [kq.station_kept, (setAlignment_touches _ _ _).station_kept, (raise_touches _ _ _ _ _).station_kept,
    station_setStation, if_pos ⟨rfl, hp⟩] at hact
  exact hr hact

/-! ## A READY taken -/

/-- A READY passes no join test. -/
theorem afterReply_ready {u : Telegram} (hk : kindOf u = Kind.ready) (s : State) (x : Exchange) :
    afterReply s x u = taken s x := by
  rw [afterReply_eq]
  split
  · unfold joinTest
    exact if_pos hk
  · rfl

/-- A READY of the polled station goes to the field poller, whatever the station's state. -/
theorem exec_ready {h : Header} {a b : Byte} {s : State} {x : Exchange} (hx : Awaits s x)
    (hs : h.source.toNat = (pollEntry s x.position).address) :
    exec (.ready h a b) s = .next (roundOn (coreCopy (entryFor s .field (arrived h Kind.ready [a, b]))
      (arrived h Kind.ready [a, b]) (fplReady x.position a.toNat b.toNat (taken s x)))) := by
  have hk : kindOf (arrived h Kind.ready [a, b]) = Kind.ready := kindOf_arrived _ (by decide) h _
  have hr : framed (arrived h Kind.ready [a, b]) = true :=
    framed_arrived h _ _ (by decide) (Nat.le_of_ble_eq_true rfl) rfl
  have hf : fromPolled s x (arrived h Kind.ready [a, b]) = true := decide_eq_true hs
  rw [exec_reply (c := .ready h a b) rfl, fieldArrival_taken hx hf hr, afterReply_ready hk]
  have hp : passedOn (taken s x) x.position (arrived h Kind.ready [a, b]) = true := by
    unfold passedOn
    rw [hk]
    simp
  rw [if_pos hp, classifyField_ready, entryFor_kept (taken_touches s x)]

/-! ## What a READY does -/

theorem readySucceeds_iff (s : State) (p : Nat) (a b : Byte) :
    readySucceeds s p a.toNat b.toNat = true ↔ a = 0#8 ∧ b.toNat = (pollEntry s p).cls.code := by
  unfold readySucceeds
  rw [Bool.and_eq_true, decide_eq_true_iff, decide_eq_true_iff]
  exact and_congr_left' ⟨fun h => BitVec.eq_of_toNat_eq h, fun h => congrArg BitVec.toNat h⟩

/-- A station that waits outside service joins by a good READY, and stays as it is by another, whatever round begins
after it. -/
theorem readyWaiting_ends {p : Nat} (hp : p < 24) {a b : Nat} {s t : State}
    (k : Touches roundAspects (readyWaiting p a b s) t) :
    (readySucceeds s p a b = true →
      (station t p).state = .joining ∧ (station t p).joinProgress = 0 ∧ (station t p).joinRef = none) ∧
    (readySucceeds s p a b = false → station t p = station s p ∧ Counted .stationFault s t) := by
  unfold readyWaiting at k
  refine ⟨fun hg => ?_, fun hg => ?_⟩
  · rw [if_pos hg] at k
    rw [k.station_kept, station_setStation, if_pos ⟨rfl, hp⟩]
    exact ⟨rfl, rfl, rfl⟩
  · rw [if_neg (Bool.eq_false_iff.mp hg)] at k
    exact ⟨by rw [k.station_kept, (stationFault_touches _ _ _ _).station_kept], Counted.of_raise k⟩

/-- A JOINING station begins to join again by a good READY, and is ABSENT by another. -/
theorem fplReady_joining {p : Nat} (hp : p < 24) {a b : Nat} {s t : State} (hj : (station s p).state = .joining)
    (k : Touches roundAspects (fplReady p a b s) t) :
    (readySucceeds s p a b = true →
      (station t p).state = .joining ∧ (station t p).joinProgress = 0 ∧ (station t p).joinRef = none) ∧
    (readySucceeds s p a b = false → (station t p).state = .absent ∧ Counted .stationFault s t) := by
  unfold fplReady at k
  dsimp only at k
  rw [hj] at k
  dsimp only at k
  refine ⟨fun hg => ?_, fun hg => ?_⟩
  · rw [if_pos hg] at k
    rw [k.station_kept, station_setStation, if_pos ⟨rfl, hp⟩]
    exact ⟨rfl, rfl, rfl⟩
  · rw [if_neg (Bool.eq_false_iff.mp hg)] at k
    refine ⟨?_, (Counted.of_raise k).after (setStation_touches _ _ _)⟩
    rw [k.station_kept, (stationFault_touches _ _ _ _).station_kept, station_setStation, if_pos ⟨rfl, hp⟩]

theorem fplReady_out {p a b : Nat} {s : State} (h : (station s p).state = .absent ∨ (station s p).state = .lost) :
    fplReady p a b s = readyWaiting p a b s := by
  unfold fplReady
  dsimp only
  rcases h with h | h <;> rw [h]

/-- The record of an ACTIVE station that a READY takes out of service. -/
abbrev lostByReady (p : Nat) (s : State) : State :=
  raise .stationLost 0 (pollEntry s p).address 0 (setStation p { station s p with state := .lost, misses := 0 } s)

/-- The state after the departure that a READY of an ACTIVE station brings. -/
abbrev departedByReady (p : Nat) (s : State) : State := departure s p (lostByReady p s)

/-- What a READY of an ACTIVE station may touch before the station joins again. -/
abbrev readyAspects : List Aspect :=
  .line :: .exchange :: .halts :: .answers :: .align :: .regs :: .dirty :: .stations :: .holderLaw :: cutAspects

theorem departedByReady_touches (p : Nat) (s : State) :
    Touches (.stations :: .holderLaw :: .align :: .regs :: .dirty :: cutAspects) s (departedByReady p s) :=
  (setStation_touches _ _ _).mono.seq
    ((raise_touches _ _ _ _ _).mono.seq (departure_keeps_stations s p (lostByReady p s)).mono)

theorem departedByReady_station {p : Nat} (hp : p < 24) (s : State) :
    station (departedByReady p s) p = { station s p with state := .lost, misses := 0 } :=
  departure_station hp s _ _ _ _ _ s

theorem departedByReady_permits {p : Nat} (hp : p < 24) {s : State} (hs : (station s p).state = .active) :
    ∀ e ∈ (departedByReady p s).ilk.permits, posOfAddress s e.station ≠ some p :=
  departure_permits hp hs (by nofun) _ _ _ _

theorem departedByReady_counted {p : Nat} {s t : State}
    (h : Touches (.stations :: roundAspects) (departedByReady p s) t) : Counted .stationLost s t := by
  have hd : Touches (.align :: .regs :: .dirty :: .stations :: roundAspects) (lostByReady p s) t :=
    (departure_keeps_stations s p (lostByReady p s)).mono.seq h.mono
  exact (Counted.of_raise hd).after (setStation_touches _ _ _)

theorem fplReady_active {p a b : Nat} {s : State} (h : (station s p).state = .active) :
    fplReady p a b s = readyWaiting p a b (departedByReady p s) := by
  unfold fplReady
  dsimp only
  rw [h]

end Sys2Proof.Machine

open Sys2Proof Sys2Proof.Machine

/-- Settles O41: the reply as taken changes neither the station's state nor its poll entry, and the round's end no station
record; between them the READY acts by the station's state. -/
theorem readyStationsJoin : Obligations.ReadyStationsJoin := by
  intro h selfCheck claimed s x hx hs p u good
  have hp : p < 24 := hx.2.2.2
  have kv := taken_touches s x
  have hst : (station (taken s x) p).state = (station s p).state := by rw [taken_station hx]
  have hgood : ∀ {l : List Aspect} {w : State}, Touches l s w → Aspect.pollTables ∉ l →
      (readySucceeds w p selfCheck.toNat claimed.toNat = true ↔ good) := by
    intro l w k hl
    rw [readySucceeds_iff, k.pollEntry_kept p hl]
  have hbad : ∀ {l : List Aspect} {w : State}, Touches l s w → Aspect.pollTables ∉ l → ¬ good →
      readySucceeds w p selfCheck.toNat claimed.toNat = false := fun k hl hn =>
    Bool.eq_false_iff.mpr fun e => hn ((hgood k hl).mp e)
  refine ⟨_, exec_ready hx hs, fun ho => ?_, fun hj => ?_, fun ha => ?_⟩
  · obtain ⟨joins, stays⟩ := readyWaiting_ends hp
      (roundOn_coreCopy_touches (entryFor s .field u) u (readyWaiting p selfCheck.toNat claimed.toNat (taken s x)))
    rw [fplReady_out (by rw [hst]; exact ho)]
    refine ⟨fun hg => joins ((hgood kv (by decide)).mpr hg), fun hn => ?_⟩
    obtain ⟨e, c⟩ := stays (hbad kv (by decide) hn)
    exact ⟨by rw [e, hst], c.after kv⟩
  · obtain ⟨joins, leaves⟩ := fplReady_joining hp (hst.trans hj)
      (roundOn_coreCopy_touches (entryFor s .field u) u (fplReady p selfCheck.toNat claimed.toNat (taken s x)))
    refine ⟨fun hg => joins ((hgood kv (by decide)).mpr hg), fun hn => ?_⟩
    obtain ⟨e, c⟩ := leaves (hbad kv (by decide) hn)
    exact ⟨e, c.after kv⟩
  · have hact := hst.trans ha
    have hu : afterReply s x u = taken s x := afterReply_ready (kindOf_arrived _ (by decide) h _) s x
    have hlost := departedByReady_station hp (taken s x)
    have kd : Touches readyAspects s (departedByReady p (taken s x)) :=
      kv.mono.seq (departedByReady_touches p (taken s x)).mono
    have kt : Touches (.stations :: roundAspects) (departedByReady p (taken s x)) _ :=
      (readyWaiting_touches (a := selfCheck.toNat) (b := claimed.toNat) (by rw [hlost]; nofun)).mono.seq
        (roundOn_coreCopy_touches (entryFor s .field u) u _).mono
    obtain ⟨joins, stays⟩ := readyWaiting_ends hp
      (roundOn_coreCopy_touches (entryFor s .field u) u
        (readyWaiting p selfCheck.toNat claimed.toNat (departedByReady p (taken s x))))
    rw [fplReady_active hact, hu, ← kv.pollEntry_kept p]
    refine ⟨⟨_, departureHanded_leaves p _, rfl⟩, ?_, ?_, fun e he => ?_, fun hg => ?_, fun hn => ?_⟩
    · exact (departedByReady_counted kt).after kv
    · rw [kt.alignment_kept]
      exact departure_alignment hp (taken s x) (lostByReady p (taken s x))
    · rw [← posOfAddress_kept kv]
      exact departedByReady_permits hp hact e (kt.grants_kept.subset he)
    · exact joins ((hgood kd (by decide)).mpr hg)
    · obtain ⟨e, c⟩ := stays (hbad kd (by decide) hn)
      exact ⟨by rw [e, hlost], c.since kd⟩

end

section
/-!
SUPPORT. What a granted REQUEST does by kind (R35), beside the facts on PUSH and DOOR_OFF in Laws.
-/

set_option Elab.async false
namespace Sys2Proof.Machine

open Sys2Proof

/-! ## A REQUEST taken -/

/-- The REQUEST of an ACTIVE station goes to the interlock. -/
theorem exec_request_active {h : Header} {a b c : Byte} {s : State} {x : Exchange} (hx : Awaits s x)
    (hs : h.source.toNat = (pollEntry s x.position).address) (ha : (station s x.position).state = .active) :
    exec (.request h a b c) s = .next (roundOn (coreCopy (entryFor s .field (arrived h Kind.request [a, b, c]))
      (arrived h Kind.request [a, b, c]) (ilkRequest x.position a.toNat b.toNat c.toNat (taken s x)))) := by
  have hr : framed (arrived h Kind.request [a, b, c]) = true :=
    framed_arrived h _ _ (by decide) (Nat.le_of_ble_eq_true rfl) rfl
  rw [exec_active_reply (c := .request h a b c) rfl hx (decide_eq_true hs) hr ha, classifyField_request,
    entryFor_kept (taken_touches s x)]

/-- Only the PM asks for a PUSH (Table 2-1). -/
theorem asked_push_cls {s : State} {p k o d : Nat} {sd : Side} (hk : (asked s p k o d).kind = some .push)
    (hs : (asked s p k o d).side = some sd) : (pollEntry s p).cls = .pm := by
  unfold asked at hk hs
  split at hk
  · next k' hc =>
    rw [hc] at hs
    obtain rfl := Option.some.inj hk
    refine Decidable.byContradiction fun hn => ?_
    have : sideFor (pollEntry s p).cls .push d = none := if_neg hn
    exact nomatch this.symm.trans hs
  · exact nomatch hk

/-- Term 2 is of the effective set of every oven kind (R29). -/
theorem two_mem_effectiveTerms (s : State) {k : PermitKind} (hk : isCarKind k = false) : 2 ∈ effectiveTerms s k := by
  unfold effectiveTerms
  rw [List.mem_filter]
  exact ⟨by decide, by simp [hk]⟩

/-- A DOOR_OFF is granted on no oven that is OUT_OF_SERVICE (term 2). -/
theorem doorOff_phase {s : State} {p n : Nat} (h : firstFailure s (requestInput s p .doorOff n) = none) :
    (ovenRec s n).phase ≠ .outOfService := by
  have h2 : (allowedPhases .doorOff).contains (ovenRec s n).phase = true :=
    termHolds_of h (two_mem_effectiveTerms s rfl)
  intro hp
  rw [hp] at h2
  exact absurd h2 (by decide)

/-! ## Effects by kind -/

theorem grantEffects_permits (e : Permit) (p : Nat) (s : State) :
    (grantEffects e p (grantStart e p s)).ilk.permits = s.ilk.permits ++ [e] :=
  (grantEffects_touches e p _).permits_kept.trans (placeAnswer_touches p _ _).permits_kept

/-- What is asked for as PUSH is granted to the PM (R10, R51, R86): the facts of Laws, read from the state before the
entry was added. -/
theorem grantedPush {s : State} {p n : Nat} {sd : Side} (hp : (pollEntry s p).cls = .pm) (hn : configured s n = true)
    (ht : firstFailure s (requestInput s p .push n) = none) {e : Permit} (he : e = grantEntry s p .push n sd)
    {w : State} (hw : w = grantEffects e p (grantStart e p s)) :
    ovenRec w n = { ovenRec s n with phase := .pushing } ∧
    (∃ c, e.car = some c ∧ (carRec s c).load = .empty ∧ w.qtc.idle = s.qtc.idle.erase c ∧
      carRec w c = { carRec s c with state := .receiving, assignedOven := n, loadOven := n }) ∧
    (s.run.state = .running → currentOven s = n ∧
      w.run = { s.run with pushGrant := some s.now, lateness := s.now - s.run.planned }) := by
  obtain ⟨hrun, c, hc, hload, hknown⟩ := push_terms ht hp
  have kg := grantStart_touches e p s
  have hrs : (grantStart e p s).run = s.run := kg.runRecord_kept
  have hns : (grantStart e p s).now = s.now := kg.now_kept
  have hcs : currentOven (grantStart e p s) = currentOven s := rfl
  have heo : e.oven = n := congrArg Permit.oven he
  have hec : e.car = some c := (congrArg Permit.car he).trans hc
  obtain ⟨h1, h2, h3, h4⟩ := grantPush (congrArg Permit.kind he) p (s := grantStart e p s)
    (by rw [heo]; exact configured_range hn) (by rw [hrs, hcs, heo]; exact hrun) hec
    (by rw [kg.carRec_kept]; exact hknown)
  rw [← hw] at h1 h2 h3 h4
  rw [heo, kg.ovenRec_kept] at h1
  rw [kg.carRec_kept, heo] at h3
  rw [hrs, hns] at h4
  exact ⟨h1, ⟨c, hec, hload, h2.trans (congrArg (List.erase · c) kg.idle_kept.1), h3⟩, fun hr => ⟨(hrun hr).1, h4 hr⟩⟩

/-- A granted CHARGE (R11). -/
theorem grantCharge {e : Permit} (hk : e.kind = .charge) (p : Nat) {s : State} (hc : configured s e.oven = true) :
    ovenRec (grantEffects e p s) e.oven = { ovenRec s e.oven with phase := .charging } := by
  unfold grantEffects
  rw [hk]
  exact ovenRec_setPhaseOnly hc

/-- A granted QUENCH (R89). -/
theorem grantQuench {e : Permit} (hk : e.kind = .quench) {p c : Nat} {s : State} (hc : carAt s p = some c) :
    carRec (grantEffects e p s) c =
      if (carRec s c).state = .loaded ∨ (carRec s c).state = .draining ∨ (carRec s c).state = .quenched then
        { carRec s c with state := .quenching, drainDeadline := none, hotStart := none }
      else carRec s c := by
  have he : grantEffects e p s = carQuenches c s := by
    unfold grantEffects
    rw [hk, hc]
    rfl
  rw [he]
  unfold carQuenches
  dsimp only
  by_cases h : (carRec s c).state = .loaded ∨ (carRec s c).state = .draining ∨ (carRec s c).state = .quenched
  · have hr : 1 ≤ c ∧ c ≤ 2 := carRec_range fun hu => by rw [hu] at h; simp at h
    rw [if_pos h, if_pos (by simpa [or_assoc] using h), carRec_setCarRec, if_pos ⟨rfl, hr⟩]
  · rw [if_neg h, if_neg (by simpa [or_assoc] using h)]

/-- A granted DUMP (R92). -/
theorem grantDump {e : Permit} (hk : e.kind = .dump) {p c : Nat} {s : State} (hc : carAt s p = some c) :
    carRec (grantEffects e p s) c =
      if (carRec s c).state = .quenched then { carRec s c with state := .dumping } else carRec s c := by
  have he : grantEffects e p s = carDumps c s := by
    unfold grantEffects
    rw [hk, hc]
    rfl
  rw [he]
  unfold carDumps
  dsimp only
  split
  · next h =>
    have hr : 1 ≤ c ∧ c ≤ 2 := carRec_range fun hu => by rw [hu] at h; exact nomatch h
    rw [carRec_setCarRec, if_pos ⟨rfl, hr⟩]
  · rfl

/-- A granted RESEAT (R112). -/
theorem grantReseat {e : Permit} (hk : e.kind = .reseat) {side : DoorSide} (hd : e.side.door = some side) (p : Nat)
    (s : State) : taskOf (grantEffects e p s) side =
      if ((taskOf s side).stage = .placed ∨ (taskOf s side).stage = .delivered) ∧
          (taskOf s side).door = some ⟨e.oven, side⟩ then
        { taskOf s side with stage := .working, deadline := none }
      else taskOf s side := by
  have he : grantEffects e p s = taskWorks ⟨e.oven, side⟩ s := by
    unfold grantEffects
    rw [hk]
    dsimp only
    unfold doorOf
    rw [hd]
    rfl
  rw [he]
  unfold taskWorks
  dsimp only
  by_cases h : ((taskOf s side).stage = .placed ∨ (taskOf s side).stage = .delivered) ∧
      (taskOf s side).door = some ⟨e.oven, side⟩
  · rw [if_pos h, if_pos (by simpa using h), taskOf_setTask, if_pos rfl]
  · rw [if_neg h, if_neg (by simpa using h)]

/-- DOOR_ON and LEVEL have no effect of their own (R35). -/
theorem grantPlain {e : Permit} (hk : e.kind = .doorOn ∨ e.kind = .level) (p : Nat) (s : State) :
    grantEffects e p s = s := by
  unfold grantEffects
  rcases hk with hk | hk <;> rw [hk]

end Sys2Proof.Machine

open Sys2Proof Sys2Proof.Machine

/-- Settles O45: the request is granted on the state that the taken reply left, which differs from `s` in no table, oven,
run or permit, and in a car's MOVE at most; each kind then has its own lemma. -/
theorem grantsTakeTheirEffect : Obligations.GrantsTakeTheirEffect := by
  intro h kind oven side s x k sd hx hs ha u v n e hk hsd hact hans
  have hv : v = taken s x := afterReply_not_joining hx (by rw [ha]; nofun)
  have kv : Touches takenAspects s v := hv ▸ taken_touches s x
  have hcar (c : Nat) : cycleRec (carRec v c) = cycleRec (carRec s c) := hv ▸ taken_cycle s x c
  have hstate (c : Nat) : (carRec v c).state = (carRec s c).state := cycle_state (hcar c)
  have hload (c : Nat) : (carRec v c).load = (carRec s c).load := by
    have e := congrArg CarRecord.load (hcar c)
    exact e
  obtain ⟨hgrant, hterms, hconf⟩ := ilkRequest_granted hk hsd hact hans
  have hexec := exec_request_active (a := kind) (b := oven) (c := side) hx hs ha
  rw [← hv, hgrant] at hexec
  have kg := grantStart_touches e x.position v
  have hpos : ∀ c, carAt s x.position = some c → carAt (grantStart e x.position v) x.position = some c := by
    intro c hc
    unfold carAt at hc ⊢
    rwa [kg.pollEntry_kept, kv.pollEntry_kept]
  refine ⟨grantEffects e x.position (grantStart e x.position v), hexec, ?_, fun hp => ?_, fun hp => ?_, fun hp => ?_,
    fun c hc => ⟨fun hp => ?_, fun hp => ?_⟩, fun sideOf hp hd => ?_, fun hp => ?_⟩
  · rw [grantEffects_permits, kv.permits_kept]
  · subst hp
    obtain ⟨h1, ⟨c, hc, hl, hi, h2⟩, h3⟩ := grantedPush (asked_push_cls hk hsd) (hconf rfl) hterms (e := e) rfl rfl
    have hcur : currentOven v = currentOven s := by
      unfold currentOven
      rw [kv.runRecord_kept, kv.runnerTables_kept.1]
    rw [kv.runRecord_kept, kv.now_kept, hcur] at h3
    rw [kv.ovenRec_kept] at h1
    exact ⟨h1, ⟨c, hc, (hload c).symm.trans hl, hi.trans (congrArg (List.erase · c) kv.idle_kept.1), h2⟩, h3⟩
  · have h1 := grantCharge (e := e) hp x.position (s := grantStart e x.position v) (hconf (by rw [hp]; rfl))
    rwa [kg.ovenRec_kept, kv.ovenRec_kept] at h1
  · subst hp
    exact grantDoorOff (e := e) rfl x.position (s := grantStart e x.position v) (configured_range (hconf rfl))
      (hconf rfl) (by rw [kg.ovenRec_kept]; exact doorOff_phase hterms) (List.mem_append_right _ (List.mem_singleton_self e))
  · rw [grantQuench (e := e) hp (hpos c hc), kg.carRec_kept, hstate]
  · rw [grantDump (e := e) hp (hpos c hc), kg.carRec_kept, hstate]
  · have h1 := grantReseat (e := e) hp hd x.position (grantStart e x.position v)
    rwa [kg.taskOf_kept] at h1
  · rw [grantPlain (e := e) hp]
    have he : e.deadline - e.grant = holdLimit v k := by
      show v.now + holdLimit v k - v.now = holdLimit v k
      omega
    unfold grantStart
    rw [he]
    rfl
end

section
/-!
SUPPORT. The management requests: the state they are carried out on, and the oven, time, block and car requests.
-/

set_option Elab.async false
namespace Sys2Proof.Machine

open Sys2Proof

/-! ## The state of a request -/

/-- The state on which a request other than SENSE is carried out. -/
abbrev requested (s : State) : State := clearSense (controlAccepted s)

theorem requested_touches (s : State) : Touches [.sense, .receiver, .watch] s (requested s) :=
  (controlAccepted_touches s).mono.seq (clearSense_touches _).mono

theorem configured_requested (s : State) (n : Nat) : configured (requested s) n = configured s n := rfl

theorem mgmtArrival_requested {code size : Nat} (f : State → Reply) (s : State) (hc : code ≠ ReqCode.sense := by decide)
    (hs : size ≤ 48 := by decide) : mgmtArrival code size f s = answer code (f (requested s)) := by
  rw [mgmtArrival_answers _ _ _ _ hs, requestState, if_neg hc]

/-- A request that arrives, as a command. -/
theorem next_arrival {code size : Nat} (f : State → Reply) (s : State) (hc : code ≠ ReqCode.sense := by decide)
    (hs : size ≤ 48 := by decide) :
    (Host.Outcome.next (mgmtArrival code size f s) : Host.Outcome State Fault Refusal) =
      .next (answer code (f (requested s))) := congrArg _ (mgmtArrival_requested f s hc hs)

/-- No settling where nothing has changed. -/
theorem ilkSettle_refl (s : State) : ilkSettle s s = s := ilkSettle_unchanged fun e _ => inputChanged_self s e

/-! ## RELEASE OVEN and OVEN SERVICE out -/

theorem releaseOven_unknown {n : Nat} {s : State} (hc : configured s n = false) :
    releaseOven n s = ⟨s, Status.unknownOven, []⟩ := by
  unfold releaseOven
  rw [hc]
  rfl

theorem releaseOven_wrongPhase {n : Nat} {s : State} (hc : configured s n = true)
    (hp : (ovenRec s n).phase ≠ .pushInterrupted) : releaseOven n s = ⟨s, Status.wrongPhase, []⟩ := by
  unfold releaseOven
  rw [hc, if_pos hp]
  rfl

theorem releaseOven_ok {n : Nat} {s : State} (hc : configured s n = true)
    (hp : (ovenRec s n).phase = .pushInterrupted) :
    releaseOven n s = ⟨ilkSettle s (setPhaseOnly n .empty s), Status.ok, []⟩ := by
  unfold releaseOven
  rw [hc, if_neg (Classical.not_not.mpr hp)]
  rfl

theorem ovenServiceOut_unknown {n : Nat} {s : State} (hc : configured s n = false) :
    ovenServiceOut n s = ⟨s, Status.unknownOven, []⟩ := by
  unfold ovenServiceOut
  rw [hc]
  rfl

theorem ovenServiceOut_busy {n : Nat} {s : State} (hc : configured s n = true)
    (hp : (ovenRec s n).phase = .pushing ∨ (ovenRec s n).phase = .charging) :
    ovenServiceOut n s = ⟨s, Status.ovenBusy, []⟩ := by
  unfold ovenServiceOut
  rw [hc]
  rcases hp with hp | hp <;> rw [hp] <;> rfl

/-- An oven already OUT_OF_SERVICE is given the phase it has. -/
theorem ovenServiceOut_ok {n : Nat} {s : State} (hc : configured s n = true) (h1 : (ovenRec s n).phase ≠ .pushing)
    (h2 : (ovenRec s n).phase ≠ .charging) :
    ovenServiceOut n s = ⟨ilkSettle s (setPhaseOnly n .outOfService s), Status.ok, []⟩ := by
  unfold ovenServiceOut
  dsimp only
  rw [if_neg (by rw [hc]; nofun), if_neg (by simp [h1, h2])]
  split
  · next ho =>
    rw [show setPhaseOnly n .outOfService s = s from ho ▸ setPhaseOnly_same, ilkSettle_refl]
    rfl
  · rfl

theorem ovenServiceOut_out {n : Nat} {s : State} (hc : configured s n = true)
    (hp : (ovenRec s n).phase = .outOfService) :
    ovenServiceOut n s = ⟨s, Status.ok, []⟩ := by
  unfold ovenServiceOut
  rw [hc, hp]
  rfl

/-- What a phase given by a request leaves: the rest of the record, the permits, and the record through the settling. -/
theorem setPhaseOnly_settled {n : Nat} {ph : Phase} {s : State} (hc : configured s n = true) (h1 : ph ≠ .pushing)
    (h2 : ph ≠ .charging) :
    ovenRec (setPhaseOnly n ph s) n = { ovenRec s n with phase := ph } ∧
      (setPhaseOnly n ph s).ilk.permits = s.ilk.permits ∧
      ovenRec (ilkSettle s (setPhaseOnly n ph s)) n = ovenRec (setPhaseOnly n ph s) n := by
  have hr := ovenRec_setPhaseOnly (ph := ph) hc
  exact ⟨hr, (setPhaseOnly_touches n ph s).permits_kept,
    ilkSettle_keeps_ovenRec s (configured_range hc) (by rw [hr]; exact h1) (by rw [hr]; exact h2)⟩

end Sys2Proof.Machine

open Sys2Proof Sys2Proof.Machine

/-- Settles O54: each row is the request's rule on the state `requested s`, whose ovens are those of `s`. -/
theorem releaseAndServiceOut : Obligations.ReleaseAndServiceOut := by
  intro n elapsed s v
  have release : exec (.releaseOven n) s = .next (answer ReqCode.releaseOven (releaseOven n.toNat v)) :=
    next_arrival _ s
  have out : exec (.ovenServiceOut n elapsed) s = .next (answer ReqCode.ovenService (ovenServiceOut n.toNat v)) :=
    next_arrival _ s
  have ev : ovenRec v n.toNat = ovenRec s n.toNat := (requested_touches s).ovenRec_kept _
  rw [release, out]
  have given {ph : Phase} (hc : configured s n.toNat = true) (h1 : ph ≠ .pushing) (h2 : ph ≠ .charging) :=
    ev ▸ setPhaseOnly_settled (s := v) (ph := ph) hc h1 h2
  refine ⟨fun hc hp => ?_, fun hc hp => ?_, fun hc => ⟨fun hp => ?_, fun hp => ?_, fun h1 h2 => ?_⟩, fun hc => ⟨?_, ?_⟩⟩
  · rw [releaseOven_ok (s := v) hc (ev ▸ hp)]
    exact ⟨_, rfl, given hc (by nofun) (by nofun)⟩
  · rw [releaseOven_wrongPhase (s := v) hc (ev ▸ hp)]
  · rw [ovenServiceOut_busy (s := v) hc (ev ▸ hp)]
  · rw [ovenServiceOut_out (s := v) hc (ev ▸ hp)]
  · rw [ovenServiceOut_ok (s := v) hc (ev ▸ h1) (ev ▸ h2)]
    exact ⟨_, rfl, given hc (by nofun) (by nofun)⟩
  · rw [releaseOven_unknown (s := v) hc]
  · rw [ovenServiceOut_unknown (s := v) hc]
end

section
/-!
SUPPORT. What SET TIME, SET BLOCK, OVEN SERVICE in, FREEZE, UNFREEZE and CLEAR CAR leave.
-/

set_option Elab.async false
namespace Sys2Proof.Machine

open Sys2Proof

/-! ## OVEN SERVICE in -/

/-- The phase of a returned oven is COKING, READY or DOORS_OFF (R14). -/
theorem returnedPhase_idle (s : State) (n : Nat) (stamp : Int) :
    returnedPhase s n stamp ≠ .pushing ∧ returnedPhase s n stamp ≠ .charging := by
  unfold returnedPhase cokingPhase
  repeat' split
  all_goals exact ⟨nofun, nofun⟩

theorem ovenServiceIn_ok {n : Nat} {s : State} (hc : configured s n = true) (hp : (ovenRec s n).phase = .outOfService)
    (elapsed : Nat) : ∃ t, ovenServiceIn n elapsed s = ⟨t, Status.ok, []⟩ ∧
      ovenRec t n = { ovenRec s n with
        phase := returnedPhase s n (s.now - elapsed * 60), stamp := s.now - elapsed * 60, hardPushes := 0,
        ramPeak := 0 } := by
  have hn := configured_range hc
  unfold ovenServiceIn
  rw [hc, if_neg (by nofun), if_neg (Classical.not_not.mpr hp)]
  extract_lets stamp r s1
  have k : Touches [.ovens, .stampLaw] s s1 := setOvenRec_touches _ _ _
  have hr : ovenRec (setPhase n (returnedPhase s1 n stamp) stamp s1) n = { ovenRec s n with
      phase := returnedPhase s n stamp, stamp := stamp, hardPushes := 0, ramPeak := 0 } := by
    rw [ovenRec_setPhase, if_pos ⟨rfl, hn⟩, returnedPhase_kept k, ovenRec_setOvenRec, if_pos ⟨rfl, hn⟩]
  obtain ⟨h1, h2⟩ := returnedPhase_idle s n stamp
  refine ⟨_, rfl, ?_⟩
  rw [settled, ilkSettle_keeps_ovenRec s1 hn (by rw [hr]; exact h1) (by rw [hr]; exact h2), hr]

/-! ## CLEAR CAR -/

/-- A free tower goes to the head of the queue (R87). -/
theorem towerGrant_free {s : State} (h : s.qtc.holder = none) :
    (towerGrant s).qtc.holder = s.qtc.queue.head? ∧ (towerGrant s).qtc.queue = s.qtc.queue.tail := by
  unfold towerGrant
  rw [h]
  cases hq : s.qtc.queue with
  | nil => exact ⟨h, hq⟩
  | cons c rest => exact ⟨rfl, rfl⟩

/-- The state in which the grant that car `c` gives up is passed on (R88, R95). -/
def towerPassed (c : Nat) (s : State) : State :=
  towerGrant ((setCarRec c { carRec s c with reserved := (carRec s c).reserved.filter fun k => !isTower s k } s).onQtc
    fun q => { q with holder := none, entered := false })

theorem towerRelease_eq (c : Nat) (s : State) : towerRelease c s =
    if (carRec (towerPassed c s) c).state = .loaded then towerJoin c (towerPassed c s) else towerPassed c s := rfl

theorem towerPassed_tower (c : Nat) (s : State) :
    (towerPassed c s).qtc.holder = s.qtc.queue.head? ∧ (towerPassed c s).qtc.queue = s.qtc.queue.tail :=
  towerGrant_free rfl

theorem towerPassed_carRec {c : Nat} (hc : 1 ≤ c ∧ c ≤ 2) (s : State) : carRec (towerPassed c s) c =
    { carRec s c with reserved := (carRec s c).reserved.filter fun k => !isTower s k } := by
  unfold carRec towerPassed
  rw [towerGrant_cars]
  exact (carRec_setCarRec c c _ s).trans (if_pos ⟨rfl, hc⟩)

theorem towerRelease_carRec {c : Nat} (hc : 1 ≤ c ∧ c ≤ 2) (s : State) : carRec (towerRelease c s) c =
    { carRec s c with reserved := (carRec s c).reserved.filter fun k => !isTower s k } := by
  rw [towerRelease_eq, ← towerPassed_carRec hc]
  split
  · unfold carRec
    rw [towerJoin_cars]
  · rfl

/-- The grant goes to the head of the queue, whose place a LOADED car takes at the tail (R88). -/
theorem towerRelease_tower {c : Nat} (hc : 1 ≤ c ∧ c ≤ 2) (s : State) :
    (∀ d rest, s.qtc.queue = d :: rest → (towerRelease c s).qtc.holder = some d) ∧
      ((carRec s c).state ≠ .loaded →
        (towerRelease c s).qtc.holder = s.qtc.queue.head? ∧ (towerRelease c s).qtc.queue = s.qtc.queue.tail) := by
  obtain ⟨hh, hq⟩ := towerPassed_tower c s
  have hs : (carRec (towerPassed c s) c).state = (carRec s c).state := by rw [towerPassed_carRec hc]
  rw [towerRelease_eq, hs]
  refine ⟨fun d rest h => ?_, fun hn => ?_⟩
  · rw [h] at hh
    split
    · exact ((towerJoin_joins c _).2 d hh).1
    · exact hh
  · rw [if_neg hn]
    exact ⟨hh, hq⟩

/-- The record of a cleared car (R95). -/
abbrev clearedRec (r : CarRecord) : CarRecord :=
  { r with position := none, occupied := [], reserved := [], move := none, haltRelease := false }

theorem carCleared_eq (c : Nat) (s : State) : carCleared c s =
    if s.qtc.holder = some c then towerRelease c (setCarRec c (clearedRec (carRec s c)) s)
    else setCarRec c (clearedRec (carRec s c)) s := rfl

theorem carCleared_record {c : Nat} (hc : 1 ≤ c ∧ c ≤ 2) (s : State) :
    carRec (carCleared c s) c = clearedRec (carRec s c) := by
  have h : carRec (setCarRec c (clearedRec (carRec s c)) s) c = clearedRec (carRec s c) := by
    rw [carRec_setCarRec, if_pos ⟨rfl, hc⟩]
  rw [carCleared_eq]
  split
  · rw [towerRelease_carRec hc, h]
    rfl
  · exact h

theorem carCleared_tower {c : Nat} (hc : 1 ≤ c ∧ c ≤ 2) (s : State) :
    (s.qtc.holder ≠ some c →
      (carCleared c s).qtc.holder = s.qtc.holder ∧ (carCleared c s).qtc.queue = s.qtc.queue) ∧
    (s.qtc.holder = some c → (∀ d rest, s.qtc.queue = d :: rest → (carCleared c s).qtc.holder = some d) ∧
      ((carRec s c).state ≠ .loaded →
        (carCleared c s).qtc.holder = s.qtc.queue.head? ∧ (carCleared c s).qtc.queue = s.qtc.queue.tail)) := by
  rw [carCleared_eq]
  refine ⟨fun h => ?_, fun h => ?_⟩
  · rw [if_neg h]
    exact ⟨rfl, rfl⟩
  · obtain ⟨h1, h2⟩ := towerRelease_tower hc (setCarRec c (clearedRec (carRec s c)) s)
    rw [carRec_setCarRec, if_pos ⟨rfl, hc⟩] at h2
    rw [if_pos h]
    exact ⟨h1, h2⟩

theorem clearCarRequest_ok {c : Nat} (hc : c = 1 ∨ c = 2) {s : State} (ha : activeAt s (posOfClass s .car c) = false) :
    clearCarRequest c s = ⟨ilkSettle s (carCleared c s), Status.ok, []⟩ := by
  unfold clearCarRequest
  rw [if_neg (by omega), ha]
  rfl

end Sys2Proof.Machine

open Sys2Proof Sys2Proof.Machine

/-- Settles O55: request by request, on the state `requested s`; the ANSWER that follows touches the transmit queue
alone. -/
theorem timeBlockOvenAndCarCommandsAct : Obligations.TimeBlockOvenAndCarCommandsAct := by
  refine ⟨fun w s => ?_, fun b s => ⟨fun hb => ?_, fun hb => ?_⟩, fun n elapsed s hc hp => ?_, fun n s hn => ⟨?_, ?_⟩,
    fun c s hc ha => ?_⟩
  · have k := answer_touches ReqCode.setTime (setTime w.toInt (requested s))
    exact ⟨_, next_arrival _ s, ⟨_, rfl⟩, k.wall_kept, k.now_kept⟩
  · have h := next_arrival (code := ReqCode.setBlock) (size := 2) (setBlock b.toNat) s
    rw [setBlock, if_pos hb] at h
    have k := answer_touches ReqCode.setBlock (okay ((requested s).onSch fun r => { r with block := b.toNat }))
    exact ⟨_, h, ⟨_, rfl⟩, k.runnerTables_kept.2.2.2, k.runRecord_kept⟩
  · have h := next_arrival (code := ReqCode.setBlock) (size := 2) (setBlock b.toNat) s
    rw [setBlock, if_neg (by omega)] at h
    have k := answer_touches ReqCode.setBlock
      ⟨(requested s).onSch fun r => { r with block := 0 }, Status.unsupported, []⟩
    exact ⟨_, h, ⟨_, rfl⟩, k.runnerTables_kept.2.2.2, k.runRecord_kept⟩
  · have h := next_arrival (code := ReqCode.ovenService) (size := 5) (ovenServiceIn n.toNat elapsed.toNat) s
    obtain ⟨t, ht, hr⟩ := ovenServiceIn_ok (s := requested s) hc hp elapsed.toNat
    rw [ht] at h
    exact ⟨_, h, ⟨_, rfl⟩, ((answer_touches _ _).ovenRec_kept _).trans hr⟩
  · obtain ⟨h1, h2, h3⟩ := freezeOvens_freezes true n (requested s) hn
    have h := next_arrival (code := ReqCode.freeze) (size := 2) (freezeOvens true n.toNat) s
    exact ⟨_, h, ⟨_, by rw [← h1, ← h2]⟩, fun m hm hnm => ((answer_touches _ _).ovenRec_kept m).trans (h3 m hm hnm)⟩
  · obtain ⟨h1, h2, h3⟩ := freezeOvens_freezes false n (requested s) hn
    have h := next_arrival (code := ReqCode.unfreeze) (size := 2) (freezeOvens false n.toNat) s
    exact ⟨_, h, ⟨_, by rw [← h1, ← h2]⟩, fun m hm hnm => ((answer_touches _ _).ovenRec_kept m).trans (h3 m hm hnm)⟩
  · have hn : c.toNat = 1 ∨ c.toNat = 2 := hc.imp (congrArg BitVec.toNat) (congrArg BitVec.toNat)
    have h := next_arrival (code := ReqCode.clearCar) (size := 2) (clearCarRequest c.toNat) s
    rw [clearCarRequest_ok (s := requested s) hn ha] at h
    obtain ⟨h1, h2, _⟩ := carCleared_settled hn (requested s)
    have k := answer_touches ReqCode.clearCar
      ⟨ilkSettle (requested s) (carCleared c.toNat (requested s)), Status.ok, []⟩
    have hr : 1 ≤ c.toNat ∧ c.toNat ≤ 2 := by omega
    exact ⟨carCleared c.toNat (requested s), _, h, rfl, (congrArg CarRecord.position (k.carRec_kept _)).trans h1,
      (congrArg CarRecord.occupied (k.carRec_kept _)).trans h2, carCleared_record hr (requested s),
      carCleared_tower hr (requested s)⟩
end

section
/-!
SUPPORT. The LOADs of the eight live tables: what each writes, and the answer of one that names another first entry or
count of a table of one entry (R178).
-/

set_option Elab.async false
namespace Sys2Proof.Machine

open Sys2Proof

/-! ## The answer to a LOAD -/

theorem loadArrival_eq {rule : LoadArgs → State → Reply} {f n : Byte} {es : List Byte} {s : State}
    (hl : es.length ≤ 44) :
    loadArrival rule f n es s = answer ReqCode.load (rule ⟨f.toNat, n.toNat, es⟩ (requested s)) :=
  mgmtArrival_requested _ s (hs := by omega)

/-- What the rule of an accepted LOAD leaves stands when its answer is queued. -/
theorem load_writes {rule : LoadArgs → State → Reply} {f n : Byte} {es : List Byte} {s : State} {P : State → Prop}
    (hl : es.length ≤ 44) (hP : ∀ {w t : State}, Touches [.transmit] w t → P w → P t)
    (h : ∃ w, rule ⟨f.toNat, n.toNat, es⟩ (requested s) = okay w ∧ P w) :
    ∃ t, Host.Outcome.next (loadArrival rule f n es s) = (.next t : Host.Outcome State Fault Refusal) ∧
      Answered ReqCode.load Status.ok [] t ∧ P t := by
  obtain ⟨w, hw, hp⟩ := h
  refine ⟨_, rfl, ?_⟩
  rw [loadArrival_eq hl, hw]
  exact ⟨answered_answer ReqCode.load (okay w), hP (answer_touches _ (okay w)) hp⟩

/-! ## The rules of the live tables -/

theorem loadTiming_writes {a : LoadArgs} {s : State} {v : Timing} (hl : a.entries.length = 11) (hf : a.first = 1)
    (hn : a.count = 1) (hp : parseTiming a.entries = some v)
    (ht : s.mgt.mode = .service → ∀ x ∈ tolerances v, fitsPitch s x.2 = true) :
    ∃ w, loadTiming a s = okay w ∧ w.ovt.timing = v := by
  have hfit : ¬ (decide (s.mgt.mode = .service) && !((tolerances v).all fun x => fitsPitch s x.2)) = true := by
    simpa using ht
  unfold loadTiming
  rw [loadOne_ok (by nofun) hl hf hn hp]
  extract_lets b ovens s1 s2 s3 s4
  rw [if_neg hfit]
  have h2 : Touches phaseAspects s1 s2 :=
    .ite (fun _ => .refl _ _) (fun _ => Touches.foldl _ (fun u n => recomputeReady_touches n u) _)
  have h3 : Touches phaseAspects s2 s3 := .ite (fun _ => .refl _ _) (fun _ => (oprDeriveAll_touches _ _).mono)
  have h4 : Touches (.align :: cutAspects) s3 s4 := (evaluateAll_touches _).mono.seq (ilkSettle_touches _ _).mono
  have h : Touches (.align :: cutAspects) s1 (if alignChanged b s4 then schAlignChange s4 else s4) :=
    h2.mono.seq (h3.mono.seq (.ite (fun _ => h4.seq (schAlignChange_touches _).mono) (fun _ => h4)))
  exact ⟨_, rfl, h.ovenTables_kept.2⟩

theorem loadSeries_writes {a : LoadArgs} {s : State} {l : List SeriesEntry} (hl : a.entries.length = a.count * 3)
    (hr : runEngaged s = false) (h0 : a.first ≠ 0) (hf : a.first ≤ s.sch.length + 1) (hn : a.first + a.count ≤ 129)
    (hp : parseAll parseSeries (rows 3 a.count a.entries) = some l)
    (hc : s.mgt.mode = .service → ∀ e ∈ l, configured s e.oven = true) :
    let k := if a.count = 0 then a.first - 1 else max s.sch.length (a.first + a.count - 1)
    noRepeat (((writeFrom s.sch.series (a.first - 1) l).toList.take k).map SeriesEntry.oven) = true →
    loadSeries a s =
      okay (s.onSch fun r => { r with series := writeFrom s.sch.series (a.first - 1) l, length := k }) := by
  intro k hk
  have hnamed : ¬ (decide (s.mgt.mode = .service) && !l.all fun e => configured s e.oven) = true := by
    simpa using hc
  have hrange : ¬ (decide (a.first = 0) || decide (s.sch.length + 1 < a.first) ||
      decide (129 < a.first + a.count)) = true := by
    simp [h0, hf, hn]
  have hng : ¬ runEngaged s = true := by rw [hr]; nofun
  unfold loadSeries
  rw [loadCheck_ok (by nofun) hl]
  dsimp only
  rw [if_neg hng, if_neg hrange, hp]
  dsimp only
  rw [if_neg hnamed]
  exact if_neg (by rw [hk]; nofun)

theorem loadStepTiming_writes {a : LoadArgs} {s : State} {v : StepTiming} (hl : a.entries.length = 17)
    (hf : a.first = 1) (hn : a.count = 1) (hp : parseStep a.entries = some v) :
    ∃ w, loadStepTiming a s = okay w ∧ w.sch.timing = v := by
  unfold loadStepTiming
  rw [loadOne_ok (by nofun) hl hf hn hp]
  extract_lets changed s1 s2
  have h2 : Touches (.watch :: cutAspects) s1 s2 :=
    .ite (fun _ => (silenceRestart_touches _).mono) (fun _ => .refl _ _)
  have h3 : Touches cutAspects s2 (settled (fun s => latenessTest (leadInstant s)) s2) :=
    settled_touches ((leadInstant_touches _).mono.seq (latenessTest_touches _).mono)
  have h : Touches (.watch :: cutAspects) s1 (dsmFreeBoth (settled (fun s => latenessTest (leadInstant s)) s2)) :=
    h2.seq (h3.mono.seq (dsmFreeBoth_touches _).mono)
  exact ⟨_, rfl, h.runnerTables_kept.2.2.1⟩

theorem loadTrackTiming_writes {a : LoadArgs} {s : State} {v : TrackTiming} (hl : a.entries.length = 6)
    (hf : a.first = 1) (hn : a.count = 1) (hp : parseTrack a.entries = some v) :
    ∃ w, loadTrackTiming a s = okay w ∧ w.qtc.timing = v := by
  unfold loadTrackTiming
  rw [loadOne_ok (by nofun) hl hf hn hp]
  exact ⟨_, rfl, ((carHot_touches 1 _).seq (carHot_touches 2 _)).trackTables_kept.2.2.2⟩

theorem loadSealConfig_writes {a : LoadArgs} {s : State} {v : SealConfig} (hl : a.entries.length = 8)
    (hf : a.first = 1) (hn : a.count = 1) (hp : parseSeal a.entries = some v) :
    ∃ w, loadSealConfig a s = okay w ∧ w.dsm.config = v := by
  unfold loadSealConfig
  rw [loadOne_ok (by nofun) hl hf hn hp]
  exact ⟨_, rfl, ((sealAll_touches _).seq (dsmFreeBoth_touches _).mono).sealTable_kept⟩

/-- Every valve stands within the limits of its mode after the pressure mode table is written (R118). -/
theorem loadModes_writes {a : LoadArgs} {s : State} {l : List ModeEntry} (hl : a.entries.length = a.count * 7)
    (hn : a.first + a.count ≤ 5) (hp : parseAll parseMode (rows 7 a.count a.entries) = some l) :
    ∃ w, loadModes a s = okay w ∧ w.opr.modes = writeFrom s.opr.modes a.first l ∧
      ∀ m, 1 ≤ m → m ≤ 128 → (regRec w m).valve = clampValve (modeEntry w (regRec s m).mode) (regRec s m).valve := by
  unfold loadModes
  rw [loadMany_ok (by nofun) hl (by simpa [fitsFrom0] using hn) hp]
  let s1 := s.onOpr fun o => { o with modes := writeFrom o.modes a.first l }
  have h : Touches [.regs, .dirty] s1 (oprClampAll s1) := oprClampAll_touches s1
  have hmodes : (oprClampAll s1).opr.modes = s1.opr.modes := h.regTables_kept.1
  have hentry : ∀ x, modeEntry (oprClampAll s1) x = modeEntry s1 x := fun x => by unfold modeEntry; rw [hmodes]
  refine ⟨oprClampAll s1, rfl, hmodes, fun m h1 h2 => ?_⟩
  rw [hentry]
  unfold oprClampAll
  exact foldClamp_valve m ⟨h1, h2⟩ (modeEntry s1) (regRec s m).mode (regRec s m).valve allOvens s1 (fun _ => rfl) rfl
    (.inl ⟨rfl, mem_allOvens ⟨h1, h2⟩⟩)

theorem loadRegulator_writes {a : LoadArgs} {s : State} {v : RegConfig} (hl : a.entries.length = 17)
    (hf : a.first = 1) (hn : a.count = 1) (hp : parseReg a.entries = some v)
    (hw : (weights v).any (· ≠ 0) = true) : ∃ w, loadRegulator a s = okay w ∧ w.opr.config = v := by
  have hz : ¬ ((weights v).all (· = 0)) = true := by simpa using hw
  unfold loadRegulator
  rw [loadOne_ok (by nofun) hl hf hn hp, if_neg hz]
  exact ⟨_, rfl, ((oprReweigh_touches _).mono.seq (ilkSettle_touches _ _)).regTables_kept.2⟩

theorem loadMask_writes {a : LoadArgs} {s : State} (hl : a.entries.length = 3) (hf : a.first = 1) (hn : a.count = 1) :
    ∃ w, loadMask a s = okay w ∧ w.mgt.enabled = parseMask a.entries := by
  unfold loadMask
  rw [loadOne_ok (v := parseMask a.entries) (by nofun) hl hf hn rfl]
  exact ⟨_, rfl, rfl⟩

theorem toNat_ne_one {b : Byte} (h : b ≠ 1#8) : b.toNat ≠ 1 :=
  fun hb => h (BitVec.eq_of_toNat_eq hb)

/-- A LOAD of a table of one entry that names another first entry or count (R178). -/
theorem loadSingle_badRange {rule : LoadArgs → State → Reply} {f n : Byte} {es : List Byte} {s : State}
    (hl : es.length ≤ 44)
    (h : ∀ a u, a.first ≠ 1 ∨ a.count ≠ 1 → rule a u = refuse Status.badRange u) (hfn : f ≠ 1#8 ∨ n ≠ 1#8) :
    loadArrival rule f n es s = answer ReqCode.load ⟨requested s, Status.badRange, []⟩ := by
  rw [loadArrival_eq hl, h _ _ (hfn.imp toNat_ne_one toNat_ne_one)]
  rfl

end Sys2Proof.Machine

open Sys2Proof Sys2Proof.Machine

/-- Settles O60: each rule writes its table, and what follows the writing keeps it. -/
theorem liveLoadsWriteTheirTables : Obligations.LiveLoadsWriteTheirTables := by
  intro f n es s hlen
  refine ⟨?timing, ?series, ?step, ?track, ?sealing, ?modes, ?regulator, ?mask, ?single⟩
  case timing =>
    rintro v hl rfl rfl hp ht
    exact load_writes (P := fun t => t.ovt.timing = v) hlen (fun k h => k.ovenTables_kept.2.trans h)
      (loadTiming_writes hl rfl rfl hp ht)
  case series =>
    intro l hl hr h0 hf hn hp hc k hk
    have hn0 : n = 0#8 ↔ n.toNat = 0 := ⟨fun h => h ▸ rfl, fun h => BitVec.eq_of_toNat_eq h⟩
    have hkn : k = if n.toNat = 0 then f.toNat - 1 else max s.sch.length (f.toNat + n.toNat - 1) :=
      ite_congr (propext hn0) (fun _ => rfl) (fun _ => rfl)
    have hf0 : f.toNat ≠ 0 := fun h => h0 (BitVec.eq_of_toNat_eq h)
    have hrule := loadSeries_writes (a := ⟨f.toNat, n.toNat, es⟩) (s := requested s) hl hr hf0 hf hn hp hc (hkn ▸ hk)
    exact load_writes (P := fun t => t.sch.series = writeFrom s.sch.series (f.toNat - 1) l ∧ t.sch.length = k) hlen
      (fun q h => ⟨q.runnerTables_kept.1.trans h.1, q.runnerTables_kept.2.1.trans h.2⟩) ⟨_, hrule, rfl, hkn.symm⟩
  case step =>
    rintro v hl rfl rfl hp
    exact load_writes (P := fun t => t.sch.timing = v) hlen (fun k h => k.runnerTables_kept.2.2.1.trans h)
      (loadStepTiming_writes hl rfl rfl hp)
  case track =>
    rintro v hl rfl rfl hp
    exact load_writes (P := fun t => t.qtc.timing = v) hlen (fun k h => k.trackTables_kept.2.2.2.trans h)
      (loadTrackTiming_writes hl rfl rfl hp)
  case sealing =>
    rintro v hl rfl rfl hp
    exact load_writes (P := fun t => t.dsm.config = v) hlen (fun k h => k.sealTable_kept.trans h)
      (loadSealConfig_writes hl rfl rfl hp)
  case modes =>
    intro l hl hn hp
    refine load_writes (P := fun t => t.opr.modes = writeFrom s.opr.modes f.toNat l ∧
        ∀ m, 1 ≤ m → m ≤ 128 → (regRec t m).valve = clampValve (modeEntry t (regRec s m).mode) (regRec s m).valve)
      hlen (fun {w t} k h => ⟨k.regTables_kept.1.trans h.1, fun m h1 h2 => ?_⟩) (loadModes_writes hl hn hp)
    have he : ∀ x, modeEntry t x = modeEntry w x := fun x => by unfold modeEntry; rw [k.regTables_kept.1]
    rw [k.regRec_kept m, he]
    exact h.2 m h1 h2
  case regulator =>
    rintro v hl rfl rfl hp hw
    exact load_writes (P := fun t => t.opr.config = v) hlen (fun k h => k.regTables_kept.2.trans h)
      (loadRegulator_writes hl rfl rfl hp hw)
  case mask =>
    rintro hl rfl rfl
    exact load_writes (P := fun t => t.mgt.enabled = parseMask es) hlen (fun k h => k.mask_kept.trans h)
      (loadMask_writes hl rfl rfl)
  case single =>
    intro c hc hfn
    simp only [List.mem_cons, List.not_mem_nil, or_false] at hc
    rcases hc with rfl | rfl | rfl | rfl | rfl | rfl
    all_goals exact congrArg Host.Outcome.next (loadSingle_badRange hlen (fun _ _ => loadOne_badRange) hfn)

end

section
/-!
SUPPORT. The LOADs of the nine guarded tables: what each writes outside SERVICE, and the answer in SERVICE (R178).
-/

set_option Elab.async false
namespace Sys2Proof.Machine

open Sys2Proof

/-! ## The answer in SERVICE -/

theorem loadDispatch_guarded {a : LoadArgs} {s : State} (hm : s.mgt.mode = .service) :
    loadDispatch a s = refuse Status.guarded s := loadMany_guarded hm

theorem loadSelectors_guarded {a : LoadArgs} {s : State} (hm : s.mgt.mode = .service) :
    loadSelectors a s = refuse Status.guarded s := loadMany_guarded hm

theorem loadLine_guarded {a : LoadArgs} {s : State} (hm : s.mgt.mode = .service) :
    loadLine a s = refuse Status.guarded s := loadOne_guarded hm

theorem loadOvens_guarded {a : LoadArgs} {s : State} (hm : s.mgt.mode = .service) :
    loadOvens a s = refuse Status.guarded s := loadMany_guarded hm

theorem loadCars_guarded {a : LoadArgs} {s : State} (hm : s.mgt.mode = .service) :
    loadCars a s = refuse Status.guarded s := loadMany_guarded hm

/-- The rule of a guarded table refuses in SERVICE. -/
theorem guardedLoad_rule {c : Instr} {r : Request} (hg : guardedLoad c = true) (hr : requestOf c = some r) :
    r.code = ReqCode.load ∧ (∀ s, exec c s = .next (mgmtArrival r.code r.size r.rule s)) ∧
      ∀ s, s.mgt.mode = .service → r.rule s = refuse Status.guarded s := by
  cases c <;> cases hg <;> cases hr <;> refine ⟨rfl, fun _ => rfl, fun s hm => ?_⟩
  case loadDispatchTable => exact loadDispatch_guarded hm
  case loadSelectorParameters => exact loadSelectors_guarded hm
  case loadFieldLineSettings => exact loadLine_guarded hm
  case loadPollList => exact loadPoll_guarded hm
  case loadOvenConfiguration => exact loadOvens_guarded hm
  case loadOvenstate => exact loadOvenState_guarded hm
  case loadPermitTable => exact loadPermits_guarded hm
  case loadSegmentTable => exact loadSegments_guarded hm
  case loadCarConfiguration => exact loadCars_guarded hm

theorem exec_guardedLoad {c : Instr} {r : Request} {s : State} (hg : guardedLoad c = true) (hr : requestOf c = some r)
    (hz : r.size ≤ 48) (hm : s.mgt.mode = .service) :
    exec c s = .next (answer ReqCode.load ⟨requested s, Status.guarded, []⟩) := by
  obtain ⟨hcode, hexec, hrule⟩ := guardedLoad_rule hg hr
  rw [hexec, hcode, mgmtArrival_requested r.rule s (hs := hz), hrule (requested s) hm]
  rfl

/-! ## The rules of the guarded tables -/

section
variable {a : LoadArgs} {s : State}

theorem loadDispatch_writes {l : List DispatchEntry} (hm : s.mgt.mode ≠ .service)
    (hl : a.entries.length = a.count * 8) (hn : a.first + a.count ≤ 256)
    (hp : parseAll parseDispatch (rows 8 a.count a.entries) = some l) :
    ∃ w, loadDispatch a s = okay w ∧ w.cls.dispatch = writeFrom s.cls.dispatch a.first l := by
  unfold loadDispatch
  rw [loadMany_ok (fun _ => hm) hl (by simpa [fitsFrom0] using hn) hp]
  exact ⟨_, rfl, rfl⟩

theorem loadSelectors_writes {l : List Selector} (hm : s.mgt.mode ≠ .service)
    (hl : a.entries.length = a.count * 3) (hf : a.first ≤ 1) (hn : a.first + a.count ≤ 2)
    (hp : parseAll parseSelector (rows 3 a.count a.entries) = some l) :
    ∃ w, loadSelectors a s = okay w ∧ w.cls = writePorts a.first l s.cls := by
  unfold loadSelectors
  rw [loadMany_ok (fun _ => hm) hl (by simp [fitsFrom0, hf, hn]) hp]
  exact ⟨_, rfl, rfl⟩

theorem loadLine_writes {l : LineSettings} (hm : s.mgt.mode ≠ .service) (hl : a.entries.length = 6)
    (hf : a.first = 1) (hn : a.count = 1) (hp : parseLine a.entries = some l) :
    ∃ w, loadLine a s = okay w ∧ w.fpl.settings = l := by
  unfold loadLine
  rw [loadOne_ok (fun _ => hm) hl hf hn hp]
  exact ⟨_, rfl, rfl⟩

/-- The poll list after a LOAD; a count of 0 rewrites no position (R160). -/
theorem loadPoll_writes {l : List PollEntry} (hm : s.mgt.mode ≠ .service) (hl : a.entries.length = a.count * 3)
    (h0 : a.first ≠ 0) (hf : a.first ≤ s.fpl.length + 1) (hn : a.first + a.count ≤ 25)
    (hp : parseAll parsePoll (rows 3 a.count a.entries) = some l) :
    let k := if a.count = 0 then s.fpl.length else max s.fpl.length (a.first + a.count - 1)
    distinctStations ((writeFrom s.fpl.list (a.first - 1) l).toList.take k) = true →
    ∃ w, loadPoll a s = okay w ∧ w.fpl.list = writeFrom s.fpl.list (a.first - 1) l ∧ w.fpl.length = k ∧
      w.mgt.validity.pollList = decide (1 ≤ k) ∧ (l = [] → w.fpl.stations = s.fpl.stations) := by
  intro k hk
  unfold loadPoll
  rw [loadMany_ok (fun _ => hm) hl (by simp [h0, hf, hn]) hp]
  extract_lets list s1 s2 s3
  rw [if_neg (by rw [show distinctStations (list.toList.take k) = true from hk]; nofun)]
  have h3 : Touches roundAspects s3 (if s3.fpl.exchange.isNone then roundOn s3 else s3) :=
    .ite (fun _ => roundOn_touches _) (fun _ => .refl _ _)
  have hstations : l = [] → s3.fpl.stations = s.fpl.stations := by rintro rfl; rfl
  exact ⟨_, rfl, h3.pollTables_kept.1, h3.pollTables_kept.2.1, congrArg Validity.pollList h3.validity_kept,
    fun h => h3.stations_kept.trans (hstations h)⟩

/-- What a written configuration leaves of each oven it names (R1, R2). -/
def OvensWritten (s : State) (first : Nat) (l : List OvenConfig) (t : State) : Prop :=
  ∀ (k : Nat) (c : OvenConfig), l[k]? = some c → ovenConfig t (first + k) = some c ∧
    ovenRec t (first + k) =
      writtenRec (ovenConfig s (first + k)) c s.now (readyInstant t (first + k)) (ovenRec s (first + k))

theorem OvensWritten.kept {first : Nat} {l : List OvenConfig} {m : List Aspect} {w t : State} (k : Touches m w t)
    (h : OvensWritten s first l w) (h1 : Aspect.ovens ∉ m := by decide) (h2 : Aspect.ovenTables ∉ m := by decide) :
    OvensWritten s first l t := by
  intro i c hi
  obtain ⟨hc, hr⟩ := h i c hi
  have hready : readyInstant t (first + i) = readyInstant w (first + i) :=
    readyInstant_kept (congrArg OvenRecord.stamp (k.ovenRec_kept _ h1)) (ovenConfig_kept k _ h2)
      (k.ovenTables_kept h2).2
  rw [ovenConfig_kept k _ h2, k.ovenRec_kept _ h1, hready]
  exact ⟨hc, hr⟩

theorem loadOvens_writes {l : List OvenConfig} (hm : s.mgt.mode ≠ .service) (hl : a.entries.length = a.count * 8)
    (h0 : a.first ≠ 0) (hn : a.first + a.count ≤ 129) (hp : parseAll parseOven (rows 8 a.count a.entries) = some l) :
    ∃ w, loadOvens a s = okay w ∧ OvensWritten s a.first l w := by
  unfold loadOvens
  rw [loadMany_ok (fun _ => hm) hl (by simp [fitsFrom1, h0, hn]) hp]
  extract_lets b s1
  have hlen : l.length = a.count := (parseAll_length hp).trans (rows_length _ _ _)
  have hwritten : OvensWritten s a.first l s1 := fun k c hk => by
    have hlt : k < l.length := (List.getElem?_eq_some_iff.mp hk).1
    have hrange : 1 ≤ a.first + k ∧ a.first + k ≤ 128 := by omega
    exact ⟨foldWriteOven_config _ _ hrange l 0 s c (.inl ⟨k, hk, by omega⟩),
      foldWriteOven_ovenRec _ _ hrange l 0 s k c hk (by omega)⟩
  have h : Touches [.dirty, .align, .validity] s1 (testOvens (evaluateAll (markMoved b s1))) :=
    (markMoved_touches _ _).mono.seq ((evaluateAll_touches _).mono.seq (testOvens_touches _).mono)
  exact ⟨_, rfl, hwritten.kept h⟩

theorem loadOvenState_writes {l : List (Phase × Nat)} (hm : s.mgt.mode ≠ .service)
    (hl : a.entries.length = a.count * 3)
    (hk : ∀ k, k < a.count → configured s (a.first + k) = true ∧
      (ovenRec s (a.first + k)).phase ≠ .pushing ∧ (ovenRec s (a.first + k)).phase ≠ .charging)
    (hp : parseAll parseOvenState (rows 3 a.count a.entries) = some l) :
    ∃ w, loadOvenState a s = okay w ∧ ∀ (k : Nat) (e : Phase × Nat), l[k]? = some e →
      ovenRec w (a.first + k) = { ovenRec s (a.first + k) with
        phase := if e.1 = .coking ∨ e.1 = .ready then returnedPhase s (a.first + k) (s.now - e.2 * 60) else e.1
        stamp := s.now - e.2 * 60 } := by
  have hall : ((List.range a.count).map (a.first + ·)).all (configured s) = true := by
    simp only [List.all_map, List.all_eq_true, List.mem_range]
    exact fun k h => (hk k h).1
  have hidle : ¬ (((List.range a.count).map (a.first + ·)).any fun n =>
      (ovenRec s n).phase = .pushing || (ovenRec s n).phase = .charging) = true := by
    simp only [List.any_map, List.any_eq_true, List.mem_range, not_exists, not_and]
    intro k h
    simp [(hk k h).2.1, (hk k h).2.2]
  unfold loadOvenState
  extract_lets named
  rw [loadCheck_ok (fun _ => hm) hl]
  dsimp only
  rw [if_neg (by rw [hall]; nofun), hp]
  dsimp only
  rw [if_neg hidle]
  have hlen : l.length = a.count := (parseAll_length hp).trans (rows_length _ _ _)
  refine ⟨_, rfl, fun k e he => ?_⟩
  have hlt : k < l.length := (List.getElem?_eq_some_iff.mp he).1
  exact foldOvenState_ovenRec _ _ (configured_range (hk k (by omega)).1) s l 0 s e (.refl _ _)
    (.inl ⟨⟨k, he, by omega⟩, rfl⟩)

theorem loadPermits_writes (hm : s.mgt.mode ≠ .service) (hl : a.entries.length = a.count * 4) (h0 : a.first ≠ 0)
    (hn : a.first + a.count ≤ 9) :
    let l := ((rows 4 a.count a.entries).zipIdx).map fun r => parsePermit (addableFrom a.first r.2) r.1
    l.all Option.isSome = true →
    ∃ w, loadPermits a s = okay w ∧ w.ilk.table = writeFrom s.ilk.table (a.first - 1) l := by
  intro l hsome
  have hany : l.any Option.isNone = false := by
    rw [List.any_eq_false]
    intro x hx
    have hxs := List.all_eq_true.mp hsome x hx
    cases x with
    | none => exact nomatch hxs
    | some _ => nofun
  unfold loadPermits
  rw [loadCheck_ok (fun _ => hm) hl]
  dsimp only
  rw [if_neg (by rw [show (List.any _ Option.isNone) = false from hany]; simp [fitsFrom1, h0, hn])]
  exact ⟨_, rfl, rfl⟩

/-- The segment table after a LOAD: a count of 0 shortens it (R73), and both cars are seated afresh. -/
theorem loadSegments_writes {l : List Segment} (hm : s.mgt.mode ≠ .service) (hl : a.entries.length = a.count * 10)
    (h0 : a.first ≠ 0) (hf : a.first ≤ s.qtc.count + 1) (hn : a.first + a.count ≤ 33)
    (hp : parseAll parseSegment (rows 10 a.count a.entries) = some l) :
    let k := if a.count = 0 then a.first - 1 else max s.qtc.count (a.first + a.count - 1)
    ∃ w, loadSegments a s = okay w ∧ w.qtc.segments = writeFrom s.qtc.segments (a.first - 1) l ∧ w.qtc.count = k ∧
      w.mgt.validity.segments = decide (1 ≤ k) ∧
      ∀ c, (c = 1 ∨ c = 2) → (carRec w c).reserved = [] ∧ (carRec w c).move = none := by
  intro k
  unfold loadSegments
  rw [loadMany_ok (fun _ => hm) hl (by simp [h0, hf, hn]) hp]
  extract_lets s1 s2
  have hseated : Touches [.cars, .places] s1 (carReseated 2 (carReseated 1 s1)) :=
    (carReseated_touches 1 s1).seq (carReseated_touches 2 _)
  have hentered : Touches [.tower, .validity] (carReseated 2 (carReseated 1 s1))
      (onValidity (fun v => { v with segments := 1 ≤ k }) s2) :=
    (testEntered_touches _).mono.seq (onValidity_touches _ _).mono
  have h : Touches [.cars, .places, .tower, .validity] s1 (onValidity (fun v => { v with segments := 1 ≤ k }) s2) :=
    hseated.mono.seq hentered.mono
  refine ⟨_, rfl, h.trackTables_kept.1, h.trackTables_kept.2.1, rfl, fun c hc => ?_⟩
  rw [hentered.carRec_kept c]
  rcases hc with rfl | rfl
  · exact carReseated_keeps_empty 2 1 _ (carReseated_empty 1 s1 ⟨by decide, by decide⟩)
  · exact carReseated_empty 2 _ ⟨by decide, by decide⟩

theorem loadCars_writes {l : List CarConfig} (hm : s.mgt.mode ≠ .service) (hl : a.entries.length = a.count * 4)
    (h0 : a.first ≠ 0) (hn : a.first + a.count ≤ 3) (hp : parseAll parseCar (rows 4 a.count a.entries) = some l) :
    ∃ w, loadCars a s = okay w ∧ ∀ (k : Nat) (c : CarConfig), l[k]? = some c → carConfig w (a.first + k) = some c := by
  unfold loadCars
  rw [loadMany_ok (fun _ => hm) hl (by simp [fitsFrom1, h0, hn]) hp]
  have hlen : l.length = a.count := (parseAll_length hp).trans (rows_length _ _ _)
  refine ⟨_, rfl, fun k c hk => ?_⟩
  have hlt : k < l.length := (List.getElem?_eq_some_iff.mp hk).1
  exact foldCars_config _ _ (by omega) l 0 s c (.inl ⟨k, hk, by omega⟩)

end

end Sys2Proof.Machine

open Sys2Proof Sys2Proof.Machine

/-- Settles O59: in SERVICE each guarded rule refuses; outside it each writes its table, and what follows the writing
keeps it. -/
theorem guardedLoadsWriteTheirTables : Obligations.GuardedLoadsWriteTheirTables := by
  refine ⟨fun c r s => exec_guardedLoad, fun f n es s hlen hm => ?_⟩
  have hf0 : f ≠ 0#8 → f.toNat ≠ 0 := fun h hf => h (BitVec.eq_of_toNat_eq hf)
  have hn0 : n ≠ 0#8 → n.toNat ≠ 0 := fun h hn => h (BitVec.eq_of_toNat_eq hn)
  have hm : (requested s).mgt.mode ≠ .service := hm
  refine ⟨?dispatch, ?selectors, ?line, ?poll, ?pollNone, ?ovens, ?ovenState, ?permits, ?segments, ?segmentsNone, ?cars⟩
  case dispatch =>
    intro l hl hn hp
    exact load_writes (P := fun t => t.cls.dispatch = writeFrom s.cls.dispatch f.toNat l) hlen
      (fun k h => (congrArg Classifier.dispatch k.classifier_kept).trans h) (loadDispatch_writes hm hl hn hp)
  case selectors =>
    intro l hl hf hn hp
    exact load_writes (P := fun t => t.cls = writePorts f.toNat l s.cls) hlen (fun k h => k.classifier_kept.trans h)
      (loadSelectors_writes hm hl hf hn hp)
  case line =>
    rintro l hl rfl rfl hp
    exact load_writes (P := fun t => t.fpl.settings = l) hlen (fun k h => k.pollTables_kept.2.2.trans h)
      (loadLine_writes hm hl rfl rfl hp)
  case poll =>
    intro l hl h0 hf hn hc hp hd
    have hk : (if n.toNat = 0 then s.fpl.length else max s.fpl.length (f.toNat + n.toNat - 1)) = _ := if_neg (hn0 hc)
    obtain ⟨w, hw, h1, h2, h3, -⟩ :=
      loadPoll_writes (a := ⟨f.toNat, n.toNat, es⟩) (s := requested s) hm hl (hf0 h0) hf hn hp
        ((congrArg (fun k => distinctStations (List.take k _)) hk).trans hd)
    have hpos : 1 ≤ max s.fpl.length (f.toNat + n.toNat - 1) := by have := hf0 h0; have := hn0 hc; omega
    refine load_writes (P := fun t => t.fpl.list = writeFrom s.fpl.list (f.toNat - 1) l ∧
        t.fpl.length = max s.fpl.length (f.toNat + n.toNat - 1) ∧ t.mgt.validity.pollList = true) hlen
      (fun k h => ?_) ⟨w, hw, h1, h2.trans hk, h3.trans (decide_eq_true (Nat.le_trans hpos (Nat.le_of_eq hk.symm)))⟩
    rw [k.pollTables_kept.1, k.pollTables_kept.2.1, k.validity_kept]
    exact h
  case pollNone =>
    rintro rfl h0 hf hn rfl hd
    obtain ⟨w, hw, h1, h2, -, h4⟩ :=
      loadPoll_writes (a := ⟨f.toNat, 0, []⟩) (s := requested s) (l := []) hm rfl (hf0 h0) hf hn rfl hd
    refine load_writes (P := fun t => t.fpl.list = s.fpl.list ∧ t.fpl.length = s.fpl.length ∧
      t.fpl.stations = s.fpl.stations) hlen (fun k h => ?_) ⟨w, hw, h1, h2, h4 rfl⟩
    rw [k.pollTables_kept.1, k.pollTables_kept.2.1, k.stations_kept]
    exact h
  case ovens =>
    intro l hl h0 hn hp
    obtain ⟨t, ht, hanswered, hwritten⟩ := load_writes (P := OvensWritten (requested s) f.toNat l) hlen
      (fun k h => h.kept k) (loadOvens_writes hm hl (hf0 h0) hn hp)
    refine ⟨t, ht, hanswered, fun k c hk => ?_⟩
    obtain ⟨hconfig, hrec⟩ := hwritten k c hk
    refine ⟨hconfig, fun hnone => ?_, fun o ho => ?_⟩
    · rw [show ovenConfig (requested s) _ = none from hnone] at hrec
      exact hrec
    · rw [show ovenConfig (requested s) _ = some o from ho] at hrec
      exact hrec
  case ovenState =>
    intro l hl hk hp
    refine load_writes (P := fun t => ∀ (k : Nat) (e : Phase × Nat), l[k]? = some e →
        ovenRec t (f.toNat + k) = { ovenRec s (f.toNat + k) with
          phase := if e.1 = .coking ∨ e.1 = .ready then returnedPhase s (f.toNat + k) (s.now - e.2 * 60) else e.1
          stamp := s.now - e.2 * 60 }) hlen (fun q h k e he => ?_) (loadOvenState_writes hm hl hk hp)
    exact (q.ovenRec_kept _).trans (h k e he)
  case permits =>
    intro hl h0 hn l hsome
    exact load_writes (P := fun t => t.ilk.table = writeFrom s.ilk.table (f.toNat - 1) l) hlen
      (fun k h => k.permitTable_kept.trans h) (loadPermits_writes hm hl (hf0 h0) hn hsome)
  case segments =>
    intro l hl h0 hf hn hc hp
    have hk : (if n.toNat = 0 then f.toNat - 1 else max s.qtc.count (f.toNat + n.toNat - 1)) = _ := if_neg (hn0 hc)
    obtain ⟨w, hw, h1, h2, -, h4⟩ :=
      loadSegments_writes (a := ⟨f.toNat, n.toNat, es⟩) (s := requested s) hm hl (hf0 h0) hf hn hp
    refine load_writes (P := fun t => t.qtc.segments = writeFrom s.qtc.segments (f.toNat - 1) l ∧
        t.qtc.count = max s.qtc.count (f.toNat + n.toNat - 1) ∧
        ∀ c, (c = 1 ∨ c = 2) → (carRec t c).reserved = [] ∧ (carRec t c).move = none) hlen
      (fun {w t} k h => ?_) ⟨w, hw, h1, h2.trans hk, h4⟩
    simp only [k.carRec_kept, k.trackTables_kept.1, k.trackTables_kept.2.1]
    exact h
  case segmentsNone =>
    rintro rfl h0 hf hn rfl
    refine load_writes (P := fun t => t.qtc.segments = s.qtc.segments ∧ t.qtc.count = f.toNat - 1 ∧
        t.mgt.validity.segments = decide (1 ≤ f.toNat - 1) ∧
        ∀ c, (c = 1 ∨ c = 2) → (carRec t c).reserved = [] ∧ (carRec t c).move = none) hlen
      (fun {w t} k h => ?_)
      (loadSegments_writes (a := ⟨f.toNat, 0, []⟩) (s := requested s) (l := []) hm rfl (hf0 h0) hf hn rfl)
    simp only [k.carRec_kept, k.trackTables_kept.1, k.trackTables_kept.2.1, k.validity_kept]
    exact h
  case cars =>
    intro l hl h0 hn hp
    refine load_writes (P := fun t => ∀ (k : Nat) (c : CarConfig), l[k]? = some c →
        carConfig t (f.toNat + k) = some c) hlen (fun q h k c hk => ?_) (loadCars_writes hm hl (hf0 h0) hn hp)
    unfold carConfig
    rw [q.trackTables_kept.2.2.1]
    exact h k c hk

end

section
/-!
SUPPORT. A POSITION of an ACTIVE station: its record, its alignment entry, and the change that the runner looks at
(R162, R16, R17, R57, R58).
-/

set_option Elab.async false
namespace Sys2Proof.Machine

open Sys2Proof

/-! ## The alignment entry (R16, R17) -/

theorem centreOf_kept {l : List Aspect} {s t : State} (h : Touches l s t) (n : Nat)
    (ha : Aspect.ovenTables ∉ l := by decide) : centreOf t n = centreOf s n := by
  unfold centreOf
  rw [ovenConfig_kept h n ha]

theorem configured_kept {l : List Aspect} {s t : State} (h : Touches l s t) (n : Nat)
    (ha : Aspect.ovenTables ∉ l := by decide) : configured t n = configured s n :=
  congrArg Option.isSome (ovenConfig_kept h n ha)

theorem standsAt_kept {l : List Aspect} {s t : State} (h : Touches l s t) (c : StationClass) (p n : Nat)
    (ha : Aspect.ovenTables ∉ l := by decide) : StandsAt t c p n ↔ StandsAt s c p n := by
  unfold StandsAt
  rw [configured_kept h n ha, centreOf_kept h n ha, (h.ovenTables_kept ha).2]

theorem evaluated_machine {s : State} {p pos : Nat} (hm : (pollEntry s p).cls.isMachine = true)
    (hp : (station s p).lastPos = some pos) :
    evaluated s p =
      { oven := alignmentOven s (pollEntry s p).cls pos, receiving := receivingSet s (pollEntry s p).cls pos,
        live := true } := by
  unfold evaluated
  dsimp only
  rw [hm, hp]

/-! ## The alignment entries and the guide, before and after (R57, R58) -/

theorem vector_eq_of_readAt {α : Type} {n : Nat} {d : α} {t u : Vector α n} (h : ∀ i, readAt t i d = readAt u i d) :
    t = u := by
  apply Vector.ext
  intro i hi
  have := h i
  unfold readAt at this
  simpa [hi] using this

/-- Where two states differ at one position only, that position says whether the runner looks. -/
theorem alignChanged_iff {b s : State} {p : Nat} (ha : ∀ q, q ≠ p → alignment s q = alignment b q)
    (hs : ∀ q, q ≠ p → station s q = station b q) :
    alignChanged b s = true ↔ alignment s p ≠ alignment b p ∨
      (p < s.fpl.length ∧ (pollEntry s p).cls = .cgm ∧ guideLocked s p ≠ guideLocked b p) := by
  have halign : b.ovt.align ≠ s.ovt.align ↔ alignment s p ≠ alignment b p := by
    refine not_congr ⟨fun h => ?_, fun h => vector_eq_of_readAt (d := {}) fun q => ?_⟩
    · unfold alignment
      rw [h]
    · by_cases hq : q = p
      · subst hq
        exact h.symm
      · exact (ha q hq).symm
  have hguide : ((positions s).any fun q => (pollEntry s q).cls = .cgm && guideLocked b q != guideLocked s q) = true ↔
      p < s.fpl.length ∧ (pollEntry s p).cls = .cgm ∧ guideLocked s p ≠ guideLocked b p := by
    unfold positions
    simp only [List.any_eq_true, List.mem_range, Bool.and_eq_true, decide_eq_true_eq, bne_iff_ne]
    constructor
    · rintro ⟨q, hq, hc, hg⟩
      have hqp : q = p := Decidable.byContradiction fun hqp => hg (by unfold guideLocked; rw [hs q hqp])
      subst hqp
      exact ⟨hq, hc, hg.symm⟩
    · rintro ⟨hq, hc, hg⟩
      exact ⟨p, hq, hc, hg.symm⟩
  unfold alignChanged
  rw [Bool.or_eq_true, decide_eq_true_eq, halign, hguide]

/-! ## The quench track controller's part (R76) -/

theorem qtcPosition_other {p : Nat} {s : State} (body : List Byte) (h : (pollEntry s p).cls ≠ .car) :
    qtcPosition p body s = s := by
  unfold qtcPosition carAt
  rw [if_neg h]

theorem qtcPosition_car {p c : Nat} {s : State} (body : List Byte) (h : (pollEntry s p).cls = .car)
    (hi : (pollEntry s p).inst = c) (ha : (station s p).state = .active) :
    qtcPosition p body s =
      satisfyRequest (carReport c (reportedPosition body) (reportedMoving body) (reportedStatus body) s) := by
  unfold qtcPosition carAt
  rw [if_pos h, hi]
  exact if_pos ha

theorem satisfyRequest_none {s : State} (h : s.qtc.carRequest = false) : satisfyRequest s = s := by
  unfold satisfyRequest
  rw [h]

/-- Without a request for a car, a report leaves the runner's records and the permits. -/
theorem qtcPosition_keeps_run {p : Nat} {s : State} (body : List Byte) (h : s.qtc.carRequest = false) :
    (qtcPosition p body s).sch = s.sch ∧ (qtcPosition p body s).ilk.permits = s.ilk.permits := by
  refine ⟨?_, (qtcPosition_touches p body s).permits_kept⟩
  unfold qtcPosition
  cases carAt s p with
  | none => rfl
  | some c =>
    dsimp only
    split
    · rw [satisfyRequest_none ((carReport_request _ _ _ _ _).trans h)]
      exact (carReport_touches _ _ (ofBytes_take_lt body)).sch_kept
    · rfl

/-- The records of a run past WAIT, with no PUSH permit on its oven and no request for a car, outlast the report and
the settling. -/
theorem settledReport_sch {p : Nat} {s : State} (body : List Byte) (b : State) (h : RunApart s)
    (hr : s.qtc.carRequest = false) : (ilkSettle b (qtcPosition p body s)).sch = s.sch := by
  obtain ⟨hsch, hpermits⟩ := qtcPosition_keeps_run (p := p) body hr
  have hapart : RunApart (qtcPosition p body s) := by
    unfold RunApart currentOven State.run
    rw [hsch, hpermits]
    exact h
  exact (ilkSettle_apart hapart b).1.trans hsch

/-! ## The report as a whole -/

/-- The state after the field poller and the oven table have taken a report (R151, R162, R16). -/
abbrev reported (p : Nat) (body : List Byte) (s : State) : State := evaluate p (recordPosition p body s)

theorem reported_touches (p : Nat) (body : List Byte) (s : State) : Touches [.stations, .align] s (reported p body s) :=
  (recordPosition_touches _ _ _).mono.seq (evaluate_touches _ _).mono

theorem reported_station {p : Nat} (hp : p < 24) (body : List Byte) (s : State) (q : Nat) :
    station (reported p body s) q =
      if p = q then
        { station s p with
          lastPos := some (reportedPosition body), moving := reportedMoving body, status := reportedStatus body }
      else station s q := by
  rw [(evaluate_touches _ _).station_kept, recordPosition, station_setStation]
  by_cases h : p = q
  · rw [if_pos ⟨h, h ▸ hp⟩, if_pos h]
  · rw [if_neg fun hh => h hh.1, if_neg h]

theorem reported_alignment {p : Nat} (hp : p < 24) (body : List Byte) (s : State) (q : Nat) :
    alignment (reported p body s) q =
      if p = q then evaluated (recordPosition p body s) p else alignment s q := by
  show alignment (setAlignment p _ _) q = _
  rw [alignment_setAlignment, (recordPosition_touches _ _ _).alignment_kept]
  by_cases h : p = q
  · rw [if_pos ⟨h, h ▸ hp⟩, if_pos h]
  · rw [if_neg fun hh => h hh.1, if_neg h]

/-- The entry of a machine, in the terms of the state before its report. -/
theorem reported_machine {p : Nat} (hp : p < 24) {body : List Byte} {s v : State} (k : Touches takenAspects s v)
    (hm : (pollEntry s p).cls.isMachine = true) :
    let c := (pollEntry s p).cls
    let pos := reportedPosition body
    (∀ n, StandsAt s c pos n → (∀ m, m < n → ¬ StandsAt s c pos m) → (alignment (reported p body v) p).oven = n) ∧
    ((∀ n, ¬ StandsAt s c pos n) → (alignment (reported p body v) p).oven = 0) ∧
    ∀ n, n ∈ (alignment (reported p body v) p).receiving ↔ c = .car ∧ configured s n = true ∧
      ((pos : Int) - (centreOf s n + s.ovt.timing.receiveOffset : Nat)).natAbs ≤ s.ovt.timing.receiveSpan := by
  intro c pos
  have kr : Touches takenAspects s (recordPosition p body v) := k.seq (recordPosition_touches _ _ _).mono
  have hpos : (station (recordPosition p body v) p).lastPos = some pos := by
    rw [recordPosition, station_setStation, if_pos ⟨rfl, hp⟩]
  have hc : (pollEntry (recordPosition p body v) p).cls = c := congrArg PollEntry.cls (kr.pollEntry_kept p)
  have heval := evaluated_machine (hc ▸ hm) hpos
  rw [reported_alignment hp, if_pos rfl, heval, hc]
  have hstands := fun n => standsAt_kept kr c pos n
  refine ⟨fun n hn hleast => ?_, fun hnone => ?_, fun n => ?_⟩
  · exact alignmentOven_least ((hstands n).mpr hn) fun m hlt hm => hleast m hlt ((hstands m).mp hm)
  · exact alignmentOven_none fun m hm => hnone m ((hstands m).mp hm)
  · rw [mem_receivingSet, configured_kept kr n, centreOf_kept kr n, kr.ovenTables_kept.2]

/-- A POSITION of an ACTIVE station is taken, handled and copied (R151, R167). -/
theorem exec_position_active {h : Header} {pos : BitVec 24} {moving status : Byte} {s : State} {x : Exchange}
    (hx : Awaits s x) (hs : h.source.toNat = (pollEntry s x.position).address)
    (ha : (station s x.position).state = .active) :
    let body := toBytes 3 pos.toNat ++ [moving, status]
    let u := arrived h Kind.position body
    exec (.position h pos moving status) s =
      .next (roundOn (coreCopy (entryFor s .field u) u (handlePosition x.position body (taken s x)))) := by
  intro body u
  have hr : framed u = true :=
    framed_arrived h _ _ (by decide) (by simp [body, toBytes_length]) (by simp [body, toBytes_length]; rfl)
  rw [exec_active_reply (c := .position h pos moving status) rfl hx (decide_eq_true hs) hr ha, classifyField_position,
    entryFor_kept (taken_touches s x)]

end Sys2Proof.Machine

open Sys2Proof Sys2Proof.Machine

/-- Settles O36: the stages of the report in the order of R151, each by the lemmas about it. -/
theorem positionsAreRecorded : Obligations.PositionsAreRecorded := by
  intro h pos moving status s x hx hs ha cls working aligned
  have hp : x.position < 24 := hx.2.2.2
  let body := toBytes 3 pos.toNat ++ [moving, status]
  let u := arrived h Kind.position body
  let v := taken s x
  let m := reported x.position body v
  let w := qtcPosition x.position body m
  let z := ilkSettle v w
  let y := if alignChanged v z = true then schAlignChange z else z
  let t := roundOn (coreCopy (entryFor s .field u) u y)
  have hv : afterReply s x u = v := afterReply_not_joining hx (by rw [ha]; decide)
  have kv : Touches takenAspects s v := taken_touches s x
  have km : Touches [.stations, .align] v m := reported_touches _ _ _
  have kw : Touches reportAspects m w := qtcPosition_touches _ _ _
  have kz : Touches (.places :: cutAspects) m z := kw.mono.seq (ilkSettle_touches _ _).mono
  have ky : Touches cutAspects z y := .ite (fun _ => (schAlignChange_touches _).mono) (fun _ => .refl _ _)
  have kt : Touches roundAspects y t := roundOn_coreCopy_touches _ _ _
  have kzt : Touches roundAspects z t := ky.mono.seq kt
  have kmt : Touches (.places :: roundAspects) m t := kz.mono.seq kzt.mono
  have hpoll : ∀ q, pollEntry m q = pollEntry s q := fun q => (km.pollEntry_kept q).trans (kv.pollEntry_kept q)
  have hbody : reportedPosition body = pos.toNat := reportedPosition_body pos moving status
  have hmoving : reportedMoving body = (moving != 0#8) := reportedMoving_body pos moving status
  have hstatus : reportedStatus body = status.toNat := reportedStatus_body pos moving status
  have hstation : station t x.position = _ :=
    (kmt.station_kept _).trans ((reported_station hp body v _).trans (if_pos rfl))
  have halign : ∀ q, alignment t q = alignment m q := kmt.alignment_kept
  have hother : ∀ q, q ≠ x.position → alignment m q = alignment v q := fun q hq =>
    (reported_alignment hp body v q).trans (if_neg (Ne.symm hq))
  have hmachine := reported_machine hp (body := body) kv
  refine ⟨t, exec_position_active hx hs ha, ?_, ?_, ?_, fun hm => ?_, fun q hq => ?_, ?_⟩
  · rw [hstation]; exact congrArg some hbody
  · rw [hstation]; exact hmoving
  · rw [hstation]; exact hstatus
  · obtain ⟨hleast, hnone, hreceiving⟩ := hmachine hm
    rw [hbody] at hleast hnone hreceiving
    rw [halign]
    refine ⟨hleast, hnone, fun n => (hreceiving n).trans (and_congr_right fun hc => ?_)⟩
    rw [show working n = _ from if_pos hc]
  · exact (halign q).trans ((hother q hq).trans (kv.alignment_kept q))
  intro u' v' changed
  have hv' : v' = v := hv
  have hsch : m.sch = s.sch := km.sch_kept.trans kv.sch_kept
  have hchanged : alignChanged v z = true ↔ changed := by
    have hz : ∀ q, alignment z q = alignment m q := kz.alignment_kept
    have hguide : guideLocked v x.position = guideLocked s x.position := by
      unfold guideLocked
      rw [taken_station hx]
    have hlocked : guideLocked z x.position = guideLocked t x.position := by
      unfold guideLocked
      rw [kzt.station_kept]
    have hlength : z.fpl.length = s.fpl.length :=
      kz.pollTables_kept.2.1.trans (km.pollTables_kept.2.1.trans kv.pollTables_kept.2.1)
    rw [alignChanged_iff (p := x.position) (fun q hq => (hz q).trans (hother q hq))
      (fun q hq => (kz.station_kept q).trans ((reported_station hp body v q).trans (if_neg (Ne.symm hq)))),
      hz, ← halign, kv.alignment_kept, hlength, kz.pollEntry_kept, hpoll, hlocked, hguide]
  refine ⟨m, z, y, hv'.symm ▸ km, kmt.stations_kept.symm, kmt.align_kept.symm, fun hc => ?_, fun c hc hcar hi => ?_,
    fun hstep hrequest hpush => ?_, ?_, kzt.stations_kept.symm, kzt.align_kept.symm, fun hch => ?_, fun hch => ?_, rfl⟩
  · rw [hv']
    exact congrArg (ilkSettle v) (qtcPosition_other body (by rw [hpoll]; exact hc))
  · obtain ⟨-, hplaces⟩ := handlePosition_records (s := v) (body := body) hp
    obtain ⟨hposition, hoccupied⟩ := hplaces c hc (by rw [kv.pollEntry_kept]; exact hcar)
      (by rw [kv.pollEntry_kept]; exact hi) (taken_active hx ha)
    obtain ⟨hp', ho'⟩ := kt.places_kept (by decide) c
    have hactive : (station m x.position).state = .active := by
      rw [reported_station hp, if_pos rfl]
      exact taken_active hx ha
    refine ⟨(hp'.trans hposition).trans (congrArg some hbody),
      (ho'.trans hoccupied).trans ((bodySegments_kept kv c _).trans (by rw [hbody])),
      carReport c pos.toNat (moving != 0#8) status.toNat m, carReport_takesEffect hc _ _ _ m, ?_⟩
    rw [hv', ← hbody, ← hmoving, ← hstatus]
    exact congrArg (ilkSettle v) (qtcPosition_car body (by rw [hpoll]; exact hcar) (by rw [hpoll]; exact hi) hactive)
  · have hapart : RunApart m := by
      unfold RunApart currentOven State.run
      rw [hsch, km.permits_kept, kv.permits_kept]
      exact ⟨hstep, hpush⟩
    have hnone : m.qtc.carRequest = false := (km.idle_kept.2.trans kv.idle_kept.2).trans hrequest
    exact (settledReport_sch body v hapart hnone).trans hsch
  · exact (kz.now_kept.trans km.now_kept).trans kv.now_kept
  · rw [show y = schAlignChange z from if_pos (hchanged.mpr hch)]
    exact schAlignChange_goesOn z
  · exact if_neg fun hh => hch (hchanged.mp hh)

end

section
/-!
SUPPORT. What the DONE of an active permit does that is no door's (R36): the oven, the car and the run of a PUSH, the
oven of a CHARGE, the task of a RESEAT, and the car of a QUENCH and of a DUMP.
-/

set_option Elab.async false
namespace Sys2Proof.Machine

open Sys2Proof

/-- What a MOVE may write of a car record is none of its load. -/
theorem cycleRec_load {r q : CarRecord} (h : cycleRec r = cycleRec q) :
    r.load = q.load ∧ r.uncertain = q.uncertain ∧ r.loadOven = q.loadOven :=
  ⟨(congrArg CarRecord.load h :), (congrArg CarRecord.uncertain h :), (congrArg CarRecord.loadOven h :)⟩

/-! ## The effects by kind -/

section
variable {b s : State} {e : Permit} {ok : Bool} {m : Nat}

theorem doneEffects_push (hk : e.kind = .push) :
    doneEffects b e ok m s =
      let u := withCar e.car (fun c => carLoads c (!ok)) (ovtPushDone e.oven e.station m ok s)
      if ok then schPushDone e.oven u else schPushBroken e.oven 255 u := by
  cases e; cases hk; rfl

theorem doneEffects_charge (hk : e.kind = .charge) :
    doneEffects b e ok m s = if ok then ovtChargeDone e.oven s else ovtChargeCut e.oven e.station 1 s := by
  cases e; cases hk; rfl

theorem doneEffects_reseat (hk : e.kind = .reseat) :
    doneEffects b e ok m s = withDoor (doorOf e) (fun d => taskPermitEnds d ok) s := by
  cases e; cases hk; rfl

theorem doneEffects_quench (hk : e.kind = .quench) :
    doneEffects b e ok m s = withCar (carOfEntry s e) (fun c => carQuenchEnds c ok) s := by
  cases e; cases hk; rfl

theorem doneEffects_dump (hk : e.kind = .dump) :
    doneEffects b e ok m s =
      if ok then withCar (carOfEntry s e) (fun c s => satisfyRequest (carDumpEnds c true s)) s
      else withCar (carOfEntry s e) (fun c => carDumpEnds c false) s := by
  cases e; cases hk; rfl

theorem doneEffects_doorOff (hk : e.kind = .doorOff) :
    doneEffects b e ok m s =
      if ok then withDoor (doorOf e) (fun d => doorCompleted b d true) s else oprDerive e.oven s := by
  cases e; cases hk; rfl

theorem doneEffects_doorOn (hk : e.kind = .doorOn) :
    doneEffects b e ok m s = if ok then withDoor (doorOf e) (fun d => doorCompleted b d false) s else s := by
  cases e; cases hk; rfl

theorem doneEffects_level (hk : e.kind = .level) : doneEffects b e ok m s = s := by
  cases e; cases hk; rfl

/-! ## PUSH (R9, R59, R86) -/

theorem pushDone_oven (hk : e.kind = .push) (hp : (ovenRec s e.oven).phase = .pushing) :
    ovenRec (doneEffects b e ok m s) e.oven = { ovenRec s e.oven with
      phase := if ok then .empty else .pushInterrupted
      ramPeak := m
      hardPushes := if s.sch.timing.hardWarn < m then min 255 ((ovenRec s e.oven).hardPushes + 1)
        else (ovenRec s e.oven).hardPushes } := by
  rw [doneEffects_push hk]
  extract_lets u
  have hn : 1 ≤ e.oven ∧ e.oven ≤ 128 := ovenRec_range (by rw [hp]; nofun)
  have ku : Touches [.cars, .tower] (ovtPushDone e.oven e.station m ok s) u :=
    withCar_touches _ fun c => carLoads_touches c _ _
  have kw : Touches runAspects u (if ok then schPushDone e.oven u else schPushBroken e.oven 255 u) :=
    .ite (fun _ => (schPushDone_touches _ _).mono) (fun _ => schPushBroken_touches _ _ _)
  rw [kw.ovenRec_kept, ku.ovenRec_kept]
  exact pushDone_ovenRec hn _ _ _ _ hp

/-- A RECEIVING car that does not wait in the idle list takes the coke. -/
theorem pushDone_car {c : Nat} (hk : e.kind = .push) (hc : e.car = some c) (hr : (carRec s c).state = .receiving)
    (hi : c ∉ s.qtc.idle) :
    let w := doneEffects b e ok m s
    (carRec w c).state = .loaded ∧ (carRec w c).load = .hot ∧ (carRec w c).uncertain = !ok ∧
      (carRec w c).assignedOven = 0 ∧ (carRec w c).loadOven = (carRec s c).loadOven ∧
      (carRec w c).hotStart = some s.now ∧ (w.qtc.holder = some c ∨ c ∈ w.qtc.queue) := by
  intro w
  let v := ovtPushDone e.oven e.station m ok s
  let u := carLoads c (!ok) v
  have hw : w = if ok then schPushDone e.oven u else schPushBroken e.oven 255 u := by
    show doneEffects b e ok m s = _
    rw [doneEffects_push hk, hc]
    rfl
  have hcycle : cycleRec (carRec v c) = cycleRec (carRec s c) :=
    ovtPushDone_standsBy (by rw [hr]; nofun) (fun _ => hi)
  obtain ⟨hu, htower⟩ := carLoads_receiving (b := !ok) ((cycle_state hcycle).trans hr)
  have hstate : (carRec u c).state ≠ .assigned := by rw [hu]; nofun
  obtain ⟨hrec, hholder, hqueue⟩ := pushFollows_car e.oven ok hstate
  rw [← hw] at hrec hholder hqueue
  have hload : (carRec v c).loadOven = (carRec s c).loadOven := (cycleRec_load hcycle).2.2
  have hnow : v.now = s.now := (ovtPushDone_touches _ _ _ _ _).now_kept
  rw [hrec, hu, hholder, hqueue]
  exact ⟨rfl, rfl, rfl, rfl, hload, congrArg some hnow, htower⟩

/-- A run in PUSH on the oven goes on to CLOSE without a car, or stops. -/
theorem pushDone_run (hk : e.kind = .push) (h1 : s.run.state = .running) (h2 : s.run.step = .push)
    (h3 : currentOven s = e.oven) :
    let w := doneEffects b e ok m s
    (ok = true →
      w.run = { s.run with step := .close, deadline := some (s.now + s.sch.timing.close), car := none }) ∧
    (ok = false → w.run.state = .stopped ∧ w.sch.sense = ⟨.permitBroken, e.oven, s.run.cursor, .push, 255⟩) := by
  intro w
  let v := ovtPushDone e.oven e.station m ok s
  let u := withCar e.car (fun c => carLoads c (!ok)) v
  have hw : w = if ok then schPushDone e.oven u else schPushBroken e.oven 255 u := doneEffects_push hk
  obtain ⟨hrun, hnow, hseries, htiming⟩ := ovtPushDone_run (n := e.oven) (a := e.station) (m := m) (ok := ok) h2
  have ku : Touches [.cars, .tower] v u := withCar_touches _ fun c => carLoads_touches c _ _
  have erun : u.run = s.run := ku.runRecord_kept.trans hrun
  have eoven : currentOven u = e.oven := by
    unfold currentOven
    rw [ku.runnerTables_kept.1, hseries, erun]
    exact h3
  obtain ⟨hdone, hstop, hsense⟩ := pushFollows_run (by rw [erun]; exact h1) (by rw [erun]; exact h2) eoven
  refine ⟨?_, ?_⟩ <;> rintro rfl
  · rw [hw, if_pos rfl, hdone, erun, ku.now_kept, hnow, ku.runnerTables_kept.2.2.1, htiming]
  · rw [hw, if_neg nofun, ← erun]
    exact ⟨hstop, hsense⟩

/-! ## CHARGE (R11) -/

theorem chargeDone_oven (hk : e.kind = .charge) (hp : (ovenRec s e.oven).phase = .charging) :
    ovenRec (doneEffects b e ok m s) e.oven = { ovenRec s e.oven with phase := .coking, stamp := s.now } := by
  have hn : 1 ≤ e.oven ∧ e.oven ≤ 128 := ovenRec_range (by rw [hp]; nofun)
  have hset : ovenRec (setPhase e.oven .coking s.now s) e.oven =
      { ovenRec s e.oven with phase := .coking, stamp := s.now } := by rw [ovenRec_setPhase, if_pos ⟨rfl, hn⟩]
  rw [doneEffects_charge hk]
  cases ok with
  | true => rw [if_pos rfl, ovtChargeDone, if_pos hp, hset]
  | false => rw [if_neg nofun, ovtChargeCut, if_pos hp, chargeIncomplete, (raise_touches _ _ _ _ _).ovenRec_kept, hset]

theorem chargeDone_counted {l : List Aspect} {t : State} (hk : e.kind = .charge)
    (hp : (ovenRec s e.oven).phase = .charging) (kt : Touches l (doneEffects b e false m s) t)
    (ha : Aspect.tally ∉ l := by decide) : Counted .chargeIncomplete s t := by
  have kset : Touches phaseAspects s (setPhase e.oven .coking s.now s) := setPhase_touches _ (.inr (Int.le_refl _))
  rw [doneEffects_charge hk, if_neg nofun, ovtChargeCut, if_pos hp] at kt
  exact (Counted.of_raise kt ha).since kset

/-! ## RESEAT (R111, R112) -/

theorem reseatDone_task {side : DoorSide} (hk : e.kind = .reseat) (hs : e.side.door = some side)
    (hw : (taskOf s side).stage = .working) (hd : (taskOf s side).door = some ⟨e.oven, side⟩) :
    taskOf (doneEffects b e ok m s) side =
      if ok then { taskOf s side with stage := .testing, deadline := some (s.now + s.dsm.config.taskLimit) }
      else {} := by
  have hdoor : doorOf e = some ⟨e.oven, side⟩ := by unfold doorOf; rw [hs]
  rw [doneEffects_reseat hk, hdoor]
  show taskOf (taskPermitEnds ⟨e.oven, side⟩ ok s) side = _
  unfold taskPermitEnds
  dsimp only
  rw [if_pos (by rw [hw, hd]; simp)]
  cases ok with
  | true => rw [if_pos rfl, if_pos rfl, taskOf_setTask, if_pos rfl]
  | false => rw [if_neg nofun, if_neg nofun, taskOf_setTask, if_pos rfl]

/-! ## QUENCH (R89) -/

theorem quenchDone_car {c : Nat} (hk : e.kind = .quench) (hc : carOfEntry s e = some c)
    (hq : (carRec s c).state = .quenching) :
    carRec (doneEffects b e ok m s) c =
      if ok then
        if s.qtc.timing.drain = 0 then { carRec s c with state := .quenched, load := .wet, drainDeadline := none }
        else { carRec s c with state := .draining, drainDeadline := some (s.now + s.qtc.timing.drain) }
      else { carRec s c with state := .loaded, load := .hot } := by
  have hr : 1 ≤ c ∧ c ≤ 2 := carRec_range (by rw [hq]; nofun)
  have hset : ∀ r, carRec (setCarRec c r s) c = r := fun r => by rw [carRec_setCarRec, if_pos ⟨rfl, hr⟩]
  rw [doneEffects_quench hk, hc]
  show carRec (carQuenchEnds c ok s) c = _
  unfold carQuenchEnds
  dsimp only
  rw [if_pos hq]
  cases ok with
  | true =>
    rw [if_pos rfl, if_pos rfl]
    by_cases hd : s.qtc.timing.drain = 0
    · rw [if_pos hd, if_pos hd, hset, drained]
    · rw [if_neg hd, if_neg hd, hset]
  | false => rw [if_neg nofun, if_neg nofun, hset]

/-! ## DUMP (R90, R85) -/

/-- What the runner's taking of a car leaves of the load of any car. -/
theorem handCar_load (c d : Nat) (s : State) :
    (carRec (handCar d s) c).load = (carRec s c).load ∧ (carRec (handCar d s) c).uncertain = (carRec s c).uncertain ∧
      (carRec (handCar d s) c).loadOven = (carRec s c).loadOven := by
  let r := { carRec s d with state := CarState.assigned, assignedOven := currentOven s }
  have h : cycleRec (carRec (handCar d s) c) = cycleRec (carRec (setCarRec d r s) c) := entryTest_cycle _ c
  have hset := carRec_setCarRec d c r s
  by_cases hd : d = c ∧ 1 ≤ c ∧ c ≤ 2
  · rw [hset, if_pos hd, ← hd.1] at h
    rw [← hd.1]
    exact (cycleRec_load h :)
  · rw [hset, if_neg hd] at h
    exact cycleRec_load h

theorem satisfyRequest_load (c : Nat) (s : State) :
    (carRec (satisfyRequest s) c).load = (carRec s c).load ∧
      (carRec (satisfyRequest s) c).uncertain = (carRec s c).uncertain ∧
      (carRec (satisfyRequest s) c).loadOven = (carRec s c).loadOven := by
  unfold satisfyRequest
  split
  · rw [(afterRun_touches _ _).carRec_kept]
    exact handCar_load _ _ _
  · exact ⟨rfl, rfl, rfl⟩
  · exact ⟨rfl, rfl, rfl⟩

/-- A request that waits takes the head of the idle list. -/
theorem satisfyRequest_hands {c : Nat} {rest : List Nat} (h : s.qtc.carRequest = true) (hi : s.qtc.idle = c :: rest) :
    satisfyRequest s = afterRun s (handCar c s) := by
  unfold satisfyRequest
  rw [h, hi]

theorem dumpDone_failed {c : Nat} (hk : e.kind = .dump) (hc : carOfEntry s e = some c)
    (hd : (carRec s c).state = .dumping) :
    carRec (doneEffects b e false m s) c = { carRec s c with state := .quenched, load := .wet } := by
  have hr : 1 ≤ c ∧ c ≤ 2 := carRec_range (by rw [hd]; nofun)
  rw [doneEffects_dump hk, if_neg nofun, hc]
  show carRec (carDumpEnds c false s) c = _
  unfold carDumpEnds
  dsimp only
  rw [if_pos hd, if_neg nofun, carRec_setCarRec, if_pos ⟨rfl, hr⟩]

theorem dumpDone_ok {c : Nat} (hk : e.kind = .dump) (hc : carOfEntry s e = some c)
    (hd : (carRec s c).state = .dumping) :
    let w := doneEffects b e true m s
    (carRec w c).load = .empty ∧ (carRec w c).uncertain = false ∧ (carRec w c).loadOven = 0 ∧
      (s.qtc.carRequest = false → (carRec w c).state = .idle ∧
        w.qtc.idle = if s.qtc.idle.contains c then s.qtc.idle else s.qtc.idle ++ [c]) ∧
      (s.qtc.carRequest = true → s.qtc.idle = [] → (carRec w c).state = .assigned ∧ w.run.car = some c) := by
  intro w
  have hr : 1 ≤ c ∧ c ≤ 2 := carRec_range (by rw [hd]; nofun)
  let r := { carRec s c with state := CarState.idle, load := .empty, uncertain := false, loadOven := 0 }
  let u := idleAppend c (setCarRec c r s)
  have hw : w = satisfyRequest u := by
    show doneEffects b e true m s = _
    rw [doneEffects_dump hk, if_pos rfl, hc]
    show satisfyRequest (carDumpEnds c true s) = _
    unfold carDumpEnds
    dsimp only
    rw [if_pos hd, if_pos rfl]
  have hu : carRec u c = r := by
    show carRec (setCarRec c r s) c = r
    rw [carRec_setCarRec, if_pos ⟨rfl, hr⟩]
  obtain ⟨hload, huncertain, hloadOven⟩ := satisfyRequest_load c u
  rw [hw]
  refine ⟨hload.trans ?_, huncertain.trans ?_, hloadOven.trans ?_, fun hq => ?_, fun hq hi => ?_⟩
  · rw [hu]
  · rw [hu]
  · rw [hu]
  · rw [satisfyRequest_none (s := u) hq, hu]
    exact ⟨rfl, rfl⟩
  · have hidle : u.qtc.idle = [c] := by
      show (if s.qtc.idle.contains c then s.qtc.idle else s.qtc.idle ++ [c]) = [c]
      rw [hi]
      rfl
    have k := afterRun_touches u (handCar c u)
    rw [satisfyRequest_hands (s := u) hq hidle, k.carRec_kept, k.runRecord_kept]
    exact ⟨congrArg CarRecord.state (handCar_cycle hr u), (handCar_car c u).1⟩

end

end Sys2Proof.Machine

end

section
/-!
SUPPORT. What the DONE of a door permit does (R98 to R100): the door, the oven, and the run of the oven in OPEN and in
CLOSE (R58, R60).
-/

set_option Elab.async false
namespace Sys2Proof.Machine

open Sys2Proof

/-! ## The door records (R98, R99) -/

theorem doorRemoved_rec {d : Door} (s : State) (hd : 1 ≤ d.oven ∧ d.oven ≤ 128) :
    unlistedRec (doorRec (doorRemoved d s) d) =
      unlistedRec { doorRec s d with
        state := .removed, severity := none, retries := 0, retryDue := false, overdue := false } := by
  unfold doorRemoved
  dsimp only
  rw [leaveList_unlisted, doorRec_setDoorRec, if_pos ⟨rfl, hd⟩]

theorem doorReplaced_rec {d : Door} (s : State) (hd : 1 ≤ d.oven ∧ d.oven ≤ 128) :
    unlistedRec (doorRec (doorReplaced d s) d) =
      unlistedRec { doorRec s d with
        state := .unsealed, severity := none, retries := 0, retryDue := false, overdue := false, doorOn := s.now } := by
  unfold doorReplaced
  dsimp only
  rw [leaveList_unlisted, doorRec_setDoorRec, if_pos ⟨rfl, hd⟩]

theorem doorRemoved_completed {b s t : State} {d : Door} (hd : 1 ≤ d.oven ∧ d.oven ≤ 128)
    (ht : doorRec t d = doorRec (doorCompleted b d true s) d) :
    (doorRec t d).state = .removed ∧ (doorRec t d).severity = none ∧ (doorRec t d).retries = 0 ∧
      (doorRec t d).retryDue = false ∧ (doorRec t d).overdue = false := by
  have h := doorRemoved_rec s hd
  rw [ht, doorCompleted_doorRec, if_pos rfl]
  exact ⟨(congrArg DoorRecord.state h :), (congrArg DoorRecord.severity h :), (congrArg DoorRecord.retries h :),
    (congrArg DoorRecord.retryDue h :), (congrArg DoorRecord.overdue h :)⟩

theorem doorReplaced_completed {b s t : State} {d : Door} (hd : 1 ≤ d.oven ∧ d.oven ≤ 128)
    (ht : doorRec t d = doorRec (doorCompleted b d false s) d) :
    (doorRec t d).state = .unsealed ∧ (doorRec t d).severity = none ∧ (doorRec t d).retries = 0 ∧
      (doorRec t d).retryDue = false ∧ (doorRec t d).overdue = false ∧ (doorRec t d).doorOn = s.now := by
  have h := doorReplaced_rec s hd
  rw [ht, doorCompleted_doorRec, if_neg nofun]
  exact ⟨(congrArg DoorRecord.state h :), (congrArg DoorRecord.severity h :), (congrArg DoorRecord.retries h :),
    (congrArg DoorRecord.retryDue h :), (congrArg DoorRecord.overdue h :), (congrArg DoorRecord.doorOn h :)⟩

/-! ## The oven (R10, R14) -/

theorem ovtDoorOff_phase {n : Nat} {s : State} (hp : (ovenRec s n).phase = .coking ∨ (ovenRec s n).phase = .ready) :
    (ovenRec (ovtDoorOff n s) n).phase = .doorsOff := by
  have hn : 1 ≤ n ∧ n ≤ 128 := ovenRec_range (by rcases hp with hp | hp <;> rw [hp] <;> nofun)
  unfold ovtDoorOff setPhaseOnly
  dsimp only
  rw [if_pos (by simpa using hp), ovenRec_setPhase, if_pos ⟨rfl, hn⟩]

theorem cokingPhase_readyInstant (s : State) (n : Nat) :
    cokingPhase s n (ovenRec s n).stamp = if readyInstant s n ≤ s.now then .ready else .coking := by
  unfold cokingPhase reached readyInstant
  simp only [decide_eq_true_eq]

theorem ovtDoorOn_phase {n : Nat} {s : State} (hp : (ovenRec s n).phase = .doorsOff) :
    (ovenRec (ovtDoorOn n s) n).phase =
      if bothDoorsOn s n then (if readyInstant s n ≤ s.now then .ready else .coking) else .doorsOff := by
  have hn : 1 ≤ n ∧ n ≤ 128 := ovenRec_range (by rw [hp]; nofun)
  unfold ovtDoorOn setPhaseOnly
  dsimp only
  by_cases hb : bothDoorsOn s n = true
  · rw [if_pos (by simp [hp, hb]), if_pos hb, ovenRec_setPhase, if_pos ⟨rfl, hn⟩]
    exact cokingPhase_readyInstant s n
  · rw [if_neg (by simp [hb]), if_neg hb, hp]

theorem doorRemoved_phase {b s : State} {d : Door}
    (hp : (ovenRec s d.oven).phase = .coking ∨ (ovenRec s d.oven).phase = .ready) :
    (ovenRec (doorCompleted b d true s) d.oven).phase = .doorsOff := by
  have hn : 1 ≤ d.oven ∧ d.oven ≤ 128 := ovenRec_range (by rcases hp with hp | hp <;> rw [hp] <;> nofun)
  have h : (ovenRec (ovtDoorOff d.oven (doorRemoved d s)) d.oven).phase = .doorsOff :=
    ovtDoorOff_phase (by rw [(doorRemoved_touches d s).ovenRec_kept]; exact hp)
  rw [doorCompleted_ovenRec b d true s hn _ rfl (by rw [if_pos rfl, if_pos rfl, h]; nofun)
    (by rw [if_pos rfl, if_pos rfl, h]; nofun)]
  exact h

/-- The phase that a replaced door gives back is neither PUSHING nor CHARGING. -/
theorem returned_ne (on : Bool) (ready : Prop) [Decidable ready] {ph : Phase} (h : ph = .pushing ∨ ph = .charging) :
    (if on = true then (if ready then .ready else .coking) else .doorsOff) ≠ ph := by
  cases on with
  | false => rcases h with rfl | rfl <;> nofun
  | true =>
    by_cases hr : ready
    · rw [if_pos rfl, if_pos hr]
      rcases h with rfl | rfl <;> nofun
    · rw [if_pos rfl, if_neg hr]
      rcases h with rfl | rfl <;> nofun

theorem doorReplaced_phase {b s : State} {d : Door} (hp : (ovenRec s d.oven).phase = .doorsOff) :
    (ovenRec (doorCompleted b d false s) d.oven).phase =
      if bothDoorsOn (doorCompleted b d false s) d.oven then
        (if readyInstant s d.oven ≤ s.now then .ready else .coking)
      else .doorsOff := by
  have hn : 1 ≤ d.oven ∧ d.oven ≤ 128 := ovenRec_range (by rw [hp]; nofun)
  have kr := doorReplaced_touches d s
  have hready : readyInstant (doorReplaced d s) d.oven = readyInstant s d.oven :=
    readyInstant_kept (congrArg OvenRecord.stamp (kr.ovenRec_kept _)) (ovenConfig_kept kr _) kr.ovenTables_kept.2
  have hdoors : bothDoorsOn (doorCompleted b d false s) d.oven = bothDoorsOn (doorReplaced d s) d.oven :=
    bothDoorsOn_unlisted fun g => congrArg unlistedRec (doorCompleted_doorRec b d false s g)
  have h := ovtDoorOn_phase (n := d.oven) (s := doorReplaced d s) (by rw [kr.ovenRec_kept]; exact hp)
  rw [hready, kr.now_kept, ← hdoors] at h
  have hidle : ∀ ph, ph = .pushing ∨ ph = .charging →
      (ovenRec (ovtDoorOn d.oven (doorReplaced d s)) d.oven).phase ≠ ph := by
    rintro ph hph
    rw [h]
    exact returned_ne _ _ hph
  rw [doorCompleted_ovenRec b d false s hn _ rfl (hidle _ (.inl rfl)) (hidle _ (.inr rfl))]
  exact h

/-! ## The run of the oven (R58, R60) -/

theorem guideLockedAt_kept {l : List Aspect} {s t : State} (h : Touches l s t) (n : Nat)
    (h1 : Aspect.pollTables ∉ l := by decide) (h2 : Aspect.align ∉ l := by decide)
    (h3 : Aspect.stations ∉ l := by decide) : guideLockedAt t n = guideLockedAt s n := by
  unfold guideLockedAt guideLocked alignment station
  rw [posOfClass_kept h .cgm 1 h1, h.align_kept h2, h.stations_kept h3]

theorem currentOven_of_sch {s t : State} (h : t.sch = s.sch) : currentOven t = currentOven s := by
  unfold currentOven State.run
  rw [h]

/-- The DOOR_OFF of the oven of a run in OPEN (R58). -/
theorem doorRemoved_opening {b s : State} {d : Door} (h : RunApart s) (hd : 1 ≤ d.oven ∧ d.oven ≤ 128)
    (h1 : s.run.state = .running) (h2 : s.run.step = .opening) (h3 : currentOven s = d.oven) :
    let opens := (∀ o, o ≠ d.side → (doorRec s ⟨d.oven, o⟩).state = .removed) ∧ guideLockedAt s d.oven = true
    (opens → (doorCompleted b d true s).run =
      { s.run with step := .push, deadline := some (s.now + s.sch.timing.push) }) ∧
    (¬ opens → (doorCompleted b d true s).run = s.run) := by
  intro opens
  obtain ⟨u, z, -, -, hsch, -, kz, hdoors, hend⟩ := doorCompleted_run (b := b) true h hd
  have hoven : currentOven z = d.oven := (currentOven_of_sch hsch).trans h3
  have hrun : z.run = s.run := congrArg Runner.run hsch
  have hstate : ∀ g, (doorRec z g).state = if d = g then .removed else (doorRec s g).state := fun g =>
    (congrArg DoorRecord.state (hdoors g)).trans (doorTurned_state d g true s hd)
  have hopened : opened z ↔ opens := by
    unfold opened
    rw [hoven, guideLockedAt_kept kz, (bothDoors_other z d.oven d.side).1, hstate, if_pos rfl]
    refine and_congr_left fun _ => ⟨fun hz o ho => ?_, fun hs => ⟨rfl, fun o ho => ?_⟩⟩
    · have := hz.2 o ho
      rwa [hstate, if_neg fun hh => ho (congrArg Door.side hh).symm] at this
    · rw [hstate, if_neg fun hh => ho (congrArg Door.side hh).symm]
      exact hs o ho
  obtain ⟨hgoes, hstays⟩ := schDoorChange_opening (z := z) (by rw [hrun]; exact h1) (by rw [hrun]; exact h2)
  rw [hoven] at hgoes hstays
  have hw : (doorCompleted b d true s).run = (ilkSettle z (schDoorChange d.oven z)).run := congrArg Runner.run hend
  refine ⟨fun ho => ?_, fun ho => ?_⟩
  · obtain ⟨hpush, -⟩ := hgoes (hopened.mpr ho)
    have ky : Touches runAspects z (schDoorChange d.oven z) := schDoorChange_touches _ _
    have hapart : RunApart (schDoorChange d.oven z) := by
      refine ⟨by rw [hpush]; nofun, fun e he hk => ?_⟩
      have hcurrent : currentOven (schDoorChange d.oven z) = currentOven s := by
        unfold currentOven
        rw [ky.runnerTables_kept.1, hpush, hrun, kz.runnerTables_kept.1]
      rw [hcurrent]
      exact h.2 e ((kz.grants_kept).subset (ky.permits_kept ▸ he)) hk
    have hsettled : (ilkSettle z (schDoorChange d.oven z)).run = (schDoorChange d.oven z).run :=
      congrArg Runner.run (ilkSettle_apart hapart z).1
    rw [hw, hsettled, hpush, hrun, kz.now_kept, kz.runnerTables_kept.2.2.1]
  · rw [hw, hstays fun hh => ho (hopened.mp hh), ilkSettle_refl, hrun]

/-- The DOOR_ON of the oven of a run in CLOSE (R60, R61). -/
theorem doorReplaced_close {b s : State} {d : Door} (h : RunApart s) (hd : 1 ≤ d.oven ∧ d.oven ≤ 128)
    (h1 : s.run.state = .running) (h2 : s.run.step = .close) (h3 : currentOven s = d.oven) :
    let closes := ∀ o, o ≠ d.side → (doorRec s ⟨d.oven, o⟩).state ≠ .removed
    let w := doorCompleted b d false s
    (closes → ∃ u z x y, z = ilkSettle b u ∧ (∀ g, g ≠ d.oven → ovenRec u g = ovenRec s g) ∧ z.sch = s.sch ∧
      z.now = s.now ∧ (ovenRec z d.oven).ramPeak = (ovenRec s d.oven).ramPeak ∧
      CloseCompleted z x ∧ Touches [.outbound, .tasks] x y ∧ w.sch = (ilkSettle z y).sch ∧
      (x.qtc.cars = z.qtc.cars → w.sch = x.sch)) ∧
    (¬ closes → w.sch = s.sch) := by
  intro closes w
  obtain ⟨u, z, hz, hovens, hsch, hpeak, kz, hdoors, hend⟩ := doorCompleted_run (b := b) false h hd
  have hoven : currentOven z = d.oven := (currentOven_of_sch hsch).trans h3
  have hrun : z.run = s.run := congrArg Runner.run hsch
  have hstate : ∀ g, (doorRec z g).state = if d = g then .unsealed else (doorRec s g).state := fun g =>
    (congrArg DoorRecord.state (hdoors g)).trans (doorTurned_state d g false s hd)
  have hclosed : bothDoorsOn z d.oven = true ↔ closes := by
    rw [(bothDoors_other z d.oven d.side).2, hstate, if_pos rfl]
    refine ⟨fun hz o ho => ?_, fun hs => ⟨nofun, fun o ho => ?_⟩⟩
    · have := hz.2 o ho
      rwa [hstate, if_neg fun hh => ho (congrArg Door.side hh).symm] at this
    · rw [hstate, if_neg fun hh => ho (congrArg Door.side hh).symm]
      exact hs o ho
  obtain ⟨hcompletes, hstays⟩ := schDoorChange_close (z := z) (by rw [hrun]; exact h1) (by rw [hrun]; exact h2)
  rw [hoven] at hcompletes hstays
  refine ⟨fun hc => ?_, fun hc => ?_⟩
  · obtain ⟨x, hx, hy⟩ := hcompletes (hclosed.mpr hc)
    have ky : Touches [.outbound, .tasks] x (schDoorChange d.oven z) := hy ▸ afterRun_touches z x
    refine ⟨u, z, x, schDoorChange d.oven z, hz, hovens, hsch, kz.now_kept, hpeak _, hx, ky, hend, fun hcars => ?_⟩
    have hstill := ilkSettle_still (schDoorChange_touches d.oven z) (ky.cars_kept.trans hcars)
    exact hend.trans ((congrArg State.sch hstill).trans ky.sch_kept)
  · have hoff : bothDoorsOn z d.oven = false := Bool.eq_false_iff.mpr fun hh => hc (hclosed.mp hh)
    exact hend.trans (by rw [hstays hoff, ilkSettle_refl, hsch])

end Sys2Proof.Machine

end

section
/-!
SUPPORT. The DONE of an active permit, from the reply to the effects of its kind (R36).
-/

set_option Elab.async false
namespace Sys2Proof.Machine

open Sys2Proof

/-- The state on which the effects of a DONE run: the reply taken, and the entry gone from the set. -/
abbrev released (e : Permit) (s : State) (x : Exchange) : State := dropEntryOf e (taken s x)

theorem released_touches (e : Permit) (s : State) (x : Exchange) :
    Touches (.permits :: takenAspects) s (released e s x) :=
  (taken_touches s x).mono.seq (dropEntryOf_touches e _).mono

theorem released_permits (e : Permit) (s : State) (x : Exchange) :
    (released e s x).ilk.permits = s.ilk.permits.erase e :=
  congrArg (List.erase · e) (taken_touches s x).permits_kept

theorem released_cycle (e : Permit) (s : State) (x : Exchange) (c : Nat) :
    cycleRec (carRec (released e s x) c) = cycleRec (carRec s c) := taken_cycle s x c

theorem released_carOfEntry (e : Permit) (s : State) (x : Exchange) :
    carOfEntry (released e s x) e = carOfEntry s e := by
  have k := released_touches e s x
  unfold carOfEntry carOf carAt
  rw [posOfAddress_kept k]
  cases posOfAddress s e.station with
  | none => rfl
  | some p => dsimp only; rw [k.pollEntry_kept]

theorem released_guideLockedAt (e : Permit) (s : State) (x : Exchange) (n : Nat) :
    guideLockedAt (released e s x) n = guideLockedAt s n :=
  (guideLockedAt_kept (dropEntryOf_touches e _) n).trans (taken_guideLockedAt s x n)

/-- The entry of a door kind gone, no PUSH stands on its oven (R31). -/
theorem released_apart {e : Permit} {s : State} (x : Exchange) (h : PermitLaw s) (he : e ∈ s.ilk.permits)
    (hk : e.kind = .doorOff ∨ e.kind = .doorOn) (hw : s.run.step ≠ .wait) (ho : currentOven s = e.oven) :
    RunApart (released e s x) := by
  have hsch : (released e s x).sch = s.sch := (released_touches e s x).sch_kept
  refine ⟨by unfold State.run; rw [hsch]; exact hw, fun d hd hp => ?_⟩
  rw [currentOven_of_sch hsch, ho]
  rw [released_permits] at hd
  exact h.apart he hk d (List.mem_of_mem_erase hd) hp

/-- The run in OPEN at the DOOR_OFF of its oven, in the terms of the state before the reply (R58). -/
theorem released_opening {e : Permit} {s : State} (x : Exchange) {sideOf : DoorSide} (h : PermitLaw s)
    (he : e ∈ s.ilk.permits) (hk : e.kind = .doorOff ∨ e.kind = .doorOn) (hn : 1 ≤ e.oven ∧ e.oven ≤ 128)
    (h1 : s.run.state = .running) (h2 : s.run.step = .opening) (h3 : currentOven s = e.oven) :
    let w := doorCompleted (taken s x) ⟨e.oven, sideOf⟩ true (released e s x)
    let opens := (∀ o, o ≠ sideOf → (doorRec s ⟨e.oven, o⟩).state = .removed) ∧ guideLockedAt s e.oven = true
    (opens → w.run = { s.run with step := .push, deadline := some (s.now + s.sch.timing.push) }) ∧
    (¬ opens → w.run = s.run) := by
  have k := released_touches e s x
  have hsch : (released e s x).sch = s.sch := k.sch_kept
  have hrun : (released e s x).run = s.run := congrArg Runner.run hsch
  have hopening := doorRemoved_opening (b := taken s x) (d := ⟨e.oven, sideOf⟩)
    (released_apart x h he hk (by rw [h2]; nofun) h3) hn (by rw [hrun]; exact h1) (by rw [hrun]; exact h2)
    ((currentOven_of_sch hsch).trans h3)
  simp only [k.doorRec_kept, released_guideLockedAt, hrun, k.now_kept, hsch] at hopening
  exact hopening

/-- The run in CLOSE at the DOOR_ON of its oven, in the terms of the state before the reply (R60, R61). -/
theorem released_close {e : Permit} {s : State} (x : Exchange) {sideOf : DoorSide} (h : PermitLaw s)
    (he : e ∈ s.ilk.permits) (hk : e.kind = .doorOff ∨ e.kind = .doorOn) (hn : 1 ≤ e.oven ∧ e.oven ≤ 128)
    (h1 : s.run.state = .running) (h2 : s.run.step = .close) (h3 : currentOven s = e.oven) :
    let w := doorCompleted (taken s x) ⟨e.oven, sideOf⟩ false (released e s x)
    let closes := ∀ o, o ≠ sideOf → (doorRec s ⟨e.oven, o⟩).state ≠ .removed
    (closes → ∃ d z y t, z = ilkSettle (taken s x) d ∧ (∀ g, g ≠ e.oven → ovenRec d g = ovenRec s g) ∧
      z.sch = s.sch ∧ z.now = s.now ∧ (ovenRec z e.oven).ramPeak = (ovenRec s e.oven).ramPeak ∧
      CloseCompleted z y ∧ Touches [.outbound, .tasks] y t ∧ w.sch = (ilkSettle z t).sch ∧
      (y.qtc.cars = z.qtc.cars → w.sch = y.sch)) ∧
    (¬ closes → w.sch = s.sch) := by
  have k := released_touches e s x
  have hsch : (released e s x).sch = s.sch := k.sch_kept
  have hrun : (released e s x).run = s.run := congrArg Runner.run hsch
  have hclose := doorReplaced_close (b := taken s x) (d := ⟨e.oven, sideOf⟩)
    (released_apart x h he hk (by rw [h2]; nofun) h3) hn (by rw [hrun]; exact h1) (by rw [hrun]; exact h2)
    ((currentOven_of_sch hsch).trans h3)
  simp only [k.doorRec_kept, k.ovenRec_kept, k.now_kept, hsch] at hclose
  exact hclose

theorem activeEntry_mem {s : State} {a n : Nat} {k : PermitKind} {sd : Side} {e : Permit}
    (h : activeEntry s a k n sd = some e) : e ∈ s.ilk.permits := List.mem_of_find?_eq_some h

/-! ## The effects of a door kind -/

theorem doorOf_side {e : Permit} {side : DoorSide} (h : e.side.door = some side) : doorOf e = some ⟨e.oven, side⟩ := by
  unfold doorOf
  rw [h]

theorem doneEffects_removed {b s : State} {e : Permit} {m : Nat} {side : DoorSide} (hk : e.kind = .doorOff)
    (h : e.side.door = some side) : doneEffects b e true m s = doorCompleted b ⟨e.oven, side⟩ true s := by
  rw [doneEffects_doorOff hk, if_pos rfl, doorOf_side h, withDoor]

theorem doneEffects_replaced {b s : State} {e : Permit} {m : Nat} {side : DoorSide} (hk : e.kind = .doorOn)
    (h : e.side.door = some side) : doneEffects b e true m s = doorCompleted b ⟨e.oven, side⟩ false s := by
  rw [doneEffects_doorOn hk, if_pos rfl, doorOf_side h, withDoor]

/-- A failed DOOR_OFF or DOOR_ON changes no door. -/
theorem doneEffects_door_failed {b s : State} {e : Permit} {m : Nat} (hk : e.kind = .doorOff ∨ e.kind = .doorOn) :
    Touches [.regs, .dirty] s (doneEffects b e false m s) := by
  rcases hk with hk | hk
  · rw [doneEffects_doorOff hk, if_neg nofun]
    exact oprDerive_touches _ _
  · rw [doneEffects_doorOn hk, if_neg nofun]
    exact .refl _ _

end Sys2Proof.Machine

open Sys2Proof Sys2Proof.Machine

/-- Settles O46: each conjunct by the lemmas about the effects of its kind, run on the state whose set the entry has
left. -/
theorem donesTakeTheirEffect : Obligations.DonesTakeTheirEffect := by
  intro h kind oven side result m s x k sd e hx hs ha u v a n ok hk hsd hact
  obtain ⟨hkind, hoven, hside⟩ := activeEntry_names hact
  have hmem : e ∈ s.ilk.permits := activeEntry_mem hact
  have hv : v = taken s x := afterReply_not_joining hx (by rw [ha]; decide)
  let b := decide (result.toNat = 0)
  have hok : ok ↔ b = true :=
    ⟨fun hr => decide_eq_true (congrArg BitVec.toNat hr), fun hb => BitVec.eq_of_toNat_eq (of_decide_eq_true hb)⟩
  have hfail : ¬ ok ↔ b = false := (not_congr hok).trans Bool.eq_false_iff.symm
  let w := doneEffects (taken s x) e b m.toNat (released e s x)
  let t := doneEnding (entryFor s .field u) u e (taken s x) w
  have hresult : ∀ {c}, b = c → w = doneEffects (taken s x) e c m.toNat (released e s x) := fun h => h ▸ rfl
  have hexec : exec (.done h kind oven side result m) s = .next t := exec_done_active hx hs ha hk hsd hact
  have kr := released_touches e s x
  have kw : Touches doneAspects (released e s x) w := doneEffects_touches _ _ _ _ _
  have kt : Touches (.rounds :: .drawn :: cutAspects) w t := doneEnding_touches _ _ _ _ _
  have hrec : ∀ g, ovenRec (released e s x) g = ovenRec s g := kr.ovenRec_kept
  have hsch : (released e s x).sch = s.sch := kr.sch_kept
  have hrun : (released e s x).run = s.run := kr.runRecord_kept
  have hnow : (released e s x).now = s.now := kr.now_kept
  have hcurrent : currentOven (released e s x) = currentOven s := currentOven_of_sch hsch
  have hcar : ∀ c, (carRec (released e s x) c).state = (carRec s c).state := fun c =>
    cycle_state (released_cycle e s x c)
  have hif : ∀ {α : Type} (p q : α), (if ok then p else q) = if b = true then p else q := fun p q =>
    ite_congr (propext hok) (fun _ => rfl) (fun _ => rfl)
  have hovenEnd : (ovenRec w e.oven).phase ≠ .pushing → (ovenRec w e.oven).phase ≠ .charging →
      1 ≤ e.oven ∧ e.oven ≤ 128 → ovenRec t e.oven = ovenRec w e.oven := fun h1 h2 hn => doneEnding_ovenRec hn h1 h2
  clear_value n a
  subst hkind hoven hside
  refine ⟨w, t, hexec, ?ending, ?permits, ?pushOven, ?pushCar, ?pushRun, ?charge, ?doors, ?cars, ?level⟩
  case ending => rw [hv]
  case permits =>
    rw [← released_permits e s x]
    exact kw.grants_kept
  case pushOven =>
    intro hp hphase
    have hw := pushDone_oven (b := taken s x) (ok := b) (m := m.toNat) hp
      ((congrArg OvenRecord.phase (hrec _)).trans hphase)
    rw [hrec, hsch] at hw
    have hend : (ovenRec w e.oven).phase = if b = true then .empty else .pushInterrupted := congrArg OvenRecord.phase hw
    rw [hovenEnd (by rw [hend]; split <;> nofun) (by rw [hend]; split <;> nofun)
      (ovenRec_range (by rw [hphase]; nofun)), hif]
    exact hw
  case pushCar =>
    intro hp c hc hstate hlists
    obtain ⟨-, -, -, hidle⟩ := hlists
    have hrange : 1 ≤ c ∧ c ≤ 2 := carRec_range (by rw [hstate]; nofun)
    have hnot : c ∉ (released e s x).qtc.idle := fun hin => by
      rw [kr.idle_kept.1, hidle c (by omega), hstate] at hin
      exact nomatch hin
    obtain ⟨h1, h2, h3, h4, h5, h6, h7⟩ :=
      pushDone_car (b := taken s x) (ok := b) (m := m.toNat) hp hc ((hcar c).trans hstate) hnot
    refine ⟨h1, h2, ?_, h4, h5.trans (cycleRec_load (released_cycle e s x c)).2.2, h6.trans (congrArg some hnow), h7⟩
    rw [hfail, h3]
    simp
  case pushRun =>
    intro hp h1 h2 h3
    obtain ⟨hdone, hfailed⟩ := pushDone_run (b := taken s x) (ok := b) (m := m.toNat) hp
      (by rw [hrun]; exact h1) (by rw [hrun]; exact h2) (hcurrent.trans h3)
    rw [hrun, hnow, hsch] at hdone
    rw [hrun] at hfailed
    exact ⟨fun ho => hdone (hok.mp ho), fun hf => hfailed (hfail.mp hf)⟩
  case charge =>
    intro hp hphase
    have hphase' : (ovenRec (released e s x) e.oven).phase = .charging := by rw [hrec]; exact hphase
    have hw := chargeDone_oven (b := taken s x) (ok := b) (m := m.toNat) hp hphase'
    rw [hrec, hnow] at hw
    have hend : (ovenRec w e.oven).phase = .coking := congrArg OvenRecord.phase hw
    refine ⟨?_, fun hf => ?_⟩
    · rw [hovenEnd (by rw [hend]; nofun) (by rw [hend]; nofun) (ovenRec_range (by rw [hphase]; nofun))]
      exact hw
    · have kt' : Touches _ (doneEffects (taken s x) e false m.toNat (released e s x)) t := hresult (hfail.mp hf) ▸ kt
      exact (chargeDone_counted hp hphase' kt').since kr
  case doors =>
    intro sideOf hdoorSide hn1 hn2
    have hn : 1 ≤ e.oven ∧ e.oven ≤ 128 := ⟨hn1, hn2⟩
    have htd : t.dsm.doors = w.dsm.doors := kt.doors_kept
    have hkept : doorRec t ⟨e.oven, sideOf⟩ = doorRec w ⟨e.oven, sideOf⟩ := kt.doorRec_kept _
    rw [hv]
    refine ⟨fun hkd ho => ?removed, fun hkd ho => ?replaced, fun hkd ho hlaw hr hst hc => ?opening,
      fun hkd ho hlaw hr hst hc => ?close, fun hkd hf => ?mode, fun hkd hf => ?kept, fun hkd hstage hd => ?reseat⟩
    case removed =>
      have hw : w = doorCompleted (taken s x) ⟨e.oven, sideOf⟩ true (released e s x) :=
        (hresult (hok.mp ho)).trans (doneEffects_removed hkd hdoorSide)
      obtain ⟨h1, h2, h3, h4, h5⟩ := doorRemoved_completed hn (hkept.trans (congrArg (doorRec · _) hw))
      refine ⟨h1, h2, h3, h4, h5, fun hp => ?_⟩
      have hoff : (ovenRec w e.oven).phase = .doorsOff := by
        rw [hw]
        exact doorRemoved_phase (d := ⟨e.oven, sideOf⟩) (by rw [hrec]; exact hp)
      rw [hovenEnd (by rw [hoff]; nofun) (by rw [hoff]; nofun) hn]
      exact hoff
    case replaced =>
      have hw : w = doorCompleted (taken s x) ⟨e.oven, sideOf⟩ false (released e s x) :=
        (hresult (hok.mp ho)).trans (doneEffects_replaced hkd hdoorSide)
      obtain ⟨h1, h2, h3, h4, h5, h6⟩ := doorReplaced_completed hn (hkept.trans (congrArg (doorRec · _) hw))
      refine ⟨h1, h2, h3, h4, h5, h6.trans hnow, fun hp => ?_⟩
      have hon := doorReplaced_phase (b := taken s x) (d := ⟨e.oven, sideOf⟩) (s := released e s x)
        ((congrArg OvenRecord.phase (hrec _)).trans hp)
      have hready : readyInstant (released e s x) e.oven = readyInstant s e.oven :=
        readyInstant_kept (congrArg OvenRecord.stamp (hrec _)) (ovenConfig_kept kr _) kr.ovenTables_kept.2
      have hboth : bothDoorsOn t e.oven = bothDoorsOn w e.oven :=
        bothDoorsOn_unlisted fun g => congrArg unlistedRec (kt.doorRec_kept _)
      rw [← hw, hready, hnow, ← hboth] at hon
      have hidle : ∀ ph, ph = .pushing ∨ ph = .charging → (ovenRec w e.oven).phase ≠ ph := fun ph hph => by
        rw [hon]
        exact returned_ne _ _ hph
      rw [hovenEnd (hidle _ (.inl rfl)) (hidle _ (.inr rfl)) hn]
      exact hon
    case opening =>
      rw [(hresult (hok.mp ho)).trans (doneEffects_removed hkd hdoorSide)]
      exact released_opening x (sideOf := sideOf) hlaw hmem (.inl hkd) hn hr hst hc
    case close =>
      rw [(hresult (hok.mp ho)).trans (doneEffects_replaced hkd hdoorSide)]
      exact released_close x (sideOf := sideOf) hlaw hmem (.inr hkd) hn hr hst hc
    case mode =>
      rw [hresult (hfail.mp hf), doneEffects_doorOff hkd, if_neg nofun, derivedMode_kept (oprDerive_touches _ _)]
      exact regRec_oprDerive hn1 hn2
    case kept =>
      have kf := doneEffects_door_failed (b := taken s x) (s := released e s x) (m := m.toNat) hkd
      rw [htd, hresult (hfail.mp hf), kf.doors_kept, kr.doors_kept]
    case reseat =>
      have hw := reseatDone_task (b := taken s x) (s := released e s x) (ok := b) (m := m.toNat) hkd hdoorSide hstage hd
      rw [hnow, show (released e s x).dsm.config = s.dsm.config from kr.sealTable_kept] at hw
      rw [hif]
      exact hw
  case cars =>
    intro c hc
    have hc' := (released_carOfEntry e s x).trans hc
    have htiming : (released e s x).qtc.timing = s.qtc.timing := kr.trackTables_kept.2.2.2
    have hidle := kr.idle_kept
    rw [hv]
    refine ⟨fun hq hstate => ?_, fun hd hstate => ⟨fun ho => ?_, fun hf => ?_⟩⟩
    · have hw := quenchDone_car (b := taken s x) (ok := b) (m := m.toNat) hq hc' ((hcar c).trans hstate)
      rw [htiming, hnow] at hw
      rw [hif]
      exact hw
    · have hw := dumpDone_ok (b := taken s x) (m := m.toNat) hd hc' ((hcar c).trans hstate)
      dsimp only at hw
      rw [hidle.1, hidle.2, ← hresult (hok.mp ho)] at hw
      exact hw
    · have hw := dumpDone_failed (b := taken s x) (m := m.toNat) hd hc' ((hcar c).trans hstate)
      rw [← hresult (hfail.mp hf)] at hw
      exact hw
  case level =>
    intro hl
    rw [hv]
    exact doneEffects_level hl

end

section
/-!
SUPPORT. The aspects that a command may touch which is no reply on the field line, and the frame and the permit laws that
follow of it.
-/

set_option Elab.async false
namespace Sys2Proof.Machine

open Sys2Proof

/-- What some command may touch that is no reply on the field line: a power-on reset alone touches all of it but the free
values drawn. -/
abbrev unansweredAspects : List Aspect := .drawn :: powerAspects

theorem telegramAspects_within (k : Nat) : withinAspects (telegramAspects k) unansweredAspects = true := by
  unfold telegramAspects
  split <;> rfl

theorem footprint_within {c : Instr} (h : replyTelegram c = none) :
    withinAspects (footprint c) unansweredAspects = true := by
  cases c
  case broadcastOtherKind u => exact telegramAspects_within (kindOf u)
  case unknownStationTelegram u => exact telegramAspects_within (kindOf u)
  case controlOtherKind u => exact telegramAspects_within (kindOf u)
  case ownAddressNonMgmt u => exact telegramAspects_within (kindOf u)
  case gapWindowExpiry port => cases port <;> rfl
  case framingDiscard port line => cases port <;> rfl
  case preambleStartsAssembly port => cases port <;> rfl
  case foreignReply | position | request | done | sealReport | sample | ready | fieldOtherKind => exact nomatch h
  all_goals rfl

/-- The footprint of a reply is that of its telegram's kind. -/
theorem footprint_reply {c : Instr} {u : Telegram} (h : replyTelegram c = some u) :
    footprint c = replyAspects (kindOf u) := by
  have hk : ∀ k, k < 128 → ∀ hd b, arrived hd k b = u → replyAspects k = replyAspects (kindOf u) := by
    rintro k hlt hd b rfl
    rw [kindOf_arrived k hlt]
  cases c
  case foreignReply v => exact congrArg (fun w => replyAspects (kindOf w)) (Option.some.inj h)
  case fieldOtherKind v => exact congrArg (fun w => replyAspects (kindOf w)) (Option.some.inj h)
  case position | request | done | sealReport | sample | ready => exact hk _ (by decide) _ _ (Option.some.inj h)
  all_goals exact nomatch h

/-- An aspect that only a reply may touch is in no footprint but those of replies whose kind names it. -/
theorem not_mem_footprint {a : Aspect} {c : Instr} (ha : a ∉ unansweredAspects)
    (hr : ∀ u, replyTelegram c = some u → a ∉ replyAspects (kindOf u)) : a ∉ footprint c := by
  cases h : replyTelegram c with
  | none => exact fun hc => ha (by simpa using List.all_eq_true.mp (footprint_within h) a hc)
  | some u =>
    rw [footprint_reply h]
    exact hr u h

/-- Of the replies only a REQUEST may add a permit (R35). -/
theorem grants_not_mem_replyAspects {k : Nat} (h : k ≠ Kind.request) : Aspect.grants ∉ replyAspects k := by
  unfold replyAspects reportAspectsOf
  rw [if_neg h]
  split
  · decide
  · split <;> decide

end Sys2Proof.Machine

open Sys2Proof Sys2Proof.Machine

/-- Settles O15: the frame of each command, put together from those of the operations of its meaning. -/
theorem commandsTouchOnlyTheirFootprint : Obligations.CommandsTouchOnlyTheirFootprint := fun _ _ _ => exec_touches

/-- Settles O7: no footprint names the law of the permit set. -/
theorem permitSetStaysLawful : Obligations.PermitSetStaysLawful := fun _ _ h hs =>
  step_keeps .permitLaw (fun _ _ => Iff.rfl) (by decide) (fun _ _ => id) h hs

/-- Settles O14: no footprint names the law of the holders, be the command a reply or not. -/
theorem permitHoldersStayActive : Obligations.PermitHoldersStayActive := by
  intro s t h hs
  unfold step at h
  split at h
  · obtain rfl := Host.Outcome.next.inj h
    exact hs
  · exact exec_touches h .holderLaw
      (not_mem_footprint (by decide) fun u _ => not_mem_replyAspects _ rfl (kindOf u)) hs

/-- Settles O18: of the commands a REQUEST alone has the adding of permits in its footprint. -/
theorem onlyRequestsGrantPermits : Obligations.OnlyRequestsGrantPermits := fun _ _ _ h hc =>
  (exec_touches h).grants_kept (not_mem_footprint (by decide) fun u hu => grants_not_mem_replyAspects (hc u hu))
end

section
/-!
SUPPORT. What the interlock answers to a REQUEST and a DONE, what leaves the permit set by an expiry and by a break, and
what a run does that leaves WAIT.
-/

set_option Elab.async false
namespace Sys2Proof.Machine

open Sys2Proof

/-- A DONE of an ACTIVE station goes to the interlock, whatever it matches (R36, R37). -/
theorem exec_done {h : Header} {kind oven side result : Byte} {m : BitVec 16} {s : State} {x : Exchange}
    (hx : Awaits s x) (hs : h.source.toNat = (pollEntry s x.position).address)
    (ha : (station s x.position).state = .active) :
    let u := arrived h Kind.done ([kind, oven, side, result] ++ toBytes 2 m.toNat)
    exec (.done h kind oven side result m) s = .next (roundOn (coreCopy (entryFor s .field u) u
      (ilkDone x.position kind.toNat oven.toNat side.toNat result.toNat m.toNat (taken s x)))) := by
  intro u
  have hr : framed u = true :=
    framed_arrived h _ _ (by decide) (by simp [toBytes_length]) (by simp [toBytes_length]; rfl)
  rw [exec_active_reply (c := .done h kind oven side result m) rfl hx (decide_eq_true hs) hr ha, classifyField_done,
    entryFor_kept (taken_touches s x)]

/-- A DONE that matches no entry is a LATE_DONE, and no more (R37). -/
theorem ilkDone_late {p kind oven side result m : Nat} {s : State}
    (hn : ∀ k sd, (asked s p kind oven side).kind = some k → (asked s p kind oven side).side = some sd →
      activeEntry s (pollEntry s p).address k (asked s p kind oven side).oven sd = none) :
    ilkDone p kind oven side result m s =
      raise .lateDone (asked s p kind oven side).oven (pollEntry s p).address kind s := by
  unfold ilkDone
  dsimp only
  cases hk : (asked s p kind oven side).kind with
  | none => rfl
  | some k =>
    cases hsd : (asked s p kind oven side).side with
    | none => rfl
    | some sd =>
      dsimp only
      rw [hn k sd hk hsd]

/-- An event that is the last thing before the round's end takes no permit out where no round start is owed. -/
theorem raiseEnding_permits (d : DispatchEntry) (u : Telegram) (k : EventKind) (o a : Nat) (i : Int) {s : State}
    (h : s.fpl.owed = false) : (roundOn (coreCopy d u (raise k o a i s))).ilk.permits = s.ilk.permits := by
  have kr := raise_touches k o a i s
  have kc := coreCopy_touches d u (raise k o a i s)
  rw [roundOn_permits _ (kc.rounds_kept.2.2.1.trans (kr.rounds_kept.2.2.1.trans h)), kc.permits_kept, kr.permits_kept]

/-- A DONE that matches an entry leaves none but others in the set (R36). -/
theorem doneEnding_permits (d : DispatchEntry) (u : Telegram) (e : Permit) (b : State) (ok : Bool) (m : Nat) :
    (doneEnding d u e b (doneEffects b e ok m (dropEntryOf e b))).ilk.permits.Sublist (b.ilk.permits.erase e) := by
  have k : Touches (.rounds :: .drawn :: doneAspects) (dropEntryOf e b)
      (doneEnding d u e b (doneEffects b e ok m (dropEntryOf e b))) :=
    (doneEffects_touches b e ok m _).mono.seq (doneEnding_touches d u e b _).mono
  exact k.grants_kept

/-- The entry that breaks first, and those before it in grant order (R38, R41). -/
theorem firstBroken_split {b s : State} {e : Permit} {t : Nat} (h : firstBroken b s = some (e, t)) :
    ∃ earlier later, s.ilk.permits = earlier ++ e :: later ∧
      ∀ d ∈ earlier, inputChanged b s d = true → failedHold s d = none := by
  obtain ⟨earlier, d, later, hl, hd, hbefore⟩ := List.findSome?_eq_some_iff.mp h
  have hde : d = e := by
    split at hd
    · obtain ⟨u, _, hu⟩ := Option.map_eq_some_iff.mp hd
      exact congrArg Prod.fst hu
    · exact nomatch hd
  subst hde
  refine ⟨earlier, later, hl, fun x hx hc => ?_⟩
  have hb := hbefore x hx
  rwa [if_pos hc, Option.map_eq_none_iff] at hb

/-- Nothing breaks where every changed entry has its hold terms. -/
theorem firstBroken_none {b s : State}
    (h : ∀ e ∈ s.ilk.permits, inputChanged b s e = true → ∀ t ∈ effectiveTerms s e.kind, isHoldTerm t = true →
      termHolds s (inputOf s e) t = true) : firstBroken b s = none := by
  refine List.findSome?_eq_none_iff.mpr fun e he => ?_
  split
  · next hc =>
    rw [Option.map_eq_none_iff]
    refine List.find?_eq_none.mpr fun t ht hf => ?_
    obtain ⟨h1, h2⟩ := (Bool.and_eq_true _ _).mp hf
    rw [h e he hc t ht h1] at h2
    exact nomatch h2
  · rfl

theorem effectiveTerms_sorted (s : State) (k : PermitKind) : (effectiveTerms s k).Pairwise (· < ·) :=
  List.Pairwise.filter _ (by decide)

/-- The hold terms below the one that breaks an entry hold (R39). -/
theorem termHolds_below {s : State} {e : Permit} {t : Nat} (h : failedHold s e = some t) :
    ∀ u ∈ effectiveTerms s e.kind, u < t → isHoldTerm u = true → termHolds s (inputOf s e) u = true := by
  intro u hu hlt hhold
  obtain ⟨_, before, after, hl, hbefore⟩ := List.find?_eq_some_iff_append.mp h
  have hsorted := effectiveTerms_sorted s e.kind
  rw [hl] at hu hsorted
  obtain ⟨_, htail, _⟩ := List.pairwise_append.mp hsorted
  rcases List.mem_append.mp hu with hu | hu
  · have hb := hbefore u hu
    rw [hhold] at hb
    simpa using hb
  · rcases List.mem_cons.mp hu with rfl | hu
    · exact absurd hlt (Nat.lt_irrefl _)
    · exact absurd ((List.pairwise_cons.mp htail).1 u hu) (by omega)

/-- A break or an expiry takes its entry out of the set, and no other (R39, R40). -/
theorem cutPermit_permits (e : Permit) (ev : EventKind) (a b c d : Nat) (s : State) :
    (cutPermit e ev a b c d s).ilk.permits = s.ilk.permits.erase e := by
  rw [cutPermit_eq, (departFree_touches _ _).permits_kept, (cutEffects_within _ _ _ _).permits_kept, cutStart_permits]

/-- What has been counted stays counted, whatever follows that lets no count fall. -/
theorem Counted.before {l m : List Aspect} {k : EventKind} {s t u : State} (hc : Counted k s t) (h : Touches l s t)
    (h' : Touches m t u) (hl : Aspect.tally ∉ l := by decide) (hm : Aspect.tally ∉ m := by decide) :
    Counted k s u := fun hs =>
  Nat.le_trans (hc hs) (h'.eventCount_le k (h.eventCount_le k hs hl).2 hm).1

/-- A run that has entered POSITION does not stand in WAIT, and keeps its car (R54). -/
theorem PositionEntered.left_wait {s y : State} (h : PositionEntered s y) :
    y.run.step ≠ .wait ∧ y.run.car = s.run.car ∧ y.qtc.carRequest = false := by
  obtain ⟨-, hcar, hreq, hout, hin⟩ := h
  refine ⟨?_, hcar, hreq⟩
  cases hp : allInPlace s with
  | false =>
    rw [(hout hp).1]
    nofun
  | true =>
    obtain ⟨-, hopen, hshut⟩ := hin hp
    by_cases ho : opened s
    · rw [(hopen ho).1]
      nofun
    · rw [(hshut ho).1]
      nofun

/-- No permit of a station stays that a miss has taken from ACTIVE to LOST (R38, R42). -/
theorem miss_permits {p : Nat} (hp : p < 24) {s : State} (ha : (station s p).state = .active)
    (hm : s.fpl.settings.misses ≤ (station s p).misses + 1) :
    ∀ e ∈ (miss p s).ilk.permits, posOfAddress s e.station ≠ some p := by
  rw [miss_limit ha hm]
  exact departure_permits hp ha (by nofun) _ _ _ _

end Sys2Proof.Machine

open Sys2Proof Sys2Proof.Machine

/-- Settles O37: the interlock writes its answer on the state that the taken reply left, and neither the copy nor the
round's end writes an answer. -/
theorem requestsAreAnswered : Obligations.RequestsAreAnswered := by
  intro h kind oven side s x hx hs ha
  refine ⟨_, exec_request_active hx hs ha, ?_⟩
  have ⟨_, _, _, hp⟩ := hx
  rw [(roundOn_coreCopy_touches _ _ _).answers_kept, ilkRequest_answer hp,
    afterReply_not_joining hx (by rw [ha]; nofun)]

/-- Settles O38: a matching DONE begins by taking its entry out, and adds none; any other raises LATE_DONE alone. -/
theorem donesReleaseTheirPermit : Obligations.DonesReleaseTheirPermit := by
  intro h kind oven side result m s x hx hs ha a
  have kt := taken_touches s x
  refine ⟨fun k sd e hk hsd he => ?_, fun hn => ?_⟩
  · refine ⟨_, exec_done_active hx hs ha hk hsd he, ?_⟩
    rw [← kt.permits_kept]
    exact doneEnding_permits _ _ _ _ _ _
  · have hn' : ∀ k sd, (asked (taken s x) x.position kind.toNat oven.toNat side.toNat).kind = some k →
        (asked (taken s x) x.position kind.toNat oven.toNat side.toNat).side = some sd →
        activeEntry (taken s x) (pollEntry (taken s x) x.position).address k
          (asked (taken s x) x.position kind.toNat oven.toNat side.toNat).oven sd = none := by
      rw [asked_kept kt, kt.pollEntry_kept]
      exact fun k sd hk hsd => (activeEntry_kept kt _ _ _ _).trans (hn k sd hk hsd)
    have he := exec_done (kind := kind) (oven := oven) (side := side) (result := result) (m := m) hx hs ha
    rw [ilkDone_late hn'] at he
    refine ⟨_, he, (Counted.of_raise (roundOn_coreCopy_touches _ _ _)).after kt, fun ho => ?_⟩
    rw [raiseEnding_permits _ _ _ _ _ _ (kt.rounds_kept.2.2.1.trans ho), kt.permits_kept]

/-- Settles O44: the cases are those that the check reads off each entry of the oven. -/
theorem exclusionCheckFollowsItsCases : Obligations.ExclusionCheckFollowsItsCases := by
  intro s k n
  unfold excluded
  refine ⟨fun hk => by simp [hk], fun hk => ?_⟩
  simp only [hk, List.any_eq_true, Bool.and_eq_true, Bool.or_eq_true, decide_eq_true_eq, Bool.not_false, and_true]
  constructor
  · rintro ⟨e, he, ho, ((hp | ⟨hc, hl⟩) | hp) | hc⟩
    · exact .inl ⟨e, he, hp, ho⟩
    · exact .inr (.inl ⟨hl, e, he, hc, ho⟩)
    · exact .inr (.inr ⟨.inl hp, e, he, ho⟩)
    · exact .inr (.inr ⟨.inr hc, e, he, ho⟩)
  · rintro (⟨e, he, hp, ho⟩ | ⟨hl, e, he, hc, ho⟩ | ⟨hp | hc, e, he, ho⟩)
    · exact ⟨e, he, ho, .inl (.inl (.inl hp))⟩
    · exact ⟨e, he, ho, .inl (.inl (.inr ⟨hc, hl⟩))⟩
    · exact ⟨e, he, ho, .inl (.inr hp)⟩
    · exact ⟨e, he, ho, .inr hc⟩

/-- Settles O22: the first due entry is cut, with detail 0 for the run, and the interlock looks again. -/
theorem holdDeadlineExpiresTheFirstEntry : Obligations.HoldDeadlineExpiresTheFirstEntry := by
  intro s e he
  have hx : expireFirst s = ilkSettle s (expirePermit e s) := by
    unfold expireFirst
    rw [dueEntry_eq, he]
  have k := ilkSettle_touches s (expirePermit e s)
  have hw : (expirePermit e s).ilk.permits = s.ilk.permits.erase e := cutPermit_permits _ _ _ _ _ _ _
  refine ⟨expirePermit e s, expireFirst s, rfl, hx, ?_, ?_, fun p hp ha => ?_, hw, cutPermit_takesEffect _ _ _ _ _ _ _⟩
  · rw [hx, ← hw]
    exact k.grants_kept
  · rw [hx]
    exact (cutPermit_counted _ _ _ _ _ _ _).before (expirePermit_touches e s) k
  · rw [hx]
    exact k.halts_kept (by decide) p (cutPermit_halts _ _ _ _ _ _ _ p hp ha)

/-- Settles O25: the tests of WAIT decide, and the freedom tests after them write neither run nor idle list. -/
theorem leadInstantAsksForACar : Obligations.LeadInstantAsksForACar := by
  intro s hr hs hl
  have hlead : leadInstant s = afterRun s (waitTests s) := by
    unfold leadInstant leadReached
    rw [hr, hs, reached_of_le hl]
    rfl
  have ka := afterRun_touches s (waitTests s)
  obtain ⟨-, hnone, htake, hcar⟩ := waitTests_tested hr hs
  refine ⟨leadInstant s, rfl, fun hc hi => ?_, fun c rest hc hi => ?_, fun c hc hp hready => ?_⟩
  all_goals rw [hlead, ka.idle_kept.2, ka.runRecord_kept]
  · rw [hnone hl hc hi]
    exact ⟨rfl, rfl⟩
  · obtain ⟨h1, h2, -, henter, hstay⟩ := htake c rest hl hc hi
    rw [ka.idle_kept.1]
    refine ⟨?_, h1, h2⟩
    by_cases he : s.run.planned - s.sch.timing.lead ≤ s.now ∧ workable (currentPhase s) = true ∧
        readyInstant s (currentOven s) ≤ s.now + s.sch.timing.lead
    · exact (henter he).left_wait.2.1
    · rw [hstay he]
      rfl
  · have hw : workable (currentPhase s) = true := by
      rcases hp with hp | hp | hp <;> rw [hp] <;> rfl
    rw [← hc]
    exact ((hcar c hc).1 ⟨hl, hw, hready⟩).left_wait

/-- Settles O47: the loop of breaks, its first entry and its term; the cut of an entry; and the departure that a miss
brings. -/
theorem breaksTakeTheirEffect : Obligations.BreaksTakeTheirEffect := by
  refine ⟨fun b s => ilkSettle_none, fun b s => firstBroken_none, fun b s e t h => ?_, fun b s e => ilkSettle_held,
    fun e t s => ?_, fun c s x hx hc ha hm => ?_⟩
  · obtain ⟨-, hchanged, hfails⟩ := firstBroken_some h
    obtain ⟨hterm, hhold, hfalse⟩ := failedHold_some hfails
    exact ⟨firstBroken_split h, hchanged, hfails, hterm, hhold, hfalse, termHolds_below hfails, ilkSettle_step h⟩
  · exact ⟨breakPermit_permits e t s, cutPermit_counted _ _ _ _ _ _ _, cutPermit_halts _ _ _ _ _ _ _,
      cutPermit_takesEffect _ _ _ _ _ _ _⟩
  · obtain ⟨v, kv, hv⟩ := exec_endsAsMiss hx hc
    obtain ⟨-, he, hvoid, hp⟩ := hx
    have ku : Touches [.line, .exchange, .fieldDiscards, .outbound, .dirty] s (missStart x v) :=
      kv.mono.seq (missStart_touches x v).mono
    rw [exchangeMissed_eq (by rw [kv.exchange_kept, he]) hvoid] at hv
    refine ⟨_, hv, fun e hin => ?_⟩
    have hstay := (roundOn_touches (miss x.position (missStart x v))).grants_kept.subset hin
    rw [← posOfAddress_kept ku]
    refine miss_permits hp ?_ ?_ e hstay
    · rw [ku.station_kept, ha]
    · rw [ku.station_kept, ku.pollTables_kept.2.2]
      exact hm
end

section
/-!
SUPPORT. What the classifier makes of an order of the control station to a station: HALT, MOVE and TASK (R44, R45).
-/

set_option Elab.async false
namespace Sys2Proof.Machine

open Sys2Proof

/-! ## The checks of an order -/

theorem ForStation.position_lt {s : State} {p : Nat} {u : Telegram} (h : ForStation s p u) : p < 24 := by
  obtain ⟨-, hp, -, -, -⟩ := h
  exact hp

section
variable {s : State} {p : Nat}

theorem orderRefusal_notMachine (hm : ¬ ((pollEntry s p).cls ≠ .os ∧ (pollEntry s p).cls ≠ .aux)) :
    orderRefusal s p = some Reason.wrongClass := by
  unfold orderRefusal
  rw [if_pos (by rw [← isMachine_iff] at hm; simpa using hm)]

theorem orderRefusal_machine (hm : (pollEntry s p).cls ≠ .os ∧ (pollEntry s p).cls ≠ .aux) :
    orderRefusal s p = if runEngaged s && isRunMachine s p then some Reason.runOwned else none := by
  unfold orderRefusal
  rw [if_neg (by rw [(isMachine_iff _).mpr hm]; nofun)]

/-- A door machine is a run machine of every run (3.4). -/
theorem orderRefusal_doorMachine (hc : (pollEntry s p).cls = .pm ∨ (pollEntry s p).cls = .cgm) :
    orderRefusal s p = if runEngaged s then some Reason.runOwned else none := by
  have hr : isRunMachine s p = true := by
    unfold isRunMachine
    rcases hc with hc | hc <;> rw [hc]
  rw [orderRefusal_machine (by rcases hc with hc | hc <;> rw [hc] <;> exact ⟨nofun, nofun⟩), hr, Bool.and_true]

end

/-! ## HALT (R44) -/

theorem exec_controlHalt {h : Header} {reason : Byte} {s : State} {p : Nat}
    (hs : ForStation s p (arrived h Kind.halt [reason])) :
    let u := arrived h Kind.halt [reason]
    exec (.controlHalt h reason) s = .next (controlHalt (entryFor s .control u) p u (controlAccepted s)) := by
  show Host.Outcome.next (controlArrival _ s) = _
  rw [controlArrival_toStation hs]
  unfold controlToStation
  dsimp only
  rw [kindOf_arrived _ (by decide)]
  rfl

theorem controlHalt_placed {p : Nat} (hp : p < 24) (e : DispatchEntry) (u : Telegram) (s : State) :
    OrderPlaced (controlHalt e p u s) p u :=
  orderPlaced_kept (echo_touches e u _) (putOrder_placed hp u s)

/-! ## MOVE (R45) -/

/-- The telegram of a MOVE. -/
abbrev moveOrder (h : Header) (target : Nat) (speed oven : Byte) : Telegram :=
  arrived h Kind.move (toBytes 3 target ++ [speed, oven])

/-- The speed class of a MOVE as it goes on: creep outside SERVICE (R45 check 4). -/
abbrev speedInMode (s : State) (speed : Byte) : Byte := if s.mgt.mode = .service then speed else 0#8

theorem kindOf_moveOrder (h : Header) (target : Nat) (speed oven : Byte) :
    kindOf (moveOrder h target speed oven) = Kind.move := kindOf_arrived _ (by decide) _ _

theorem moveTarget_moveOrder (h : Header) {target : Nat} (ht : target < 16777216) (speed oven : Byte) :
    moveTarget (moveOrder h target speed oven) = target := by
  have hb := reportedPosition_body (BitVec.ofNat 24 target) speed oven
  rwa [BitVec.toNat_ofNat, Nat.mod_eq_of_lt ht] at hb

theorem moveSpeed_moveOrder (h : Header) (target : Nat) (speed oven : Byte) :
    moveSpeed (moveOrder h target speed oven) = speed.toNat := rfl

/-- A clamped MOVE goes on at creep speed to its new target (R81). -/
theorem creepTo_moveOrder (h : Header) (target z : Nat) (speed oven : Byte) :
    creepTo (moveOrder h target speed oven) z = moveOrder h z 0#8 oven := by
  have ho : moveOven (moveOrder h target speed oven) = oven.toNat := rfl
  unfold creepTo moveBody codeByte
  rw [ho, BitVec.ofNat_toNat, BitVec.setWidth_eq]
  rfl

section
variable {e : DispatchEntry} {p c why : Nat} {u v : Telegram} {s t : State}

/-- One of the checks that MOVE and TASK share refuses. -/
theorem controlMove_refused (hr : orderRefusal s p = some why) :
    controlMove e p u s = refuseControl Kind.move (moveOven u) why s := by
  simp [controlMove, hr]

theorem controlMove_held (hr : orderRefusal s p = none) (ht : holdsTerm3 s (pollEntry s p).address = true) :
    controlMove e p u s = refuseControl Kind.move (moveOven u) Reason.permitHeld s := by
  simp [controlMove, hr, ht]

theorem controlMove_machine (hr : orderRefusal s p = none) (ht : holdsTerm3 s (pollEntry s p).address = false)
    (hc : carAt s p = none) :
    controlMove e p u s = placeControl e p (moveOven (creepOutside s u)) (creepOutside s u) s := by
  simp [controlMove, hr, ht, hc]

theorem controlMove_car_ok (hr : orderRefusal s p = none) (ht : holdsTerm3 s (pollEntry s p).address = false)
    (hc : carAt s p = some c) (hm : carMove c p (controlOrder (creepOutside s u)) s = .ok (t, v)) :
    controlMove e p u s = echo e v t := by
  simp [controlMove, hr, ht, hc, hm]

theorem controlMove_car_error (hr : orderRefusal s p = none) (ht : holdsTerm3 s (pollEntry s p).address = false)
    (hc : carAt s p = some c) (hm : carMove c p (controlOrder (creepOutside s u)) s = .error why) :
    controlMove e p u s = refuseControl Kind.move (moveOven (creepOutside s u)) why s := by
  simp [controlMove, hr, ht, hc, hm]

end

section
variable {h : Header} {target : BitVec 24} {speed oven : Byte} {s : State} {p : Nat}
  (hs : ForStation s p (moveOrder h target.toNat speed oven))
include hs

theorem exec_move_refused {why : Nat} (hr : orderRefusal s p = some why) :
    exec (.controlMove h target speed oven) s =
      .next (refuseControl Kind.move oven.toNat why (controlAccepted s)) :=
  (exec_controlMove hs).trans (congrArg _ (controlMove_refused (s := controlAccepted s) hr))

theorem exec_move_held (hr : orderRefusal s p = none) (ht : holdsTerm3 s (pollEntry s p).address = true) :
    exec (.controlMove h target speed oven) s =
      .next (refuseControl Kind.move oven.toNat Reason.permitHeld (controlAccepted s)) :=
  (exec_controlMove hs).trans (congrArg _ (controlMove_held (s := controlAccepted s) hr ht))

/-- A MOVE that the checks of R45 pass is offered at its speed in the mode. -/
theorem exec_move_machine (hr : orderRefusal s p = none) (ht : holdsTerm3 s (pollEntry s p).address = false)
    (hc : carAt s p = none) :
    exec (.controlMove h target speed oven) s = .next (placeControl
      (entryFor s .control (moveOrder h target.toNat speed oven)) p oven.toNat
      (moveOrder h target.toNat (speedInMode s speed) oven) (controlAccepted s)) := by
  rw [exec_controlMove hs, controlMove_machine (s := controlAccepted s) hr ht hc, creepOutside_move]
  rfl

/-- To a car it is placed as the telegram that the route allows (R79 to R81). -/
theorem exec_move_car_ok {c : Nat} {t : State} {v : Telegram} (hr : orderRefusal s p = none)
    (ht : holdsTerm3 s (pollEntry s p).address = false) (hc : carAt s p = some c)
    (hm : carMove c p (controlOrder (moveOrder h target.toNat (speedInMode s speed) oven)) (controlAccepted s) =
      .ok (t, v)) :
    exec (.controlMove h target speed oven) s =
      .next (echo (entryFor s .control (moveOrder h target.toNat speed oven)) v t) :=
  (exec_controlMove hs).trans (congrArg _ (controlMove_car_ok (s := controlAccepted s) hr ht hc
    (by rw [creepOutside_move]; exact hm)))

theorem exec_move_car_error {c why : Nat} (hr : orderRefusal s p = none)
    (ht : holdsTerm3 s (pollEntry s p).address = false) (hc : carAt s p = some c)
    (hm : carMove c p (controlOrder (moveOrder h target.toNat (speedInMode s speed) oven)) (controlAccepted s) =
      .error why) :
    exec (.controlMove h target speed oven) s =
      .next (refuseControl Kind.move oven.toNat why (controlAccepted s)) := by
  rw [exec_controlMove hs, controlMove_car_error (s := controlAccepted s) hr ht hc
    (by rw [creepOutside_move]; exact hm), creepOutside_move]
  rfl

end

/-! ## TASK (R45) -/

/-- A RESEAT to the machine of its side (R45 check 1). -/
abbrev reseatFits (s : State) (p : Nat) (task side : Byte) : Prop :=
  task = 1#8 ∧ ((pollEntry s p).cls = .pm ∧ side = 1#8 ∨ (pollEntry s p).cls = .cgm ∧ side = 2#8)

section
variable {e : DispatchEntry} {p why : Nat} {u : Telegram} {s : State}

/-- A TASK that its own checks refuse: the class and side, and the oven. -/
theorem controlTask_refused (hr : taskRefusal s p (bodyByte u 0) (bodyByte u 1) (bodyByte u 2) = some why) :
    controlTask e p u s = refuseControl Kind.task (bodyByte u 1) why s := by
  simp [controlTask, hr]

theorem controlTask_owned (hr : taskRefusal s p (bodyByte u 0) (bodyByte u 1) (bodyByte u 2) = none)
    (ho : orderRefusal s p = some why) : controlTask e p u s = refuseControl Kind.task (bodyByte u 1) why s := by
  simp [controlTask, hr, ho]

theorem controlTask_offered (hr : taskRefusal s p (bodyByte u 0) (bodyByte u 1) (bodyByte u 2) = none)
    (ho : orderRefusal s p = none) : controlTask e p u s = placeControl e p (bodyByte u 1) u s := by
  simp [controlTask, hr, ho]

end

section
variable {h : Header} {task oven side : Byte} {s : State} {p : Nat}
  (hs : ForStation s p (arrived h Kind.task [task, oven, side]))
include hs

theorem exec_controlTask :
    let u := arrived h Kind.task [task, oven, side]
    exec (.controlTask h task oven side) s = .next (controlTask (entryFor s .control u) p u (controlAccepted s)) := by
  show Host.Outcome.next (controlArrival _ s) = _
  rw [controlArrival_toStation hs]
  unfold controlToStation
  dsimp only
  rw [kindOf_arrived _ (by decide)]
  rfl

theorem exec_task_refused {why : Nat} (hr : taskRefusal s p task.toNat oven.toNat side.toNat = some why) :
    exec (.controlTask h task oven side) s =
      .next (refuseControl Kind.task oven.toNat why (controlAccepted s)) :=
  (exec_controlTask hs).trans (congrArg _ (controlTask_refused (s := controlAccepted s) hr))

/-- A TASK that its own checks pass goes to a door machine, which every run owns. -/
theorem exec_task_owned (hf : reseatFits s p task side) (hc : configured s oven.toNat = true)
    (ho : runEngaged s = true) :
    exec (.controlTask h task oven side) s =
      .next (refuseControl Kind.task oven.toNat Reason.runOwned (controlAccepted s)) :=
  (exec_controlTask hs).trans (congrArg _ (controlTask_owned (s := controlAccepted s)
    ((taskRefusal_eq s p task side oven.toNat).trans ((if_pos hf).trans (if_pos hc)))
    ((orderRefusal_doorMachine (hf.2.imp And.left And.left)).trans (if_pos ho))))

theorem exec_task_offered (hf : reseatFits s p task side) (hc : configured s oven.toNat = true)
    (ho : runEngaged s = false) :
    exec (.controlTask h task oven side) s = .next (placeControl
      (entryFor s .control (arrived h Kind.task [task, oven, side])) p oven.toNat
      (arrived h Kind.task [task, oven, side]) (controlAccepted s)) :=
  (exec_controlTask hs).trans (congrArg _ (controlTask_offered (s := controlAccepted s)
    ((taskRefusal_eq s p task side oven.toNat).trans ((if_pos hf).trans (if_pos hc)))
    ((orderRefusal_doorMachine (hf.2.imp And.left And.left)).trans (if_neg (by rw [ho]; nofun)))))

end

end Sys2Proof.Machine

open Sys2Proof Sys2Proof.Machine

/-- Settles O49: HALT, MOVE and TASK, each by its checks in their order on the state that accepted the telegram. -/
theorem controlOrdersArePlaced : Obligations.ControlOrdersArePlaced := by
  refine ⟨fun h reason s p hs => ?_, fun h target speed oven s p hs => ?_, fun h task oven side s p hs => ?_⟩
  · have he := exec_controlHalt hs
    have k : Touches controlAspects s _ := exec_touches he
    exact ⟨_, he, controlHalt_placed hs.position_lt _ _ _, k.permits_kept, k.runRecord_kept⟩
  · intro refused machine owned held
    have passed (hm : machine) (ho : owned = false) : orderRefusal s p = none := by
      rw [orderRefusal_machine hm, show (runEngaged s && isRunMachine s p) = false from ho]
      rfl
    refine ⟨fun hm => ?_, fun hm ho => ?_, fun hm ho ht => ?_, fun hm ho ht hc hw => ?_, fun hm ho ht hc hw => ?_⟩
    · exact exec_move_refused hs (orderRefusal_notMachine hm)
    · exact exec_move_refused hs ((orderRefusal_machine hm).trans (if_pos ho))
    · exact exec_move_held hs (passed hm ho) ht
    · refine (exec_move_machine hs (passed hm ho) ht hc).trans (congrArg _ ?_)
      rw [placeControl_refused (show haltWaits (controlAccepted s) p = true from hw)
        (by rw [kindOf_moveOrder]; decide), kindOf_moveOrder]
    · exact ⟨_, exec_move_machine hs (passed hm ho) ht hc,
        placeControl_placed hs.position_lt (show haltWaits (controlAccepted s) p = false from hw)⟩
  · intro refused cls fits
    have hk : kindOf (arrived h Kind.task [task, oven, side]) = Kind.task := kindOf_arrived _ (by decide) _ _
    refine ⟨fun hf => ?_, fun hf hc => ?_, fun hf hc hr => ?_, fun hf hc hr hw => ?_, fun hf hc hr hw => ?_⟩
    · exact exec_task_refused hs ((taskRefusal_eq _ _ _ _ _).trans (if_neg hf))
    · refine exec_task_refused hs ((taskRefusal_eq _ _ _ _ _).trans ((if_pos hf).trans (if_neg ?_)))
      rw [hc]
      nofun
    · exact exec_task_owned hs hf hc hr
    · refine (exec_task_offered hs hf hc hr).trans (congrArg _ ?_)
      rw [placeControl_refused (show haltWaits (controlAccepted s) p = true from hw) (by rw [hk]; decide), hk]
    · exact ⟨_, exec_task_offered hs hf hc hr,
        placeControl_placed hs.position_lt (show haltWaits (controlAccepted s) p = false from hw)⟩
end

section
/-!
SUPPORT. The form that the route gives a MOVE to a car: as it came, clamped, or the reason of its refusal (R79 to R82).
-/

set_option Elab.async false
namespace Sys2Proof.Machine

open Sys2Proof

/-- The body at a target would leave the track (R79). -/
abbrev leavesTrack (s : State) (half target : Nat) : Prop :=
  s.qtc.count = 0 ∨ (target : Int) - half < trackStart s ∨ trackEnd s < target + half

/-- The body at a target overlaps a TOWER segment. -/
abbrev towerAt (s : State) (half target : Nat) : Prop :=
  ∃ j ∈ segmentsIn s ((target : Int) - half) ((target : Int) + half), isTower s j = true

section
variable {s : State} {c q : Nat} {k : CarConfig} {u : Telegram}

theorem moveRefusal_unknown (target : Nat) (h : carConfig s c = none ∨ (carRec s c).position = none) :
    moveRefusal s c target = some Reason.carUnknown := by
  unfold moveRefusal
  cases hk : carConfig s c with
  | none => rfl
  | some k => rw [h.resolve_left (by rw [hk]; nofun)]

theorem moveRefusal_outside {target : Nat} (hk : carConfig s c = some k) (hq : (carRec s c).position = some q)
    (h : leavesTrack s (halfLength k) target) : moveRefusal s c target = some Reason.badRange := by
  unfold moveRefusal
  rw [hk, hq]
  dsimp only
  rw [if_pos (by simpa [or_assoc] using h)]

theorem moveRefusal_inside {target : Nat} (hk : carConfig s c = some k) (hq : (carRec s c).position = some q)
    (h : ¬ leavesTrack s (halfLength k) target) :
    ((carRec s c).state = .draining → ¬ towerAt s (halfLength k) target →
      moveRefusal s c target = some Reason.draining) ∧
    (((carRec s c).state = .draining → towerAt s (halfLength k) target) → moveRefusal s c target = none) := by
  have ht : (segmentsIn s ((target : Int) - halfLength k) ((target : Int) + halfLength k)).any (isTower s) = true ↔
      towerAt s (halfLength k) target := List.any_eq_true
  unfold moveRefusal
  rw [hk, hq]
  dsimp only
  rw [if_neg (by simpa [or_assoc] using h)]
  refine ⟨fun hd hn => if_pos ?_, fun hp => if_neg ?_⟩
  · rw [Bool.eq_false_iff.mpr fun hx => hn (ht.mp hx), hd]
    rfl
  · intro hx
    rw [Bool.and_eq_true, decide_eq_true_iff, Bool.not_eq_true'] at hx
    obtain ⟨hd, hn⟩ := hx
    rw [ht.mpr (hp hd)] at hn
    exact nomatch hn

/-- A MOVE with a first refusal has no form. -/
theorem carMoveForm_refused {why : Nat} (h : moveRefusal s c (moveTarget u) = some why) :
    carMoveForm s c u = .error why := by
  simp [carMoveForm, h]

theorem carMoveForm_free (h : moveRefusal s c (moveTarget u) = none) (hk : carConfig s c = some k)
    (hq : (carRec s c).position = some q)
    (hf : conflicts s c (routeSegments s (halfLength k) q (moveTarget u)) = []) : carMoveForm s c u = .ok u := by
  simp [carMoveForm, h, hk, hq, hf]

theorem carMoveForm_clamped {z : Nat} (h : moveRefusal s c (moveTarget u) = none) (hk : carConfig s c = some k)
    (hq : (carRec s c).position = some q)
    (hf : conflicts s c (routeSegments s (halfLength k) q (moveTarget u)) ≠ [])
    (hz : clampedTarget s k q (directionTo q (moveTarget u))
      (conflicts s c (routeSegments s (halfLength k) q (moveTarget u))) = some z) :
    carMoveForm s c u = .ok (creepTo u z) := by
  simp [carMoveForm, h, hk, hq, hf, hz]

theorem carMoveForm_blocked (h : moveRefusal s c (moveTarget u) = none) (hk : carConfig s c = some k)
    (hq : (carRec s c).position = some q)
    (hf : conflicts s c (routeSegments s (halfLength k) q (moveTarget u)) ≠ [])
    (hz : clampedTarget s k q (directionTo q (moveTarget u))
      (conflicts s c (routeSegments s (halfLength k) q (moveTarget u))) = none) :
    carMoveForm s c u = .error Reason.trackBlocked := by
  simp [carMoveForm, h, hk, hq, hf, hz]

end

/-- A MOVE to a car that has a form, where no HALT waits: it is placed in that form, and reserves its route (R80,
R81). -/
theorem exec_move_reserves {h : Header} {target : BitVec 24} {speed oven : Byte} {s : State} {p c q z : Nat} {sp : Byte}
    {k : CarConfig} (hs : ForStation s p (moveOrder h target.toNat speed oven)) (hr : orderRefusal s p = none)
    (ht : holdsTerm3 s (pollEntry s p).address = false) (hc : carAt s p = some c) (hc2 : c = 1 ∨ c = 2)
    (hk : carConfig s c = some k) (hq : (carRec s c).position = some q) (hw : haltWaits s p = false)
    (hz : z < 16777216)
    (hf : carMoveForm s c (moveOrder h target.toNat (speedInMode s speed) oven) = .ok (moveOrder h z sp oven)) :
    ∃ t, exec (.controlMove h target speed oven) s = .next t ∧ OrderPlaced t p (moveOrder h z sp oven) ∧
      carRec t c = { carRec s c with
        reserved := routeSegments s (halfLength k) q z, move := some ⟨z, directionTo q z, sp.toNat⟩ } := by
  obtain ⟨t, hm, hp, hrec⟩ := carMove_ok (s := controlAccepted s) hs.position_lt hc2 hk hq hf hw
  rw [moveTarget_moveOrder h hz, moveSpeed_moveOrder] at hrec
  have ke := echo_touches (entryFor s .control (moveOrder h target.toNat speed oven)) (moveOrder h z sp oven) t
  exact ⟨_, exec_move_car_ok hs hr ht hc hm, orderPlaced_kept ke hp, (ke.carRec_kept c).trans hrec⟩

/-- And where a HALT waits it is refused, whatever its form (R156). -/
theorem exec_move_halted {h : Header} {target : BitVec 24} {speed oven : Byte} {s : State} {p c z : Nat} {sp : Byte}
    (hs : ForStation s p (moveOrder h target.toNat speed oven)) (hr : orderRefusal s p = none)
    (ht : holdsTerm3 s (pollEntry s p).address = false) (hc : carAt s p = some c) (hw : haltWaits s p = true)
    (hf : carMoveForm s c (moveOrder h target.toNat (speedInMode s speed) oven) = .ok (moveOrder h z sp oven)) :
    exec (.controlMove h target speed oven) s =
      .next (refuseControl Kind.move oven.toNat Reason.haltPending (controlAccepted s)) :=
  exec_move_car_error hs hr ht hc
    (carMove_halted (s := controlAccepted s) hf (by rw [kindOf_moveOrder]; decide) hw)

end Sys2Proof.Machine

open Sys2Proof Sys2Proof.Machine

/-- Settles O50: the checks of R79 in their order, and the form that the conflicts on the route leave the MOVE. -/
theorem carMovesReserveTheirRoute : Obligations.CarMovesReserveTheirRoute := by
  intro h target speed oven s p c hs hc hc2 ho ht refused
  have hcls : (pollEntry s p).cls = .car := by
    unfold carAt at hc
    split at hc
    · assumption
    · exact nomatch hc
  have hr : orderRefusal s p = none := by
    rw [orderRefusal_machine (by rw [hcls]; exact ⟨nofun, nofun⟩), ho]
    rfl
  have htarget (sp : Byte) : moveTarget (moveOrder h target.toNat sp oven) = target.toNat :=
    moveTarget_moveOrder h target.isLt sp oven
  have refusedFor {why : Nat}
      (hf : carMoveForm s c (moveOrder h target.toNat (speedInMode s speed) oven) = .error why) : refused why :=
    exec_move_car_error hs hr ht hc (carMove_formError (s := controlAccepted s) hf)
  have refusedFirst {why : Nat} (hf : moveRefusal s c target.toNat = some why) : refused why :=
    refusedFor (carMoveForm_refused (by rw [htarget]; exact hf))
  refine ⟨fun hu => refusedFirst (moveRefusal_unknown _ hu), ?_⟩
  intro k q hk hq half outside towered passes conf sp
  have free (hp : passes) : moveRefusal s c (moveTarget (moveOrder h target.toNat sp oven)) = none := by
    rw [htarget]
    exact (moveRefusal_inside hk hq hp.1).2 hp.2
  refine ⟨fun h1 => ?_, fun h1 h2 h3 => ?_, fun hp hf => ?_, fun hp hf z hz => ?_, fun hp hf hz => ?_⟩
  · exact refusedFirst (moveRefusal_outside hk hq h1)
  · exact refusedFirst ((moveRefusal_inside hk hq h1).1 h2 h3)
  · have form := carMoveForm_free (free hp) hk hq (by rw [htarget]; exact hf)
    exact ⟨fun hw => exec_move_halted hs hr ht hc hw form,
      fun hw => exec_move_reserves hs hr ht hc hc2 hk hq hw target.isLt form⟩
  · have form := carMoveForm_clamped (free hp) hk hq (by rw [htarget]; exact hf) (by rw [htarget]; exact hz)
    rw [creepTo_moveOrder] at form
    exact ⟨fun hw => exec_move_halted hs hr ht hc hw form,
      fun hw hlt => exec_move_reserves hs hr ht hc hc2 hk hq hw hlt form⟩
  · exact refusedFor (carMoveForm_blocked (free hp) hk hq (by rw [htarget]; exact hf) (by rw [htarget]; exact hz))
end

section
/-!
SUPPORT. What the classifier makes of the other telegrams of the control station: by their destination (R155), and to a
station by their dispatch entry (R157).
-/

set_option Elab.async false
namespace Sys2Proof.Machine

open Sys2Proof

/-! ## By the destination (R155) -/

section
variable {u : Telegram} {s : State}

/-- A telegram that is no MGMT to the part itself is classified on the state that accepted it. -/
theorem controlArrival_classified (hf : framed u = true)
    (hm : ¬ (kindOf u = Kind.mgmt ∧ u.dest.toNat = s.mgt.address)) :
    controlArrival u s = classifyControl u (controlAccepted s) := by
  unfold controlArrival
  rw [if_neg (by rw [hf]; nofun), if_neg hm]

theorem classifyControl_own (h : u.dest.toNat = s.mgt.address) :
    classifyControl u s = raise .dispatchMismatch 0 0 (kindOf u) s := by
  unfold classifyControl mismatch
  rw [if_pos h, Nat.zero_mul, Nat.zero_add]

theorem classifyControl_broadcast (h : u.dest.toNat = 255) (ha : s.mgt.address ≠ 255) (hk : kindOf u ≠ Kind.halt) :
    classifyControl u s = refuseControl (kindOf u) (namedOven u) Reason.broadcastKind s := by
  unfold classifyControl
  rw [if_neg (by rw [h]; exact ha.symm), if_pos h, if_neg hk]

theorem classifyControl_unknown (h1 : u.dest.toNat ≠ 255) (h2 : u.dest.toNat ≠ s.mgt.address)
    (hp : posOfAddress s u.dest.toNat = none) :
    classifyControl u s = refuseControl (kindOf u) (namedOven u) Reason.unknownStation s := by
  unfold classifyControl
  rw [if_neg h2, if_neg h1, hp]

end

/-! ## By the dispatch entry (R157) -/

/-- A telegram of a kind that is no order's goes to its dispatch entry. -/
theorem exec_controlOtherKind {u : Telegram} {s : State} {p : Nat} (hs : ForStation s p u) (h1 : kindOf u ≠ Kind.move)
    (h2 : kindOf u ≠ Kind.halt) (h3 : kindOf u ≠ Kind.task) :
    exec (.controlOtherKind u) s = .next
      (controlOther (entryFor s .control u) (entryIndex s .control u) p u (controlAccepted s)) := by
  show Host.Outcome.next (controlArrival u s) = _
  rw [controlArrival_toStation hs]
  unfold controlToStation
  dsimp only
  rw [if_neg h1, if_neg h2, if_neg h3]
  rfl

/-- The actions that offer a telegram for placement, the handler's verdict passing under CHECK. -/
abbrev offersOrder (e : DispatchEntry) (s : State) (p kind : Nat) : Prop :=
  e.action = .pass ∨ e.action = .depositPass ∨ e.action = .check ∧ verdict s .control e.handler p kind = .passes

section
variable {e : DispatchEntry} {index p : Nat} {u : Telegram} {s : State}

theorem controlOther_drop (h : e.action = .drop) : controlOther e index p u s = s := by
  unfold controlOther
  rw [h]

theorem controlOther_absorb (h : e.action = .absorb) :
    controlOther e index p u s = if e.handler = .none then s else mismatch index (kindOf u) u.dest.toNat s := by
  unfold controlOther
  rw [h]

/-- A run machine of a run takes no such telegram, whatever the verdict. -/
theorem controlOther_owned (h : e.action = .pass ∨ e.action = .depositPass ∨ e.action = .check)
    (ho : (runEngaged s && isRunMachine s p) = true) :
    controlOther e index p u s = refuseControl (kindOf u) 0 Reason.runOwned s := by
  unfold controlOther
  rcases h with h | h | h <;> rw [h] <;> exact if_pos ho

theorem controlOther_offered (h : offersOrder e s p (kindOf u)) (ho : (runEngaged s && isRunMachine s p) = false) :
    controlOther e index p u s = offerOther e p u s := by
  have hn : ¬ (runEngaged s && isRunMachine s p) = true := by rw [ho]; nofun
  unfold controlOther
  rcases h with h | h | ⟨h, hv⟩
  · rw [h]
    exact if_neg hn
  · rw [h]
    exact if_neg hn
  · rw [h]
    refine (if_neg hn).trans ?_
    rw [hv]

theorem controlOther_checkRefused {why : Nat} (h : e.action = .check)
    (ho : (runEngaged s && isRunMachine s p) = false)
    (hv : verdict s .control e.handler p (kindOf u) = .refused why) :
    controlOther e index p u s = refuseControl (kindOf u) 0 why s := by
  unfold controlOther
  rw [h]
  refine (if_neg (by rw [ho]; nofun)).trans ?_
  rw [hv]

theorem controlOther_checkMismatch (h : e.action = .check) (ho : (runEngaged s && isRunMachine s p) = false)
    (hv : verdict s .control e.handler p (kindOf u) = .mismatch) :
    controlOther e index p u s = mismatch index (kindOf u) u.dest.toNat s := by
  unfold controlOther
  rw [h]
  refine (if_neg (by rw [ho]; nofun)).trans ?_
  rw [hv]

/-- The telegram that an entry's deposit makes of another (R154) keeps its kind. -/
theorem kindOf_deposited (s : State) (e : DispatchEntry) (a : Nat) (u : Telegram) :
    kindOf (deposited s e a u) = kindOf u := by
  unfold deposited
  split <;> rfl

theorem offerOther_refused (hk : kindOf u ≠ Kind.halt) (hw : haltWaits s p = true) :
    offerOther e p u s = refuseControl (kindOf u) 0 Reason.haltPending s := by
  unfold offerOther
  dsimp only
  split
  · rw [placeControl_refused hw (by rwa [kindOf_deposited]), kindOf_deposited]
  · exact placeControl_refused hw hk

theorem offerOther_placed (hp : p < 24) (hw : haltWaits s p = false) :
    OrderPlaced (offerOther e p u s) p (if e.action = .depositPass then deposited s e u.dest.toNat u else u) :=
  placeControl_placed hp hw

end

end Sys2Proof.Machine

open Sys2Proof Sys2Proof.Machine

/-- Settles O52: each telegram by its destination, and one to a station by the action of its entry, its checks on the
state that accepted it. -/
theorem otherControlTelegramsAreSorted : Obligations.OtherControlTelegramsAreSorted := by
  refine ⟨fun u s hf hd ha hk => ?_, fun u s hf h1 h2 hp => ?_, fun u s hf hd hk => ?_,
    fun u s p hs h1 h2 h3 => ?_⟩
  · refine congrArg _ ((controlArrival_classified hf fun h => ha (h.2.symm.trans hd)).trans ?_)
    exact classifyControl_broadcast (s := controlAccepted s) hd ha hk
  · refine congrArg _ ((controlArrival_classified hf fun h => h2 h.2).trans ?_)
    exact classifyControl_unknown (s := controlAccepted s) h1 h2 hp
  · refine congrArg _ ((controlArrival_classified hf fun h => hk h.1).trans ?_)
    exact classifyControl_own (s := controlAccepted s) hd
  · intro e owned judged refused mismatched
    rw [exec_controlOtherKind hs h1 h2 h3]
    have offered (h : offersOrder e s p (kindOf u)) (ho : owned = false) :
        controlOther e (entryIndex s .control u) p u (controlAccepted s) = offerOther e p u (controlAccepted s) :=
      controlOther_offered (s := controlAccepted s) h ho
    have placed (h : offersOrder e s p (kindOf u)) (ho : owned = false) (hw : haltWaits s p = false) :
        OrderPlaced (controlOther e (entryIndex s .control u) p u (controlAccepted s)) p
          (if e.action = .depositPass then deposited s e u.dest.toNat u else u) := by
      rw [offered h ho]
      exact offerOther_placed (s := controlAccepted s) hs.position_lt hw
    refine ⟨fun h => ?_, fun h hh => ?_, fun h hh => ?_, fun h ho => ?_, fun why h ho hv => ?_, fun h ho hv => ?_,
      fun h ho hw => ?_, fun h ho hw => ⟨_, rfl, ?_⟩, fun h ho hw => ⟨_, rfl, ?_⟩⟩
    · exact congrArg _ (controlOther_drop h)
    · exact congrArg _ ((controlOther_absorb h).trans (if_pos hh))
    · exact congrArg _ ((controlOther_absorb h).trans (if_neg hh))
    · exact congrArg _ (controlOther_owned (s := controlAccepted s) h ho)
    · exact congrArg _ (controlOther_checkRefused (s := controlAccepted s) h ho hv)
    · exact congrArg _ (controlOther_checkMismatch (s := controlAccepted s) h ho hv)
    · exact congrArg _ ((offered h ho).trans (offerOther_refused (s := controlAccepted s) h2 hw))
    · have hn : e.action ≠ .depositPass := by
        rcases h with h | ⟨h, -⟩ <;> rw [h] <;> nofun
      have hplaced := placed (h.imp_right .inr) ho hw
      rwa [if_neg hn] at hplaced
    · have hplaced := placed (.inr (.inl h)) ho hw
      rwa [if_pos h] at hplaced
end

section
/-!
SUPPORT. How a run ends at an instant of the clock, or is held, with the settling that follows.
-/

set_option Elab.async false
namespace Sys2Proof.Machine

open Sys2Proof

/-- What has been counted stays counted where no count is touched. -/
theorem Counted.kept {l : List Aspect} {k : EventKind} {s t u : State} (hc : Counted k s t) (h : Touches l t u)
    (ha : Aspect.counts ∉ l := by decide) : Counted k s u := by
  unfold Counted eventCount countAt at *
  rw [h.counts_kept ha]
  exact hc

/-- A run that stops: its record, the sense record and the count, once the freedom tests and the interlock have followed
(R65, R110, R38). -/
theorem stopRun_settled (code : StopCode) (a d : Nat) (s : State) :
    let t := ilkSettle s (afterRun s (stopRun code a d s))
    t.run = { s.run with state := .stopped, holdPending := false } ∧
      t.sch.sense = ⟨code, currentOven s, s.run.cursor, s.run.step, d⟩ ∧ Counted .runStopped s t := by
  intro t
  obtain ⟨hrun, hsense⟩ := stopRun_run code a d s
  have ka := afterRun_touches s (stopRun code a d s)
  have hr : (afterRun s (stopRun code a d s)).run = { s.run with state := .stopped, holdPending := false } :=
    ka.runRecord_kept.trans hrun
  have hsch : t.sch = (afterRun s (stopRun code a d s)).sch := ilkSettle_sch (by rw [hr]; nofun) s
  refine ⟨(congrArg Runner.run hsch).trans hr, ?_, ?_⟩
  · rw [hsch, ka.sense_kept, hsense]
  · exact (stopRun_counted code a d s).before (stopRun_touches code a d s) (ka.mono.seq (ilkSettle_touches s _))

/-- The lateness test of an advance, where it is still to be made (log 5). -/
theorem exec_latenessTest {s : State} (h : s.sch.latenessDue = true) :
    exec .maximumLatenessTest s = .next (settled latenessTest (s.onSch fun r => { r with latenessDue := false })) := by
  show Host.Outcome.next (latenessOnce s) = _
  unfold latenessOnce
  rw [if_pos h]

theorem stepTimeout_due {s : State} {d : Int} (h1 : s.run.state = .running) (h2 : s.run.step ≠ .wait)
    (h3 : s.run.deadline = some d) (h4 : d ≤ s.now) :
    stepTimeout s = afterRun s (stopRun .stepTimeout 0 s.run.step.code s) := by
  have hd : stepDeadlineDue s = true := by
    unfold stepDeadlineDue
    simp [h1, h2, h3, reached_of_le h4]
  unfold stepTimeout
  rw [if_pos hd]

/-- The silence watch once it has run for its limit (R71). -/
theorem silenceActs_due {s : State} (h1 : 0 < s.sch.timing.silence) (h2 : s.sch.silenceRaised = false)
    (h3 : s.sch.silenceStart + s.sch.timing.silence ≤ s.now) :
    silenceActs s =
      holdRun (raise .cpSilence 0 0 s.sch.timing.silence (s.onSch fun r => { r with silenceRaised := true })) := by
  have hd : silenceDue s = true := by
    unfold silenceDue
    simp [h1, h2, reached_of_le h3]
  unfold silenceActs
  rw [if_pos hd]

/-- A run that is not RUNNING is not held (R66). -/
theorem holdRun_idle {s : State} (h : s.run.state ≠ .running) : holdRun s = s := by
  unfold holdRun
  rw [if_neg h]

end Sys2Proof.Machine

open Sys2Proof Sys2Proof.Machine

/-- Settles O9: no footprint names the law of the run's counts. -/
theorem runCountsStayTrue : Obligations.RunCountsStayTrue := fun _ _ h hs =>
  step_keeps .runLaw (fun _ _ => Iff.rfl) (by decide) (fun _ _ => id) h hs

/-- Settles O23: the stop changes the run's state and its pending hold alone, and the settling that follows leaves a run
that has stopped as it is. -/
theorem stepDeadlineStopsTheRun : Obligations.StepDeadlineStopsTheRun := by
  intro s d h1 h2 h3 h4
  obtain ⟨hrun, hsense, hcount⟩ := stopRun_settled .stepTimeout 0 s.run.step.code s
  rw [← stepTimeout_due h1 h2 h3 h4] at hrun hsense hcount
  refine ⟨settled stepTimeout s, rfl, ?_, hsense, ?_, ?_, ?_, ?_, hcount⟩
  all_goals rw [show (settled stepTimeout s).run = _ from hrun]

/-- Settles O24: on the state whose mark is cleared the lateness test stops the run, or does nothing and leaves
nothing to settle. -/
theorem latenessTestStopsTheRun : Obligations.LatenessTestStopsTheRun := by
  intro s hm h1 h2 h3
  let u := s.onSch fun r => { r with latenessDue := false }
  have hx : exec .maximumLatenessTest s = .next (ilkSettle u (latenessTest u)) := exec_latenessTest hm
  have stopped {t : State} (h : t.run.state = .stopped) : (ilkSettle u t).sch = t.sch :=
    ilkSettle_sch (by rw [h]; nofun) u
  have hd : lateTestDue u = true := lateTestDue_of h1 h2 h3
  refine ⟨fun ⟨hw, hc⟩ => ?_, fun hc hr => ?_, fun hc hr => ?_⟩
  · obtain ⟨hs, hsense⟩ := latenessTest_noCar hd hw hc
    refine ⟨_, hx, ?_, ?_⟩
    · exact (congrArg (fun r => r.run.state) (stopped hs)).trans hs
    · rw [stopped hs, hsense, hw]
      rfl
  · obtain ⟨hs, hsense⟩ := latenessTest_stops hd hc hr
    refine ⟨_, hx, ?_, ?_⟩
    · exact (congrArg (fun r => r.run.state) (stopped hs)).trans hs
    · rw [stopped hs, hsense]
      rfl
  · rw [hx, latenessTest_ready (s := u) hc hr, ilkSettle_refl]

/-- Settles O29: the event leaves the run as it was, and the hold of R66 follows on it. -/
theorem silenceHoldsTheRun : Obligations.SilenceHoldsTheRun := by
  intro s h1 h2 h3
  let u := s.onSch fun r => { r with silenceRaised := true }
  let v := raise .cpSilence 0 0 s.sch.timing.silence u
  have hv : v.run = s.run := (raise_touches .cpSilence 0 0 s.sch.timing.silence u).runRecord_kept
  have kh := holdRun_touches v
  obtain ⟨-, hnow, hlater⟩ := holdRun_run v
  rw [hv] at hnow hlater
  refine ⟨holdRun v, congrArg _ (silenceActs_due h1 h2 h3), ?_, ?_, hnow, hlater, fun h => ?_⟩
  · rw [kh.watch_kept.2, (raise_touches .cpSilence 0 0 s.sch.timing.silence u).watch_kept.2]
    rfl
  · exact (Counted.of_raise kh).after (onRaised_touches true s)
  · rw [holdRun_idle (hv ▸ h), hv]
end

section
/-!
SUPPORT. How a management request is taken by its row or its bytes, how its ANSWER is queued, and the requests that
read.
-/

set_option Elab.async false
namespace Sys2Proof.Machine

open Sys2Proof

/-! ## Requests by their row and by their bytes -/

/-- A management row arrives with the code, the size and the rule that its `Request` names (Table 10-1). -/
theorem exec_request {c : Instr} {r : Request} (s : State) (h : requestOf c = some r) :
    exec c s = .next (mgmtArrival r.code r.size r.rule s) := by
  cases c
  all_goals cases h
  all_goals rfl

theorem exec_mgmtUnknownRequest {code : Byte} {args : List Byte} (s : State) (h : args.length ≤ 47) :
    exec (.mgmtUnknownRequest (code :: args)) s =
      .next (answer code.toNat (perform code.toNat args (requestState code.toNat s))) :=
  congrArg Host.Outcome.next (mgmtArrival_answers code.toNat (args.length + 1) _ s (by omega))

/-- A code outside Table 10-1 is answered UNKNOWN_REQUEST (R174). -/
theorem perform_unknown {code : Nat} (args : List Byte) (s : State) (h : code ∉ requestCodes) :
    perform code args s = ⟨s, Status.unknownRequest, []⟩ := by
  simp only [requestCodes, List.mem_cons, List.not_mem_nil, or_false, not_or] at h
  simp only [perform, h, if_false]
  rfl

theorem withArgs_badRange {n : Nat} {args : List Byte} {f : (Nat → Nat) → State → Reply} {s : State}
    (h : ¬ args.length = n) : withArgs n args f s = ⟨s, Status.badRange, []⟩ := if_neg h

/-- A known code with arguments of another length is answered BAD_RANGE (R174). -/
theorem perform_badArgs {code : Nat} {args : List Byte} (s : State) (hc : code ∈ requestCodes)
    (hf : argsFit code args.length = false) : perform code args s = ⟨s, Status.badRange, []⟩ := by
  simp only [requestCodes, List.mem_cons, List.not_mem_nil, or_false] at hc
  rcases hc with rfl | rfl | rfl | rfl | rfl | rfl | rfl | rfl | rfl | rfl | rfl | rfl | rfl | rfl | rfl | rfl | rfl |
    rfl | rfl | rfl
  all_goals simp only [argsFit, perform, ReqCode.load, ReqCode.read, ReqCode.status, ReqCode.enterService,
    ReqCode.enterMaintenance, ReqCode.restart, ReqCode.fieldRestart, ReqCode.setTime, ReqCode.run, ReqCode.hold,
    ReqCode.resume, ReqCode.abort, ReqCode.sense, ReqCode.verify, ReqCode.setBlock, ReqCode.ovenService,
    ReqCode.releaseOven, ReqCode.freeze, ReqCode.unfreeze, ReqCode.clearCar, Nat.reduceEqDiff, reduceIte, or_true,
    true_or, or_self, decide_eq_false_iff_not] at hf ⊢
  case inl => exact if_pos (Nat.not_le.mp hf)
  all_goals exact withArgs_badRange hf

/-! ## The queueing of an ANSWER -/

/-- An ANSWER is no copy of a POSITION, so that R142 has it replace none. -/
theorem queueAfter_answer (q : List QueueItem) (u : Telegram) :
    queueAfter q ⟨.answer, u⟩ =
      if q.length < 32 then q ++ [⟨.answer, u⟩]
      else if q.any isCopy then q.eraseP isCopy ++ [⟨.answer, u⟩]
      else if q.any isEvent then q.eraseP isEvent ++ [⟨.answer, u⟩]
      else q := by
  simp [queueAfter, isPositionCopy]

theorem startTransmitter_busy {c : ControlPort} (h : c.sending ≠ none) : startTransmitter c = c := by
  unfold startTransmitter
  split
  · next hn _ => exact absurd hn h
  · rfl
  · rfl

theorem startTransmitter_free {c : ControlPort} {head : QueueItem} {rest : List QueueItem} (h : c.sending = none)
    (hq : c.queue = head :: rest) : startTransmitter c = { c with sending := some head.telegram, queue := rest } := by
  unfold startTransmitter
  rw [h, hq]

/-! ## SENSE, STATUS, READ and VERIFY -/

theorem exec_sense (s : State) :
    exec .sense s = .next (answer ReqCode.sense (senseRequest (controlAccepted s))) :=
  congrArg Host.Outcome.next (mgmtArrival_answers ReqCode.sense 1 senseRequest s (by decide))

theorem countAt_clearCounts (s : State) (i : Nat) : countAt (clearCounts s) i = 0 := readAt_replicate i 0

/-- The walk of a verification reads nothing that the arrival of its request writes. -/
theorem verifyWalk_requested (s : State) (left : Nat) : ∀ (k : Nat) (predicted : Int) (done : Nat),
    verifyWalk (requested s) k predicted done left = verifyWalk s k predicted done left := by
  induction left with
  | zero => exact fun _ _ _ => rfl
  | succ left ih =>
    intro k predicted done
    have hf : verifyFinding (requested s) (seriesEntry s k).oven predicted =
        verifyFinding s (seriesEntry s k).oven predicted := rfl
    have he : ∀ k, seriesEntry (requested s) k = seriesEntry s k := fun _ => rfl
    simp only [verifyWalk, he, hf, ih]

end Sys2Proof.Machine

open Sys2Proof Sys2Proof.Machine

/-- Settles O53: a row and a spelled body come to the same arrival, and the ANSWER is queued as R142 and R143 have
it. -/
theorem everyRequestGetsOneAnswer : Obligations.EveryRequestGetsOneAnswer := by
  refine ⟨fun c r s hc hs => ?_, fun code args s hc ha => ?_, fun code args s hc hf ha => ?_, fun code r => ?_⟩
  · rw [exec_request s hc, mgmtArrival_answers _ _ _ _ hs]
  · have hn : code.toNat ≠ ReqCode.sense := fun h => hc (by rw [h]; decide)
    rw [exec_mgmtUnknownRequest s ha, perform_unknown _ _ hc, requestState, if_neg hn]
  · rw [exec_mgmtUnknownRequest s ha, perform_badArgs _ hc hf]
  · intro q a after
    have hafter : after = startTransmitter { r.state.cpi with queue := queueAfter q a } := rfl
    have busy (hs : r.state.cpi.sending ≠ none) : after = { r.state.cpi with queue := queueAfter q a } :=
      startTransmitter_busy (c := { r.state.cpi with queue := queueAfter q a }) hs
    have hq := queueAfter_answer q a.telegram
    refine ⟨fun hl => ⟨fun hs => ?_, fun hs head rest hr => ?_⟩, fun hl hs => ?_⟩
    · rw [busy hs, hq, if_pos hl]
      exact ⟨rfl, rfl⟩
    · rw [if_pos hl] at hq
      rw [hafter, startTransmitter_free (c := { r.state.cpi with queue := queueAfter q a }) hs (hq.trans hr)]
      exact ⟨rfl, rfl⟩
    · rw [if_neg (Nat.not_lt.mpr hl)] at hq
      rw [busy hs]
      refine ⟨rfl, fun hc => hq.trans (if_pos hc), fun hc he => hq.trans ?_, fun hc he => hq.trans ?_⟩
      · rw [hc, he]
        rfl
      · rw [hc, he]
        rfl

/-- Settles O56: each is its rule on the state of the request, which holds what they read of `s`. -/
theorem readingRequestsAnswerWithData : Obligations.ReadingRequestsAnswerWithData := by
  have read (table first count : Byte) (s : State) : exec (.read table first count) s =
      .next (answer ReqCode.read (readRequest table.toNat first.toNat count.toNat (requested s))) := next_arrival _ s
  have verify (start count : Byte) (s : State) : exec (.verify start count) s =
      .next (answer ReqCode.verify (verifyRequest start.toNat count.toNat (requested s))) := next_arrival _ s
  refine ⟨exec_sense, fun s => ?_, fun table first count s data h => ?_, fun table first count s h => ?_,
    fun start count s h => ?_, fun start count s h => ?_⟩
  · have k := answer_touches ReqCode.status (statusRequest (requested s))
    refine ⟨_, next_arrival _ s, ⟨clearCounts (requested s), rfl⟩, fun i => ?_, ?_, ?_⟩
    · unfold countAt
      rw [k.counts_kept]
      exact countAt_clearCounts _ i
    · exact k.controlDiscards_kept
    · exact k.fieldDiscards_kept
  · rw [read, readRequest, h]
  · rw [read, readRequest, h]
    rfl
  · rw [verify, verifyRequest, if_pos (show badStretch (requested s) start.toNat count.toNat = true from h)]
    rfl
  · rw [verify, verifyRequest, if_neg (show ¬ badStretch (requested s) start.toNat count.toNat = true by
      rw [show badStretch (requested s) start.toNat count.toNat = false from h]; nofun)]
    dsimp only
    rw [verifyWalk_requested]
    rfl
end

section
/-!
SUPPORT. The changes of the mode and the two restarts, as requests.
-/

set_option Elab.async false
namespace Sys2Proof.Machine

open Sys2Proof

/-- An ANSWER touches the transmitter alone, whatever state the request has left. -/
theorem answered_touches (code status : Nat) (data : List Byte) (u : State) :
    Touches [.transmit] u (answer code ⟨u, status, data⟩) := answer_touches code ⟨u, status, data⟩

/-! ## ENTER SERVICE and ENTER MAINTENANCE (R176, R177) -/

/-- The checks of Table 10-4 read nothing that the arrival of their request writes. -/
theorem failedCheck_requested (s : State) : failedCheck (requested s) = failedCheck s := rfl

theorem enterService_in {s : State} (h : s.mgt.mode = .service) : enterService s = ⟨s, Status.ok, []⟩ := if_pos h

theorem enterService_fit {s : State} (h : s.mgt.mode ≠ .service) (hf : failedCheck s = none) :
    enterService s = ⟨dsmFreeBoth (setMode .service s), Status.ok, []⟩ := by
  unfold enterService
  rw [if_neg h, hf]
  rfl

theorem enterService_unfit {s : State} {number table index : Nat} (h : s.mgt.mode ≠ .service)
    (hf : failedCheck s = some (number, table, index)) :
    enterService s = ⟨s, Status.checkFailed, [number, table, index].flatMap codeByte⟩ := by
  unfold enterService
  rw [if_neg h, hf]

theorem enterMaintenance_free {s : State} (h : s.mgt.mode = .service → runEngaged s = false ∧ s.ilk.permits = []) :
    enterMaintenance s = ⟨setMode .maintenance s, Status.ok, []⟩ := by
  unfold enterMaintenance
  split
  · next hm =>
    obtain ⟨hr, hp⟩ := h hm
    rw [hr, hp]
    rfl
  · rfl

theorem enterMaintenance_busy {s : State} (hm : s.mgt.mode = .service)
    (h : runEngaged s = true ∨ s.ilk.permits ≠ []) :
    enterMaintenance s = ⟨s, if runEngaged s then Status.runActive else Status.permitsActive, []⟩ := by
  unfold enterMaintenance
  rw [if_pos hm]
  cases hr : runEngaged s with
  | true => rfl
  | false =>
    have hp : s.ilk.permits ≠ [] := h.resolve_left (by rw [hr]; nofun)
    rw [if_neg nofun, if_pos (by simpa using hp)]
    rfl

/-! ## FIELD RESTART (R183) -/

/-- With every station ABSENT no permit has a holder, so none is left (R38). -/
theorem permits_nil_of_absent {s : State} (h : HolderLaw s) (ha : ∀ p, (station s p).state = .absent) :
    s.ilk.permits = [] := by
  obtain ⟨-, -, -, -, held⟩ := h
  refine List.eq_nil_iff_forall_not_mem.mpr fun e he => ?_
  have hact := held e he
  unfold activeAt at hact
  split at hact
  · next p _ => simp [ha p] at hact
  · nomatch hact

end Sys2Proof.Machine

open Sys2Proof Sys2Proof.Machine

/-- Settles O57: each is its rule on the state of the request, and the ANSWER that follows touches the transmitter
alone. -/
theorem modesAndRestarts : Obligations.ModesAndRestarts := by
  have service (s : State) :
      exec .enterService s = .next (answer ReqCode.enterService (enterService (requested s))) := next_arrival _ s
  have maintenance (s : State) :
      exec .enterMaintenance s = .next (answer ReqCode.enterMaintenance (enterMaintenance (requested s))) :=
    next_arrival _ s
  refine ⟨fun s hm hf => ?_, fun s hm => ?_, fun s number table index hm hf => ?_, fun s h => ?_, fun s hm h => ?_,
    fun s => ?_, fun s => ?_⟩
  · have he := enterService_fit (s := requested s) hm ((failedCheck_requested s).trans hf)
    refine ⟨_, service s, he ▸ answered_answer _ _, ?_⟩
    rw [he, (answer_touches _ _).mode_kept, (dsmFreeBoth_touches _).mode_kept]
    rfl
  · rw [service, enterService_in (s := requested s) hm]
  · rw [service, enterService_unfit (s := requested s) hm ((failedCheck_requested s).trans hf)]
  · have he := enterMaintenance_free (s := requested s) h
    refine ⟨_, maintenance s, he ▸ answered_answer _ _, ?_⟩
    rw [he, (answer_touches _ _).mode_kept]
    rfl
  · rw [maintenance, enterMaintenance_busy (s := requested s) hm h]
    rfl
  · let t := answer ReqCode.restart ⟨warmRestart (requested s), Status.ok, []⟩
    have hx : exec .restart s = .next t := next_arrival restartRequest s
    have k : Touches [.transmit] (warmRestart (requested s)) t := answered_touches _ _ _ _
    obtain ⟨hmode, hpermits, hrun, hsense, hholder, hidle, hpm, hcgm, hanswers, hhalts⟩ :=
      warmRestart_leaves (requested s)
    exact ⟨t, hx, answered_answer _ _, k.mode_kept.trans hmode, k.permits_kept.trans hpermits,
      k.runRecord_kept.trans hrun, k.sense_kept.trans hsense, k.tower_kept.1.trans hholder,
      k.idle_kept.1.trans hidle, k.tasks_kept.1.trans hpm, k.tasks_kept.2.trans hcgm,
      fun p => (k.answers_kept (by decide) p).trans (hanswers p),
      fun p hp hl hc => k.halts_kept (by decide) p (hhalts p hp hl hc)⟩
  · let t := answer ReqCode.fieldRestart ⟨fieldRestart (requested s), Status.ok, []⟩
    have hx : exec .fieldRestart s = .next t := next_arrival fieldRestartRequest s
    have k : Touches [.transmit] (fieldRestart (requested s)) t := answered_touches _ _ _ _
    have kt : Touches (footprint .fieldRestart) s t := exec_touches hx
    obtain ⟨hline, hexchange, hanswers, habsent⟩ := fieldRestart_leaves (requested s)
    have ha : ∀ p, (station t p).state = .absent := fun p => by rw [k.station_kept, habsent]
    exact ⟨t, hx, answered_answer _ _, k.line_kept.1.trans hline, k.exchange_kept.trans hexchange,
      fun p => (k.answers_kept (by decide) p).trans (hanswers p), ha,
      fun hl => permits_nil_of_absent (kt .holderLaw (by decide) hl) ha, kt.halts_kept (by decide), kt.mode_kept⟩
end

section
/-!
SUPPORT. RUN, HOLD and ABORT, and how a resumed run fares in WAIT and in POSITION.
-/

set_option Elab.async false
namespace Sys2Proof.Machine

open Sys2Proof

/-! ## RUN, HOLD and ABORT (R50, R66, R68) -/

/-- The run that an accepted RUN begins, before its first oven is taken up. -/
def begunRun (start count : Nat) (s : State) : State :=
  let u := discardControl (posOfClass (clearSense s) .cgm 1) (discardControl (posOfClass (clearSense s) .pm 1)
    (clearSense s))
  onRun (fun _ =>
    { state := .running, start := start, requested := stretch s start count, residual := stretch s start count
      cursor := start, planned := u.now }) u

theorem startRun_eq (start count : Nat) (s : State) :
    startRun start count s = dsmFreeBoth (takeUp (begunRun start count s)) := rfl

theorem discards_touches (s : State) : Touches [.outbound, .tasks] (clearSense s)
    (discardControl (posOfClass (clearSense s) .cgm 1) (discardControl (posOfClass (clearSense s) .pm 1)
      (clearSense s))) := (discardControl_touches _ _).seq (discardControl_touches _ _)

theorem begunRun_touches (start count : Nat) (s : State) :
    Touches [.sense, .run, .stretch, .runLaw, .outbound, .tasks] s (begunRun start count s) :=
  (clearSense_touches s).mono.seq ((discards_touches s).mono.seq (onRun_touches _ _).mono)

theorem begunRun_sense (start count : Nat) (s : State) : (begunRun start count s).sch.sense = {} :=
  (discards_touches s).sense_kept

theorem begunRun_run (start count : Nat) (s : State) :
    (begunRun start count s).run =
      { state := .running, start := start, requested := stretch s start count, residual := stretch s start count
        cursor := start, planned := s.now } := by
  have hn := (discards_touches s).now_kept
  unfold begunRun
  extract_lets u
  rw [show u.now = s.now from hn]
  rfl

/-- The first oven of a run begun is that of its start position. -/
theorem begunRun_phase (start count : Nat) (s : State) :
    currentPhase (begunRun start count s) = (ovenRec s (seriesEntry s start).oven).phase := by
  have k := begunRun_touches start count s
  unfold currentPhase currentOven
  rw [k.ovenRec_kept, k.runnerTables_kept.1, begunRun_run]
  rfl

theorem runRequest_notInService {start count : Nat} {s : State} (hm : s.mgt.mode ≠ .service) :
    runRequest start count s = ⟨s, Status.notInService, []⟩ := if_pos hm

theorem runRequest_active {start count : Nat} {s : State} (hm : s.mgt.mode = .service) (he : runEngaged s = true) :
    runRequest start count s = ⟨s, Status.runActive, []⟩ := by
  unfold runRequest
  rw [if_neg (Classical.not_not.mpr hm), he]
  rfl

theorem runRequest_badRange {start count : Nat} {s : State} (hm : s.mgt.mode = .service) (he : runEngaged s = false)
    (hb : badStretch s start count = true) : runRequest start count s = ⟨s, Status.badRange, []⟩ := by
  unfold runRequest
  rw [if_neg (Classical.not_not.mpr hm), he, hb]
  rfl

theorem runRequest_ok {start count : Nat} {s : State} (hm : s.mgt.mode = .service) (he : runEngaged s = false)
    (hb : badStretch s start count = false) :
    runRequest start count s = ⟨ilkSettle s (startRun start count s), Status.ok, []⟩ := by
  unfold runRequest
  rw [if_neg (Classical.not_not.mpr hm), he, hb]
  rfl

/-- A run begun at a workable oven goes on RUNNING with its counts as they began, whatever its tests of WAIT bring. -/
theorem startRun_workable {start count : Nat} {s : State}
    (h : workable (ovenRec s (seriesEntry s start).oven).phase = true) :
    let w := startRun start count s
    w.run.state = .running ∧ w.run.start = start ∧ w.run.requested = stretch s start count ∧ w.run.cursor = start ∧
      w.run.pushed = 0 ∧ w.run.skipped = 0 ∧ w.run.residual = w.run.requested := by
  intro w
  have hp : workable (currentPhase (begunRun start count s)) = true := by rw [begunRun_phase, h]
  have hw : w = dsmFreeBoth (waitTests (begunRun start count s)) := by rw [← takeUp_workable hp, ← startRun_eq]
  obtain ⟨hstate, hcursor, hpushed, hskipped, hresidual, hstart, hrequested⟩ :=
    waitTests_keepsRun (begunRun start count s)
  rw [hw, (dsmFreeBoth_touches _).runRecord_kept, hstate, hcursor, hpushed, hskipped, hresidual, hstart, hrequested,
    begunRun_run]
  exact ⟨rfl, rfl, rfl, rfl, rfl, rfl, rfl⟩

theorem holdRequest_engaged {s : State} (h : runEngaged s = true) : holdRequest s = ⟨holdRun s, Status.ok, []⟩ :=
  if_pos h

theorem abortRequest_engaged {s : State} (h : runEngaged s = true) :
    abortRequest s = ⟨ilkSettle s (afterRun s (stopRun .aborted 0 0 s)), Status.ok, []⟩ := if_pos h

/-- Without a run HOLD, RESUME and ABORT are refused (R66 to R68). -/
theorem noRun_refused {s : State} (h : runEngaged s = false) :
    holdRequest s = ⟨s, Status.noRun, []⟩ ∧ resumeRequest s = ⟨s, Status.noRun, []⟩ ∧
      abortRequest s = ⟨s, Status.noRun, []⟩ := by
  have hn : ¬ runEngaged s = true := by rw [h]; nofun
  refine ⟨if_neg hn, ?_, if_neg hn⟩
  rw [runEngaged_iff] at hn
  unfold resumeRequest
  split
  · next hr => exact absurd (.inr hr) hn
  · next hr => exact absurd (.inl hr) hn
  · rfl
  · rfl

/-- RESUME of a RUNNING run withdraws the hold that is pending (R67). -/
theorem resumeRequest_pending {s : State} (h : s.run.state = .running) (hp : s.run.holdPending = true) :
    resumeRequest s = ⟨onRun (fun r => { r with holdPending := false }) s, Status.ok, []⟩ := by
  unfold resumeRequest
  rw [h, hp]
  rfl

theorem resumeRequest_notHeld {s : State} (h : s.run.state = .running) (hp : s.run.holdPending = false) :
    resumeRequest s = ⟨s, Status.notHeld, []⟩ := by
  unfold resumeRequest
  rw [h, hp]
  rfl

/-! ## The lateness test of a resumed run (R55, R67) -/

/-- The greatest lateness of the current oven has been reached (R55). -/
abbrev isLate (s : State) : Prop := s.run.planned + s.sch.timing.maxLateness ≤ s.now

/-- The test lets a run go on that is not late, or whose oven has reached its ready instant, but for one that waits for
a car. -/
theorem latenessTest_passes {s : State} (h : ¬ (s.run.step = .wait ∧ s.run.car = none))
    (hl : ¬ isLate s ∨ readyInstant s (currentOven s) ≤ s.now) : latenessTest s = s := by
  rcases hl with hl | hl
  · exact latenessTest_early hl
  · exact latenessTest_ready h hl

/-- The test concerns a RUNNING run, and none in PUSH. -/
theorem latenessTest_unconcerned {s : State} (h : s.run.state ≠ .running ∨ s.run.step = .push) :
    latenessTest s = s := by
  unfold latenessTest
  rw [if_neg]
  unfold lateTestDue
  rcases h with h | h <;> simp [h]

theorem isLate_kept {l : List Aspect} {s t : State} (k : Touches l s t) (hp : t.run.planned = s.run.planned)
    (h1 : Aspect.clock ∉ l := by decide) (h2 : Aspect.runnerTables ∉ l := by decide) : isLate t ↔ isLate s := by
  unfold isLate
  rw [hp, k.now_kept h1, (k.runnerTables_kept h2).2.2.1]

/-! ## A resumed run in WAIT -/

theorem waitTests_planned (s : State) : (waitTests s).run.planned = s.run.planned := by
  unfold waitTests
  rw [entryTest_planned]
  unfold carRequestTest handCar
  split
  · split
    · rw [entryTest_planned]
      rfl
    · rfl
  · rfl

theorem waitTests_late (s : State) : isLate (waitTests s) ↔ isLate s :=
  isLate_kept (waitTests_touches s) (waitTests_planned s)

/-- The tests of WAIT move neither the clock nor the current oven and its ready instant. -/
theorem waitTests_instants (s : State) :
    (waitTests s).now = s.now ∧
      readyInstant (waitTests s) (currentOven (waitTests s)) = readyInstant s (currentOven s) := by
  obtain ⟨-, hcursor, -⟩ := waitTests_keepsRun s
  obtain ⟨hn, ho, hr, -⟩ := instants_kept (waitTests_touches s) hcursor
  exact ⟨hn, by rw [ho, hr]⟩

theorem PositionEntered.step_cases {s y : State} (h : PositionEntered s y) :
    y.run.step = .position ∨ y.run.step = .opening ∨ y.run.step = .push := by
  obtain ⟨-, -, -, hout, hin⟩ := h
  cases hp : allInPlace s with
  | false => exact .inl (hout hp).1
  | true =>
    obtain ⟨-, hopen, hshut⟩ := hin hp
    by_cases ho : opened s
    · exact .inr (.inr (hopen ho).1)
    · exact .inr (.inl (hshut ho).1)

/-- An oven PUSH_INTERRUPTED stops the run, and the lateness test no longer concerns it (R52). -/
theorem takeUp_interrupted {s : State} (h : currentPhase s = .pushInterrupted) :
    (latenessTest (takeUp s)).run.state = .stopped ∧
      (latenessTest (takeUp s)).sch.sense =
        ⟨.ovenHeld, currentOven s, s.run.cursor, s.run.step, (currentPhase s).code⟩ := by
  have ht : takeUp s = stopRun .ovenHeld 0 (currentPhase s).code s := by
    unfold takeUp phaseCases
    rw [if_neg (by rw [h]; decide), if_pos h]
  obtain ⟨hr, hs⟩ := stopRun_run .ovenHeld 0 (currentPhase s).code s
  rw [latenessTest_unconcerned (by rw [ht, hr]; exact .inl nofun), ht, hr, hs]
  exact ⟨rfl, rfl⟩

section
variable {s : State} (h1 : s.run.state = .running) (h2 : s.run.step = .wait)
include h1 h2

/-- From the lead instant on a run without a car asks for one, and past the greatest lateness it stops (R53, R55). -/
theorem waitTests_asks (hl : s.run.planned - s.sch.timing.lead ≤ s.now) (hc : s.run.car = none)
    (hi : s.qtc.idle = []) :
    (¬ isLate s → latenessTest (waitTests s) = s.onQtc fun q => { q with carRequest := true }) ∧
      (isLate s → (latenessTest (waitTests s)).run.state = .stopped ∧
        (latenessTest (waitTests s)).sch.sense = ⟨.noCar, currentOven s, s.run.cursor, .wait, 0⟩) := by
  have hy := (waitTests_tested h1 h2).2.1 hl hc hi
  refine ⟨fun hn => ?_, fun hn => ?_⟩
  · rw [latenessTest_early (fun h => hn ((waitTests_late s).mp h)), hy]
  · rw [hy]
    exact latenessTest_noCar (lateTestDue_of h1 (.inl h2) hn) h2 hc

/-- A run without a car takes the head of the idle list (R53, R85). -/
theorem waitTests_takes {c : Nat} {rest : List Nat} (hl : s.run.planned - s.sch.timing.lead ≤ s.now)
    (hn : ¬ isLate s) (hc : s.run.car = none) (hi : s.qtc.idle = c :: rest) :
    let y := latenessTest (waitTests s)
    y.run.state = .running ∧ y.run.car = some c ∧ y.qtc.idle = rest := by
  intro y
  have hy : y = waitTests s := latenessTest_early fun h => hn ((waitTests_late s).mp h)
  obtain ⟨-, -, htake, -⟩ := waitTests_tested h1 h2
  obtain ⟨hidle, -, -, henter, hstay⟩ := htake c rest hl hc hi
  rw [hy]
  refine ⟨(waitTests_keepsRun s).1.trans h1, ?_, hidle⟩
  by_cases he : s.run.planned - s.sch.timing.lead ≤ s.now ∧ workable (currentPhase s) = true ∧
      readyInstant s (currentOven s) ≤ s.now + s.sch.timing.lead
  · exact (henter he).left_wait.2.1
  · rw [hstay he]
    rfl

section
variable {c : Nat} (hc : s.run.car = some c)
include hc

/-- A run whose conditions for POSITION hold enters it (R54). -/
theorem waitTests_enters (hw : workable (currentPhase s) = true) (hl : s.run.planned - s.sch.timing.lead ≤ s.now)
    (hr : readyInstant s (currentOven s) ≤ s.now + s.sch.timing.lead) : PositionEntered s (waitTests s) :=
  ((waitTests_tested h1 h2).2.2.2 c hc).1 ⟨hl, hw, hr⟩

theorem waitTests_passes (hw : workable (currentPhase s) = true) (hl : s.run.planned - s.sch.timing.lead ≤ s.now)
    (hr : readyInstant s (currentOven s) ≤ s.now + s.sch.timing.lead)
    (hn : ¬ isLate s ∨ readyInstant s (currentOven s) ≤ s.now) :
    let y := latenessTest (waitTests s)
    y.run.state = .running ∧ y.run.step ≠ .wait ∧ y.run.car = some c := by
  have he := waitTests_enters h1 h2 hc hw hl hr
  obtain ⟨hstep, hcar, -⟩ := he.left_wait
  obtain ⟨hnow, hready⟩ := waitTests_instants s
  rw [latenessTest_passes (fun h => hstep h.1) (by rwa [waitTests_late, hready, hnow])]
  exact ⟨he.1, hstep, hcar.trans hc⟩

/-- A run that enters POSITION late, its oven not ready, stops unless it has come to PUSH (R55). -/
theorem waitTests_entersLate (hw : workable (currentPhase s) = true) (hn : isLate s)
    (hu : s.now < readyInstant s (currentOven s)) (hr : readyInstant s (currentOven s) ≤ s.now + s.sch.timing.lead) :
    let y := latenessTest (waitTests s)
    y.run.state = .stopped ∧ y.sch.sense.code = .ovenNotReady ∨ y.run.step = .push := by
  have he := waitTests_enters h1 h2 hc hw (by unfold isLate at hn; omega) hr
  obtain ⟨hstep, -, -⟩ := he.left_wait
  obtain ⟨hnow, hready⟩ := waitTests_instants s
  have stops (hs : (waitTests s).run.step = .position ∨ (waitTests s).run.step = .opening) :
      (latenessTest (waitTests s)).run.state = .stopped ∧
        (latenessTest (waitTests s)).sch.sense.code = .ovenNotReady := by
    obtain ⟨ha, hb⟩ := latenessTest_stops (lateTestDue_of he.1 (.inr hs) ((waitTests_late s).mpr hn))
      (fun h => hstep h.1) (by rwa [hready, hnow])
    exact ⟨ha, by rw [hb]⟩
  rcases he.step_cases with hs | hs | hs
  · exact .inl (stops (.inl hs))
  · exact .inl (stops (.inr hs))
  · exact .inr (by rw [latenessTest_unconcerned (.inr hs), hs])

/-- A run with a car whose oven will not be ready within the lead time stays in WAIT, and stops late (R54, R55). -/
theorem waitTests_staysLate (hn : isLate s) (hr : s.now + s.sch.timing.lead < readyInstant s (currentOven s)) :
    let y := latenessTest (waitTests s)
    y.run.state = .stopped ∧ y.sch.sense = ⟨.ovenNotReady, currentOven s, s.run.cursor, .wait, 0⟩ := by
  intro y
  have hy : y = latenessTest s :=
    congrArg latenessTest (((waitTests_tested h1 h2).2.2.2 c hc).2 fun h => absurd h.2.2 (Int.not_le.mpr hr))
  rw [hy, ← h2]
  exact latenessTest_stops (lateTestDue_of h1 (.inl h2) hn) (fun h => nomatch hc.symm.trans h.2) (by omega)

end
end

/-! ## A resumed run in POSITION -/

theorem formMoves_late (s : State) : isLate (formMoves s) ↔ isLate s :=
  isLate_kept (formMoves_touches s) (formMoves_machines s).2.2

theorem formMoves_instants (s : State) :
    (formMoves s).now = s.now ∧ currentOven (formMoves s) = currentOven s ∧
      readyInstant (formMoves s) (currentOven (formMoves s)) = readyInstant s (currentOven s) := by
  obtain ⟨hn, ho, hr, -⟩ := instants_kept (formMoves_touches s) (formMoves_keepsRun s).2.1
  exact ⟨hn, ho, by rw [ho, hr]⟩

/-- A machine that is not in place keeps the run in POSITION (R57). -/
theorem arrivalTest_formMoves {s : State} (h : allInPlace s = false) : arrivalTest (formMoves s) = formMoves s := by
  refine arrivalTest_no ?_
  rintro ⟨-, -, hp⟩
  rw [(formMoves_inPlace s).1, h] at hp
  nomatch hp

section
variable {s : State} (h1 : s.run.state = .running) (h2 : s.run.step = .position)
include h1 h2

/-- A run resumed in POSITION with a machine not in place has its MOVEs formed anew (R56, R67). -/
theorem formMoves_waits (hp : allInPlace s = false) (hn : ¬ isLate s ∨ readyInstant s (currentOven s) ≤ s.now) :
    let y := latenessTest (arrivalTest (formMoves s))
    y.run.state = .running ∧ y.run.step = .position ∧ y.run.car = s.run.car ∧ y.run.deadline = s.run.deadline ∧
      y.run.moves.map RunMove.machine = (runMachines s).filter fun m => !inPlace s m := by
  obtain ⟨hcar, hstep⟩ := formMoves_car s
  obtain ⟨hmoves, hdeadline, -⟩ := formMoves_machines s
  obtain ⟨hnow, -, hready⟩ := formMoves_instants s
  rw [arrivalTest_formMoves hp, latenessTest_passes (fun h => by rw [hstep, h2] at h; nomatch h.1)
    (by rwa [formMoves_late, hready, hnow])]
  exact ⟨(formMoves_keepsRun s).1.trans h1, hstep.trans h2, hcar, hdeadline, hmoves⟩

/-- It stops where it is late and its oven not ready (R55). -/
theorem formMoves_stops (hp : allInPlace s = false) (hl : isLate s) (hu : s.now < readyInstant s (currentOven s)) :
    let y := latenessTest (arrivalTest (formMoves s))
    y.run.state = .stopped ∧ y.sch.sense = ⟨.ovenNotReady, currentOven s, s.run.cursor, .position, 0⟩ := by
  obtain ⟨hstate, hcursor, -⟩ := formMoves_keepsRun s
  have hstep := (formMoves_car s).2.trans h2
  obtain ⟨hnow, hoven, hready⟩ := formMoves_instants s
  obtain ⟨ha, hb⟩ := latenessTest_stops
    (lateTestDue_of (hstate.trans h1) (.inr (.inl hstep)) ((formMoves_late s).mpr hl))
    (fun h => by rw [hstep] at h; nomatch h.1) (by rwa [hready, hnow])
  rw [arrivalTest_formMoves hp]
  exact ⟨ha, by rw [hb, hoven, hcursor, hstep]⟩

/-- With every machine in place the run passes on to OPEN, or to PUSH (R57, R58). -/
theorem arrivalTest_passes (hp : allInPlace s = true) (hn : ¬ isLate s ∨ readyInstant s (currentOven s) ≤ s.now) :
    let y := latenessTest (arrivalTest s)
    y.run.state = .running ∧
      y.run.step = if bothDoorsOff s (currentOven s) && guideLockedAt s (currentOven s) then .push else .opening := by
  obtain ⟨hopen, hshut⟩ := arrivalTest_run h1 h2 hp
  have ho : opened s ↔ (bothDoorsOff s (currentOven s) && guideLockedAt s (currentOven s)) = true := by
    unfold opened
    rw [Bool.and_eq_true]
  by_cases h : opened s
  · rw [hopen h, latenessTest_unconcerned (.inr rfl), if_pos (ho.mp h)]
    exact ⟨h1, rfl⟩
  · have hpass : latenessTest (arrivalTest s) = arrivalTest s := by
      rw [hshut h]
      exact latenessTest_passes (fun x => RunStep.noConfusion x.1) hn
    rw [hpass, hshut h, if_neg (fun x => h (ho.mpr x))]
    exact ⟨h1, rfl⟩

theorem formMoves_passes (hp : allInPlace s = true) (hn : ¬ isLate s ∨ readyInstant s (currentOven s) ≤ s.now) :
    let y := latenessTest (arrivalTest (formMoves s))
    y.run.state = .running ∧
      y.run.step = if bothDoorsOff s (currentOven s) && guideLockedAt s (currentOven s) then .push else .opening := by
  obtain ⟨hall, hdoors, hguide, -⟩ := formMoves_inPlace s
  obtain ⟨hnow, -, hready⟩ := formMoves_instants s
  rw [← hdoors, ← hguide]
  exact arrivalTest_passes ((formMoves_keepsRun s).1.trans h1) ((formMoves_car s).2.trans h2) (hall.trans hp)
    (by rwa [formMoves_late, hready, hnow])

end

end Sys2Proof.Machine
end

section
/-!
SUPPORT. RESUME of a HELD run, from the state in which the request arrives.
-/

set_option Elab.async false
namespace Sys2Proof.Machine

open Sys2Proof

/-- ABORT of a run that is RUNNING or HELD (R68). -/
theorem exec_abort {s : State} (h : runEngaged s = true) :
    ∃ t, exec .abort s = .next t ∧ Answered ReqCode.abort Status.ok [] t ∧
      t.run = { s.run with state := .stopped, holdPending := false } ∧ Counted .runStopped s t ∧
      t.sch.sense = ⟨.aborted, currentOven s, s.run.cursor, s.run.step, 0⟩ := by
  let v := requested s
  let w := ilkSettle v (afterRun v (stopRun .aborted 0 0 v))
  obtain ⟨hrun, hsense, hcount⟩ := stopRun_settled .aborted 0 0 v
  have hx : exec .abort s = .next (answer ReqCode.abort ⟨w, Status.ok, []⟩) :=
    (next_arrival abortRequest s).trans (by rw [abortRequest_engaged (s := requested s) h])
  have k : Touches [.transmit] w (answer ReqCode.abort ⟨w, Status.ok, []⟩) := answered_touches _ _ _ _
  exact ⟨_, hx, answered_answer _ _, k.runRecord_kept.trans hrun, (hcount.since (requested_touches s)).kept k,
    k.sense_kept.trans hsense⟩

/-! ## The run as it is taken up again -/

/-- WAIT has no step deadline to start again (Table 3-2). -/
theorem resumedFrom_wait {v : State} (h : v.run.step = .wait) :
    resumedFrom v = onRun (fun r => { r with state := .running }) v := by
  refine congrArg (fun r => v.onSch fun q => { q with run := r }) ?_
  show ({ v.run with
    state := .running
    deadline := match stepLimit v.sch.timing v.run.step with
      | some limit => some (v.after limit)
      | none => v.run.deadline } : RunRecord) = { v.run with state := .running }
  rw [h]
  rfl

theorem resumedFrom_deadline {v : State} (h : v.run.step = .position) :
    (resumedFrom v).run.deadline = some (v.now + v.sch.timing.position) := by
  show (match stepLimit v.sch.timing v.run.step with
    | some limit => some (v.after limit)
    | none => v.run.deadline) = _
  rw [h]
  rfl

theorem resumeTests_wait {u : State} (h : u.run.step = .wait) : resumeTests u = latenessTest (takeUp u) := by
  unfold resumeTests
  rw [h]

theorem resumeTests_position {u : State} (h : u.run.step = .position) :
    resumeTests u = latenessTest (arrivalTest (formMoves u)) := by
  unfold resumeTests
  rw [h]

/-- What a HELD run comes to once RESUME has taken it up and tested it, before the interlock looks (R67). -/
def resumedState (s : State) : State := afterRun (requested s) (resumeTests (resumedFrom (requested s)))

theorem exec_resume {s : State} (h : s.run.state = .held) :
    exec .resume s = .next (answer ReqCode.resume ⟨ilkSettle (requested s) (resumedState s), Status.ok, []⟩) :=
  exec_resume_held s h

theorem resumedState_touches (s : State) :
    Touches [.outbound, .tasks] (resumeTests (resumedFrom (requested s))) (resumedState s) := afterRun_touches _ _

/-- A run resumed in WAIT before the lead instant and the greatest lateness goes on waiting, and nothing is left to
settle. -/
theorem resume_waits {s : State} (h : s.run.state = .held) (hw : s.run.step = .wait)
    (hp : workable (currentPhase s) = true) (hl : s.now < s.run.planned - s.sch.timing.lead) (hn : ¬ isLate s) :
    (ilkSettle (requested s) (resumedState s)).run = { s.run with state := .running } := by
  let u := onRun (fun r => { r with state := .running }) (requested s)
  have hu : resumeTests (resumedFrom (requested s)) = u := by
    rw [resumedFrom_wait (v := requested s) hw, resumeTests_wait (u := u) hw, takeUp_workable (s := u) hp,
      waitTests_before_lead (s := u) hl, latenessTest_early (s := u) hn]
  have k := resumedState_touches s
  rw [hu] at k
  have hs : ilkSettle (requested s) (resumedState s) = resumedState s :=
    ilkSettle_still (resumeRun_touches (s := requested s) h) k.cars_kept
  rw [hs]
  exact k.runRecord_kept

/-- A run resumed in WAIT: the phase of its oven decides, and then its car, its lead instant and its lateness
(R52 to R55, R67). -/
theorem resume_inWait {s : State} (hw : s.run.step = .wait) :
    let w := resumedState s
    let late := s.run.planned + s.sch.timing.maxLateness ≤ s.now
    let ready := readyInstant s (currentOven s)
    let stays := skippedPhase (currentPhase s) = false ∧ currentPhase s ≠ .pushInterrupted
    (skippedPhase (currentPhase s) = true → s.run.skipped < w.run.skipped) ∧
      (currentPhase s = .pushInterrupted → w.run.state = .stopped ∧
        w.sch.sense = ⟨.ovenHeld, currentOven s, s.run.cursor, .wait, (currentPhase s).code⟩) ∧
      (stays → s.run.planned - s.sch.timing.lead ≤ s.now → s.run.car = none → s.qtc.idle = [] →
        (¬ late → w.run = { s.run with state := .running } ∧ w.qtc.carRequest = true) ∧
        (late → w.run.state = .stopped ∧ w.sch.sense = ⟨.noCar, currentOven s, s.run.cursor, .wait, 0⟩)) ∧
      (∀ c rest, stays → s.run.planned - s.sch.timing.lead ≤ s.now → ¬ late → s.run.car = none →
        s.qtc.idle = c :: rest → w.run.state = .running ∧ w.run.car = some c ∧ w.qtc.idle = rest) ∧
      ∀ c, s.run.car = some c →
        (workable (currentPhase s) = true → s.run.planned - s.sch.timing.lead ≤ s.now →
          ready ≤ s.now + s.sch.timing.lead → ¬ late ∨ ready ≤ s.now →
          w.run.state = .running ∧ w.run.step ≠ .wait ∧ w.run.car = some c) ∧
        (workable (currentPhase s) = true → late → s.now < ready → ready ≤ s.now + s.sch.timing.lead →
          w.run.state = .stopped ∧ w.sch.sense.code = .ovenNotReady ∨ w.run.step = .push) ∧
        (stays → late → s.now + s.sch.timing.lead < ready →
          w.run.state = .stopped ∧ w.sch.sense = ⟨.ovenNotReady, currentOven s, s.run.cursor, .wait, 0⟩) := by
  intro w late ready stays
  let u := onRun (fun r => { r with state := .running }) (requested s)
  have h2 : u.run.step = .wait := hw
  have k := resumedState_touches s
  rw [resumedFrom_wait (v := requested s) hw, resumeTests_wait h2] at k
  rw [k.runRecord_kept, k.sense_kept, k.idle_kept.1, k.idle_kept.2]
  have tests (h : stays) : takeUp u = waitTests u := takeUp_stays (s := u) h.1 h.2
  have works (h : workable (currentPhase s) = true) : takeUp u = waitTests u := takeUp_workable (s := u) h
  refine ⟨fun hp => ?_, fun hp => ?_, fun hs hl hc hi => ?_, fun c rest hs hl hn hc hi => ?_, fun c hc =>
    ⟨fun hp hl hr hn => ?_, fun hp hl hu hr => ?_, fun hs hl hr => ?_⟩⟩
  · rw [latenessTest_skipped]
    exact phaseCases_skipped_lt (s := u) hp
  · rw [← hw]
    exact takeUp_interrupted (s := u) hp
  · obtain ⟨hearly, hlate⟩ := waitTests_asks (s := u) rfl h2 hl hc hi
    rw [tests hs]
    exact ⟨fun hn => by rw [hearly hn]; exact ⟨rfl, rfl⟩, hlate⟩
  · rw [tests hs]
    exact waitTests_takes (s := u) rfl h2 hl hn hc hi
  · rw [works hp]
    exact waitTests_passes (s := u) rfl h2 hc hp hl hr hn
  · rw [works hp]
    exact waitTests_entersLate (s := u) rfl h2 hc hp hl hu hr
  · rw [tests hs]
    exact waitTests_staysLate (s := u) rfl h2 hc hl hr

/-- A run resumed in POSITION: its MOVEs are formed anew, and it waits, passes on, or stops (R55 to R58, R67). -/
theorem resume_inPosition {s : State} (hw : s.run.step = .position) :
    let w := resumedState s
    let late := s.run.planned + s.sch.timing.maxLateness ≤ s.now
    let ready := readyInstant s (currentOven s)
    (allInPlace s = false → ¬ late ∨ ready ≤ s.now →
        w.run.state = .running ∧ w.run.step = .position ∧ w.run.car = s.run.car ∧
        w.run.deadline = some (s.now + s.sch.timing.position) ∧
        w.run.moves.map RunMove.machine = (runMachines s).filter fun m => !inPlace s m) ∧
      (allInPlace s = true → ¬ late ∨ ready ≤ s.now →
        w.run.state = .running ∧
        w.run.step = if bothDoorsOff s (currentOven s) && guideLockedAt s (currentOven s) then .push else .opening) ∧
      (allInPlace s = false → late → s.now < ready →
        w.run.state = .stopped ∧ w.sch.sense = ⟨.ovenNotReady, currentOven s, s.run.cursor, .position, 0⟩) := by
  intro w late ready
  have h2 : (resumedFrom (requested s)).run.step = .position := hw
  have hd := resumedFrom_deadline (v := requested s) hw
  have k := resumedState_touches s
  rw [resumeTests_position h2] at k
  rw [k.runRecord_kept, k.sense_kept]
  have hi : inPlace (resumedFrom (requested s)) = inPlace s := by
    funext m
    cases m <;> rfl
  have ha : allInPlace (resumedFrom (requested s)) = allInPlace s := by
    unfold allInPlace
    rw [hi]
    rfl
  refine ⟨fun hp hn => ?_, fun hp hn => ?_, fun hp hl hu => ?_⟩
  · obtain ⟨hstate, hstep, hcar, hdeadline, hmoves⟩ := formMoves_waits rfl h2 (ha.trans hp) hn
    exact ⟨hstate, hstep, hcar, hdeadline.trans hd, hi ▸ hmoves⟩
  · exact formMoves_passes rfl h2 (ha.trans hp) hn
  · exact formMoves_stops rfl h2 (ha.trans hp) hl hu

end Sys2Proof.Machine

open Sys2Proof Sys2Proof.Machine

/-- Settles O58: each request is its rule on the state of its arrival, which has the run, the ovens and the cars of
`s`. -/
theorem runCommandsMoveTheRun : Obligations.RunCommandsMoveTheRun := by
  have run (start count : Byte) (s : State) : exec (.run start count) s =
      .next (answer ReqCode.run (runRequest start.toNat count.toNat (requested s))) := next_arrival _ s
  have hold (s : State) : exec .hold s = .next (answer ReqCode.hold (holdRequest (requested s))) := next_arrival _ s
  have resume (s : State) : exec .resume s = .next (answer ReqCode.resume (resumeRequest (requested s))) :=
    next_arrival _ s
  have abort (s : State) : exec .abort s = .next (answer ReqCode.abort (abortRequest (requested s))) := next_arrival _ s
  refine ⟨fun start count s hm he hb hp => ?_, fun start count s hm he hb => ?_, fun start count s => ⟨fun hm => ?_,
    fun hm he => ?_, fun hm he hb => ?_⟩, fun s he => ?_, fun s hr => ⟨fun hp => ?_, fun hp => ?_⟩,
    fun s hh hw hp hl hn => ?_, fun s hh => ?_, fun s he => ?_, fun s he => ?_⟩
  · refine ⟨startRun start.toNat count.toNat (requested s), ?_, startRun_workable (s := requested s) hp⟩
    rw [run, runRequest_ok (s := requested s) hm he hb]
  · intro length
    have hv := begunRun_run start.toNat count.toNat (requested s)
    refine ⟨begunRun start.toNat count.toNat (requested s), _, startRun start.toNat count.toNat (requested s),
      (requested_touches s).mono.seq (begunRun_touches _ _ _).mono, begunRun_sense _ _ _, hv,
      takeUp_takenUp (by rw [hv]) (by rw [hv]), dsmFreeBoth_touches _, ?_⟩
    rw [run, runRequest_ok (s := requested s) hm he hb]
  · rw [run, runRequest_notInService (s := requested s) hm]
  · rw [run, runRequest_active (s := requested s) hm he]
  · rw [run, runRequest_badRange (s := requested s) hm he hb]
  · have hx := hold s
    rw [holdRequest_engaged (s := requested s) he] at hx
    refine ⟨_, hx, answered_answer _ _, ?_⟩
    rw [(answered_touches _ _ _ _).runRecord_kept]
    exact holdRun_run (requested s)
  · have hx := resume s
    rw [resumeRequest_pending (s := requested s) hr hp] at hx
    exact ⟨_, hx, answered_answer _ _, (answered_touches _ _ _ _).runRecord_kept⟩
  · rw [resume, resumeRequest_notHeld (s := requested s) hr hp]
  · exact ⟨_, exec_resume hh, answered_answer _ _,
      (answered_touches _ _ _ _).runRecord_kept.trans (resume_waits hh hw hp hl (Int.not_le.mpr hn))⟩
  · exact ⟨resumedState s, exec_resume hh, resume_inWait, resume_inPosition⟩
  · exact exec_abort (s := s) he
  · obtain ⟨hhold, hresume, habort⟩ := noRun_refused (s := requested s) he
    rw [hold, resume, abort, hhold, hresume, habort]
    exact ⟨rfl, rfl, rfl⟩
end

section
/-!
SUPPORT. The quench track: the two laws of its reservations and lists, and the two instants of a car's record.
-/

set_option Elab.async false
namespace Sys2Proof.Machine

open Sys2Proof

/-- A DRAINING car at its drain deadline is QUENCHED and WET, and the interlock looks at its record (R90, R38). -/
theorem drainActs_due {c : Nat} {s : State} {d : Int} (hs : (carRec s c).state = .draining)
    (hd : (carRec s c).drainDeadline = some d) (hn : d ≤ s.now) :
    drainActs c s = ilkSettle s (setCarRec c (drained (carRec s c)) s) := by
  have hdue : carDrainDue s c = true := by
    unfold carDrainDue
    rw [hd, hs]
    exact reached_of_le hn
  unfold drainActs
  rw [if_pos hdue]

/-- A car whose hot watch has run out is reported, and its watch ends (R90). -/
theorem carHot_due {c : Nat} {s : State} {h : Int} (hh : (carRec s c).hotStart = some h)
    (hn : h + s.qtc.timing.hotLimit ≤ s.now) :
    carHot c s = raise .hotCar (carRec s c).loadOven (addressOfClass s .car c) s.qtc.timing.hotLimit
      (setCarRec c { carRec s c with hotStart := none } s) := by
  have hdue : carHotDue s c = true := by
    unfold carHotDue
    rw [hh]
    exact reached_of_le hn
  unfold carHot
  rw [if_pos hdue]

theorem carRec_setCarRec_self {c : Nat} (hc : c = 1 ∨ c = 2) (r : CarRecord) (s : State) :
    carRec (setCarRec c r s) c = r := by
  rw [carRec_setCarRec, if_pos ⟨rfl, by omega⟩]

end Sys2Proof.Machine

open Sys2Proof Sys2Proof.Machine

/-- Settles O10: no footprint names the law of the track, so every command keeps it (`exec_touches`), and it does not read
the queue of commands. -/
theorem trackReservationsStayApart : Obligations.TrackReservationsStayApart := fun _ _ h hs =>
  step_keeps .trackLaw (fun _ _ => Iff.rfl) (by decide) (fun _ _ => id) h hs

/-- Settles O11: no footprint names the law of the car lists, so every command keeps it (`exec_touches`), and it does not
read the queue of commands. -/
theorem carListsStayLawful : Obligations.CarListsStayLawful := fun _ _ h hs =>
  step_keeps .listLaw (fun _ _ => Iff.rfl) (by decide) (fun _ _ => id) h hs

/-- Settles O26: each command is the operation of its instant, and of what HOT_LIMIT_REACHED does the event raised writes
no car record, and the record written counts nothing. -/
theorem carDeadlinesAct : Obligations.CarDeadlinesAct := by
  refine ⟨fun c s d hs hd hn => congrArg _ (drainActs_due hs hd hn), fun c s h hc hh hn => ?_⟩
  refine ⟨carHot c s, rfl, ?_⟩
  rw [carHot_due hh hn]
  refine ⟨?_, ?_⟩
  · rw [(raise_touches _ _ _ _ _).carRec_kept, carRec_setCarRec_self hc]
  · exact (Counted.of_raise (.refl [] _)).after (setCarRec_touches c _ s)
end

section
/-!
SUPPORT. The door seal monitor: the law of its leak list, its two deadlines, and what a SEAL makes of its door.
-/

set_option Elab.async false
namespace Sys2Proof.Machine

open Sys2Proof

/-! ## The leak list (R106) -/

/-- No command breaks the law of the leak list, be it a reply or not. -/
theorem leakLaw_not_mem_footprint (c : Instr) : Aspect.leakLaw ∉ footprint c :=
  not_mem_footprint (by decide) fun u _ => not_mem_replyAspects _ rfl (kindOf u)

/-- What every command keeps, and what does not read the queue of commands, every step keeps. -/
theorem step_keeps_of_exec {P : State → Prop} (hexec : ∀ {c : Instr} {s t : State}, exec c s = .next t → P s → P t)
    (hp : ∀ (s : State) (l : List Instr), P s → P { s with pending := l }) {s t : State} (h : step s = .next t)
    (hs : P s) : P t := by
  unfold step at h
  split at h
  · obtain rfl := Host.Outcome.next.inj h
    exact hs
  · next rest _ => exact hexec h (hp s rest hs)

/-! ## The two deadlines (R105, R112) -/

theorem doorRec_setDoorRec_self {d : Door} (hd : isDoor d) (r : DoorRecord) (s : State) :
    doorRec (setDoorRec d r s) d = r := by
  rw [doorRec_setDoorRec, if_pos ⟨rfl, hd⟩]

/-- A door made overdue, with its event, before the change is handed on (R105). -/
def madeOverdue (d : Door) (s : State) : State :=
  raise .sealOverdue d.oven 0 (doorCode d.side) (setDoorRec d { doorRec s d with overdue := true } s)

theorem sealOverdue_due {d : Door} {s : State} (hu : (doorRec s d).state = .unsealed)
    (ho : (doorRec s d).overdue = false) (hn : (doorRec s d).doorOn + s.dsm.config.deadline * 60 ≤ s.now) :
    sealOverdue d s = doorHandedOn s d (madeOverdue d s) := by
  have hdue : overdueNow s d = true := by
    unfold overdueNow
    simp [hu, ho, reached_of_le hn]
  exact if_pos hdue

theorem doorRec_madeOverdue {d : Door} (hd : isDoor d) (s : State) :
    doorRec (madeOverdue d s) d = { doorRec s d with overdue := true } :=
  ((raise_touches _ _ _ _ _).doorRec_kept d).trans (doorRec_setDoorRec_self hd _ s)

/-- The event counts, whatever follows it that lets no count fall. -/
theorem madeOverdue_counted {l : List Aspect} {d : Door} {s t : State} (h : Touches l (madeOverdue d s) t)
    (ha : Aspect.tally ∉ l := by decide) : Counted .sealOverdue s t :=
  (Counted.of_raise h ha).after (setDoorRec_touches d _ s)

theorem taskLapses_due {side : DoorSide} {s : State} {d : Int}
    (hs : (taskOf s side).stage = .delivered ∨ (taskOf s side).stage = .testing)
    (hd : (taskOf s side).deadline = some d) (hn : d ≤ s.now) :
    taskLapses side s = dsmFree side (setTask side {} s) := by
  have hdue : taskDue s side = true := by
    unfold taskDue
    simp [hd, hs, reached_of_le hn]
  exact if_pos hdue

/-! ## The rows of R103 -/

section
variable {c : SealConfig} {now : Int} {i : Nat} {r : DoorRecord}

/-- The record of a door found LEAKING in a class: it stands but for the index where the door leaked in that class
already. -/
def leakingRecord (now : Int) (i : Nat) (v : Severity) (r : DoorRecord) : DoorRecord :=
  if r.state = .leaking ∧ r.severity = some v then { r with lastIndex := i }
  else
    { r with
      lastIndex := i, state := .leaking, severity := some v, leakInstant := now, overdue := false, retryDue := false }

theorem sealResult_accepted (h : i ≤ c.accept) :
    sealResult c now i r =
      ({ r with lastIndex := i, state := .sealed, severity := none, overdue := false, retryDue := false }, false) :=
  if_pos h

theorem sealResult_minor (h : c.accept < i) (hj : i ≤ c.reject) :
    sealResult c now i r = (leakingRecord now i .minor r, false) :=
  (if_neg (Nat.not_le.mpr h)).trans (if_pos hj)

theorem sealResult_retry (h : c.accept < i) (hj : c.reject < i) (hu : r.state = .unsealed)
    (hr : r.retries < c.maxRetries) :
    sealResult c now i r = ({ r with lastIndex := i, retries := r.retries + 1, retryDue := true }, false) :=
  (if_neg (Nat.not_le.mpr h)).trans ((if_neg (Nat.not_le.mpr hj)).trans (if_pos ⟨hu, hr⟩))

/-- The two last rows: no retry is left, or none is given. -/
theorem sealResult_major (h : c.accept < i) (hj : c.reject < i)
    (hr : r.state = .unsealed → c.maxRetries ≤ r.retries) :
    sealResult c now i r = (leakingRecord now i .major r, decide (r.state = .unsealed)) :=
  (if_neg (Nat.not_le.mpr h)).trans
    ((if_neg (Nat.not_le.mpr hj)).trans (if_neg fun k => Nat.not_le.mpr k.2 (hr k.1)))

theorem leakingRecord_same {v : Severity} (hs : r.state = .leaking) (hv : r.severity = some v) :
    leakingRecord now i v r = { r with lastIndex := i } :=
  if_pos ⟨hs, hv⟩

theorem leakingRecord_new {v : Severity} (h : r.state = .leaking → r.severity ≠ some v) :
    leakingRecord now i v r =
      { r with
        lastIndex := i, state := .leaking, severity := some v, leakInstant := now, overdue := false
        retryDue := false } :=
  if_neg fun k => h k.1 k.2

/-- A record tells of a leak of a class, found at `now` on a door whose record was `r` (R103). -/
def FoundLeaking (now : Int) (v : Severity) (r r' : DoorRecord) : Prop :=
  r'.state = .leaking ∧ r'.severity = some v ∧ r'.retries = r.retries ∧
    (r.state = .leaking → r.severity = some v → r'.leakInstant = r.leakInstant) ∧
    (r.state = .leaking → r.severity ≠ some v → r'.leakInstant = now) ∧
    (r.state ≠ .leaking → r'.leakInstant = now ∧ r'.overdue = false ∧ r'.retryDue = false)

theorem leakingRecord_foundLeaking (now : Int) (i : Nat) (v : Severity) (r : DoorRecord) :
    FoundLeaking now v r (leakingRecord now i v r) := by
  by_cases h : r.state = .leaking ∧ r.severity = some v
  · obtain ⟨hs, hv⟩ := h
    rw [leakingRecord_same hs hv]
    exact ⟨hs, hv, rfl, fun _ _ => rfl, fun _ hn => absurd hv hn, fun hn => absurd hs hn⟩
  · rw [leakingRecord_new fun hs hv => h ⟨hs, hv⟩]
    exact ⟨rfl, rfl, rfl, fun hs hv => absurd ⟨hs, hv⟩ h, fun _ _ => rfl, fun _ => ⟨rfl, rfl, rfl⟩⟩

/-- Every row records the index, and none the door-on instant. -/
theorem sealResult_index (c : SealConfig) (now : Int) (i : Nat) (r : DoorRecord) :
    (sealResult c now i r).1.lastIndex = i ∧ (sealResult c now i r).1.doorOn = r.doorOn := by
  have leaks (v : Severity) :
      (leakingRecord now i v r).lastIndex = i ∧ (leakingRecord now i v r).doorOn = r.doorOn := by
    unfold leakingRecord
    split <;> exact ⟨rfl, rfl⟩
  by_cases ha : i ≤ c.accept
  · rw [sealResult_accepted ha]
    exact ⟨rfl, rfl⟩
  have ha := Nat.not_le.mp ha
  by_cases hj : i ≤ c.reject
  · rw [sealResult_minor ha hj]
    exact leaks .minor
  have hj := Nat.not_le.mp hj
  by_cases hr : r.state = .unsealed ∧ r.retries < c.maxRetries
  · rw [sealResult_retry ha hj hr.1 hr.2]
    exact ⟨rfl, rfl⟩
  · rw [sealResult_major ha hj fun hu => Nat.not_lt.mp fun hlt => hr ⟨hu, hlt⟩]
    exact leaks .major

end

/-! ## A SEAL taken -/

/-- The SEAL of an ACTIVE station goes to the door seal monitor, and the copy and the round's end follow. -/
theorem exec_seal {h : Header} {oven side leak : Byte} {s : State} {x : Exchange} (hx : Awaits s x)
    (hs : h.source.toNat = (pollEntry s x.position).address) (ha : (station s x.position).state = .active) :
    ∃ t, exec (.sealReport h oven side leak) s = .next t ∧
      Touches roundAspects (dsmSeal x.position oven.toNat side.toNat leak.toNat (taken s x)) t := by
  have hr : framed (arrived h Kind.seal [oven, side, leak]) = true :=
    framed_arrived h _ _ (by decide) (Nat.le_of_ble_eq_true rfl) rfl
  refine ⟨_, exec_active_reply (c := .sealReport h oven side leak) rfl hx (decide_eq_true hs) hr ha, ?_⟩
  rw [classifyField_seal]
  exact roundOn_coreCopy_touches _ _ _

theorem dsmSeal_evaluated {p oven side i : Nat} {s : State} {d : Door} (ha : (station s p).state = .active)
    (hd : sealDoor s p oven side = some d) :
    dsmSeal p oven side i s = sealEvaluated d (pollEntry s p).address i s := by
  unfold dsmSeal
  rw [if_neg (not_not_intro ha), hd]

theorem dsmSeal_unexpected {p oven side i : Nat} {s : State} (ha : (station s p).state = .active)
    (hd : sealDoor s p oven side = none) :
    dsmSeal p oven side i s = raise .sealFail (if oven ≤ 128 then oven else 0) (pollEntry s p).address 1 s := by
  unfold dsmSeal
  rw [if_neg (not_not_intro ha), hd]

/-- After a SEAL that is evaluated the door's record is what its row of R103 says, but for the listed flag that the leak
list keeps. -/
theorem doorRec_sealEvaluated {l : List Aspect} {d : Door} (hd : isDoor d) {a i : Nat} {s t : State}
    (k : Touches l (sealEvaluated d a i s) t) (hl : Aspect.doors ∉ l := by decide) :
    ∃ b, doorRec t d = { (sealResult s.dsm.config s.now i (doorRec s d)).1 with listed := b } := by
  refine ⟨(doorRec t d).listed, ?_⟩
  have h := sealEvaluated_unlisted d hd.1 hd.2 a i s
  rw [← k.doorRec_kept d hl] at h
  exact congrArg (fun r : DoorRecord => { r with listed := (doorRec t d).listed }) h

end Sys2Proof.Machine

open Sys2Proof Sys2Proof.Machine

/-- Settles O13: no footprint names the law of the leak list, which does not read the queue of commands. -/
theorem leakListStaysLawful : Obligations.LeakListStaysLawful := fun _ _ =>
  step_keeps_of_exec (fun h => exec_touches h .leakLaw (leakLaw_not_mem_footprint _)) fun _ _ => id

/-- Settles O27: the flag is set and the event raised before the change is handed on, which writes no door record. -/
theorem sealDeadlineMakesTheDoorOverdue : Obligations.SealDeadlineMakesTheDoorOverdue := by
  intro d s h1 h2 hu ho hn
  have k := doorHandedOn_touches s d (madeOverdue d s)
  exact ⟨madeOverdue d s, congrArg _ (sealOverdue_due hu ho hn), doorRec_madeOverdue ⟨h1, h2⟩ s, k.doorRec_kept d,
    madeOverdue_counted (.refl [] _), madeOverdue_counted k⟩

/-- Settles O28: the task is due, so its record ends and the freedom test of its machine follows. -/
theorem taskDeadlineEndsTheTask : Obligations.TaskDeadlineEndsTheTask := fun _ _ _ hs hd hn =>
  congrArg _ (taskLapses_due hs hd hn)

/-- Settles O39: the reply as taken leaves the door, the seal configuration and the clock, and the round's end the door;
between them the record becomes what its row of R103 says. -/
theorem sealsAreEvaluated : Obligations.SealsAreEvaluated := by
  intro h oven side leak s x hx hs ha
  have kt := taken_touches s x
  have hact := taken_active hx ha
  have hdoor := sealDoor_kept kt x.position oven.toNat side.toNat
  obtain ⟨t, hexec, k⟩ := exec_seal (oven := oven) (side := side) (leak := leak) hx hs ha
  refine ⟨fun d hd => ?_, fun hn => ?_⟩
  · intro i c r
    rw [dsmSeal_evaluated hact (hdoor.trans hd)] at k
    have hrange := sealDoor_range hd
    have hresult : sealResult (taken s x).dsm.config (taken s x).now i (doorRec (taken s x) d) =
        sealResult c s.now i r := by
      rw [kt.sealTable_kept, kt.now_kept, kt.doorRec_kept]
    obtain ⟨b, hrec⟩ := doorRec_sealEvaluated hrange k
    rw [hresult] at hrec
    refine ⟨t, hexec, ?_⟩
    intro r' leaks
    have hrec : r' = { (sealResult c s.now i r).1 with listed := b } := hrec
    have found : ∀ {v failed}, sealResult c s.now i r = (leakingRecord s.now i v r, failed) → leaks v := by
      intro v failed he
      show FoundLeaking s.now v r r'
      rw [hrec, he]
      exact leakingRecord_foundLeaking s.now i v r
    obtain ⟨hindex, hon⟩ := sealResult_index c s.now i r
    refine ⟨by rw [hrec]; exact hindex, by rw [hrec]; exact hon, fun hi => ?_,
      fun hi hj => found (sealResult_minor hi hj), fun hi hj hu hr => ?_, fun hi hj hu hr => ?_,
      fun hi hj hu => found (sealResult_major hi hj fun hk => absurd hk hu)⟩
    · rw [hrec, sealResult_accepted hi]
      exact ⟨rfl, rfl, rfl, rfl, rfl, rfl⟩
    · rw [hrec, sealResult_retry hi hj hu hr]
      exact ⟨hu, rfl, rfl, rfl, rfl, rfl⟩
    · have he := sealResult_major (now := s.now) hi hj fun _ => hr
      have hfail : (sealResult c s.now i r).2 = true := by
        rw [he]
        exact decide_eq_true hu
      rw [← hresult] at hfail
      exact ⟨found he, ((sealEvaluated_counted hfail).before (sealEvaluated_touches hrange _ _ _) k).since kt⟩
  · rw [dsmSeal_unexpected hact (hdoor.trans hn)] at k
    exact ⟨t, hexec, (Counted.of_raise k).after kt,
      k.doors_kept.trans ((raise_touches _ _ _ _ _).doors_kept.trans kt.doors_kept)⟩
end

section
/-!
SUPPORT. The offtake pressure regulator: the average of a window, what a SAMPLE makes of each of its slots, and what an
update makes of its oven.
-/

set_option Elab.async false
namespace Sys2Proof.Machine

open Sys2Proof

/-! ## The average (R117) -/

/-- With weight the average is the floor that R117 names. -/
theorem averageOf_weighted {c : RegConfig} {window : List Int} (h : 0 < weightOf c window) (old : Option Int) :
    averageOf c window old =
      some ((2 * weightedSum c window + weightOf c window) / (2 * (weightOf c window : Int))) :=
  if_neg (by omega)

theorem averageOf_weightless {c : RegConfig} {window : List Int} (h : weightOf c window = 0) (old : Option Int) :
    averageOf c window old = old :=
  if_pos (by omega)

/-- The dividend reaches the divisor times the floor of their quotient, and not the divisor times the next number. -/
theorem mul_floor_bounds {d : Int} (h : 0 < d) (x : Int) : d * (x / d) ≤ x ∧ x < d * (x / d + 1) := by
  rw [Int.mul_add, Int.mul_one]
  exact ⟨Int.mul_ediv_self_le (by omega), Int.lt_mul_ediv_self_add h⟩

theorem oprUpdate_absent {n : Nat} {s : State} (h : (regRec s n).average = none) : oprUpdate n s = s := by
  unfold oprUpdate
  extract_lets r
  rw [show r.average = none from h]

/-! ## A SAMPLE taken (R114) -/

theorem slotTaken_iff {s : State} {inst k m : Nat} {valid : Bool} {fb : Nat} :
    slotTaken s inst k m valid fb = true ↔
      ∃ c, ovenConfig s m = some c ∧ c.station = inst ∧ c.slot = k ∧ valid = true ∧ fb ≤ 200 := by
  unfold slotTaken
  cases ovenConfig s m with
  | none => simp
  | some c => simp [and_assoc]

/-- The body of a SAMPLE (Table 7-2). -/
def sampleBody (first validity : Byte) (ps : Vector (BitVec 16) 8) (fs : Vector Byte 8) : List Byte :=
  [first, validity] ++ ps.toList.flatMap (fun p => toBytes 2 p.toNat) ++ fs.toList

theorem length_flatMap_toBytes (k : Nat) (ps : List (BitVec 16)) :
    (ps.flatMap fun p => toBytes k p.toNat).length = k * ps.length := by
  induction ps with
  | nil => rfl
  | cons p ps ih =>
    rw [List.flatMap_cons, List.length_append, toBytes_length, ih, List.length_cons, Nat.mul_succ, Nat.add_comm]

theorem sampleBody_length (first validity : Byte) (ps : Vector (BitVec 16) 8) (fs : Vector Byte 8) :
    (sampleBody first validity ps fs).length = 26 := by
  unfold sampleBody
  rw [List.length_append, List.length_append, length_flatMap_toBytes, Vector.length_toList, Vector.length_toList]
  rfl

theorem classifyField_sample (p : Nat) (h : Header) (body : List Byte) (s : State) :
    classifyField p (arrived h Kind.sample body) s =
      coreCopy (entryFor s .field (arrived h Kind.sample body)) (arrived h Kind.sample body) (oprSample p body s) := by
  unfold classifyField
  simp only [kindOf_arrived Kind.sample (by decide)]
  rfl

/-- The slots of a SAMPLE of an ACTIVE offtake station, taken in order. -/
theorem oprSample_active {p : Nat} {body : List Byte} {s : State} (hc : (pollEntry s p).cls = .os)
    (ha : (station s p).state = .active) :
    oprSample p body s =
      (slotsOf body).foldl
        (fun v q =>
          if slotTaken v (pollEntry s p).inst q.k ((body.getD 0 0).toNat + q.k) q.valid q.feedback then
            sampleSlot ((body.getD 0 0).toNat + q.k) q.feedback q.pressure v
          else v) s :=
  if_neg (by simp [hc, ha])

/-- The SAMPLE of an ACTIVE station goes to the regulator, and the copy and the round's end follow. -/
theorem exec_sample {h : Header} {first validity : Byte} {ps : Vector (BitVec 16) 8} {fs : Vector Byte 8} {s : State}
    {x : Exchange} (hx : Awaits s x) (hs : h.source.toNat = (pollEntry s x.position).address)
    (ha : (station s x.position).state = .active) :
    let body := sampleBody first validity ps fs
    let u := arrived h Kind.sample body
    exec (.sample h first validity ps fs) s =
      .next (roundOn (coreCopy (entryFor s .field u) u (oprSample x.position body (taken s x)))) := by
  intro body u
  have hr : framed u = true := by
    refine framed_arrived h _ _ (by decide) ?_ ?_
    · rw [sampleBody_length]
      decide
    · rw [sampleBody_length]
      rfl
  rw [exec_active_reply (c := .sample h first validity ps fs) rfl hx (decide_eq_true hs) hr ha, classifyField_sample,
    entryFor_kept (taken_touches s x)]
  rfl

/-! ## The mismatch test (R128) -/

theorem disagrees_iff {fb v : Nat} : disagrees fb v = true ↔ 100 < ((fb * 5 : Int) - v).natAbs := decide_eq_true_iff

section
variable {n fb : Nat} {s : State}

theorem oprMismatch_hold (h : (regRec s n).hold = true) : oprMismatch n fb s = s := if_pos h

theorem oprMismatch_dirty (h : (regRec s n).hold = false) (hd : isDirty s (servingStation s n) = true) :
    oprMismatch n fb s = setRegRec n { regRec s n with mismatches := 0 } s :=
  (if_neg (ne_true_of_eq_false h)).trans (if_pos hd)

theorem oprMismatch_agrees (h : (regRec s n).hold = false) (hd : isDirty s (servingStation s n) = false)
    (ho : ¬ disagrees fb (regRec s n).valve = true) :
    oprMismatch n fb s = setRegRec n { regRec s n with mismatches := 0, mismatchReported := false } s :=
  (if_neg (ne_true_of_eq_false h)).trans ((if_neg (ne_true_of_eq_false hd)).trans (if_neg ho))

/-- The count that reaches 3 is reported once. -/
theorem oprMismatch_reports (h : (regRec s n).hold = false) (hd : isDirty s (servingStation s n) = false)
    (ho : disagrees fb (regRec s n).valve = true) (hc : min 3 ((regRec s n).mismatches + 1) = 3)
    (hr : (regRec s n).mismatchReported = false) :
    oprMismatch n fb s =
      raise .valveMismatch n (servingAddress s n) (regRec s n).valve
        (setRegRec n { regRec s n with mismatches := 3, mismatchReported := true } s) := by
  unfold oprMismatch
  simp only [h, hd, ho, hc, hr]
  rfl

/-- A count below 3, or one reported before, is kept alone. -/
theorem oprMismatch_counts (h : (regRec s n).hold = false) (hd : isDirty s (servingStation s n) = false)
    (ho : disagrees fb (regRec s n).valve = true)
    (hq : min 3 ((regRec s n).mismatches + 1) ≠ 3 ∨ (regRec s n).mismatchReported = true) :
    oprMismatch n fb s =
      setRegRec n { regRec s n with mismatches := min 3 ((regRec s n).mismatches + 1) } s := by
  have hdue : (decide (min 3 ((regRec s n).mismatches + 1) = 3) && !(regRec s n).mismatchReported) = false := by
    rcases hq with hc | hr
    · simp [hc]
    · simp [hr]
  unfold oprMismatch
  simp only [h, hd, ho, hdue, Bool.or_false]
  rfl

end

/-! ## The pressure of a slot (R116, R117) -/

/-- A record whose window takes a sample: the oldest of five leaves it, the average follows, the update counter
rises. -/
def withSample (c : RegConfig) (p : Int) (r : RegRecord) : RegRecord :=
  let window := (p :: r.window).take 4
  { r with window := window, average := averageOf c window r.average, updates := r.updates + 1 }

theorem isShut_iff {m : PressureMode} : isShut m = true ↔ m = .out ∨ m = .isolated := by
  cases m <;> decide

section
variable {n : Nat} {p : Int} {s : State}

theorem oprPressure_hold (h : (regRec s n).hold = true) :
    oprPressure n p s = setRegRec n { regRec s n with hold := false } s := if_pos h

theorem oprPressure_shut (h : (regRec s n).hold = false) (hm : isShut (regRec s n).mode = true) :
    oprPressure n p s = s :=
  (if_neg (ne_true_of_eq_false h)).trans (if_pos hm)

theorem oprPressure_enters (h : (regRec s n).hold = false) (hm : ¬ isShut (regRec s n).mode = true)
    (hi : (regRec s n).updates + 1 < s.opr.config.interval) :
    oprPressure n p s = setRegRec n (withSample s.opr.config p (regRec s n)) s :=
  (if_neg (ne_true_of_eq_false h)).trans ((if_neg hm).trans (if_neg (Nat.not_le.mpr hi)))

theorem oprPressure_updates (h : (regRec s n).hold = false) (hm : ¬ isShut (regRec s n).mode = true)
    (hi : s.opr.config.interval ≤ (regRec s n).updates + 1) :
    let t := oprUpdate n (setRegRec n (withSample s.opr.config p (regRec s n)) s)
    oprPressure n p s = setRegRec n { regRec t n with updates := 0 } t :=
  (if_neg (ne_true_of_eq_false h)).trans ((if_neg hm).trans (if_pos hi))

end

/-! ## A step (R123, R124) -/

/-- The limit counter after one more update held at a bound in a direction: afresh where the direction is another. -/
def limitCountAfter (limit : Nat) (dir : LimitDir) (r : RegRecord) : Nat :=
  min limit ((if r.limitDir = some dir then r.limitCount else 0) + 1)

/-- The limit has been reported in a direction. -/
def limitSaid (dir : LimitDir) (r : RegRecord) : Bool := if r.limitDir = some dir then r.limitReported else false

theorem limitSaid_iff {dir : LimitDir} {r : RegRecord} :
    limitSaid dir r = true ↔ r.limitDir = some dir ∧ r.limitReported = true := by
  simp [limitSaid]

/-- A record after one more update held at a bound in a direction. -/
def heldAtLimit (limit : Nat) (dir : LimitDir) (reported : Bool) (r : RegRecord) : RegRecord :=
  { r with limitCount := limitCountAfter limit dir r, limitDir := some dir, limitReported := reported }

/-- The event of a limit reached in a direction. -/
def limitEvent : LimitDir → EventKind
  | .high => .pressureHigh
  | .low => .pressureLow

theorem limitEvent_stepDir (e : Int) : limitEvent (stepDir e) = if 0 < e then .pressureHigh else .pressureLow := by
  unfold stepDir
  split <;> rfl

/-- The position that a step for an error aims at, from a record. -/
def valveAfter (s : State) (e : Int) (r : RegRecord) : Nat := stepTo s.opr.config (modeEntry s r.mode) e r.valve

section
variable {n : Nat} {e avg : Int} {s : State} {r : RegRecord} (hr : regRec s n = r)
include hr

/-- The count, and the report where one is due. -/
theorem countLimit_eq :
    let dir := stepDir e
    let limit := s.opr.config.limit
    let due := decide (limit ≤ limitCountAfter limit dir r) && !limitSaid dir r
    let t := setRegRec n (heldAtLimit limit dir (limitSaid dir r || due) r) s
    countLimit n e avg s = if due then raise (limitEvent dir) n (servingAddress s n) avg t else t := by
  subst hr
  have hsaid : limitSaid (stepDir e) (regRec s n) =
      (decide ((regRec s n).limitDir = some (stepDir e)) && (regRec s n).limitReported) := by
    rw [Bool.eq_iff_iff, limitSaid_iff, Bool.and_eq_true, decide_eq_true_iff]
  simp only [hsaid]
  rfl

/-- A limit reported before in this direction, or not reached, is counted alone. -/
theorem countLimit_counts
    (h : limitSaid (stepDir e) r = true ∨ limitCountAfter s.opr.config.limit (stepDir e) r < s.opr.config.limit) :
    countLimit n e avg s =
      setRegRec n (heldAtLimit s.opr.config.limit (stepDir e) (limitSaid (stepDir e) r) r) s := by
  have hdue : (decide (s.opr.config.limit ≤ limitCountAfter s.opr.config.limit (stepDir e) r) &&
      !limitSaid (stepDir e) r) = false := by
    rcases h with hs | hc
    · rw [hs]
      exact Bool.and_false _
    · rw [decide_eq_false (Nat.not_le.mpr hc)]
      rfl
  rw [countLimit_eq hr, hdue, Bool.or_false, if_neg nofun]

/-- The limit is reported when the counter reaches it. -/
theorem countLimit_reports (hs : limitSaid (stepDir e) r = false)
    (hc : s.opr.config.limit ≤ limitCountAfter s.opr.config.limit (stepDir e) r) :
    countLimit n e avg s =
      raise (limitEvent (stepDir e)) n (servingAddress s n) avg
        (setRegRec n (heldAtLimit s.opr.config.limit (stepDir e) true r) s) := by
  rw [countLimit_eq hr, hs, decide_eq_true hc]
  rfl

/-- A step that moves the valve marks the image (R127). -/
theorem oprStep_moves (h : valveAfter s e r ≠ r.valve) :
    oprStep n e avg s =
      markDirty (servingStation s n) (setRegRec n { clearLimit r with valve := valveAfter s e r } s) := by
  subst hr
  exact (if_neg h).trans (if_neg h)

theorem oprStep_held (h : valveAfter s e r = r.valve) : oprStep n e avg s = countLimit n e avg s := by
  subst hr
  exact if_pos h

end

/-! ## The update (R121, R123) -/

/-- An average belongs to one of the 128 ovens. -/
theorem range_of_average {m : Nat} {avg : Int} {s : State} (h : (regRec s m).average = some avg) :
    1 ≤ m ∧ m ≤ 128 := by
  unfold regRec readNum readAt at h
  by_cases h0 : m = 0
  · simp [h0] at h
  by_cases h1 : m - 1 < 128
  · omega
  · simp [h0, h1] at h

/-- The target in the words of the doors' records (R121). -/
theorem targetPressure_eq (s : State) (m : Nat) :
    targetPressure s m =
      if ((doorRec s ⟨m, .ps⟩).state = .leaking ∨ (doorRec s ⟨m, .ps⟩).overdue = true) ∨
          ((doorRec s ⟨m, .cs⟩).state = .leaking ∨ (doorRec s ⟨m, .cs⟩).overdue = true) then
        max (-32768) ((modeEntry s (regRec s m).mode).target - s.opr.config.leakOffset)
      else (modeEntry s (regRec s m).mode).target := by
  unfold targetPressure drawsHarder
  simp only [Bool.or_eq_true, decide_eq_true_eq]
  rfl

/-- The state in which a step is made: the oven CORRECTING. -/
def correctingNow (m : Nat) (s : State) : State := setRegRec m { regRec s m with correcting := true } s

/-- Writing back the record that stands there changes nothing. -/
theorem setRegRec_regRec (m : Nat) (s : State) : setRegRec m (regRec s m) s = s := by
  have h : writeNum s.opr.records m (regRec s m) = s.opr.records := by
    unfold writeNum regRec readNum
    split
    · rfl
    · exact writeAt_readAt _ _ _
  unfold setRegRec State.onOpr
  dsimp only
  rw [h]

theorem correctingNow_of_correcting {m : Nat} {s : State} (h : (regRec s m).correcting = true) :
    correctingNow m s = s := by
  have hr : { regRec s m with correcting := true } = regRec s m := by rw [← h]
  unfold correctingNow
  rw [hr, setRegRec_regRec]

theorem regRec_correctingNow {m : Nat} {s : State} (hm : 1 ≤ m ∧ m ≤ 128) :
    regRec (correctingNow m s) m = { regRec s m with correcting := true } :=
  (regRec_setRegRec _ _ _ _).trans (if_pos ⟨rfl, hm⟩)

theorem setRegRec_correctingNow (m : Nat) (r : RegRecord) (s : State) :
    setRegRec m r (correctingNow m s) = setRegRec m r s := setRegRec_setRegRec _ _ _ _

section
variable {m : Nat} {avg : Int} {s : State} (ha : (regRec s m).average = some avg)
include ha

/-- An oven that its mode does not regulate, or that is frozen, is left as it is. -/
theorem oprUpdate_still (h : (modeEntry s (regRec s m).mode).regulate = false ∨ (ovenRec s m).freeze = true) :
    oprUpdate m s = s := by
  have hs : (!(modeEntry s (regRec s m).mode).regulate || (ovenRec s m).freeze) = true := by simpa using h
  unfold oprUpdate
  extract_lets r
  rw [show r.average = some avg from ha]
  exact if_pos hs

variable (hr : ¬ ((modeEntry s (regRec s m).mode).regulate = false ∨ (ovenRec s m).freeze = true))
include hr

/-- An update that is not left out: the two bands, and the step. -/
theorem oprUpdate_regulated :
    let e := avg - targetPressure s m
    oprUpdate m s =
      if (regRec s m).correcting then
        if e.natAbs ≤ s.opr.config.stable then setRegRec m { clearLimit (regRec s m) with correcting := false } s
        else oprStep m e avg s
      else if s.opr.config.wide < e.natAbs then oprStep m e avg (correctingNow m s)
      else s := by
  have hs : (!(modeEntry s (regRec s m).mode).regulate || (ovenRec s m).freeze) = false := by
    simpa using hr
  intro e
  unfold oprUpdate
  extract_lets r
  split
  · next h => exact absurd (ha.symm.trans h) nofun
  · next a h =>
    obtain rfl := Option.some.inj (ha.symm.trans h)
    exact if_neg (ne_true_of_eq_false hs)

/-- Beyond the band of its state an oven makes a step, CORRECTING. -/
theorem oprUpdate_steps
    (hw : (regRec s m).correcting = false → s.opr.config.wide < (avg - targetPressure s m).natAbs)
    (hb : (regRec s m).correcting = true → s.opr.config.stable < (avg - targetPressure s m).natAbs) :
    oprUpdate m s = oprStep m (avg - targetPressure s m) avg (correctingNow m s) := by
  refine (oprUpdate_regulated ha hr).trans ?_
  cases hc : (regRec s m).correcting with
  | false => rw [if_neg nofun, if_pos (hw hc)]
  | true => rw [if_pos rfl, if_neg (Nat.not_le.mpr (hb hc)), correctingNow_of_correcting hc]

theorem oprUpdate_within_wide (hc : (regRec s m).correcting = false)
    (hw : (avg - targetPressure s m).natAbs ≤ s.opr.config.wide) : oprUpdate m s = s :=
  (oprUpdate_regulated ha hr).trans
    ((if_neg (ne_true_of_eq_false hc)).trans (if_neg (Nat.not_lt.mpr hw)))

theorem oprUpdate_within_stable (hc : (regRec s m).correcting = true)
    (hb : (avg - targetPressure s m).natAbs ≤ s.opr.config.stable) :
    oprUpdate m s = setRegRec m { clearLimit (regRec s m) with correcting := false } s :=
  (oprUpdate_regulated ha hr).trans ((if_pos hc).trans (if_pos hb))

end

section
variable {m : Nat} {e avg : Int} {s : State} (hm : 1 ≤ m ∧ m ≤ 128)
include hm

theorem oprStep_correctingNow_moves (h : valveAfter s e (regRec s m) ≠ (regRec s m).valve) :
    oprStep m e avg (correctingNow m s) =
      markDirty (servingStation s m) (setRegRec m
        { clearLimit (regRec s m) with correcting := true, valve := valveAfter s e (regRec s m) } s) := by
  rw [oprStep_moves (regRec_correctingNow hm) h, setRegRec_correctingNow]
  rfl

theorem oprStep_correctingNow_counts (h : valveAfter s e (regRec s m) = (regRec s m).valve)
    (hq : limitSaid (stepDir e) (regRec s m) = true ∨
      limitCountAfter s.opr.config.limit (stepDir e) (regRec s m) < s.opr.config.limit) :
    oprStep m e avg (correctingNow m s) =
      setRegRec m
        { heldAtLimit s.opr.config.limit (stepDir e) (limitSaid (stepDir e) (regRec s m)) (regRec s m) with
          correcting := true } s := by
  have hr := regRec_correctingNow (s := s) hm
  rw [oprStep_held hr h, countLimit_counts hr hq, setRegRec_correctingNow]
  rfl

theorem oprStep_correctingNow_reports (h : valveAfter s e (regRec s m) = (regRec s m).valve)
    (hs : limitSaid (stepDir e) (regRec s m) = false)
    (hc : s.opr.config.limit ≤ limitCountAfter s.opr.config.limit (stepDir e) (regRec s m)) :
    oprStep m e avg (correctingNow m s) =
      raise (limitEvent (stepDir e)) m (servingAddress s m) avg
        (setRegRec m
          { heldAtLimit s.opr.config.limit (stepDir e) true (regRec s m) with correcting := true } s) := by
  have hr := regRec_correctingNow (s := s) hm
  rw [oprStep_held hr h, countLimit_reports hr hs hc, setRegRec_correctingNow]
  rfl

end

end Sys2Proof.Machine

open Sys2Proof Sys2Proof.Machine

/-- Settles O6: no footprint names the law of the valves, which does not read the queue of commands. -/
theorem valvesStayWithinTheirLimits : Obligations.ValvesStayWithinTheirLimits := fun _ _ h hs =>
  step_keeps .valveLaw (fun _ _ => Iff.rfl) (by decide) (fun _ _ => id) h hs

/-- Settles O48: the average is the floor of R117, which its two inequalities single out. -/
theorem averageIsTheRoundedMean : Obligations.AverageIsTheRoundedMean := by
  refine ⟨fun c window old h => ⟨_, averageOf_weighted h old, mul_floor_bounds (by omega) _⟩,
    fun _ _ old h => averageOf_weightless h old, fun _ => ⟨rfl, rfl⟩, fun n => ?_, fun _ _ h => oprUpdate_absent h⟩
  rw [regRec_reset]

/-- Settles O40: the reply as taken leaves the poll list and the station ACTIVE, so its slots are taken in order; the
mismatch test, the pressure and the update go through the cases of their lemmas, a step on the record made
CORRECTING. -/
theorem samplesAreTakenSlotBySlot : Obligations.SamplesAreTakenSlotBySlot := by
  refine ⟨fun h first validity ps fs s x hx hs ha hc => ?_, fun _ _ _ _ _ _ => slotTaken_iff, fun m fb p s => ?_,
    fun m avg s ha => ?_⟩
  · intro u inst
    have hp : pollEntry (taken s x) x.position = pollEntry s x.position := (taken_touches s x).pollEntry_kept _
    have hj : afterReply s x u = taken s x := afterReply_not_joining hx (by rw [ha]; nofun)
    rw [hj, exec_sample hx hs ha, oprSample_active (hp ▸ hc) (taken_active hx ha), hp]
    rfl
  · intro b r image off count t
    refine ⟨oprMismatch m fb b, oprMismatch_hold, oprMismatch_dirty,
      fun hh hi ho => oprMismatch_agrees hh hi (mt disagrees_iff.mp ho),
      fun hh hi ho hc hr => oprMismatch_reports hh hi (disagrees_iff.mpr ho) hc hr,
      fun hh hi ho hq => oprMismatch_counts hh hi (disagrees_iff.mpr ho) hq, ?_⟩
    intro q window v
    refine ⟨oprPressure_hold, fun hh hm => oprPressure_shut hh (isShut_iff.mpr hm), fun hh ho hi => ?_⟩
    have hm : ¬ isShut q.mode = true := fun k => (isShut_iff.mp k).elim ho hi
    exact ⟨oprPressure_enters hh hm, oprPressure_updates hh hm⟩
  · intro r mode c harder target e still size valve dir same said count
    have he : avg - targetPressure s m = e := congrArg (avg - ·) (targetPressure_eq s m)
    have hm := range_of_average ha
    refine ⟨oprUpdate_still ha, fun hn hc hw => ?_, fun hn hc hb => ?_, fun hn hw hb => ?_⟩
    · exact oprUpdate_within_wide ha hn hc (he ▸ hw)
    · exact oprUpdate_within_stable ha hn hc (he ▸ hb)
    have hu : oprUpdate m s = oprStep m e avg (correctingNow m s) := by
      rw [oprUpdate_steps ha hn (he ▸ hw) (he ▸ hb), he]
    refine ⟨fun hv => ?_, fun hv hq => ?_, fun hv hq hc => ?_⟩
    · exact hu.trans (oprStep_correctingNow_moves hm hv)
    · exact hu.trans (oprStep_correctingNow_counts hm hv (hq.imp_left limitSaid_iff.mpr))
    · rw [← limitEvent_stepDir]
      exact hu.trans (oprStep_correctingNow_reports hm hv (Bool.eq_false_iff.mpr (mt limitSaid_iff.mp hq)) hc)
end

section
/-!
SUPPORT. The two ports: the bytes of a telegram through the receiver, the line events, the discards, and the forming of
a poll.
-/

set_option Elab.async false
namespace Sys2Proof.Machine

open Sys2Proof

/-! ## Framing the bytes of a telegram (R131 to R135) -/

/-- A byte as a fault-free line brings it: good parity, no gap before it. -/
def cleanByte (v : Byte) : LineByte := ⟨v, true, 0⟩

/-- Of the tests on a single byte, only the one on the length byte can fail a clean byte (R132). -/
theorem byteFault_cleanByte {n : Nat} {v : Byte} (window : Nat) (h : n = 4 → v.toNat ≤ 48) :
    byteFault window n (cleanByte v) = none := by
  have hlen : ¬ (n = 4 && v.toNat > 48) = true := by simpa using h
  exact (if_neg (by simp [cleanByte])).trans ((if_neg (by simp [cleanByte])).trans (if_neg hlen))

section
variable {window : Nat} {acc : List Byte} {v : Byte} {line : List LineByte}

/-- A clean byte before the last is taken, and assembly goes on (R131). -/
theorem frame_cleanByte_more (hv : acc.length + 1 = 4 → v.toNat ≤ 48)
    (hmore : ¬ (4 ≤ (acc ++ [v]).length ∧ (acc ++ [v]).length = 6 + ((acc ++ [v]).getD 3 0).toNat)) :
    frame window acc (cleanByte v :: line) = frame window (acc ++ [v]) line := by
  rw [frame, byteFault_cleanByte window hv]
  exact if_neg hmore

/-- The last clean byte brings the tests on the whole telegram (R133, R135). -/
theorem frame_cleanByte_last {t : Telegram} (hv : acc.length + 1 = 4 → v.toNat ≤ 48)
    (hlast : 4 ≤ (acc ++ [v]).length ∧ (acc ++ [v]).length = 6 + ((acc ++ [v]).getD 3 0).toNat)
    (ht : wholeTelegram (acc ++ [v]) = .ok t) : frame window acc (cleanByte v :: line) = .complete t line := by
  rw [frame, byteFault_cleanByte window hv]
  refine (if_pos hlast).trans ?_
  dsimp only [cleanByte]
  rw [ht]

end

section
variable {t : Telegram} {bytes more : List Byte}

/-- Once four bytes of a telegram have come, the fourth gives the length of its body. -/
theorem lengthByte_of_four (ht : bytes ++ more = tailBytes t) (hb : t.body.length ≤ 48) (h4 : 4 ≤ bytes.length) :
    (bytes.getD 3 0).toNat = t.body.length := by
  have hd : (bytes ++ more).getD 3 0 = bytes.getD 3 0 := by
    rw [List.getD_eq_getElem?_getD, List.getD_eq_getElem?_getD, List.getElem?_append_left h4]
  rw [← hd, ht, tailBytes_third t hb]

/-- The receiver has the whole telegram exactly when no byte of it is still to come. -/
theorem hasWholeTelegram_iff (ht : bytes ++ more = tailBytes t) (hb : t.body.length ≤ 48) :
    (4 ≤ bytes.length ∧ bytes.length = 6 + (bytes.getD 3 0).toNat) ↔ more = [] := by
  have hlen : bytes.length + more.length = 6 + t.body.length := by
    rw [← List.length_append, ht, tailBytes_length]
  rw [← List.length_eq_zero_iff]
  constructor
  · rintro ⟨h4, hn⟩
    rw [lengthByte_of_four ht hb h4] at hn
    omega
  · intro hmore
    have h4 : 4 ≤ bytes.length := by omega
    rw [lengthByte_of_four ht hb h4]
    omega

/-- However many bytes of a framed telegram have come, those still to come complete it, and leave what follows them. -/
theorem frame_rest_of_telegram (window : Nat) (line : List LineByte) (hf : framed t = true) (hne : more ≠ [])
    (ht : bytes ++ more = tailBytes t) :
    frame window bytes (more.map cleanByte ++ line) = .complete t line := by
  have hb : t.body.length ≤ 48 := of_decide_eq_true (Bool.and_eq_true_iff.mp hf).1
  induction more generalizing bytes with
  | nil => exact absurd rfl hne
  | cons v more ih =>
    have hnext : (bytes ++ [v]) ++ more = tailBytes t := by simpa using ht
    have hv : bytes.length + 1 = 4 → v.toNat ≤ 48 := by
      intro h3
      have hlen := lengthByte_of_four hnext hb (by simp [h3])
      have hd : (bytes ++ [v]).getD 3 0 = v := by simp [show bytes.length = 3 by omega]
      rw [hd] at hlen
      omega
    have hwhole := hasWholeTelegram_iff hnext hb
    by_cases hm : more = []
    · subst hm
      refine frame_cleanByte_last hv (hwhole.mpr rfl) ?_
      rw [← List.append_nil (bytes ++ [v]), hnext]
      exact wholeTelegram_tailBytes t hf
    · exact (frame_cleanByte_more hv (mt hwhole.mp hm)).trans (ih hm hnext)

end

/-! ## The transmitter (R141) -/

theorem onCpi_congr {f g : ControlPort → ControlPort} {s : State} (h : f s.cpi = g s.cpi) : s.onCpi f = s.onCpi g :=
  congrArg (fun c => { s with cpi := c }) h

theorem startTransmitter_empty {c : ControlPort} (hq : c.queue = []) : startTransmitter c = c := by
  unfold startTransmitter
  rw [hq]
  cases c.sending <;> rfl

theorem transmitDone_empty {s : State} (hq : s.cpi.queue = []) :
    transmitDone s = s.onCpi fun c => { c with sending := none } :=
  onCpi_congr (startTransmitter_empty hq)

theorem transmitDone_head {s : State} {i : QueueItem} {rest : List QueueItem} (hq : s.cpi.queue = i :: rest) :
    transmitDone s = s.onCpi fun c => { c with sending := some i.telegram, queue := rest } :=
  onCpi_congr (startTransmitter_free (c := { s.cpi with sending := none }) rfl hq)

/-! ## Discards (R131, R132, R146) -/

theorem framingDiscard_control {line : List LineByte} {why : FramingFault} {last : LineByte}
    (hf : frame controlGapWindow [] line = .discarded why last []) (s : State) :
    framingDiscard .control line s = controlDiscard (startsAssembly last) s := by
  unfold framingDiscard
  dsimp only
  rw [hf]

/-- The gap window of the exchange is the one in force (R161). -/
theorem framingDiscard_field {s : State} {x : Exchange} {line : List LineByte} {why : FramingFault} {last : LineByte}
    (hl : s.fpi.line = .awaiting) (hx : s.fpl.exchange = some x) (hf : frame x.gap [] line = .discarded why last []) :
    framingDiscard .field line s = fieldDiscard s := by
  have hg : fieldGap s = x.gap := by
    unfold fieldGap
    rw [hx]
  unfold framingDiscard
  dsimp only
  rw [if_pos hl, hg, hf]

theorem gapExpiry_field {s : State} (hl : s.fpi.line = .awaiting) (ha : s.fpi.assembling = true) :
    gapExpiry .field s = fieldDiscard s :=
  if_pos (by rw [hl, ha]; rfl)

/-! ## Polls (R165) -/

/-- A turn that is taken is the next one. -/
theorem nextTurn_self {s : State} {p : Nat} (hp : p < s.fpl.length) (ht : takesTurn s p = true) :
    nextTurn s p = some p :=
  find_sorted _ _ _ ht List.pairwise_lt_range (List.mem_range.mpr hp)

/-- A round that stands at a station whose turn it is stays there. -/
theorem roundOn_self {s : State} {p : Nat} (hr : s.fpl.round = some p) (hp : p < s.fpl.length)
    (ht : takesTurn s p = true) : roundOn s = s := by
  unfold roundOn
  rw [hr]
  dsimp only
  rw [nextTurn_self hp ht]
  dsimp only [State.onFpl]
  rw [← hr]

theorem pollTurn_self {s : State} {p : Nat} (hl : s.fpi.line = .idle) (hr : s.fpl.round = some p)
    (hp : p < s.fpl.length) (ht : takesTurn s p = true) : pollTurn s = formPoll p s := by
  unfold pollTurn
  rw [if_pos hl, roundOn_self hr hp ht]
  dsimp only
  rw [hr]

/-- The exchange that a formed poll begins carries the item that waits, with the telegram of that item. -/
theorem formPoll_begins (p : Nat) (s : State) :
    (formPoll p s).fpi.line = .sending ∧ (formPoll p s).fpl.round = some (p + 1) ∧
      ∃ x, (formPoll p s).fpl.exchange = some x ∧ x.position = p ∧ x.void = false ∧ x.item = pollItem s p ∧
        x.poll = pollTelegram s p (pollItem s p) :=
  ⟨rfl, rfl, _, rfl, rfl, rfl, rfl, rfl⟩

theorem pollItem_active {s : State} {p : Nat} (h : (station s p).state = .active) :
    pollItem s p =
      if haltWaits s p then .halt else if (outbound s p).answer.isSome then .answer
      else if (outbound s p).order.isSome then .order
      else if imageWaits s p then .valve (pollEntry s p).inst
      else .bare := by
  unfold pollItem
  dsimp only
  rw [h]
  rfl

theorem pollItem_joining {s : State} {p : Nat} (h : (station s p).state = .joining) :
    pollItem s p = if haltWaits s p then .halt else .bare := by
  unfold pollItem
  dsimp only
  rw [h]
  rfl

theorem pollItem_out {s : State} {p : Nat} (h : (station s p).state = .absent ∨ (station s p).state = .lost) :
    pollItem s p = .bare := by
  unfold pollItem
  dsimp only
  rcases h with h | h <;> rw [h]

end Sys2Proof.Machine

open Sys2Proof Sys2Proof.Machine

/-- Settles O8: no footprint names the law of the queue, which an offered item (`queueAfter_law`) and the taking of its
head (`startTransmitter_law`) keep, and which does not read the queue of commands. -/
theorem transmitQueueStaysLawful : Obligations.TransmitQueueStaysLawful := fun _ _ h hs =>
  step_keeps .queueLaw (fun _ _ => Iff.rfl) (by decide) (fun _ _ => id) h hs

/-- Settles O19: the receiver starts with no byte of the telegram, all of which are still to come. -/
theorem telegramBytesFrameBack : Obligations.TelegramBytesFrameBack := fun window t rest hf =>
  have hne : tailBytes t ≠ [] := List.ne_nil_of_length_pos (by rw [tailBytes_length]; omega)
  frame_rest_of_telegram (bytes := []) window rest hf hne rfl

/-- Settles O31: the round stands at the station in turn, so its poll is formed; the item follows from the station's
state. -/
theorem pollCarriesTheItemThatWaits : Obligations.PollCarriesTheItemThatWaits := by
  refine ⟨fun s p hl hr hp ht => ?_, fun _ _ => ⟨pollItem_active, pollItem_joining, pollItem_out⟩⟩
  obtain ⟨hline, hround, x, hx, hpos, hvoid, hitem, hpoll⟩ := formPoll_begins p s
  exact ⟨formPoll p s, x, congrArg _ (pollTurn_self hl hr hp ht), hline, hx, hpos, hvoid, hitem, hitem ▸ hpoll,
    hround⟩

/-- Settles O32: on its line state each event is its one write; what the transmitter does turns on the queue. -/
theorem lineEventsMoveTheLines : Obligations.LineEventsMoveTheLines :=
  ⟨fun _ hl => congrArg _ (if_pos hl), fun _ => rfl, fun _ hl => congrArg _ (if_pos hl),
    fun _ hq => congrArg _ (transmitDone_empty hq), fun _ _ _ hq => congrArg _ (transmitDone_head hq)⟩

/-- Settles O33: each failing telegram is a discard of its port; on the field port the missed exchange that follows
counts no further one (`fieldDiscard_discards`). -/
theorem failedTelegramsAreCounted : Obligations.FailedTelegramsAreCounted := by
  refine ⟨fun s ha => ?_, fun s line why last hf => ?_, fun s hl ha => ?_, fun s x line why last hx hf => ?_⟩
  · exact congrArg Host.Outcome.next (if_pos ha)
  · exact congrArg Host.Outcome.next (framingDiscard_control hf s)
  · exact ⟨fieldDiscard s, congrArg _ (gapExpiry_field hl ha), fieldDiscard_discards s⟩
  · obtain ⟨hl, he, _, _⟩ := hx
    exact ⟨fieldDiscard s, congrArg _ (framingDiscard_field hl he hf), fieldDiscard_discards s⟩

/-- Settles O2: each arm of the dispatch is a meaning that ends in a next state, and none refuses. -/
theorem everyCommandAnswersNext : Obligations.EveryCommandAnswersNext := by
  intro c s
  cases c <;> exact ⟨_, rfl⟩
end

section
/-!
SUPPORT. Where a telegram goes by its class: a reply to the classifier (R167), a field telegram by its dispatch entry
(R152, R153), and a broadcast HALT to every station of the poll list (R158).
-/

set_option Elab.async false
namespace Sys2Proof.Machine

open Sys2Proof

/-! ## Replies of any station state (R167) -/

/-- The exchange is over once its reply has been classified: neither the classifier nor the round's end takes up the
line. -/
theorem takenReply_line (s : State) (x : Exchange) (u : Telegram) :
    (roundOn (if passedOn (afterReply s x u) x.position u then classifyField x.position u (afterReply s x u)
      else afterReply s x u)).fpi.line = .idle := by
  rw [roundOn_line]
  split
  · rw [classifyField_line, afterReply_line]
  · exact afterReply_line s x u

/-! ## Field telegrams of another kind (R152, R153) -/

theorem entryIndex_kept {l : List Aspect} {s t : State} (k : Touches l s t) (port : Port) (u : Telegram)
    (ha : Aspect.classifier ∉ l := by decide) : entryIndex t port u = entryIndex s port u := by
  unfold entryIndex selectorOf
  rw [k.classifier_kept ha]

/-- A kind outside the six reports has no fixed handler. -/
theorem classifyField_other {u : Telegram} (h : ¬ (Kind.position ≤ kindOf u ∧ kindOf u ≤ Kind.ready)) (p : Nat)
    (s : State) : classifyField p u s = fieldOther p u s := by
  have outside (k : Nat) (hk : Kind.position ≤ k ∧ k ≤ Kind.ready) : kindOf u ≠ k := fun e => h (e ▸ hk)
  unfold classifyField
  dsimp only
  rw [if_neg (outside Kind.position (by decide)), if_neg (outside Kind.request (by decide)),
    if_neg (outside Kind.done (by decide)), if_neg (outside Kind.seal (by decide)),
    if_neg (outside Kind.sample (by decide)), if_neg (outside Kind.ready (by decide))]

section
variable {p : Nat} {u : Telegram} {s : State}

theorem fieldOther_pass (h : (entryFor s .field u).action = .pass) : fieldOther p u s = queueCopy u s := by
  simp [fieldOther, h]

theorem fieldOther_depositPass (h : (entryFor s .field u).action = .depositPass) :
    fieldOther p u s = queueCopy (deposited s (entryFor s .field u) u.source.toNat u) s := by
  simp [fieldOther, h]

theorem fieldOther_absorb (h : (entryFor s .field u).action = .absorb) :
    fieldOther p u s =
      if (entryFor s .field u).handler = .none then s
      else mismatch (entryIndex s .field u) (kindOf u) u.source.toNat s := by
  simp [fieldOther, h]

/-- Under CHECK the handler's verdict decides (R153). -/
theorem fieldOther_checkPasses (h : (entryFor s .field u).action = .check)
    (hv : verdict s .field (entryFor s .field u).handler p (kindOf u) = .passes) :
    fieldOther p u s = queueCopy u s := by
  simp [fieldOther, h, hv]

theorem fieldOther_checkRefused {why : Nat} (h : (entryFor s .field u).action = .check)
    (hv : verdict s .field (entryFor s .field u).handler p (kindOf u) = .refused why) :
    fieldOther p u s = s := by
  simp [fieldOther, h, hv]

theorem fieldOther_checkMismatch (h : (entryFor s .field u).action = .check)
    (hv : verdict s .field (entryFor s .field u).handler p (kindOf u) = .mismatch) :
    fieldOther p u s = mismatch (entryIndex s .field u) (kindOf u) u.source.toNat s := by
  simp [fieldOther, h, hv]

theorem fieldOther_drop (h : (entryFor s .field u).action = .drop) : fieldOther p u s = s := by
  simp [fieldOther, h]

end

/-! ## A HALT to broadcast (R158) -/

/-- The telegram of a broadcast as the station at a position gets it. -/
abbrev addressedTo (s : State) (p : Nat) (u : Telegram) : Telegram :=
  { u with dest := BitVec.ofNat 8 (pollEntry s p).address }

/-- The placing of a broadcast in the slot of one position. -/
def placeAt (u : Telegram) (s : State) (p : Nat) : State := putOrder p (controlOrder (addressedTo s p u)) s

theorem broadcastHalt_eq (e : DispatchEntry) (u : Telegram) (s : State) :
    broadcastHalt e u s = echo e u ((positions s).foldl (placeAt u) s) := rfl

/-- The placing in one slot leaves the others as they stand. -/
theorem placeAt_other {p q : Nat} (h : q ≠ p) (u : Telegram) (s : State) : outbound (placeAt u s q) p = outbound s p := by
  have written (o : Outbound) : outbound (setOutbound q o s) p = outbound s p := by
    rw [outbound_setOutbound, if_neg fun e => h e.1]
  unfold placeAt putOrder
  split
  · exact written _
  · split
    · exact written _
    · exact ((orderLeftUndelivered_touches _ _ _).outbound_record_kept p).trans (written _)

section
variable {u : Telegram} (hk : kindOf u = Kind.halt)
include hk

theorem placeAt_touches (s : State) (p : Nat) : Touches [.outbound, .tasks] s (placeAt u s p) :=
  putOrder_touches fun _ => decide_eq_true hk

/-- The slot of a position holds the HALT once its turn has come, and keeps it. -/
theorem placeAt_placed {p q : Nat} (hp : p < 24) {s : State} (h : q = p ∨ OrderPlaced s p (addressedTo s p u)) :
    OrderPlaced (placeAt u s q) p (addressedTo (placeAt u s q) p u) := by
  rw [show addressedTo (placeAt u s q) p u = addressedTo s p u by
    unfold addressedTo
    rw [(placeAt_touches hk s q).pollEntry_kept]]
  by_cases hq : q = p
  · rw [hq]
    exact putOrder_placed hp _ s
  · unfold OrderPlaced
    rw [placeAt_other hq]
    exact h.resolve_left hq

theorem foldl_placeAt_placed {p : Nat} (hp : p < 24) (l : List Nat) (s : State)
    (h : p ∈ l ∨ OrderPlaced s p (addressedTo s p u)) :
    OrderPlaced (l.foldl (placeAt u) s) p (addressedTo (l.foldl (placeAt u) s) p u) := by
  induction l generalizing s with
  | nil => exact h.resolve_left List.not_mem_nil
  | cons q l ih =>
    refine ih (placeAt u s q) ?_
    obtain (rfl | hm) | hplaced := h.imp_left List.mem_cons.mp
    · exact .inr (placeAt_placed hk hp (.inl rfl))
    · exact .inl hm
    · exact .inr (placeAt_placed hk hp (.inr hplaced))

/-- Every position in use gets the HALT, addressed as the poll list has it. -/
theorem broadcastHalt_placed {p : Nat} (hp : p < 24) {s : State} (hl : p < s.fpl.length) (e : DispatchEntry) :
    OrderPlaced (broadcastHalt e u s) p (addressedTo s p u) := by
  have k : Touches [.outbound, .tasks] s ((positions s).foldl (placeAt u) s) :=
    Touches.foldl _ (placeAt_touches hk) s
  have hplaced := foldl_placeAt_placed hk hp (positions s) s (.inl (List.mem_range.mpr hl))
  rw [addressedTo, k.pollEntry_kept] at hplaced
  rw [broadcastHalt_eq]
  exact orderPlaced_kept (echo_touches e u _) hplaced

theorem classifyControl_broadcastHalt {s : State} (hd : u.dest.toNat = 255) (ha : s.mgt.address ≠ 255) :
    classifyControl u s = broadcastHalt (entryFor s .control u) u s := by
  unfold classifyControl
  rw [if_neg (by rw [hd]; exact ha.symm), if_pos hd, if_pos hk]

end

theorem exec_broadcastHalt {source reason : Byte} {marked : Bool} {s : State} (ha : s.mgt.address ≠ 255) :
    let u := arrived ⟨255#8, source, marked⟩ Kind.halt [reason]
    exec (.broadcastHalt source marked reason) s =
      .next (broadcastHalt (entryFor s .control u) u (controlAccepted s)) := by
  intro u
  have hk : kindOf u = Kind.halt := kindOf_arrived _ (by decide) _ _
  have hf : framed u = true := framed_arrived _ _ _ (by decide) (Nat.le_of_ble_eq_true rfl) rfl
  have hm : ¬ (kindOf u = Kind.mgmt ∧ u.dest.toNat = s.mgt.address) := fun ⟨_, hd⟩ => ha hd.symm
  exact congrArg Host.Outcome.next ((controlArrival_classified hf hm).trans
    (classifyControl_broadcastHalt (s := controlAccepted s) hk rfl ha))

end Sys2Proof.Machine

open Sys2Proof Sys2Proof.Machine

/-- Settles O35: the reply is taken, since the line awaits it, and nothing after it takes up the line. -/
theorem repliesAreTakenAndClassified : Obligations.RepliesAreTakenAndClassified := fun _ u s x hc hx hf hr =>
  ⟨_, (exec_reply hc s).trans (congrArg _ (fieldArrival_taken hx hf hr)), takenReply_line s x u, rfl⟩

/-- Settles O43: a kind with no fixed handler goes by its entry alone, which the taken reply leaves as it was. -/
theorem otherFieldKindsFollowTheirEntry : Obligations.OtherFieldKindsFollowTheirEntry := by
  intro u s x hx hf hr ha ho v e mismatched
  have hv : taken s x = v := (afterReply_not_joining hx (by rw [ha]; nofun)).symm
  have k : Touches takenAspects s v := hv ▸ taken_touches s x
  have he : entryFor v .field u = e := entryFor_kept k u .field
  have hi : mismatch (entryIndex v .field u) (kindOf u) u.source.toNat v = mismatched := by
    rw [entryIndex_kept k]
    rfl
  have ends {t : State} (h : fieldOther x.position u v = t) :
      exec (.fieldOtherKind u) s = .next (roundOn t) := by
    rw [exec_active_reply rfl hx hf hr ha, classifyField_other ho, hv, h]
  clear_value e mismatched
  subst he hi
  refine ⟨fun h => ends (fieldOther_pass h), fun h => ends (fieldOther_depositPass h), fun h hh => ends ?_,
    fun h hh => ends ?_, fun h hp => ends (fieldOther_checkPasses h hp),
    fun _ h hp => ends (fieldOther_checkRefused h hp), fun h hp => ends (fieldOther_checkMismatch h hp),
    fun h => ends (fieldOther_drop h)⟩
  · exact (fieldOther_absorb h).trans (if_pos hh)
  · exact (fieldOther_absorb h).trans (if_neg hh)

/-- Settles O51: the HALT goes into one slot after the other, none of which a later one touches. -/
theorem broadcastHaltReachesEveryStation : Obligations.BroadcastHaltReachesEveryStation := by
  intro source marked reason s ha
  have he := exec_broadcastHalt (source := source) (marked := marked) (reason := reason) ha
  have k : Touches controlAspects s _ := exec_touches he
  have hk : kindOf (arrived ⟨255#8, source, marked⟩ Kind.halt [reason]) = Kind.halt := kindOf_arrived _ (by decide) _ _
  exact ⟨_, he, k.permits_kept, fun p hp hl => broadcastHalt_placed (s := controlAccepted s) hk hp hl _⟩
end

section
/-!
SUPPORT. The field poller: the commands that leave every waiting HALT in its slot (R164), the round timer (R166), and the
reply that ends a machine's joining (R171).
-/

set_option Elab.async false
namespace Sys2Proof.Machine

open Sys2Proof

/-! ## Waiting HALTs (R164, R167) -/

/-- Of the commands only a reply and a power-on reset may take a HALT that waits out of its slot. -/
theorem halts_not_mem_footprint {c : Instr} (hr : replyTelegram c = none) (hp : ∀ straps, c ≠ .powerOnReset straps) :
    Aspect.halts ∉ footprint c := by
  cases c
  case powerOnReset straps => exact absurd rfl (hp straps)
  case foreignReply | position | request | done | sealReport | sample | ready | fieldOtherKind => exact nomatch hr
  case broadcastOtherKind u => exact not_mem_telegramAspects _ rfl _
  case unknownStationTelegram u => exact not_mem_telegramAspects _ rfl _
  case controlOtherKind u => exact not_mem_telegramAspects _ rfl _
  case ownAddressNonMgmt u => exact not_mem_telegramAspects _ rfl _
  case gapWindowExpiry port => cases port <;> exact not_mem_of_contains rfl
  case framingDiscard port line => cases port <;> exact not_mem_of_contains rfl
  case preambleStartsAssembly port => cases port <;> exact not_mem_of_contains rfl
  all_goals exact not_mem_of_contains rfl

/-! ## The round timer (R166, R161) -/

/-- What the interlock does as a round begins leaves the round's own records. -/
theorem beginRound_starts (s : State) :
    (beginRound s).fpl.roundNumber = (s.fpl.roundNumber + 1) % 4294967296 ∧ (beginRound s).fpl.owed = false ∧
      (beginRound s).fpl.timerPeriod = s.fpl.timerPeriod := by
  obtain ⟨hnumber, -, howed, hperiod⟩ := (ilkSettle_touches s
    (s.onFpl fun f => { f with roundNumber := (f.roundNumber + 1) % 4294967296, owed := false })).rounds_kept
  exact ⟨hnumber, howed, hperiod⟩

theorem roundTimer_starts {s : State} (h : s.fpl.round = none) :
    roundTimer s = beginRound (s.onFpl fun f => { f with timerPeriod := f.settings.period }) := by
  unfold roundTimer
  dsimp only [State.onFpl]
  rw [h]

theorem roundTimer_owes {s : State} {p : Nat} (h : s.fpl.round = some p) :
    roundTimer s = s.onFpl fun f => { f with timerPeriod := f.settings.period, owed := true } := by
  unfold roundTimer
  dsimp only [State.onFpl]
  rw [h]

/-! ## The second plausible report of a machine (R171) -/

/-- A plausible reply after the first one, not far from it, ends the joining. -/
theorem joinTest_joined {p : Nat} {u : Telegram} {s : State} (hk : kindOf u ≠ Kind.ready)
    (hplausible : plausible s p u = true) (hprogress : (station s p).joinProgress ≠ 0)
    (hnear : strayed (station s p) (pollEntry s p).cls (reportedPosition u.body) = false) :
    joinTest p u s = joined p s := by
  unfold joinTest
  dsimp only
  rw [if_neg hk, if_neg (by simp [hplausible]), if_neg hprogress, if_neg (by simp [hnear])]

theorem strayed_eq_false {r : StationRecord} {ref pos : Nat} (href : r.joinRef = some ref)
    (hnear : ((pos : Int) - ref).natAbs ≤ 500) (cls : StationClass) : strayed r cls pos = false := by
  unfold strayed
  rw [href]
  simp [hnear]

/-- With its second plausible reply a JOINING machine has joined when the reply has been taken (R167 item 3). -/
theorem afterReply_joined {s : State} {x : Exchange} {u : Telegram} {ref : Nat} (hx : Awaits s x)
    (hj : (station s x.position).state = .joining) (hk : kindOf u ≠ Kind.ready)
    (hplausible : plausible s x.position u = true) (hprogress : (station s x.position).joinProgress ≠ 0)
    (href : (station s x.position).joinRef = some ref)
    (hnear : ((reportedPosition u.body : Int) - ref).natAbs ≤ 500) :
    afterReply s x u = joined x.position (taken s x) := by
  have hs := taken_station hx
  have hj' : (station (taken s x) x.position).state = .joining := by rw [hs]; exact hj
  have hprogress' : (station (taken s x) x.position).joinProgress ≠ 0 := by rw [hs]; exact hprogress
  have href' : (station (taken s x) x.position).joinRef = some ref := by rw [hs]; exact href
  rw [afterReply_eq, if_pos hj']
  exact joinTest_joined hk ((plausible_kept (taken_touches s x) _ _).trans hplausible) hprogress'
    (strayed_eq_false href' hnear _)

/-- A POSITION whose station is ACTIVE once it has been taken is handled and copied, be it that which ended the joining
(R167 item 4, R151). -/
theorem exec_position_passed {h : Header} {pos : BitVec 24} {moving status : Byte} {s : State} {x : Exchange}
    (hx : Awaits s x) (hs : h.source.toNat = (pollEntry s x.position).address) :
    let body := toBytes 3 pos.toNat ++ [moving, status]
    let u := arrived h Kind.position body
    let v := afterReply s x u
    (station v x.position).state = .active →
    exec (.position h pos moving status) s =
      .next (roundOn (coreCopy (entryFor v .field u) u (handlePosition x.position body v))) := by
  intro body u v ha
  have hr : framed u = true :=
    framed_arrived h _ _ (by decide) (by simp [body, toBytes_length]) (by simp [body, toBytes_length]; rfl)
  have hpassed : passedOn v x.position u = true := by
    unfold passedOn
    rw [ha]
    rfl
  rw [exec_reply (c := .position h pos moving status) rfl, fieldArrival_taken hx (decide_eq_true hs) hr,
    if_pos hpassed, classifyField_position]

end Sys2Proof.Machine

open Sys2Proof Sys2Proof.Machine

/-- Settles O16: a reply takes no other HALT than the one its poll carries (`fieldArrival_halts`), and of the other
commands a power-on reset alone has the waiting HALTs in its footprint. -/
theorem waitingHaltsStayUntilAPollIsAnswered : Obligations.WaitingHaltsStayUntilAPollIsAnswered := by
  intro c s t p h hp hx hw
  cases hc : replyTelegram c with
  | none => exact (exec_touches h).halts_kept (halts_not_mem_footprint hc hp) p hw
  | some u =>
    obtain rfl := Host.Outcome.next.inj ((exec_reply hc s).symm.trans h)
    exact fieldArrival_halts (fun x => hx u x hc) hw

/-- Settles O30: the timer either begins the round or notes that its start is owed, as a round is in progress or not. -/
theorem roundTimerStartsARound : Obligations.RoundTimerStartsARound := by
  intro s
  refine ⟨roundTimer s, rfl, ?_⟩
  cases hr : s.fpl.round with
  | none =>
    rw [roundTimer_starts hr]
    obtain ⟨hnumber, howed, hperiod⟩ :=
      beginRound_starts (s.onFpl fun f => { f with timerPeriod := f.settings.period })
    exact ⟨hperiod, fun _ => ⟨hnumber, howed⟩, fun hn => absurd rfl hn⟩
  | some p =>
    rw [roundTimer_owes hr]
    exact ⟨rfl, nofun, fun _ => ⟨rfl, hr, rfl⟩⟩

/-- Settles O42: the machine joins as its reply is taken (`afterReply_joined`); the handling of the report and the round's
end leave the state of its station and the count. -/
theorem joiningMachinesBecomeActive : Obligations.JoiningMachinesBecomeActive := by
  intro h pos moving status s x ref hx hs hj _ hprogress href hnear hplausible
  have hp : x.position < 24 := hx.2.2.2
  let body := toBytes 3 pos.toNat ++ [moving, status]
  let u := arrived h Kind.position body
  let v := afterReply s x u
  have hkind : kindOf u ≠ Kind.ready := by
    rw [kindOf_arrived _ (by decide)]
    decide
  have hreported : reportedPosition u.body = pos.toNat := reportedPosition_body pos moving status
  have hv : v = joined x.position (taken s x) :=
    afterReply_joined hx hj hkind hplausible hprogress href (by rw [hreported]; exact hnear)
  obtain ⟨hactive, hcounted⟩ := joined_active hp (taken s x)
  rw [← hv] at hactive hcounted
  have ke : Touches roundAspects (handlePosition x.position body v) _ :=
    roundOn_coreCopy_touches (entryFor v .field u) u _
  refine ⟨_, exec_position_passed hx hs hactive, ?_, ?_⟩
  · rw [ke.station_kept, (handlePosition_records hp).1]
    exact hactive
  · have kt : Touches takenAspects s (taken s x) := taken_touches s x
    have kv : Touches positionAspects (taken s x) v := hv ▸ joined_touches _ _
    have kh : Touches (.places :: positionAspects) v (handlePosition x.position body v) := handlePosition_touches _ _ _
    exact (hcounted.after kt).before (kt.trans kv) (kh.trans ke)
end

section
/-!
SUPPORT. The step of the queue, the state that a power-on reset leaves (R184), and the commands that bring a change of the
mode (R175).
-/

set_option Elab.async false
namespace Sys2Proof.Machine

open Sys2Proof

/-! ## The step -/

theorem step_cons (c : Instr) (rest : List Instr) (s : State) :
    step { s with pending := c :: rest } = exec c { s with pending := rest } := rfl

theorem step_idle {s : State} (h : s.pending = []) : step s = .next s := by
  unfold step
  rw [h]

/-! ## More records at reset -/

@[simp] theorem configured_reset (n : Nat) : configured State.reset n = false := by
  have h : ovenConfig State.reset n = none := readNum_replicate _ _
  unfold configured
  rw [h]
  rfl

@[simp] theorem alignment_reset (p : Nat) : alignment State.reset p = {} := readAt_replicate _ _
@[simp] theorem isDirty_reset (i : Nat) : isDirty State.reset i = false := readNum_replicate _ _
@[simp] theorem station_reset (p : Nat) : station State.reset p = {} := readAt_replicate _ _
@[simp] theorem outbound_reset (p : Nat) : outbound State.reset p = {} := readAt_replicate _ _

/-- Every event is enabled (R180). -/
theorem enabled_reset {i : Nat} (h : i < 24) : readAt State.reset.mgt.enabled i false = true := by
  have hi : (Vector.replicate 24 true)[i]? = some true := by simp [h]
  exact congrArg (·.getD false) hi

/-! ## The mode (R175) -/

/-- What is no reply and no MGMT row on the control port arrives there by its telegram's own bytes (log 42). -/
theorem exec_control {c : Instr} {u : Telegram} (h : controlTelegram c = some u) (s : State) :
    exec c s = .next (controlArrival u s) := by
  cases c
  case controlMove | controlHalt | controlTask | broadcastHalt | broadcastOtherKind | unknownStationTelegram
    | controlOtherKind | ownAddressNonMgmt => cases h; rfl
  all_goals exact nomatch h

/-- Of the commands that carry no telegram of the control port only the four of R175, and the row that carries a whole
body, write the mode. -/
theorem mode_not_mem_footprint {c : Instr} (hu : controlTelegram c = none) (hp : ∀ straps, c ≠ .powerOnReset straps)
    (hs : c ≠ .enterService) (hm : c ≠ .enterMaintenance) (hr : c ≠ .restart)
    (hb : ∀ body, c ≠ .mgmtUnknownRequest body) : Aspect.mode ∉ footprint c := by
  cases c
  case powerOnReset straps => exact absurd rfl (hp straps)
  case enterService => exact absurd rfl hs
  case enterMaintenance => exact absurd rfl hm
  case restart => exact absurd rfl hr
  case mgmtUnknownRequest body => exact absurd rfl (hb body)
  case controlMove | controlHalt | controlTask | broadcastHalt | broadcastOtherKind | unknownStationTelegram
    | controlOtherKind | ownAddressNonMgmt => exact nomatch hu
  case foreignReply u => exact not_mem_replyAspects _ rfl _
  case fieldOtherKind u => exact not_mem_replyAspects _ rfl _
  case gapWindowExpiry port => cases port <;> exact not_mem_of_contains rfl
  case framingDiscard port line => cases port <;> exact not_mem_of_contains rfl
  case preambleStartsAssembly port => cases port <;> exact not_mem_of_contains rfl
  all_goals exact not_mem_of_contains rfl

/-- A telegram on the control port that changes the mode is a MGMT to the part itself, whose body changes it: a discard
writes the receiver alone, and the classifier no mode. -/
theorem controlArrival_mode {u : Telegram} {s : State} (h : (controlArrival u s).mgt.mode ≠ s.mgt.mode) :
    (kindOf u = Kind.mgmt ∧ u.dest.toNat = s.mgt.address) ∧ (mgmtBody u.body s).mgt.mode ≠ s.mgt.mode := by
  unfold controlArrival at h
  split at h
  · exact absurd (controlDiscard_touches (restartsHunt u) s).mode_kept h
  · split at h
    · next hm => exact ⟨hm, h⟩
    · have hc : (classifyControl u (controlAccepted s)).mgt.mode = (controlAccepted s).mgt.mode :=
        (classifyControl_touches u _).mode_kept
      exact absurd (hc.trans (controlAccepted_touches s).mode_kept) h

/-- A MGMT to the part itself brings its body, whatever the row that carries its telegram (log 42). -/
theorem mgmtBodyOf_control {c : Instr} {u : Telegram} {s : State} (hu : controlTelegram c = some u)
    (hm : kindOf u = Kind.mgmt ∧ u.dest.toNat = s.mgt.address) : mgmtBodyOf s c = some u.body := by
  unfold mgmtBodyOf
  split
  · exact nomatch hu
  · rw [hu]
    exact if_pos hm

/-- A body that changes the mode, brought by a command, spells one of the three requests. -/
theorem mode_spelled {c : Instr} {s : State} {body : List Byte} (hc : mgmtBodyOf s c = some body)
    (h : (mgmtBody body s).mgt.mode ≠ s.mgt.mode) :
    ∃ code, code ∈ modeCodes ∧ mgmtBodyOf s c = some [BitVec.ofNat 8 code] := by
  obtain ⟨code, hcode, rfl⟩ := mgmtBody_mode h
  exact ⟨code, hcode, hc⟩

end Sys2Proof.Machine

open Sys2Proof Sys2Proof.Machine

/-- Settles O12: no footprint names the law of the counts, which does not read the queue of commands. -/
theorem summaryCountsStayBytes : Obligations.SummaryCountsStayBytes := fun _ _ h hs =>
  step_keeps .countLaw (fun _ _ => Iff.rfl) (by decide) (fun _ _ => id) h hs

/-- Settles O17: a telegram of the control port changes the mode by its body alone (`controlArrival_mode`), which then spells
one of the three requests (`mgmtBody_mode`); of the other commands the footprints decide. -/
theorem modeChangesOnlyByItsCommands : Obligations.ModeChangesOnlyByItsCommands := by
  intro c s t h hmode
  cases hu : controlTelegram c with
  | some u =>
    obtain rfl := Host.Outcome.next.inj ((exec_control hu s).symm.trans h)
    obtain ⟨hm, hbody⟩ := controlArrival_mode hmode
    exact .inr (.inr (.inr (.inr (mode_spelled (mgmtBodyOf_control hu hm) hbody))))
  | none =>
    refine Classical.byContradiction fun hn => ?_
    simp only [not_or, not_exists] at hn
    obtain ⟨hs, hm, hr, hp, hb⟩ := hn
    refine hmode ((exec_touches h).mode_kept (mode_not_mem_footprint hu hp hs hm hr ?_))
    rintro body rfl
    obtain rfl := Host.Outcome.next.inj h
    obtain ⟨code, hcode⟩ := mode_spelled (c := .mgmtUnknownRequest body) rfl hmode
    exact hb code hcode

/-- Settles O1: the front command is run with the rest of the queue, and an empty queue changes nothing. -/
theorem stepRunsTheFrontCommand : Obligations.StepRunsTheFrontCommand := ⟨step_cons, fun _ => step_idle⟩

/-- Settles O3: but for its address, queue and count of free values the state is `State.reset`, whose tables hold their
power-on values at every index. -/
theorem powerOnResetLeavesThePowerOnValues : Obligations.PowerOnResetLeavesThePowerOnValues := by
  intro straps s
  refine ⟨powerOn straps s, rfl, rfl, ?_⟩
  -- The management unit, then a line a block in the order of the statement, and last the reset state's own reset.
  exact ⟨rfl, rfl, rfl, countAt_reset, fun _ => enabled_reset,
    rfl, rfl, configured_reset, rfl, ovenRec_reset, alignment_reset,
    rfl,
    rfl, rfl, rfl, rfl, rfl,
    rfl, rfl, rfl, rfl, rfl, carRec_reset,
    rfl, rfl, rfl, rfl, doorRec_reset,
    rfl, rfl, regRec_reset, isDirty_reset,
    rfl, rfl,
    rfl, rfl, rfl, rfl,
    rfl, rfl,
    rfl, rfl, rfl, rfl, fun p => ⟨congrArg StationRecord.state (station_reset p), outbound_reset p⟩,
    rfl⟩
end
